-- ==== Sys2Proof/Syntax/Fields.lean ====
section
/-! DEFINITION. The fields of an instruction word: streams, predicates, types, roundings, operands (R15, R16, R21, R26 to
R32, R44, R66, R257). -/
namespace Sys2Proof

/-- The five streams of a job, in stream-index order (R86). -/
inductive Stream where
  | sq | ax | mx | vx | sx
  deriving DecidableEq, Repr

/-- Stream index, 0 to 4. -/
def Stream.idx : Stream → Nat
  | .sq => 0 | .ax => 1 | .mx => 2 | .vx => 3 | .sx => 4

/-- The stream of an index. -/
def Stream.ofIdx : Nat → Option Stream
  | 0 => some .sq | 1 => some .ax | 2 => some .mx | 3 => some .vx | 4 => some .sx | _ => none

def Stream.all : List Stream := [.sq, .ax, .mx, .vx, .sx]

/-- The predicate of a word: PN and PSEL (R15). -/
structure Pred where
  neg : Bool
  sel : BitVec 3
  deriving DecidableEq, Repr

/-- TYPE of format V (R26). -/
inductive Ty where
  | bf16 | f16 | f32 | i8 | i16 | i32 | n8 | n16 | n32 | res8 | res16
  deriving DecidableEq, Repr

def Ty.code : Ty → BitVec 4
  | .bf16 => 0 | .f16 => 1 | .f32 => 2 | .i8 => 3 | .i16 => 4 | .i32 => 5
  | .n8 => 6 | .n16 => 7 | .n32 => 8 | .res8 => 9 | .res16 => 10

def Ty.ofCode (c : BitVec 4) : Option Ty :=
  match c.toNat with
  | 0 => some .bf16 | 1 => some .f16 | 2 => some .f32 | 3 => some .i8 | 4 => some .i16 | 5 => some .i32
  | 6 => some .n8 | 7 => some .n16 | 8 => some .n32 | 9 => some .res8 | 10 => some .res16 | _ => none

/-- Element width in bits (R172). -/
def Ty.width : Ty → Nat
  | .bf16 | .f16 | .i16 | .n16 | .res16 => 16
  | .f32 | .i32 | .n32 => 32
  | .i8 | .n8 | .res8 => 8

def Ty.isFloat : Ty → Bool
  | .bf16 | .f16 | .f32 => true
  | _ => false

def Ty.isRes : Ty → Bool
  | .res8 | .res16 => true
  | _ => false

def Ty.isInt (t : Ty) : Bool := !t.isFloat && !t.isRes

/-- Two's complement integer types (R103). -/
def Ty.signed : Ty → Bool
  | .i8 | .i16 | .i32 => true
  | _ => false

/-- RND of format V (R26, R106). -/
inductive Rnd where
  | rne | rtz | rdn | rup
  deriving DecidableEq, Repr

def Rnd.code : Rnd → BitVec 2
  | .rne => 0 | .rtz => 1 | .rdn => 2 | .rup => 3

def Rnd.ofCode (c : BitVec 2) : Rnd :=
  match c.toNat with
  | 0 => .rne | 1 => .rtz | 2 => .rdn | _ => .rup

/-- DIR of a plane operand (R28). -/
inductive Dir where
  | whole | row | col | diag
  deriving DecidableEq, Repr

def Dir.code : Dir → BitVec 2
  | .whole => 0 | .row => 1 | .col => 2 | .diag => 3

def Dir.ofCode (c : BitVec 2) : Dir :=
  match c.toNat with
  | 0 => .whole | 1 => .row | 2 => .col | _ => .diag

/-- A 15-bit operand of format V (R28). -/
inductive Opnd where
  | plane (dir : Dir) (n : BitVec 5) (ix : BitVec 6)
  | port (g : BitVec 3)
  | slot (h : BitVec 4) (off : BitVec 9)
  | scalar (s : BitVec 5)
  | pool (e : BitVec 8)
  deriving DecidableEq, Repr

def Opnd.isPlane : Opnd → Bool
  | .plane _ _ _ => true
  | _ => false

/-- A KIND 11 operand: scalar or pool entry. -/
def Opnd.isConst : Opnd → Bool
  | .scalar _ => true
  | .pool _ => true
  | _ => false

/-- The suffixes a format-V word carries: TYPE, RND, SAT, WIN and the lane mask of MOD[11:8] (R26, R27, R30). -/
structure Sfx where
  ty : Ty
  rnd : Rnd
  sat : Bool
  win : Bool
  km : Option (BitVec 3)
  deriving DecidableEq, Repr

/-- A vector word with one source. -/
structure V1 where
  d : Opnd
  a : Opnd
  x : Sfx
  deriving DecidableEq, Repr

/-- A vector word with two sources. -/
structure V2 where
  d : Opnd
  a : Opnd
  b : Opnd
  x : Sfx
  deriving DecidableEq, Repr

/-- A vector word with three sources. -/
structure V3 where
  d : Opnd
  a : Opnd
  b : Opnd
  c : Opnd
  x : Sfx
  deriving DecidableEq, Repr

/-- The conditions of CMP, CMPI, WAITMEM (R44); VCMP takes the first six (R180). -/
inductive Cond where
  | eq | ne | lt | le | gt | ge | ltn | len | gtn | gen
  deriving DecidableEq, Repr

def Cond.code : Cond → BitVec 4
  | .eq => 0 | .ne => 1 | .lt => 2 | .le => 3 | .gt => 4 | .ge => 5 | .ltn => 6 | .len => 7 | .gtn => 8 | .gen => 9

def Cond.ofCode (c : BitVec 4) : Option Cond :=
  match c.toNat with
  | 0 => some .eq | 1 => some .ne | 2 => some .lt | 3 => some .le | 4 => some .gt | 5 => some .ge
  | 6 => some .ltn | 7 => some .len | 8 => some .gtn | 9 => some .gen | _ => none

/-- The conditions that compare the operands as two's complement (R74, R258). -/
def Cond.signed : Cond → Bool
  | .lt | .le | .gt | .ge => true
  | _ => false

/-- The widths of SEXT and ZEXT (R44). -/
inductive ExtW where
  | w8 | w16 | w32
  deriving DecidableEq, Repr

def ExtW.code : ExtW → BitVec 6
  | .w8 => 0 | .w16 => 1 | .w32 => 2

def ExtW.ofCode (c : BitVec 6) : Option ExtW :=
  match c.toNat with
  | 0 => some .w8 | 1 => some .w16 | 2 => some .w32 | _ => none

def ExtW.bits : ExtW → Nat
  | .w8 => 8 | .w16 => 16 | .w32 => 32

/-- The engines an ISSUE may name (R31). -/
inductive Eng where
  | ax | mx | vx | sx
  deriving DecidableEq, Repr

def Eng.code : Eng → BitVec 8
  | .ax => 1 | .mx => 2 | .vx => 3 | .sx => 4

def Eng.ofCode (c : BitVec 8) : Option Eng :=
  match c.toNat with
  | 1 => some .ax | 2 => some .mx | 3 => some .vx | 4 => some .sx | _ => none

def Eng.stream : Eng → Stream
  | .ax => .ax | .mx => .mx | .vx => .vx | .sx => .sx

/-- The kinds of matrix mask that BSEL may name (R84). -/
inductive MaskKind where
  | pm | pn | pk
  deriving DecidableEq, Repr

def MaskKind.code : MaskKind → BitVec 2
  | .pm => 0 | .pn => 1 | .pk => 2

/-- The scope of FENCE (R257). -/
inductive Scope where
  | core | cluster | die | device | gang
  deriving DecidableEq, Repr

def Scope.code : Scope → BitVec 6
  | .core => 0 | .cluster => 1 | .die => 2 | .device => 3 | .gang => 4

def Scope.ofCode (c : BitVec 6) : Option Scope :=
  match c.toNat with
  | 0 => some .core | 1 => some .cluster | 2 => some .die | 3 => some .device | 4 => some .gang | _ => none

/-- The function of GROUPRD (R286). -/
inductive GrpFn where
  | rank | size | left | right | start | count | node | self | gid
  deriving DecidableEq, Repr

def GrpFn.code : GrpFn → BitVec 6
  | .rank => 0 | .size => 1 | .left => 2 | .right => 3 | .start => 4 | .count => 5 | .node => 6 | .self => 7 | .gid => 8

def GrpFn.ofCode (c : BitVec 6) : Option GrpFn :=
  match c.toNat with
  | 0 => some .rank | 1 => some .size | 2 => some .left | 3 => some .right | 4 => some .start
  | 5 => some .count | 6 => some .node | 7 => some .self | 8 => some .gid | _ => none

/-- The 64-bit operand V of the access-engine words of format C: an immediate, or a register named by PREG (R122). -/
inductive VSrc where
  | imm (v : W64)
  | reg (r : BitVec 6)
  deriving DecidableEq, Repr

/-- The iteration count of LOOP (R32). -/
inductive LoopCnt where
  | imm (n : BitVec 15)
  | z (r : BitVec 3)
  deriving DecidableEq, Repr

/-- The reduction operation of VREDR and VREDC (R187). -/
inductive RedOp where
  | add | max | min
  deriving DecidableEq, Repr

def RedOp.code : RedOp → BitVec 2
  | .add => 0 | .max => 1 | .min => 2

def RedOp.ofCode (c : BitVec 2) : Option RedOp :=
  match c.toNat with
  | 0 => some .add | 1 => some .max | 2 => some .min | _ => none

/-- The curve of VSFCK (R193). -/
inductive Curve where
  | morton | hilbert
  deriving DecidableEq, Repr

/-- What MSTAT reads (R151). -/
inductive StatSel where
  | st | kc | md
  deriving DecidableEq, Repr

/-- What OTDEPTH reads (R208). -/
inductive DepthSel where
  | recs | ent | spl
  deriving DecidableEq, Repr

/-- The operations of the atomic engines (R273). -/
inductive AmoOp where
  | add | min | max | minn | maxn | and | or | xor | swap | cas
  deriving DecidableEq, Repr

/-- The fields common to every AMO: width 64 or 32 bits, acquire, release, offset (R273). -/
structure AmoX where
  w64 : Bool
  acq : Bool
  rel : Bool
  off : BitVec 48
  deriving DecidableEq, Repr

end Sys2Proof
end

