-- ==== Sys2Proof/Syntax/Events.lean ====
section
/-! DEFINITION. What the machine's events carry: requests at the stacks and the atomic engines, timed sends, Synric
packets, host commands. Plain data, so that the agenda of pending events is part of the state. -/
namespace Sys2Proof

/-- The place of a word: its stream, its section's header address, its offset in the section (R352). -/
structure WordRef where
  st : Stream
  hdr : W64
  idx : Nat
  deriving DecidableEq, Repr

/-- A fault record, FAULT0 to FAULT3 with FAULT0's fields apart (R352). -/
structure FaultRec where
  code : Byte
  cause : Byte
  word : WordRef
  fetch : Bool
  hdrF : Bool
  op : Bool
  peer : Bool
  multi : Bool
  defer : Bool
  f2 : W64
  f3 : W64
  deriving DecidableEq, Repr

/-- The owners of service slots under a call sheet (R239). -/
inductive Owner where
  | core (n : Nat)
  | copyEng (n : Nat)
  | reducer
  | keyUnit
  | port (n : Nat)
  | grip
  | refresh
  deriving DecidableEq, Repr

/-- The kinds of access of R245: plain read, plain write, atomic read, atomic write. -/
inductive Acc where
  | read | write | aread | awrite
  deriving DecidableEq, Repr

/-- The permission an access needs of a leaf (R229). -/
inductive Perm where
  | r | w | x
  deriving DecidableEq, Repr

/-- Who waits for the service of a write-through: the core for an AMO, and who receives the acknowledgement of a semaphore post (R274, R275). -/
inductive AckTo where
  | post (va : Nat)
  | amo (va size : Nat)
  | copy (id : Nat)
  | grip (q pk : Nat)
  | reel (graph sem : Nat)
  | peer (core va : Nat)
  | none
  deriving DecidableEq, Repr

/-- Who asks an atomic engine (R272, R402): this core's sequencer, a copy of this core, the Grip for a packet or for a post of a reel, a
Synric port, or the sequencer or the copy engine of another core. -/
inductive AtomSrc where
  | core
  | copy (id : Nat)
  | grip (q pk : Nat)
  | reel (graph sem : Nat)
  | synric (port : Nat)
  | peer (core : Nat) (eng : Bool)
  deriving DecidableEq, Repr

/-- What a request at a stack is for, and so what follows its service. A copy's write with number 0 is one of a copy that has stopped; a
write-through bears the source and the held set of an atomic that the stack tests; `unit` is a line of a unit's access; `peer` is a
request of another core. -/
inductive ReqKind where
  | ld (reg : BitVec 5) (width : BitVec 2) (sign : Bool)
  | st
  | fetch
  | copyRd (id : Nat) (pos : List Nat)
  | copyWr (id : Nat) (parts : List (Nat × List Byte))
  | atomFill (eng id : Nat)
  | atomWt (eng : Nat) (seqNo : Nat) (ack : AckTo) (test : Option (AtomSrc × List Nat))
  | otWr (spill : Nat) (last : Bool)
  | otTrailer (fill : Nat)
  | otRd (fill : Nat) (line : Nat)
  | devWr
  | sbRd
  | sbWr
  | walk (st : Stream) (va : Nat) (acc : Perm)
  | desc (st : Stream)
  | late
  | unit (op : Nat)
  | peer (held : List Nat)
  deriving DecidableEq, Repr

/-- A request of at most one line at a stack controller (R240). -/
structure DevReq where
  owner : Owner
  party : Nat
  phase : Nat
  acc : Acc
  kind : ReqKind
  pa : Nat
  va : Nat
  len : Nat
  data : List Byte
  word : WordRef
  sec : Nat
  deriving DecidableEq, Repr

/-- A device-memory read on its way back to the core (R235). -/
structure LoadRet where
  reg : BitVec 5
  val : W64
  iss : Nat
  deriving DecidableEq, Repr

/-- What is asked of an atomic engine (R258, R273, R275). -/
inductive AtomKind where
  | amo (op : AmoOp)
  | semwait
  | sempost
  | waitmem (cc : Cond)
  deriving DecidableEq, Repr

/-- A request at an atomic engine. -/
structure AtomReq where
  src : AtomSrc
  kind : AtomKind
  va : Nat
  pa : Nat
  size : Nat
  b : W64
  c : W64
  reg : BitVec 5
  acq : Bool
  rel : Bool
  party : Nat
  phase : Nat
  held : List Nat
  word : WordRef
  iss : Nat
  deriving DecidableEq, Repr

/-- The answer of an atomic engine on its way back (R274). -/
structure AtomRet where
  src : AtomSrc
  reg : Option (BitVec 5)
  val : W64
  acq : List Nat
  hold : Bool
  iss : Nat
  fault : Option FaultRec
  deriving DecidableEq, Repr

/-- A timed send in flight (R63, R136). -/
structure SendMsg where
  srcCore : Nat
  dstCore : Nat
  jobId : Nat
  handle : BitVec 4
  slot : BitVec 9
  bytes : List Byte
  arr : Nat
  trav : Nat
  word : WordRef
  held : List Nat
  phase : Nat
  deriving DecidableEq, Repr

/-- A reduce packet, as one transfer's elements; `kind` is its byte of DT and RED (R383, R384). -/
structure RedPkt where
  gid : Nat
  seqNo : Nat
  chunk : Nat
  step : Nat
  sender : Nat
  comb : Bool
  kind : Nat
  off : Nat
  data : List W32
  deriving DecidableEq, Repr

/-- A Synric packet's header flit and data flits (R383). -/
structure SynPkt where
  ty : Byte
  ctl : Byte
  src : W16
  dst : W16
  nflit : W16
  gid : W64
  body : List Byte
  data : List Byte
  deriving DecidableEq, Repr

/-- What one rank contributes to a REPART pass: its counts towards every rank, its free room, its retained capacity, and what it
sends here of its elements (R310, R311). -/
structure RankCounts where
  rank : Nat
  counts : List Nat
  room : Nat
  retCap : Nat
  elems : List Byte
  deriving DecidableEq, Repr

/-- What a management packet carries (R350, R382). -/
inductive MgmtBody where
  | cuts (rank : Nat) (slate : W64) (holds : Bool) (cuts : List Nat)
  | decision (cut : Option Nat)
  | withdraw (gid : Nat)
  deriving DecidableEq, Repr

/-- What bring-up finds outside the device: the firmware image and its signature, the images measured, the link classes
of the ports, whether HBM and the die link trained (R385, R387, R389, R393). -/
structure BootIn where
  image : List Byte
  sig : List Byte
  svn : Nat
  rom : List Byte
  translator : List Byte
  tsvn : Nat
  classes : List (Option Nat)
  node : W16
  deriving DecidableEq, Repr

/-- Where an uncorrectable error stands: a byte of device memory by its physical address, a byte of this core's scratchpad, an operand
slot, an accumulator tile, a byte of local data memory, a lane of a plane, a statistics row, the outtake record of a depth, a scalar
register; or the result of a stream in a delay line, by the job cycles of its landing and of its issue (R365). -/
inductive BadAt where
  | dev (pa : Nat)
  | spad (a : Nat)
  | oslot (o : Nat)
  | tile (t : Nat)
  | ldm (a : Nat)
  | lane (p l : Nat)
  | stat (r : Nat)
  | record (depth : Nat)
  | sreg (r : Nat)
  | line (land iss st : Nat)
  deriving DecidableEq, Repr

/-- An entry of the agenda: an event that comes on a device cycle, or an input that the world outside the model puts there, with
what it acts on. The instruction of the same name takes it. -/
inductive Ev where
  -- the core
  | streamCacheFill (line : Nat)
  | translationWalk (st : Stream) (va : Nat) (acc : Perm)
  | loadReturn (r : LoadRet)
  | descReturn (st : Stream) (va len : Nat) (data : List Byte) (fault : Option FaultRec)
  | deferredFaultReport (f : FaultRec)
  | sendtArrival (m : SendMsg)
  | copyDataReturn (id : Nat) (elems : List (Nat × W32 × BitVec 4 × W32))
  | copyWritten (id : Nat) (tile : List (Nat × W48)) (ncr qx : Bool)
  | copyDone (id : Nat)
  | extEntry (core id lo hi : Nat) (wr enter : Bool)
  | copyError (id code cause : Nat) (f2 f3 : W64)
  | remoteRoom (core : Nat) (room : Bool)
  | extAccess (core id : Nat) (wr : Bool) (els : List (Nat × W32 × BitVec 4 × W32)) (w party phase : Nat) (held : List Nat)
  | copyPostAck (id : Nat)
  | followOnJoin (id : Nat)
  | fillTrailerCheck (id : Nat)
  | fillComplete (id : Nat)
  -- the stacks and the atomic engines
  | stackSlotService (r : DevReq)
  | atomicFillReturn (eng id : Nat) (data : List Byte)
  | plainWriteNotice (eng line : Nat)
  | watchEvaluation (eng line : Nat)
  | atomicReturn (r : AtomRet)
  | sempostAck (dest : AckTo)
  | atomAsk (r : AtomReq)
  -- domains, collectives and repartition
  | phaseChangeComplete (lvl inst : Nat)
  | domMember (core task lvl inst : Nat) (join : Bool)
  | domArrive (core task lvl inst : Nat) (held : List Nat)
  | groupOp (gid core kind : Nat) (enter : Bool)
  | memberRecord (gid seqNo : Nat) (key : List Nat)
  | wrremSource (id : Nat)
  | reductionIntervalClose (gid seqNo : Nat)
  | collectiveComplete (gid seqNo : Nat)
  | collectiveAbort (gid seqNo : Nat) (cause : Byte)
  | keyRound (gid seqNo : Nat)
  | histogramReduction (gid seqNo : Nat) (others : List (Nat × List (Nat × Nat)))
  | elementMove (gid seqNo : Nat) (others : List RankCounts)
  | repartComplete (gid seqNo : Nat)
  | repartAbort (gid seqNo : Nat) (cause : Byte)
  -- jobs and the Grip
  | jobEnd (core : Nat) (fault : Bool) (guards : List (Bool × W64)) (held : List Nat)
  | jobFrozen (core : Nat) (f : FaultRec)
  | checkArrive (task jidx : Nat) (bad : Option Bool)
  | graphCopyEnd (graph task : Nat) (status : W64)
  | copyQueue (core : Nat) (full : Bool)
  | preemptionRequest (core : Nat)
  | safePointSave (core : Nat)
  | gangDecision
  | cutMake (slate : W64) (cut : Nat)
  | reelReady (graph : Nat)
  | reelStored (slate : W64)
  | gripRead (q : Nat)
  | checkpointRead (q pk handle base va len : Nat)
  | slotLoadComplete (slot q pk : Nat)
  | slotTranslated (slot q pk : Nat)
  | slotWritten (slot q pk : Nat)
  | packetComplete (q pk : Nat)
  -- host commands
  | doorbellWrite (q : Nat) (tail : Nat)
  | queueDescriptorWrite (q : Nat) (d0 d1 : W64) (ctx root : Nat)
  | queueStopClear (q : Nat)
  | handleTableWrite (i : Nat) (e : BitVec 256) (revoke : Bool)
  | pageInvalidation (root va : Nat)
  | dealRequest (deal : W32)
  | jobEndOrder (core : Nat)
  | jobResumeOrder (core : Nat)
  | loadReportRead (slot : Nat)
  | svnCommit
  | nodeIdentityAssign (node : W16)
  | spdmRequest (nonce : List Byte)
  | hostCxlAccess (write : Bool) (pa : Nat) (data : List Byte)
  | hostServed (write : Bool) (pa len : Nat)
  -- Synric and the platform
  | writePacketArrival (k : SynPkt) (id : Nat) (first : Bool) (doff len : Nat)
  | writeServed (k : SynPkt)
  | signalPacketArrival (k : SynPkt)
  | reducePacketArrival (k : SynPkt) (r : RedPkt)
  | barrierPacketArrival (k : SynPkt)
  | managementPacketArrival (k : SynPkt) (m : MgmtBody)
  | ackPacketArrival (k : SynPkt) (id : Nat) (ok : Bool)
  | flitRetransmit (port : Nat)
  | portRetrain (port : Nat) (ok : Bool)
  | selfTestStart (unit : Nat) (bad : List BadAt)
  | selfTestComplete (unit : Nat) (pass : Bool)
  | matrixBudgetUpdate (b : Nat)
  | thermalThrottle (deci : Nat)
  | thermalTrip
  | deviceReset (b : BootIn)
  deriving DecidableEq, Repr

end Sys2Proof
end

