-- ==== Sys2Proof/Syntax.lean ====
section
/-! DEFINITION. The one inductive Instr: a constructor for every row of spec/opcode_table.json, in the table's order.
Rows 0 to 210 but for row 175 are words, whose first argument is the predicate of the common head (R15); the other rows
are the machine's events: what one acts on stands in the state, and for a timed event or an input in its agenda entry. -/
namespace Sys2Proof

/-- The instructions and events of the Bruvex B9. -/
inductive Instr where
  -- sequencer scalar group (R43, R70 to R76)
  | add (p : Pred) (d : BitVec 5) (a b : BitVec 6)
  | sub (p : Pred) (d : BitVec 5) (a b : BitVec 6)
  | addi (p : Pred) (d : BitVec 5) (a : BitVec 6) (imm : BitVec 56)
  | lea (p : Pred) (d : BitVec 5) (a b : BitVec 6) (sh : BitVec 6) (imm : BitVec 56)
  | mul (p : Pred) (d : BitVec 5) (a b : BitVec 6)
  | mulh (p : Pred) (d : BitVec 5) (a b : BitVec 6)
  | mulhn (p : Pred) (d : BitVec 5) (a b : BitVec 6)
  | div (p : Pred) (d : BitVec 5) (a b : BitVec 6)
  | divn (p : Pred) (d : BitVec 5) (a b : BitVec 6)
  | rem (p : Pred) (d : BitVec 5) (a b : BitVec 6)
  | remn (p : Pred) (d : BitVec 5) (a b : BitVec 6)
  | and (p : Pred) (d : BitVec 5) (a b : BitVec 6)
  | or (p : Pred) (d : BitVec 5) (a b : BitVec 6)
  | xor (p : Pred) (d : BitVec 5) (a b : BitVec 6)
  | andn (p : Pred) (d : BitVec 5) (a b : BitVec 6)
  | andi (p : Pred) (d : BitVec 5) (a : BitVec 6) (imm : BitVec 56)
  | ori (p : Pred) (d : BitVec 5) (a : BitVec 6) (imm : BitVec 56)
  | xori (p : Pred) (d : BitVec 5) (a : BitVec 6) (imm : BitVec 56)
  | shl (p : Pred) (d : BitVec 5) (a b : BitVec 6)
  | shr (p : Pred) (d : BitVec 5) (a b : BitVec 6)
  | shra (p : Pred) (d : BitVec 5) (a b : BitVec 6)
  | rotl (p : Pred) (d : BitVec 5) (a b : BitVec 6)
  | min (p : Pred) (d : BitVec 5) (a b : BitVec 6)
  | max (p : Pred) (d : BitVec 5) (a b : BitVec 6)
  | minn (p : Pred) (d : BitVec 5) (a b : BitVec 6)
  | maxn (p : Pred) (d : BitVec 5) (a b : BitVec 6)
  | clz (p : Pred) (d : BitVec 5) (a : BitVec 6)
  | ffs (p : Pred) (d : BitVec 5) (a : BitVec 6)
  | popc (p : Pred) (d : BitVec 5) (a : BitVec 6)
  | brev (p : Pred) (d : BitVec 5) (a : BitVec 6)
  | sext (p : Pred) (d : BitVec 5) (a : BitVec 6) (w : ExtW)
  | zext (p : Pred) (d : BitVec 5) (a : BitVec 6) (w : ExtW)
  | sel (p : Pred) (d : BitVec 5) (a b : BitVec 6) (neg : Bool) (f : BitVec 3)
  | ldi (p : Pred) (d : BitVec 5) (imm : W64)
  | cmp (p : Pred) (fd : BitVec 3) (a b : BitVec 6) (cc : Cond)
  | cmpi (p : Pred) (fd : BitVec 3) (a : BitVec 6) (imm : BitVec 56) (cc : Cond)
  | pand (p : Pred) (fd fa fb : BitVec 3)
  | por (p : Pred) (fd fa fb : BitVec 3)
  | pxor (p : Pred) (fd fa fb : BitVec 3)
  | pnot (p : Pred) (fd fa : BitVec 3)
  | ftest (p : Pred) (fd : BitVec 3) (w : BitVec 2)
  | fcount (p : Pred) (d : BitVec 5) (w : BitVec 2)
  -- sequencer control, memory and system group (R45)
  | prep (p : Pred) (bt : BitVec 3) (off : BitVec 40)
  | prepr (p : Pred) (bt : BitVec 3) (src : BitVec 6)
  | br (p : Pred) (bt : BitVec 3)
  | brl (p : Pred) (bt lb : BitVec 3)
  | binv (p : Pred) (bt : BitVec 3)
  | bsel (p : Pred) (bt : BitVec 3) (a b : BitVec 6) (mask : Option (MaskKind × BitVec 2)) (d : BitVec 5)
  | nop (p : Pred)
  | ifence (p : Pred) (a b : BitVec 6)
  | ld (p : Pred) (d : BitVec 5) (a : BitVec 6) (width : BitVec 2) (sign : Bool) (imm : BitVec 56)
  | st (p : Pred) (a b : BitVec 6) (width : BitVec 2) (imm : BitVec 56)
  | ldl (p : Pred) (d : BitVec 5) (a : BitVec 6) (width : BitVec 2) (sign : Bool) (imm : BitVec 56)
  | stl (p : Pred) (a b : BitVec 6) (width : BitVec 2) (imm : BitVec 56)
  | amoAdd (p : Pred) (d : BitVec 5) (a b : BitVec 6) (x : AmoX)
  | amoMin (p : Pred) (d : BitVec 5) (a b : BitVec 6) (x : AmoX)
  | amoMax (p : Pred) (d : BitVec 5) (a b : BitVec 6) (x : AmoX)
  | amoMinn (p : Pred) (d : BitVec 5) (a b : BitVec 6) (x : AmoX)
  | amoMaxn (p : Pred) (d : BitVec 5) (a b : BitVec 6) (x : AmoX)
  | amoAnd (p : Pred) (d : BitVec 5) (a b : BitVec 6) (x : AmoX)
  | amoOr (p : Pred) (d : BitVec 5) (a b : BitVec 6) (x : AmoX)
  | amoXor (p : Pred) (d : BitVec 5) (a b : BitVec 6) (x : AmoX)
  | amoSwap (p : Pred) (d : BitVec 5) (a b : BitVec 6) (x : AmoX)
  | amoCas (p : Pred) (d : BitVec 5) (a b c : BitVec 6) (x : AmoX)
  | fence (p : Pred) (sc : Scope)
  | waitmem (p : Pred) (d : BitVec 5) (a b : BitVec 6) (width : BitVec 2) (cc : Cond) (imm : BitVec 56)
  | semwait (p : Pred) (d : BitVec 5) (a b : BitVec 6) (imm : BitVec 56)
  | sempost (p : Pred) (a b : BitVec 6) (imm : BitVec 56)
  | barw (p : Pred) (d : BitVec 5) (a : BitVec 6) (lvl : BitVec 3)
  | issue (p : Pred) (e : Eng) (preg : BitVec 6) (off : BitVec 40)
  | issueReg (p : Pred) (e : Eng) (preg areg : BitVec 6)
  | rdv (p : Pred)
  | jobend (p : Pred)
  | tbind (p : Pred) (n : BitVec 4) (preg : BitVec 6)
  | tfree (p : Pred) (n : BitVec 4)
  | trap (p : Pred) (code : BitVec 16)
  | guard (p : Pred) (a : BitVec 6)
  | guardHealth (p : Pred)
  | caprd (p : Pred) (d : BitVec 5) (a : BitVec 6) (imm : BitVec 56)
  | csrrd (p : Pred) (d : BitVec 5) (num : BitVec 12)
  | csrwr (p : Pred) (num : BitVec 12) (a : BitVec 6)
  | domWrite (p : Pred) (a : BitVec 6)
  | otbaseWrite (p : Pred) (a : BitVec 6)
  | othiWrite (p : Pred) (a : BitVec 6)
  | otloWrite (p : Pred) (a : BitVec 6)
  | stepWrite (p : Pred) (n : BitVec 3) (a : BitVec 6)
  | grouprd (p : Pred) (d : BitVec 5) (a b : BitVec 6) (fn : GrpFn)
  -- access and copy group (R47)
  | pset (p : Pred) (g : BitVec 3) (v : VSrc)
  | prst (p : Pred) (g : BitVec 3) (v : VSrc)
  | qinit (p : Pred) (h : BitVec 4) (base : BitVec 22) (sz : BitVec 3) (depth : BitVec 10) (prod cons : BitVec 3)
  | waitf (p : Pred) (h : BitVec 4) (n : BitVec 10)
  | waite (p : Pred) (h : BitVec 4) (n : BitVec 10)
  | advh (p : Pred) (h : BitVec 4) (n : BitVec 10)
  | advt (p : Pred) (h : BitVec 4) (n : BitVec 10)
  | loop (p : Pred) (lvl : BitVec 2) (cnt : LoopCnt) (bl : BitVec 8) (wa : Bool)
  | fill (p : Pred) (h : BitVec 4) (g : BitVec 3) (v : VSrc)
  | spillq (p : Pred) (h : BitVec 4) (g : BitVec 3) (v : VSrc)
  | omld (p : Pred) (o : BitVec 6) (v : VSrc)
  | bfmtw (p : Pred) (bank : BitVec 4) (v : VSrc)
  | spmove (p : Pred) (v : VSrc)
  | sendt (p : Pred) (g : BitVec 3) (v : VSrc)
  | copy (p : Pred) (t : BitVec 4) (preg sreg dreg : BitVec 6)
  | copyx (p : Pred) (t : BitVec 4) (preg sreg dreg : BitVec 6)
  | cwait (p : Pred) (d : BitVec 5) (t : BitVec 4)
  | ctest (p : Pred) (fd : BitVec 3) (t : BitVec 4)
  -- matrix group (R48)
  | claim (p : Pred) (o : BitVec 6)
  | release (p : Pred) (o : BitVec 6)
  | mma (p : Pred) (d : BitVec 5) (a b : BitVec 6) (k : BitVec 6) (ty : Ty) (pm pn pk : BitVec 2) (rls : Bool)
  | mzero (p : Pred) (d : BitVec 5) (ty : Ty)
  | mdrain (p : Pred) (d : Opnd) (a : BitVec 5) (ty : Ty) (rnd : Rnd) (sat : Bool) (band : BitVec 2) (wrap : Bool)
  | msetm (p : Pred) (i : BitVec 2) (a : Opnd) (pat : Bool)
  | msetn (p : Pred) (i : BitVec 2) (a : Opnd) (pat : Bool)
  | msetk (p : Pred) (i : BitVec 2) (a : Opnd) (pat : Bool)
  | mscale (p : Pred) (a : Opnd) (col : Bool)
  | mstat (p : Pred) (sel : StatSel) (a : BitVec 5)
  -- vector groups (R49)
  | vadd (p : Pred) (v : V2)
  | vsub (p : Pred) (v : V2)
  | vmul (p : Pred) (v : V2)
  | vfma (p : Pred) (v : V3)
  | vfms (p : Pred) (v : V3)
  | vfnma (p : Pred) (v : V3)
  | vneg (p : Pred) (v : V1)
  | vabs (p : Pred) (v : V1)
  | vmin (p : Pred) (v : V2)
  | vmax (p : Pred) (v : V2)
  | vdiv (p : Pred) (v : V2)
  | vsqrt (p : Pred) (v : V1)
  | vrcp (p : Pred) (v : V1)
  | vrsq (p : Pred) (v : V1)
  | vexp2 (p : Pred) (v : V1)
  | vlog2 (p : Pred) (v : V1)
  | vexp (p : Pred) (v : V1)
  | vtanh (p : Pred) (v : V1)
  | vsigm (p : Pred) (v : V1)
  | viadd (p : Pred) (v : V2)
  | visub (p : Pred) (v : V2)
  | vimul (p : Pred) (v : V2)
  | vimulh (p : Pred) (v : V2)
  | vimin (p : Pred) (v : V2)
  | vimax (p : Pred) (v : V2)
  | vand (p : Pred) (v : V2)
  | vor (p : Pred) (v : V2)
  | vxor (p : Pred) (v : V2)
  | vnot (p : Pred) (v : V1)
  | vshl (p : Pred) (v : V2)
  | vshr (p : Pred) (v : V2)
  | vshra (p : Pred) (v : V2)
  | vclz (p : Pred) (v : V1)
  | vffs (p : Pred) (v : V1)
  | vpcnt (p : Pred) (v : V1)
  | vcvt (p : Pred) (v : V1) (src : Ty) (b c : Option Opnd)
  | vcmp (p : Pred) (k : BitVec 3) (a b : Opnd) (x : Sfx) (cc : Cond)
  | vsel (p : Pred) (v : V2) (k : BitVec 3)
  | kand (p : Pred) (kd ka kb : BitVec 3)
  | kor (p : Pred) (kd ka kb : BitVec 3)
  | knot (p : Pred) (kd ka : BitVec 3)
  | vmov (p : Pred) (v : V1)
  | vrotr (p : Pred) (v : V2)
  | vrotc (p : Pred) (v : V2)
  | vbcr (p : Pred) (v : V1)
  | vbcc (p : Pred) (v : V1)
  | vredr (p : Pred) (v : V1) (op : RedOp)
  | vredc (p : Pred) (v : V1) (op : RedOp)
  | vperm (p : Pred) (v : V2)
  | vcmprs (p : Pred) (v : V1) (k : BitVec 3)
  | vexpnd (p : Pred) (v : V1) (k : BitVec 3)
  | vpushc (p : Pred) (h : BitVec 4) (a : Opnd) (k : BitVec 3) (x : Sfx)
  | vpopq (p : Pred) (d : Opnd) (h : BitVec 4) (k : BitVec 3) (x : Sfx)
  | vtrn16 (p : Pred) (v : V1)
  | vflag (p : Pred) (k : BitVec 3) (km : Option (BitVec 3))
  | vsfck (p : Pred) (v : V3) (hi : BitVec 5) (cv : Curve)
  | winset (p : Pred) (a : Opnd)
  | winadv (p : Pred) (n : BitVec 4)
  | tcfg (p : Pred) (pl : BitVec 5) (win : Bool) (a : Opnd)
  | tdrop (p : Pred) (pl : BitVec 5) (win : Bool)
  | firstTouchHoldEnd
  | vmulk (p : Pred) (v : V2)
  | vaddk (p : Pred) (v : V2)
  | vcvtk (p : Pred) (v : V1) (st : Option Opnd)
  | vshrk (p : Pred) (v : V2)
  | vlrelk (p : Pred) (v : V1) (sh : BitVec 5)
  | unmulk (p : Pred) (v : V2)
  | unaddk (p : Pred) (v : V2)
  | uncvtk (p : Pred) (v : V1) (st : Option Opnd)
  | unshrk (p : Pred) (v : V2)
  | unlrelk (p : Pred) (v : V1) (sh : BitVec 5)
  | otmark (p : Pred)
  | otdrop (p : Pred)
  | otspill (p : Pred) (n : BitVec 11)
  | otdepth (p : Pred) (sel : DepthSel)
  | vstat (p : Pred) (a b : Opnd) (x : Sfx)
  | vlse (p : Pred) (a b : Opnd) (x : Sfx)
  | vnorms (p : Pred) (v : V3)
  | vsofts (p : Pred) (v : V2)
  | sbld (p : Pred) (a b c : Opnd) (tp : BitVec 3)
  | sbst (p : Pred) (a b c : Opnd) (tp : BitVec 3)
  | sbclr (p : Pred) (a b : Opnd)
  -- store and collectives group (R50)
  | sdrain (p : Pred) (v : V1)
  | sdrainDev (p : Pred) (a c : Opnd) (tp : BitVec 3) (x : Sfx)
  | sacc (p : Pred) (v : V2)
  | snorm2 (p : Pred) (a : Opnd) (ty : Ty)
  | snorm2Put (p : Pred) (d : Opnd)
  | snorm2Clr (p : Pred)
  | sscale (p : Pred) (v : V3)
  | optw (p : Pred) (v : V3) (adam wd : Bool) (n pb : BitVec 3)
  | optstep (p : Pred) (n : BitVec 3)
  | coll (p : Pred) (t : BitVec 4) (preg : BitVec 6)
  | collq (p : Pred) (d : BitVec 5) (preg : BitVec 6)
  | wrrem (p : Pred) (t : BitVec 4) (preg : BitVec 6)
  | sigrem (p : Pred) (preg : BitVec 6)
  | repart (p : Pred) (t : BitVec 4) (preg : BitVec 6)
  -- events of the core's streams
  | sequencerHeader
  | sectionStart
  | sectionRetire
  | delayLineLanding
  | rendezvousComplete
  | jobEnd
  | streamCacheFill
  | prefetchReady
  | translationWalk
  | loadReturn
  | deferredFaultReport
  -- events of ports, sends and copies
  | portRunGrant
  | portDrainRun
  | sendtArrival
  | copyStart
  | copyRequest
  | copyDataReturn
  | copyRetire
  | copyPostAck
  | followOnJoin
  | followOnEnter
  -- events of the outtake stack
  | spillStart
  | spillComplete
  | fillStart
  | fillTrailerCheck
  | fillComplete
  -- events of the stacks and the atomic engines
  | stackSlotService
  | refresh
  | atomicRequestService
  | atomicFillReturn
  | plainWriteNotice
  | watchEvaluation
  | atomicReturn
  | sempostAck
  -- events of domains, collectives and repartition
  | phaseChangeComplete
  | reductionIntervalClose
  | collectiveComplete
  | collectiveAbort
  | keyRound
  | histogramReduction
  | elementMove
  | repartComplete
  | repartAbort
  -- events of jobs, pre-emption and dispatch
  | watchdogExpiry
  | preemptionRequest
  | safePointSave
  | jobResumption
  | jobRelease
  | dispatchDecision
  | pthreshExpiry
  | dealInstall
  | floorDispatch
  | checkPoint
  | reelSemwait
  | reelLaunch
  | reelCopy
  | reelGuard
  | reelSempost
  | reelMark
  | reelEnd
  | cutMake
  | gangDecision
  -- packets of the mapped queues
  | graph
  | invoke
  | wait
  | signal
  | loadslot
  | slotLoadComplete
  | evictslot
  | preempt
  | checkpoint
  | fencePacket
  | packetComplete
  -- host commands
  | doorbellWrite
  | queueDescriptorWrite
  | queueStopClear
  | handleTableWrite
  | handleRevocationComplete
  | pageInvalidation
  | dealRequest
  | jobEndOrder
  | jobResumeOrder
  | loadReportRead
  | svnCommit
  | nodeIdentityAssign
  | spdmRequest
  | hostCxlAccess
  -- Synric and platform
  | writePacketArrival
  | signalPacketArrival
  | reducePacketArrival
  | barrierPacketArrival
  | managementPacketArrival
  | ackPacketArrival
  | flitRetransmit
  | portRetrain
  | selfTestStart
  | selfTestComplete
  | matrixBudgetUpdate
  | thermalThrottle
  | thermalTrip
  | deviceReset
  deriving DecidableEq, Repr

end Sys2Proof
end

