-- ==== Sys2Proof/Config.lean ====
section
/-! DEFINITION. What is fixed for the machine: the variants' counts and capability words (R1 to R7), the latencies (R54),
the coordinates and travel times (R58 to R60), and the free values, which nothing in Lean can evaluate. -/
namespace Sys2Proof.Config

/-- The variant: B9, or B9-H with one die (R1). -/
inductive Variant where
  | b9 | b9h
  deriving DecidableEq, Repr

def dies : Variant → Nat | .b9 => 2 | .b9h => 1
def cores : Variant → Nat | .b9 => 128 | .b9h => 64
def clusters : Variant → Nat | .b9 => 16 | .b9h => 8
def nstacks : Variant → Nat | .b9 => 12 | .b9h => 6
def ports : Variant → Nat | .b9 => 12 | .b9h => 6
def allocGiB : Variant → Nat | .b9 => 750 | .b9h => 374
def res16 : Variant → Bool | .b9 => true | .b9h => false
def flash : Variant → Bool | .b9 => true | .b9h => false

/-- Bytes of allocatable device memory (R226). -/
def allocBytes (v : Variant) : Nat := allocGiB v * 2 ^ 30

/-- CAP0 to CAP7 (R3 to R6). -/
def cap (v : Variant) (stepping : BitVec 8) (n : Nat) : W64 :=
  match n with
  | 0 => (0 : BitVec 16) ++ (match v with | .b9 => 1#8 | .b9h => 2#8) ++ stepping ++ BitVec.ofNat 8 (ports v) ++
      BitVec.ofNat 8 (nstacks v) ++ BitVec.ofNat 8 (cores v) ++ BitVec.ofNat 8 (dies v)
  | 1 => match v with | .b9 => 0x7F | .b9h => 0x73
  | 2 => 64 * 2 ^ 16 + BitVec.ofNat 64 (allocGiB v)
  | _ => 0

/-! ### The mesh (R58 to R60) -/

/-- A node of the mesh: die, x, y. -/
structure Node where
  die : Nat
  x : Nat
  y : Nat
  deriving DecidableEq, Repr

/-- The coordinates of a core number (R58). -/
def coreNode (n : Nat) : Node := ⟨n / 64, n % 8, n / 8 % 8⟩

/-- The cluster of a core number (R58). -/
def coreCluster (n : Nat) : Nat := let p := coreNode n; 8 * p.die + 2 * (p.y / 2) + p.x / 4

/-- The attach node of a stack (R59). -/
def stackNode (s : Nat) : Node :=
  let d := s / 6
  match s % 6 with
  | 0 => ⟨d, 1, 0⟩ | 1 => ⟨d, 3, 0⟩ | 2 => ⟨d, 5, 0⟩ | 3 => ⟨d, 2, 7⟩ | 4 => ⟨d, 4, 7⟩ | _ => ⟨d, 6, 7⟩

/-- The attach node of a Synric port (R59). -/
def portNode (p : Nat) : Node := let d := p / 6; ⟨d, if d = 0 then 0 else 7, p % 6 + 1⟩

/-- The node of the atomic engine of a cluster (R271). -/
def engineNode (k : Nat) : Node := let d := k / 8; let k' := k - 8 * d; ⟨d, 4 * (k' % 2), 2 * (k' / 2)⟩

def absDiff (a b : Nat) : Nat := (a - b) + (b - a)

/-- The travel time between two nodes (R60). -/
def travel (a b : Node) : Nat :=
  if a.die = b.die then 4 + 2 * (absDiff a.x b.x + absDiff a.y b.y)
  else if a.die = 0 then 4 + 2 * ((7 - a.x) + b.x + absDiff a.y b.y) + 20
  else 4 + 2 * (a.x + (7 - b.x) + absDiff a.y b.y) + 20

/-- Core to core (R60). -/
def travelCore (a b : Nat) : Nat := travel (coreNode a) (coreNode b)

/-- A node to a stack controller, or back (R60). -/
def travelStack (a : Node) (s : Nat) : Nat := travel a (stackNode s) + 2

/-- The Grip's requests leave node (0, 0) of die 0 and take 2 cycles more (R402). -/
def gripNode : Node := ⟨0, 0, 0⟩

/-- The stack access time (R61). -/
def stackAccess : Nat := 88

/-! ### Latencies of latency version 1 (R54) -/

def latAlu : Nat := 1
def latMul : Nat := 3
def latLdl : Nat := 3
def latDiv : Nat := 18
def latFlag : Nat := 8
def latPrep : Nat := 6
def vpermSpacing : Nat := 4

/-! ### Free values: opaque constants, applied to the counter the step advances or to the operands they depend on -/

/-- A 64-bit value that the spec leaves open. -/
opaque freeW64 : Nat → W64

/-- Cycles that an act of the Grip takes (R403), of the host link or memory behind it (R396), of a REPART (R316). -/
opaque gripCycles : Nat → Nat
opaque hostCycles : Nat → Nat
opaque repartCycles : Nat → Nat

/-- The slot that serves an owner's request under a deal other than the default (R241): the cycles after that from which it is sought, and the
slot in its cycle. The owner is given by a number. -/
opaque dealSlot : BitVec 32 → Nat → Nat → Nat → Nat → Nat × Nat

/-- Cycles that an act of the stack reducers or of the key units takes (R303, R316). -/
opaque reducerCycles : Nat → Nat

/-- The native object that the Grip's translator makes of a portable one, a stepping and a latency version (R376), and where it
lies in the context of a page table. -/
opaque ndeiqNative : List Byte → BitVec 8 → Nat → List Byte
opaque ndeiqBase : Nat → Nat → Nat

/-- The tag under the device's key of a translation that is returned to the host (R377). -/
opaque flashTag : List Byte → List Byte

/-- The signature of an attestation report (R389). -/
opaque signature : List Byte → List Byte

/-- Whether a signature of an image verifies (R387). -/
opaque signatureOk : List Byte → List Byte → Bool

end Sys2Proof.Config
end

