-- ==== Sys2Proof/Machine/Fp.lean ====
section
/-! DEFINITION. Floating formats, exact values and the one rounding of an operation (R103 to R107). -/
namespace Sys2Proof.Machine

/-- A binary floating format: exponent and fraction widths (R104). -/
structure Fmt where
  eb : Nat
  fb : Nat
  deriving DecidableEq, Repr

def bf16 : Fmt := ⟨8, 7⟩
def fp16 : Fmt := ⟨5, 10⟩
def fp32 : Fmt := ⟨8, 23⟩
def acc48 : Fmt := ⟨10, 37⟩

def Fmt.bias (f : Fmt) : Int := 2 ^ (f.eb - 1) - 1
def Fmt.width (f : Fmt) : Nat := 1 + f.eb + f.fb
/-- The exponent of the least normal number. -/
def Fmt.emin (f : Fmt) : Int := 1 - f.bias
def Fmt.infCode (f : Fmt) : Nat := (2 ^ f.eb - 1) * 2 ^ f.fb
def Fmt.maxCode (f : Fmt) : Nat := f.infCode - 1
def Fmt.nanCode (f : Fmt) : Nat := f.infCode + 2 ^ (f.fb - 1)
def Fmt.signBit (f : Fmt) : Nat := 2 ^ (f.eb + f.fb)

/-- An extended real with the sign of its zero: what a floating code stands for (R104, R105). -/
inductive Ext where
  | nan
  | inf (neg : Bool)
  | num (q : Rat) (nz : Bool)
  deriving DecidableEq, Repr

/-- 2 to an integer power, exactly. -/
def pow2 (k : Int) : Rat := if 0 ≤ k then ((2 ^ k.toNat : Nat) : Rat) else mkRat 1 (2 ^ (-k).toNat)

/-- The value of a code (R104). -/
def Fmt.dec (f : Fmt) (c : Nat) : Ext :=
  let neg := decide (f.signBit ≤ c % (2 * f.signBit))
  let m := c % f.signBit
  let e := m / 2 ^ f.fb
  let fr := m % 2 ^ f.fb
  if m = f.infCode then .inf neg
  else if f.infCode < m then .nan
  else
    let q : Rat :=
      if e = 0 then (fr : Rat) * pow2 (f.emin - f.fb)
      else ((2 ^ f.fb + fr : Nat) : Rat) * pow2 ((e : Int) - f.bias - f.fb)
    .num (if neg then -q else q) neg

/-- Whether a code is a NaN. -/
def Fmt.isNan (f : Fmt) (c : Nat) : Bool := decide (f.infCode < c % f.signBit)

/-- The greatest k with 2^k ≤ n / d, for positive n and d. -/
def ilog2 (n d : Nat) : Int :=
  let k : Int := (Nat.log2 n : Int) - (Nat.log2 d : Int)
  let fits : Bool := if 0 ≤ k then decide (d * 2 ^ k.toNat ≤ n) else decide (d ≤ n * 2 ^ (-k).toNat)
  if fits then k else k - 1

/-- Whether a magnitude with whole part `w` and remainder `r` of `d` rounds up (R106). -/
def roundsUp (rnd : Rnd) (neg : Bool) (w r d : Nat) : Bool :=
  match rnd with
  | .rne => decide (d < 2 * r) || (decide (2 * r = d) && decide (w % 2 = 1))
  | .rtz => false
  | .rdn => neg && decide (r ≠ 0)
  | .rup => !neg && decide (r ≠ 0)

/-- What an overflow delivers (R106). -/
def Fmt.overflow (f : Fmt) (rnd : Rnd) (sat neg : Bool) : Nat :=
  if sat then f.maxCode
  else match rnd with
    | .rne => f.infCode
    | .rtz => f.maxCode
    | .rdn => if neg then f.infCode else f.maxCode
    | .rup => if neg then f.maxCode else f.infCode

/-- The code of a finite non-zero magnitude n / d rounded once, and its sign: R106. An exact result beyond the largest
finite magnitude overflows, as R106 words it (DEDUCED, log 21). -/
def Fmt.roundMag (f : Fmt) (rnd : Rnd) (sat neg : Bool) (n d : Nat) : Nat :=
  let e : Int := max (ilog2 n d) f.emin
  let k : Int := e - f.fb
  let n' := if k < 0 then n * 2 ^ (-k).toNat else n
  let d' := if k < 0 then d else d * 2 ^ k.toNat
  let w := n' / d'
  let r := n' % d'
  let w' := if roundsUp rnd neg w r d' then w + 1 else w
  let code := w' + (e - f.emin).toNat * 2 ^ f.fb
  let ovf := decide (f.infCode ≤ code) || (decide (code = f.maxCode) && decide (r ≠ 0) && decide (w' = w))
  (if ovf then f.overflow rnd sat neg else code) + (if neg then f.signBit else 0)

/-- One rounding of an exact value (R105, R106). -/
def Fmt.round (f : Fmt) (rnd : Rnd) (sat : Bool) : Ext → Nat
  | .nan => f.nanCode
  | .inf neg => f.infCode + (if neg then f.signBit else 0)
  | .num q nz =>
    if q.num = 0 then (if nz then f.signBit else 0)
    else f.roundMag rnd sat (decide (q.num < 0)) q.num.natAbs q.den

/-! ### Exact operations (R105) -/

def Ext.isNan : Ext → Bool | .nan => true | _ => false
def Ext.isInf : Ext → Bool | .inf _ => true | _ => false
def Ext.isFin : Ext → Bool | .num _ _ => true | _ => false

/-- The sign bit of an extended real. -/
def Ext.neg? : Ext → Bool
  | .nan => false
  | .inf n => n
  | .num q nz => if q.num = 0 then nz else decide (q.num < 0)

def Ext.negate : Ext → Ext
  | .nan => .nan
  | .inf n => .inf !n
  | .num q nz => .num (-q) (!nz)

def Ext.abs : Ext → Ext
  | .nan => .nan
  | .inf _ => .inf false
  | .num q _ => .num (if q.num < 0 then -q else q) false

/-- An exact rational; a zero is +0. -/
def Ext.ofRat (q : Rat) : Ext := .num q (decide (q.num < 0))

/-- The exact sum of a list of addends (R105): a zero sum is −0 if every addend is −0 or the mode is RDN. -/
def extSum (rnd : Rnd) (l : List Ext) : Ext :=
  let hasP := l.any fun x => decide (x = .inf false)
  let hasN := l.any fun x => decide (x = .inf true)
  if l.any Ext.isNan || (hasP && hasN) then .nan
  else if hasP then .inf false
  else if hasN then .inf true
  else
    let q : Rat := l.foldl (fun a x => match x with | .num v _ => a + v | _ => a) 0
    if q.num = 0 then
      .num 0 (decide (rnd = .rdn) || (!l.isEmpty && l.all fun x => decide (x = .num 0 true)))
    else Ext.ofRat q

def extAdd (rnd : Rnd) (a b : Ext) : Ext := extSum rnd [a, b]
def extSub (rnd : Rnd) (a b : Ext) : Ext := extSum rnd [a, b.negate]

def extMul (a b : Ext) : Ext :=
  let s := xor a.neg? b.neg?
  match a, b with
  | .nan, _ => .nan
  | _, .nan => .nan
  | .inf _, .num q _ => if q.num = 0 then .nan else .inf s
  | .num q _, .inf _ => if q.num = 0 then .nan else .inf s
  | .inf _, .inf _ => .inf s
  | .num p _, .num q _ => .num (p * q) s

def extDiv (a b : Ext) : Ext :=
  let s := xor a.neg? b.neg?
  match a, b with
  | .nan, _ => .nan
  | _, .nan => .nan
  | .inf _, .inf _ => .nan
  | .inf _, .num _ _ => .inf s
  | .num _ _, .inf _ => .num 0 s
  | .num p _, .num q _ =>
    if q.num = 0 then (if p.num = 0 then .nan else .inf s) else .num (p / q) s

/-- a < b for numbers that are no NaN; zeros are equal. -/
def extLt (a b : Ext) : Bool :=
  match a, b with
  | .nan, _ => false
  | _, .nan => false
  | .inf x, .inf y => x && !y
  | .inf x, .num _ _ => x
  | .num _ _, .inf y => !y
  | .num p _, .num q _ => decide (p < q)

def extEq (a b : Ext) : Bool :=
  match a, b with
  | .inf x, .inf y => x == y
  | .num p _, .num q _ => decide (p = q)
  | _, _ => false

/-- Minimum and maximum: a NaN gives NaN; of two zeros the minimum is −0 and the maximum +0 if one is (R105). -/
def extMin (a b : Ext) : Ext :=
  if a.isNan || b.isNan then .nan
  else if extLt a b then a else if extLt b a then b
  else if a.neg? then a else b

def extMax (a b : Ext) : Ext :=
  if a.isNan || b.isNan then .nan
  else if extLt b a then a else if extLt a b then b
  else if a.neg? then b else a

/-! ### Element types -/

/-- The floating format of a type; FP32 for the others. -/
def tyFmt : Ty → Fmt
  | .bf16 => bf16
  | .f16 => fp16
  | _ => fp32

/-- The low bits of a lane at a width (R157). -/
def lowBits (w : Nat) (x : W32) : Nat := x.toNat % 2 ^ w

/-- An integer element by the signedness of its type (R103). -/
def intOf (t : Ty) (x : W32) : Int :=
  let n := lowBits t.width x
  if t.signed && decide (2 ^ (t.width - 1) ≤ n) then (n : Int) - 2 ^ t.width else n

def intLo (t : Ty) : Int := if t.signed then -(2 ^ (t.width - 1)) else 0
def intHi (t : Ty) : Int := if t.signed then 2 ^ (t.width - 1) - 1 else 2 ^ t.width - 1

def clampInt (lo hi x : Int) : Int := max lo (min hi x)

/-- Integer arithmetic's last step (R103): clamp, or keep the low bits. -/
def intOut (t : Ty) (sat : Bool) (x : Int) : W32 :=
  let v := if sat then clampInt (intLo t) (intHi t) x else x
  BitVec.ofNat 32 (v % (2 ^ t.width : Int)).toNat

/-- One rounding of a rational to an integer (R103, R106). -/
def roundInt (rnd : Rnd) (q : Rat) : Int :=
  let neg := decide (q.num < 0)
  let w := q.num.natAbs / q.den
  let r := q.num.natAbs % q.den
  let w' := if roundsUp rnd neg w r q.den then w + 1 else w
  if neg then -(w' : Int) else w'

/-- The exact value of a floating element. -/
def fval (t : Ty) (x : W32) : Ext := (tyFmt t).dec (lowBits t.width x)

/-- One rounding of an exact value to a floating type. -/
def fout (t : Ty) (rnd : Rnd) (sat : Bool) (x : Ext) : W32 := BitVec.ofNat 32 ((tyFmt t).round rnd sat x)

/-- The value of an FP32 code, and RNE to FP32. -/
def f32v (x : W32) : Ext := fp32.dec x.toNat
def rne32 (x : Ext) : W32 := BitVec.ofNat 32 (fp32.round .rne false x)

/-- Whether a value is exactly representable in a format. -/
def Fmt.exact (f : Fmt) (q : Rat) : Bool := decide (f.dec (f.round .rtz false (Ext.ofRat q)) = Ext.ofRat q)

/-- A step of quantisation is valid when it is positive and finite (R116). -/
def stepOf (s : W32) : Option Rat :=
  match f32v s with
  | .num q _ => if 0 < q then some q else none
  | _ => none

end Sys2Proof.Machine
end

