-- ==== Sys2Proof/Machine/Residue.lean ====
section
/-! DEFINITION. Residue codes, working bases, quantisation, and the conversion of one element between formats (R110 to R117,
R123, R179). -/
namespace Sys2Proof.Machine

/-- The three moduli of a residue code (R110). -/
def resMod (t : Ty) : Nat × Nat × Nat := match t with | .res16 => (31, 32, 33) | _ => (7, 8, 3)

/-- The positions of the first two fields; the third is at 0 (R110). -/
def resPos (t : Ty) : Nat × Nat := match t with | .res16 => (11, 6) | _ => (5, 2)

def resLo (t : Ty) : Int := match t with | .res16 => -16368 | _ => -84
def resHi (t : Ty) : Int := match t with | .res16 => 16367 | _ => 83

/-- The least non-negative integer below m1*m2*m3 congruent to c1, c2, c3 (R110), found by mixed radix. -/
def resCrt (t : Ty) (c1 c2 c3 : Nat) : Nat :=
  let (m1, m2, m3) := resMod t
  let u12 := (List.range m2).map (fun k => c1 + m1 * k) |>.find? (fun u => u % m2 = c2 % m2) |>.getD 0
  (List.range m3).map (fun k => u12 + m1 * m2 * k) |>.find? (fun u => u % m3 = c3 % m3) |>.getD 0

/-- Encode (R110). -/
def resEnc (t : Ty) (x : Int) : W32 :=
  let (m1, m2, m3) := resMod t
  let (p1, p2) := resPos t
  BitVec.ofNat 32 ((x % m1).toNat * 2 ^ p1 + (x % m2).toNat * 2 ^ p2 + (x % m3).toNat)

/-- The three fields of a code. -/
def resFields (t : Ty) (c : W32) : Nat × Nat × Nat :=
  let (p1, p2) := resPos t
  let n := lowBits t.width c
  (n / 2 ^ p1, n / 2 ^ p2 % 2 ^ (p1 - p2), n % 2 ^ p2)

/-- A non-canonical code (R111). -/
def resNonCanon (t : Ty) (c : W32) : Bool :=
  let (m1, _, m3) := resMod t
  let (a, _, b) := resFields t c
  decide (m1 ≤ a) || decide (m3 ≤ b)

/-- Decode (R110). -/
def resDec (t : Ty) (c : W32) : Int :=
  let (m1, m2, m3) := resMod t
  let (a, b, d) := resFields t c
  let u := resCrt t (a % m1) (b % m2) (d % m3)
  if m1 * m2 * m3 / 2 ≤ u then (u : Int) - (m1 * m2 * m3 : Nat) else u

/-! ### Working bases (R112 to R114) -/

def baseMod (w16 : Bool) : Nat × Nat × Nat := if w16 then (65536, 65535, 65521) else (1024, 1023, 1021)

/-- Three channels of an element in their places (R112). -/
def chPack (c1 c2 c3 : Nat) : W48 := BitVec.ofNat 48 (c1 + c2 * 2 ^ 16 + c3 * 2 ^ 32)
def chan (e : W48) (i : Nat) : Nat := e.toNat / 2 ^ (16 * i) % 2 ^ 16

/-- Base extension of an integer (R112). -/
def baseExt (w16 : Bool) (v : Int) : W48 :=
  let (m1, m2, m3) := baseMod w16
  chPack (v % m1).toNat (v % m2).toNat (v % m3).toNat

/-- One product added in every channel (R112). -/
def chMac (w16 : Bool) (acc a b : W48) : W48 :=
  let (m1, m2, m3) := baseMod w16
  chPack ((chan acc 0 + chan a 0 * chan b 0) % m1) ((chan acc 1 + chan a 1 * chan b 1) % m2)
    ((chan acc 2 + chan a 2 * chan b 2) % m3)

/-- Mixed-radix reconstruction (R114). -/
def baseCrt (w16 : Bool) (e : W48) : Int :=
  let (m1, m2, m3) := baseMod w16
  let (i2, i3) := if w16 then (1, 65209) else (1, 851)
  let c1 : Int := chan e 0
  let c2 : Int := chan e 1
  let c3 : Int := chan e 2
  let a1 := c1
  let a2 := ((c2 - a1) * i2) % m2
  let a3 := ((c3 - a1 - a2 * m1) * i3) % m3
  let u := a1 + a2 * m1 + a3 * m1 * m2
  let mw : Int := (m1 * m2 * m3 : Nat)
  if mw / 2 ≤ u then u - mw else u

/-- The safe bound of the k count (R113). -/
def safeBound (w16 : Bool) : Nat := if w16 then 525185 else 75790

/-! ### Conversion of one element -/

/-- An element that a conversion makes, and the sticky bits it would set (R111). -/
structure Conv where
  bits : W32
  ncr : Bool
  qx : Bool
  deriving DecidableEq, Repr

/-- Quantisation of a value by a step (R116). -/
def quantise (t : Ty) (step : W32) (rnd : Rnd) (x : Ext) : Conv :=
  match stepOf step, x with
  | none, _ => ⟨resEnc t 0, false, true⟩
  | _, .nan => ⟨resEnc t 0, false, true⟩
  | some _, .inf neg => ⟨resEnc t (if neg then resLo t else resHi t), false, false⟩
  | some s, .num q _ => ⟨resEnc t (clampInt (resLo t) (resHi t) (roundInt rnd (q / s))), false, false⟩

/-- A residue code out to a floating or integer type (R116): Decode times the step, rounded once; an integer saturates. -/
def crossOut (st dt : Ty) (step : W32) (rnd : Rnd) (sat : Bool) (c : W32) : Conv :=
  let n := resNonCanon st c
  match stepOf step with
  | none => ⟨if dt.isFloat then BitVec.ofNat 32 (tyFmt dt).nanCode else 0, n, true⟩
  | some s =>
    let q : Rat := (resDec st c : Rat) * s
    if dt.isFloat then ⟨fout dt rnd sat (.num q (decide (q.num < 0))), n, false⟩
    else ⟨intOut dt true (roundInt rnd q), n, false⟩

/-- A residue code to a residue code (R117). -/
def requant (st dt : Ty) (s s' : W32) (rnd : Rnd) (c : W32) : Conv :=
  let n := resNonCanon st c
  match stepOf s, stepOf s' with
  | some a, some b =>
    if st = dt ∧ a = b then ⟨resEnc dt (resDec st c), n, false⟩
    else ⟨resEnc dt (clampInt (resLo dt) (resHi dt) (roundInt rnd ((resDec st c : Rat) * a / b))), n, false⟩
  | _, _ => ⟨resEnc dt 0, n, true⟩

/-- An integer or floating element as an exact value. -/
def valOf (t : Ty) (x : W32) : Ext := if t.isFloat then fval t x else .num (intOf t x) false

/-- A finite value rounded to an integer type and clamped; a NaN gives 0 and an infinity its bound (R103). -/
def toInt (t : Ty) (rnd : Rnd) (x : Ext) : W32 :=
  match x with
  | .nan => 0
  | .inf neg => intOut t true (if neg then intLo t else intHi t)
  | .num q _ => intOut t true (roundInt rnd q)

/-- One element from one format to another. `canon`: the conversion is an operation (VCVT), which makes a NaN canonical; a
crossing between identical floating formats keeps the bits (R105, R123). -/
def convElem (canon : Bool) (st dt : Ty) (s s' : W32) (rnd : Rnd) (sat : Bool) (x : W32) : Conv :=
  if st.isRes then
    if dt.isRes then requant st dt s s' rnd x else crossOut st dt s rnd sat x
  else if dt.isRes then quantise dt s' rnd (valOf st x)
  else if dt.isFloat then
    if st = dt ∧ !(canon && (tyFmt st).isNan (lowBits st.width x)) then ⟨BitVec.ofNat 32 (lowBits st.width x), false, false⟩
    else ⟨fout dt rnd sat (valOf st x), false, false⟩
  else if st.isFloat then ⟨toInt dt rnd (valOf st x), false, false⟩
  else ⟨intOut dt sat (intOf st x), false, false⟩

end Sys2Proof.Machine
end

