-- ==== Sys2Proof/WellFormed.lean ====
section
/-! DEFINITION. Well-formedness of an instruction: the values that the spec accepts in the fields of a word (R20, R21,
R28 to R32 and each instruction's own description). What the checks refuse is a reserved value (0x02 under R33). -/
namespace Sys2Proof

/-- A register field names s, x or z (R21). -/
def okReg (r : BitVec 6) : Bool := decide (r.toNat < 56)

/-- A register field of BSEL's dimension names s or z (R84). -/
def okDim (r : BitVec 6) : Bool := okReg r && !(decide (32 ≤ r.toNat) && decide (r.toNat < 48))

/-- A destination slice of a plane is in range (R28). -/
def Opnd.wf : Opnd → Bool
  | .plane .whole _ ix => decide (ix = 0)
  | .plane .row _ ix => decide (ix.toNat < 16)
  | _ => true

/-- KIND 11 is no destination (R29). -/
def Opnd.dstOk (o : Opnd) : Bool := o.wf && !o.isConst

/-- Elements that a plane operand covers (R28). -/
def Dir.count : Dir → Nat
  | .whole => 1024 | .row => 64 | .col => 16 | .diag => 16

/-- The element count of a plane operand; none for the other kinds. -/
def Opnd.planeCount : Opnd → Option Nat
  | .plane d _ _ => some d.count
  | _ => none

/-- The plane operands of a list agree in count (R170). -/
def sameCount (l : List Opnd) : Bool :=
  match l.filterMap Opnd.planeCount with
  | [] => true
  | n :: ns => ns.all (· = n)

/-- WIN = 1 needs a plane operand (R30). -/
def winOk (win : Bool) (l : List Opnd) : Bool := !win || l.any Opnd.isPlane

def Opnd.dir? : Opnd → Option Dir
  | .plane d _ _ => some d
  | _ => none

/-- The RND and SAT a family admits (R172). -/
def Sfx.plain (x : Sfx) : Bool := decide (x.rnd = .rne) && !x.sat

/-- A floating vector word: TYPE 0x0 to 0x2, any RND and SAT (R172). -/
def wfElem (ok : Bool) (d : Opnd) (srcs : List Opnd) (x : Sfx) : Bool :=
  ok && d.dstOk && srcs.all Opnd.wf && sameCount (d :: srcs) && winOk x.win (d :: srcs)

def Sfx.floatAny (x : Sfx) : Bool := x.ty.isFloat
def Sfx.floatPlain (x : Sfx) : Bool := x.ty.isFloat && x.plain
def Sfx.intSat (x : Sfx) : Bool := x.ty.isInt && decide (x.rnd = .rne)
def Sfx.intPlain (x : Sfx) : Bool := x.ty.isInt && x.plain

def V1.wfElem (v : V1) (ok : Bool) : Bool := Sys2Proof.wfElem ok v.d [v.a] v.x
def V2.wfElem (v : V2) (ok : Bool) : Bool := Sys2Proof.wfElem ok v.d [v.a, v.b] v.x
def V3.wfElem (v : V3) (ok : Bool) : Bool := Sys2Proof.wfElem ok v.d [v.a, v.b, v.c] v.x

/-- The store engine has no planes, no mask and no window (R215). -/
def storeOk (x : Sfx) (l : List Opnd) : Bool :=
  !x.win && decide (x.km = none) && l.all fun o => o.wf && !o.isPlane

/-- A width code with its sign bit: FN[2] = 1 with width 3 is reserved (R66). -/
def okWidth (w : BitVec 2) (sign : Bool) : Bool := !(sign && decide (w = 3))

/-- The element types of MMA and MZERO (R48). -/
def Ty.matrix : Ty → Bool
  | .bf16 | .f16 | .res8 | .res16 => true
  | _ => false

/-- The keep and undo forms: both planes, of one count, no mask, RNE, no saturation (R199, R202). -/
def keepOk (d a : Opnd) (rest : List Opnd) (x : Sfx) : Bool :=
  d.isPlane && a.isPlane && d.wf && rest.all Opnd.wf && a.wf && sameCount (d :: a :: rest) &&
    x.plain && decide (x.km = none)

/-- The operand V of an access-engine word (R122). -/
def VSrc.wf : VSrc → Bool
  | .imm _ => true
  | .reg r => decide (r ≠ 0) && okReg r

/-- Control-register numbers that R67 defines. -/
def csrKnown (n : BitVec 12) : Bool :=
  let i := n.toNat
  decide (i ≤ 0x007) || decide (i = 0x010) || (decide (0x018 ≤ i) && decide (i ≤ 0x01C)) || decide (i = 0x020) ||
    (decide (0x040 ≤ i) && decide (i ≤ 0x06F)) || (decide (0x070 ≤ i) && decide (i ≤ 0x072)) ||
    (decide (0x078 ≤ i) && decide (i ≤ 0x083)) || (decide (0x090 ≤ i) && decide (i ≤ 0x093))

/-- Control registers that CSRWR writes: DOM, OTBASE, OTHI, OTLO, STEP0 to STEP7 (R67). -/
def csrWritable (n : BitVec 12) : Bool :=
  let i := n.toNat
  decide (i = 0x010) || (decide (0x070 ≤ i) && decide (i ≤ 0x072)) || (decide (0x078 ≤ i) && decide (i ≤ 0x07F))

/-- The well-formed instructions. Events are well formed as they stand: no bit pattern encodes them. -/
def Instr.wf : Instr → Bool
  | .add _ _ a b | .sub _ _ a b | .mul _ _ a b | .mulh _ _ a b | .mulhn _ _ a b | .div _ _ a b | .divn _ _ a b
  | .rem _ _ a b | .remn _ _ a b | .and _ _ a b | .or _ _ a b | .xor _ _ a b | .andn _ _ a b | .shl _ _ a b
  | .shr _ _ a b | .shra _ _ a b | .rotl _ _ a b | .min _ _ a b | .max _ _ a b | .minn _ _ a b | .maxn _ _ a b
  | .sel _ _ a b _ _ | .cmp _ _ a b _ | .ifence _ a b | .sempost _ a b _ | .semwait _ _ a b _
  | .grouprd _ _ a b _ => okReg a && okReg b
  | .bsel _ _ a b _ _ => okDim a && okReg b
  | .addi _ _ a _ | .andi _ _ a _ | .ori _ _ a _ | .xori _ _ a _ | .clz _ _ a | .ffs _ _ a | .popc _ _ a
  | .brev _ _ a | .sext _ _ a _ | .zext _ _ a _ | .cmpi _ _ a _ _ | .prepr _ _ a | .caprd _ _ a _
  | .guard _ a | .domWrite _ a | .otbaseWrite _ a | .othiWrite _ a | .otloWrite _ a | .stepWrite _ _ a => okReg a
  | .lea _ _ a b sh _ => okReg a && okReg b && decide (sh.toNat ≤ 6)
  | .ld _ _ a w s _ | .ldl _ _ a w s _ => okReg a && okWidth w s
  | .st _ a b _ _ | .stl _ a b _ _ | .waitmem _ _ a b _ _ _ => okReg a && okReg b
  | .amoAdd _ _ a b _ | .amoMin _ _ a b _ | .amoMax _ _ a b _ | .amoMinn _ _ a b _ | .amoMaxn _ _ a b _
  | .amoAnd _ _ a b _ | .amoOr _ _ a b _ | .amoXor _ _ a b _ | .amoSwap _ _ a b _ => okReg a && okReg b
  | .amoCas _ _ a b c _ => okReg a && okReg b && okReg c
  | .barw _ _ a lvl => decide (lvl.toNat ≤ 4) && okReg a && (decide (lvl.toNat = 4) || decide (a = 0))
  | .issue _ _ preg _ => okReg preg
  | .issueReg _ _ preg areg => okReg preg && okReg areg
  | .tbind _ _ preg | .coll _ _ preg | .collq _ _ preg | .wrrem _ _ preg | .sigrem _ preg | .repart _ _ preg =>
    decide (preg ≠ 0) && okReg preg
  | .copy _ _ preg sr dr | .copyx _ _ preg sr dr => decide (preg ≠ 0) && okReg preg && okReg sr && okReg dr
  | .csrrd _ _ n => csrKnown n
  | .csrwr _ n a => csrKnown n && !csrWritable n && okReg a
  | .pset _ _ v | .prst _ _ v | .fill _ _ _ v | .spillq _ _ _ v | .omld _ _ v | .bfmtw _ _ v | .spmove _ v
  | .sendt _ _ v => v.wf
  | .qinit _ _ _ sz depth prod cons =>
    decide (cons.toNat ≤ 4) && decide (prod.toNat ≤ 5) && decide (1 ≤ depth.toNat) && decide (depth.toNat ≤ 512) &&
      decide (sz.toNat ≠ 7)
  | .waitf _ _ n | .waite _ _ n | .advh _ _ n | .advt _ _ n => decide (n.toNat ≤ 512)
  | .loop _ lvl _ _ _ => decide (lvl.toNat ≠ 3)
  | .mma _ d a b _ ty _ _ _ rls =>
    ty.matrix && !rls && (!ty.isFloat || decide (d.toNat % 2 = 0)) &&
      (decide (ty ≠ .res16) || (decide (a.toNat % 2 = 0) && decide (b.toNat % 2 = 0)))
  | .mzero _ d ty => ty.matrix && (!ty.isFloat || decide (d.toNat % 2 = 0))
  | .mdrain _ d _ ty _ _ _ _ =>
    (match d with | .port _ => true | .slot _ _ => true | _ => false) && (ty.isFloat || decide (ty = .i32))
  | .msetm _ _ a _ | .msetn _ _ a _ | .msetk _ _ a _ => a.isConst
  | .mstat _ .st a => decide (a = 0)
  | .mscale _ a _ => !a.isPlane
  | .vadd _ v | .vsub _ v | .vmul _ v | .vdiv _ v => v.wfElem v.x.floatAny
  | .vfma _ v | .vfms _ v | .vfnma _ v => v.wfElem v.x.floatAny
  | .vneg _ v | .vabs _ v => v.wfElem v.x.floatPlain
  | .vmin _ v | .vmax _ v => v.wfElem v.x.floatPlain
  | .vsqrt _ v | .vrcp _ v | .vrsq _ v | .vexp2 _ v | .vlog2 _ v | .vexp _ v | .vtanh _ v | .vsigm _ v =>
    v.wfElem v.x.floatAny
  | .viadd _ v | .visub _ v | .vimul _ v => v.wfElem v.x.intSat
  | .vimulh _ v | .vimin _ v | .vimax _ v | .vand _ v | .vor _ v | .vxor _ v | .vshl _ v | .vshr _ v | .vshra _ v =>
    v.wfElem v.x.intPlain
  | .vnot _ v | .vclz _ v | .vffs _ v | .vpcnt _ v => v.wfElem v.x.intPlain
  | .vcvt _ v src b c =>
    wfElem true v.d (v.a :: (b.toList ++ c.toList)) v.x && decide (b.isSome = (v.x.ty.isRes || src.isRes)) &&
      decide (c.isSome = (v.x.ty.isRes && src.isRes))
  | .vcmp _ _ a b x cc =>
    !x.ty.isRes && x.plain && a.wf && b.wf && sameCount [a, b] && winOk x.win [a, b] && decide (cc.code.toNat ≤ 5)
  | .vsel _ v _ => v.wfElem v.x.plain
  | .vmov _ v => v.wfElem v.x.plain
  | .vrotr _ v =>
    v.x.plain && v.d.wf && v.a.wf && v.b.isConst && sameCount [v.d, v.a] &&
      ((decide (v.d.dir? = some .whole) && decide (v.a.dir? = some .whole)) ||
        (decide (v.d.dir? = some .row) && decide (v.a.dir? = some .row)))
  | .vrotc _ v =>
    v.x.plain && v.d.wf && v.a.wf && v.b.isConst &&
      ((decide (v.d.dir? = some .whole) && decide (v.a.dir? = some .whole)) ||
        (decide (v.d.dir? = some .col) && decide (v.a.dir? = some .col)))
  | .vbcr _ v =>
    v.x.plain && v.d.wf && v.a.wf && decide (v.d.dir? = some .whole) && !v.a.isConst &&
      (!v.a.isPlane || decide (v.a.dir? = some .col))
  | .vbcc _ v =>
    v.x.plain && v.d.wf && v.a.wf && decide (v.d.dir? = some .whole) && !v.a.isConst &&
      (!v.a.isPlane || decide (v.a.dir? = some .row))
  | .vtrn16 _ v =>
    v.x.plain && v.d.wf && v.a.wf && decide (v.d.dir? = some .whole) && decide (v.a.dir? = some .whole)
  | .vredr _ v op => wfRed v op .col
  | .vredc _ v op => wfRed v op .row
  | .vperm _ v =>
    v.x.plain && v.d.wf && v.a.wf && v.b.wf && decide (v.d.dir? = some .whole) && decide (v.a.dir? = some .whole) &&
      decide (v.b.dir? = some .whole)
  | .vcmprs _ v _ | .vexpnd _ v _ =>
    v.x.plain && v.d.wf && v.a.wf && decide (v.x.km = none) && decide (v.d.dir? = v.a.dir?) &&
      (decide (v.d.dir? = some .whole) || decide (v.d.dir? = some .row))
  | .vpushc _ _ a _ x => x.plain && a.wf && a.isPlane && decide (x.km = none)
  | .vpopq _ d _ _ x => x.plain && d.wf && d.isPlane && decide (x.km = none)
  | .vsfck _ v _ _ =>
    decide (v.x.ty = .n32) && v.x.plain && decide (v.x.km = none) && v.d.wf && v.a.wf && v.b.wf && v.c.wf &&
      [v.d, v.a, v.b, v.c].all fun o => decide (o.dir? = some .whole)
  | .winset _ a => a.isConst
  | .tcfg _ _ _ a => a.isConst
  | .vmulk _ v | .vaddk _ v | .unmulk _ v | .unaddk _ v => v.x.ty.isFloat && keepOk v.d v.a [v.b] v.x
  | .vcvtk _ v step =>
    keepOk v.d v.a step.toList v.x && decide (v.x.ty = if step.isSome then .res8 else .bf16)
  | .uncvtk _ v step => keepOk v.d v.a step.toList v.x && decide (v.x.ty = .f32)
  | .vshrk _ v | .unshrk _ v => v.x.ty.isInt && keepOk v.d v.a [v.b] v.x
  | .vlrelk _ v sh | .unlrelk _ v sh => v.x.ty.isFloat && keepOk v.d v.a [] v.x && decide (sh ≠ 0)
  | .otspill _ n => decide (n.toNat ≤ 1024)
  | .vstat _ a b x | .vlse _ a b x =>
    x.ty.isFloat && x.plain && a.wf && b.isConst && (decide (a.dir? = some .whole) || decide (a.dir? = some .row))
  | .vnorms _ v =>
    v.x.ty.isFloat && v.d.wf && v.a.wf && v.b.isConst && v.c.isConst && decide (v.d.dir? = v.a.dir?) &&
      (decide (v.a.dir? = some .whole) || decide (v.a.dir? = some .row))
  | .vsofts _ v =>
    v.x.ty.isFloat && v.d.wf && v.a.wf && v.b.isConst && decide (v.d.dir? = v.a.dir?) &&
      (decide (v.a.dir? = some .whole) || decide (v.a.dir? = some .row))
  | .sbld _ a b c _ | .sbst _ a b c _ => a.isConst && b.isConst && c.isConst
  | .sbclr _ a b => a.isConst && b.isConst
  | .sdrain _ v => storeOk v.x [v.d, v.a] && v.d.dstOk
  | .sdrainDev _ a c _ x => storeOk x [a] && c.isConst
  | .sacc _ v => !v.x.ty.isRes && storeOk v.x [v.d, v.a, v.b] && v.d.dstOk
  | .snorm2 _ a ty => ty.isFloat && a.wf && !a.isPlane
  | .snorm2Put _ d => d.dstOk && !d.isPlane
  | .sscale _ v => v.x.ty.isFloat && storeOk v.x [v.d, v.a, v.b, v.c] && v.d.dstOk
  | .optw _ v _ _ _ _ =>
    v.x.ty.isFloat && storeOk v.x [v.d, v.a, v.b, v.c] && !v.a.isConst && !v.b.isConst &&
      (match v.d with | .port g => decide (g.toNat % 2 = 0) | _ => false) &&
      (match v.c with | .port _ => true | _ => false)
  | _ => true
where
  /-- Reductions take a whole plane, a port or a slot, to a slice of the other axis, a port or a slot (R187). -/
  wfRed (v : V1) (op : RedOp) (dd : Dir) : Bool :=
    !v.x.ty.isRes && v.d.dstOk && v.a.wf && !v.a.isConst && winOk v.x.win [v.d, v.a] &&
      (!v.a.isPlane || decide (v.a.dir? = some .whole)) && (!v.d.isPlane || decide (v.d.dir? = some dd)) &&
      (match op with
        | .add => v.x.ty.isFloat || decide (v.x.rnd = .rne)
        | _ => v.x.plain)

end Sys2Proof
end

