-- ==== Sys2Proof/Decode.lean ====
section
/-! DEFINITION. The decoder, total on any 96 bits and on any stream, rejecting by the fault the spec names (R33, R42), and
after it the encoder, written from the same field maps (R15, R22 to R32 and each instruction's own). -/
namespace Sys2Proof

/-- Why a word is no instruction of a stream: items 1 and 2 of R33. -/
inductive DecErr where
  | illegal
  | reserved
  deriving DecidableEq, Repr

abbrev Word := BitVec 96

/-! ### Fields -/

def fld (w : Word) (lo n : Nat) : BitVec n := w.extractLsb' lo n

def wMajor (w : Word) : BitVec 8 := fld w 88 8
def wMinor (w : Word) : BitVec 4 := fld w 84 4
def wPred (w : Word) : Pred := ⟨(fld w 83 1) == 1#1, fld w 80 3⟩

/-- Format S (R22). -/
def sD (w : Word) : BitVec 6 := fld w 74 6
def sA (w : Word) : BitVec 6 := fld w 68 6
def sB (w : Word) : BitVec 6 := fld w 62 6
def sFN (w : Word) : BitVec 6 := fld w 56 6
def sImm (w : Word) : BitVec 56 := fld w 0 56

/-- Format C (R31). -/
def cEng (w : Word) : BitVec 8 := fld w 72 8
def cRes (w : Word) : BitVec 2 := fld w 70 2
def cPreg (w : Word) : BitVec 6 := fld w 64 6
def cImm (w : Word) : BitVec 64 := fld w 0 64

/-- Format V (R25). -/
def vD (w : Word) : BitVec 15 := fld w 65 15
def vA (w : Word) : BitVec 15 := fld w 50 15
def vB (w : Word) : BitVec 15 := fld w 35 15
def vC (w : Word) : BitVec 15 := fld w 20 15
def vTy (w : Word) : BitVec 4 := fld w 16 4
def vRnd (w : Word) : BitVec 2 := fld w 14 2
def vSat (w : Word) : BitVec 1 := fld w 13 1
def vWin (w : Word) : BitVec 1 := fld w 12 1
def vMod (w : Word) : BitVec 12 := fld w 0 12

/-- A destination field names s0 to s31 (R21). -/
def dst5 (d : BitVec 6) : Option (BitVec 5) := if d.toNat < 32 then some (d.setWidth 5) else none

/-- A predicate or branch-target number in the low three bits of a register field (R21). -/
def low3 (d : BitVec 6) : Option (BitVec 3) := if d.toNat < 8 then some (d.setWidth 3) else none

/-- A 15-bit operand field (R28). -/
def decOpnd (f : BitVec 15) : Option Opnd :=
  match (f.extractLsb' 13 2).toNat with
  | 0 => some (.plane (Dir.ofCode (f.extractLsb' 11 2)) (f.extractLsb' 6 5) (f.extractLsb' 0 6))
  | 1 => if f.extractLsb' 3 10 = 0 then some (.port (f.extractLsb' 0 3)) else none
  | 2 => some (.slot (f.extractLsb' 9 4) (f.extractLsb' 0 9))
  | _ =>
    if f.extractLsb' 12 1 = 1 then
      if f.extractLsb' 8 4 = 0 then some (.pool (f.extractLsb' 0 8)) else none
    else if f.extractLsb' 5 7 = 0 then some (.scalar (f.extractLsb' 0 5)) else none

/-- The lane-mask part of MOD (R27). -/
def decKm (m : BitVec 12) : Option (Option (BitVec 3)) :=
  if m.extractLsb' 8 1 = 1 then some (some (m.extractLsb' 9 3))
  else if m.extractLsb' 9 3 = 0 then some none else none

/-- TYPE, RND, SAT, WIN and the lane mask (R26, R27, R30). -/
def decSfx (w : Word) : Option Sfx := do
  let t ← Ty.ofCode (vTy w)
  let k ← decKm (vMod w)
  return ⟨t, Rnd.ofCode (vRnd w), vSat w == 1#1, vWin w == 1#1, k⟩

/-- A mask field (R173). -/
def decMask (f : BitVec 15) : Option (BitVec 3) := if f.toNat < 8 then some (f.setWidth 3) else none

/-- A condition that a field rule demands. -/
def need (c : Bool) : Option Unit := if c then some () else none

def mod8 (w : Word) : BitVec 8 := (vMod w).extractLsb' 0 8

def decV1 (w : Word) : Option V1 := do
  return ⟨← decOpnd (vD w), ← decOpnd (vA w), ← decSfx w⟩
def decV2 (w : Word) : Option V2 := do
  return ⟨← decOpnd (vD w), ← decOpnd (vA w), ← decOpnd (vB w), ← decSfx w⟩
def decV3 (w : Word) : Option V3 := do
  return ⟨← decOpnd (vD w), ← decOpnd (vA w), ← decOpnd (vB w), ← decOpnd (vC w), ← decSfx w⟩

/-- One source, B, C and MOD[7:0] zero. -/
def dec1 (w : Word) (f : Pred → V1 → Instr) : Option Instr := do
  need (vB w == 0 && vC w == 0 && mod8 w == 0)
  return f (wPred w) (← decV1 w)
/-- Two sources, C and MOD[7:0] zero. -/
def dec2 (w : Word) (f : Pred → V2 → Instr) : Option Instr := do
  need (vC w == 0 && mod8 w == 0)
  return f (wPred w) (← decV2 w)
/-- Three sources, MOD[7:0] zero. -/
def dec3 (w : Word) (f : Pred → V3 → Instr) : Option Instr := do
  need (mod8 w == 0)
  return f (wPred w) (← decV3 w)

/-- Three registers, FN and IMM zero (R70). -/
def decRRR (w : Word) (f : Pred → BitVec 5 → BitVec 6 → BitVec 6 → Instr) : Option Instr := do
  need (sFN w == 0 && sImm w == 0)
  return f (wPred w) (← dst5 (sD w)) (sA w) (sB w)
/-- Register and immediate, B and FN zero (R70). -/
def decRRI (w : Word) (f : Pred → BitVec 5 → BitVec 6 → BitVec 56 → Instr) : Option Instr := do
  need (sB w == 0 && sFN w == 0)
  return f (wPred w) (← dst5 (sD w)) (sA w) (sImm w)
/-- Two registers, B, FN and IMM zero (R70). -/
def decRR (w : Word) (f : Pred → BitVec 5 → BitVec 6 → Instr) : Option Instr := do
  need (sB w == 0 && sFN w == 0 && sImm w == 0)
  return f (wPred w) (← dst5 (sD w)) (sA w)
def decExt (w : Word) (f : Pred → BitVec 5 → BitVec 6 → ExtW → Instr) : Option Instr := do
  need (sB w == 0 && sImm w == 0)
  return f (wPred w) (← dst5 (sD w)) (sA w) (← ExtW.ofCode (sFN w))
def decCond (f : BitVec 6) : Option Cond := do
  need (f.extractLsb' 4 2 == 0)
  Cond.ofCode (f.extractLsb' 0 4)
def decPPP (w : Word) (f : Pred → BitVec 3 → BitVec 3 → BitVec 3 → Instr) : Option Instr := do
  need (sFN w == 0 && sImm w == 0)
  return f (wPred w) (← low3 (sD w)) (← low3 (sA w)) (← low3 (sB w))
/-- LD and LDL: FN holds sign and width (R66). -/
def decLoad (w : Word) (f : Pred → BitVec 5 → BitVec 6 → BitVec 2 → Bool → BitVec 56 → Instr) : Option Instr := do
  need (sB w == 0 && (sFN w).extractLsb' 3 3 == 0)
  return f (wPred w) (← dst5 (sD w)) (sA w) ((sFN w).extractLsb' 0 2) ((sFN w).extractLsb' 2 1 == 1#1) (sImm w)
/-- ST and STL: FN holds the width (R66). -/
def decStore (w : Word) (f : Pred → BitVec 6 → BitVec 6 → BitVec 2 → BitVec 56 → Instr) : Option Instr := do
  need (sD w == 0 && (sFN w).extractLsb' 2 4 == 0)
  return f (wPred w) (sA w) (sB w) ((sFN w).extractLsb' 0 2) (sImm w)

/-- The immediate of an AMO (R273). -/
def decAmoX (i : BitVec 56) : Option AmoX := do
  need (i.extractLsb' 55 1 == 1 && i.extractLsb' 48 4 == 0)
  return ⟨i.extractLsb' 54 1 == 1#1, i.extractLsb' 53 1 == 1#1, i.extractLsb' 52 1 == 1#1, i.extractLsb' 0 48⟩
def decAmo (w : Word) (f : Pred → BitVec 5 → BitVec 6 → BitVec 6 → AmoX → Instr) : Option Instr := do
  need (sFN w == 0)
  return f (wPred w) (← dst5 (sD w)) (sA w) (sB w) (← decAmoX (sImm w))

/-- Format B with only the named fields in use (R24, R77). -/
def decB (w : Word) (lb src off : Bool) (f : Pred → BitVec 3 → BitVec 3 → BitVec 6 → BitVec 40 → Instr) : Option Instr := do
  need ((lb || fld w 74 3 == 0) && (src || fld w 68 6 == 0) && fld w 40 28 == 0 && (off || fld w 0 40 == 0))
  return f (wPred w) (fld w 77 3) (fld w 74 3) (fld w 68 6) (fld w 0 40)

/-- The operand V of an access-engine word (R122). -/
def decV (w : Word) : Option VSrc :=
  if cRes w = 0 then
    if cPreg w = 0 then some (.imm (cImm w)) else if cImm w = 0 then some (.reg (cPreg w)) else none
  else none

/-- A handle word's handle number, ENG/OP[7:4] (R96). -/
def decHandle (w : Word) : Option (BitVec 4) := do
  need ((cEng w).extractLsb' 0 4 == 0 && cRes w == 0 && cPreg w == 0)
  return (cEng w).extractLsb' 4 4
def decHn (w : Word) (f : Pred → BitVec 4 → BitVec 10 → Instr) : Option Instr := do
  need ((cImm w).extractLsb' 10 54 == 0)
  return f (wPred w) (← decHandle w) ((cImm w).extractLsb' 0 10)
/-- A word with a token or binding in ENG/OP[7:4], a register in PREG, ADDR/IMM zero (R233, R294, R300). -/
def decTP (w : Word) (f : Pred → BitVec 4 → BitVec 6 → Instr) : Option Instr := do
  need ((cEng w).extractLsb' 0 4 == 0 && cRes w == 0 && cImm w == 0)
  return f (wPred w) ((cEng w).extractLsb' 4 4) (cPreg w)
/-- COPY and COPYX (R263). -/
def decCopy (w : Word) (f : Pred → BitVec 4 → BitVec 6 → BitVec 6 → BitVec 6 → Instr) : Option Instr := do
  need ((cEng w).extractLsb' 0 4 == 0 && cRes w == 0 && (cImm w).extractLsb' 6 2 == 0 && (cImm w).extractLsb' 14 50 == 0)
  return f (wPred w) ((cEng w).extractLsb' 4 4) (cPreg w) ((cImm w).extractLsb' 0 6) ((cImm w).extractLsb' 8 6)
/-- FILL and SPILLQ (R133). -/
def decHG (w : Word) (f : Pred → BitVec 4 → BitVec 3 → VSrc → Instr) : Option Instr := do
  need ((cEng w).extractLsb' 0 1 == 0)
  return f (wPred w) ((cEng w).extractLsb' 4 4) ((cEng w).extractLsb' 1 3) (← decV w)
/-- PSET, PRST and SENDT (R126, R136). -/
def decG (w : Word) (f : Pred → BitVec 3 → VSrc → Instr) : Option Instr := do
  need ((cEng w).extractLsb' 0 5 == 0)
  return f (wPred w) ((cEng w).extractLsb' 5 3) (← decV w)
/-- CLAIM and RELEASE (R140). -/
def decO (w : Word) (f : Pred → BitVec 6 → Instr) : Option Instr := do
  need ((cEng w).extractLsb' 0 2 == 0 && cRes w == 0 && cPreg w == 0 && cImm w == 0)
  return f (wPred w) ((cEng w).extractLsb' 2 6)
/-- A word with no operand in format S. -/
def decS0 (w : Word) (f : Pred → Instr) : Option Instr := do
  need (fld w 0 80 == 0)
  return f (wPred w)
/-- A CSRWR to one register (R68). -/
def decCsrwr (w : Word) : Option Instr := do
  need (sD w == 0 && sB w == 0 && sFN w == 0 && (sImm w).extractLsb' 12 44 == 0)
  let n : BitVec 12 := (sImm w).extractLsb' 0 12
  if n = 0x010#12 then return .domWrite (wPred w) (sA w)
  else if n = 0x070#12 then return .otbaseWrite (wPred w) (sA w)
  else if n = 0x071#12 then return .othiWrite (wPred w) (sA w)
  else if n = 0x072#12 then return .otloWrite (wPred w) (sA w)
  else if n.extractLsb' 3 9 = 0x00F#9 then return .stepWrite (wPred w) (n.extractLsb' 0 3) (sA w)
  else return .csrwr (wPred w) n (sA w)

/-- MSETM, MSETN and MSETK (R143). -/
def decMset (w : Word) (f : Pred → BitVec 2 → Opnd → Bool → Instr) : Option Instr := do
  need ((vD w).extractLsb' 2 13 == 0 && vB w == 0 && vC w == 0 && fld w 12 8 == 0 && (vMod w).extractLsb' 1 11 == 0)
  return f (wPred w) ((vD w).extractLsb' 0 2) (← decOpnd (vA w)) ((vMod w).extractLsb' 0 1 == 1#1)
/-- Every field of format V but the named ones is zero. -/
def vZero (w : Word) (d a b c sfx md : Bool) : Bool :=
  (!d || vD w == 0) && (!a || vA w == 0) && (!b || vB w == 0) && (!c || vC w == 0) && (!sfx || fld w 12 8 == 0) &&
    (!md || vMod w == 0)
/-- A word whose C field is a lane mask and whose B field is zero (R189). -/
def decMaskC (w : Word) (f : Pred → V1 → BitVec 3 → Instr) : Option Instr := do
  need (vB w == 0 && mod8 w == 0)
  return f (wPred w) (← decV1 w) (← decMask (vC w))
/-- The offset-0 slot of VPUSHC and VPOPQ (R191). -/
def decSlot0 (f : BitVec 15) : Option (BitVec 4) := do
  need (f.extractLsb' 13 2 == 2 && f.extractLsb' 0 9 == 0)
  return f.extractLsb' 9 4
/-- A whole plane named by TCFG or TDROP (R162). -/
def decPlane (f : BitVec 15) : Option (BitVec 5) := do
  need (f.extractLsb' 11 4 == 0 && f.extractLsb' 0 6 == 0)
  return f.extractLsb' 6 5
/-- SBLD and SBST (R214). -/
def decSb (w : Word) (f : Pred → Opnd → Opnd → Opnd → BitVec 3 → Instr) : Option Instr := do
  need (vZero w true false false false true false && (vMod w).extractLsb' 3 9 == 0)
  return f (wPred w) (← decOpnd (vA w)) (← decOpnd (vB w)) (← decOpnd (vC w)) ((vMod w).extractLsb' 0 3)
/-- VSTAT and VLSE (R212). -/
def decStat (w : Word) (f : Pred → Opnd → Opnd → Sfx → Instr) : Option Instr := do
  need (vD w == 0 && vC w == 0 && mod8 w == 0)
  return f (wPred w) (← decOpnd (vA w)) (← decOpnd (vB w)) (← decSfx w)

/-! ### The pairs, group by group (R43, R45, R47 to R50) -/

def decScalar (maj min : Nat) (w : Word) : Option (Option Instr) :=
  match maj with
  | 0x00 => match min with
    | 0 => some (decRRR w .add) | 1 => some (decRRR w .sub) | 2 => some (decRRI w .addi)
    | 3 => some do return .lea (wPred w) (← dst5 (sD w)) (sA w) (sB w) (sFN w) (sImm w)
    | _ => none
  | 0x01 => match min with
    | 0 => some (decRRR w .mul) | 1 => some (decRRR w .mulh) | 2 => some (decRRR w .mulhn) | 3 => some (decRRR w .div)
    | 4 => some (decRRR w .divn) | 5 => some (decRRR w .rem) | 6 => some (decRRR w .remn)
    | _ => none
  | 0x02 => match min with
    | 0 => some (decRRR w .and) | 1 => some (decRRR w .or) | 2 => some (decRRR w .xor) | 3 => some (decRRR w .andn)
    | 4 => some (decRRI w .andi) | 5 => some (decRRI w .ori) | 6 => some (decRRI w .xori)
    | _ => none
  | 0x03 => match min with
    | 0 => some (decRRR w .shl) | 1 => some (decRRR w .shr) | 2 => some (decRRR w .shra) | 3 => some (decRRR w .rotl)
    | _ => none
  | 0x04 => match min with
    | 0 => some (decRRR w .min) | 1 => some (decRRR w .max) | 2 => some (decRRR w .minn) | 3 => some (decRRR w .maxn)
    | _ => none
  | 0x05 => match min with
    | 0 => some (decRR w .clz) | 1 => some (decRR w .ffs) | 2 => some (decRR w .popc) | 3 => some (decRR w .brev)
    | 4 => some (decExt w .sext) | 5 => some (decExt w .zext)
    | _ => none
  | 0x06 => match min with
    | 0 => some do
      need (sImm w == 0 && (sFN w).extractLsb' 4 2 == 0)
      return .sel (wPred w) (← dst5 (sD w)) (sA w) (sB w) ((sFN w).extractLsb' 3 1 == 1#1) ((sFN w).extractLsb' 0 3)
    | _ => none
  | 0x07 => match min with
    | 0 => some do
      need (fld w 64 10 == 0)
      return .ldi (wPred w) (← dst5 (sD w)) (fld w 0 64)
    | _ => none
  | 0x08 => match min with
    | 0 => some do
      need (sImm w == 0)
      return .cmp (wPred w) (← low3 (sD w)) (sA w) (sB w) (← decCond (sFN w))
    | 1 => some do
      need (sB w == 0)
      return .cmpi (wPred w) (← low3 (sD w)) (sA w) (sImm w) (← decCond (sFN w))
    | _ => none
  | 0x09 => match min with
    | 0 => some (decPPP w .pand) | 1 => some (decPPP w .por) | 2 => some (decPPP w .pxor)
    | 3 => some do
      need (sB w == 0 && sFN w == 0 && sImm w == 0)
      return .pnot (wPred w) (← low3 (sD w)) (← low3 (sA w))
    | _ => none
  | 0x0A => match min with
    | 0 => some do
      need (sB w == 0 && sFN w == 0 && sImm w == 0 && (sA w).extractLsb' 2 4 == 0)
      return .ftest (wPred w) (← low3 (sD w)) ((sA w).extractLsb' 0 2)
    | 1 => some do
      need (sB w == 0 && sFN w == 0 && sImm w == 0 && (sA w).extractLsb' 2 4 == 0)
      return .fcount (wPred w) (← dst5 (sD w)) ((sA w).extractLsb' 0 2)
    | _ => none
  | _ => none

/-- BSEL's mask choice in FN (R84). -/
def decBselMask (fn : BitVec 6) : Option (Option (MaskKind × BitVec 2)) := do
  need (fn.extractLsb' 2 2 == 0)
  let i : BitVec 2 := fn.extractLsb' 0 2
  match (fn.extractLsb' 4 2).toNat with
  | 0 => return some (.pm, i)
  | 1 => return some (.pn, i)
  | 2 => return some (.pk, i)
  | _ => do need (i == 0); return none

def decControl (maj min : Nat) (w : Word) : Option (Option Instr) :=
  match maj with
  | 0x20 => match min with
    | 0 => some (decB w false false true fun p bt _ _ off => .prep p bt off)
    | 1 => some (decB w false true false fun p bt _ src _ => .prepr p bt src)
    | 2 => some (decB w false false false fun p bt _ _ _ => .br p bt)
    | 3 => some (decB w true false false fun p bt lb _ _ => .brl p bt lb)
    | 4 => some (decB w false false false fun p bt _ _ _ => .binv p bt)
    | _ => none
  | 0x21 => match min with
    | 0 => some do
      need ((sImm w).extractLsb' 6 50 == 0)
      return .bsel (wPred w) (← low3 (sD w)) (sA w) (sB w) (← decBselMask (sFN w)) (← dst5 ((sImm w).extractLsb' 0 6))
    | _ => none
  | 0x22 => match min with
    | 0 => some (decS0 w .nop)
    | 1 => some do
      need (sD w == 0 && sFN w == 0 && sImm w == 0)
      return .ifence (wPred w) (sA w) (sB w)
    | _ => none
  | 0x24 => match min with
    | 0 => some (decLoad w .ld) | 1 => some (decStore w .st) | 2 => some (decLoad w .ldl) | 3 => some (decStore w .stl)
    | _ => none
  | 0x25 => match min with
    | 0 => some (decAmo w .amoAdd) | 1 => some (decAmo w .amoMin) | 2 => some (decAmo w .amoMax)
    | 3 => some (decAmo w .amoMinn) | 4 => some (decAmo w .amoMaxn) | 5 => some (decAmo w .amoAnd)
    | 6 => some (decAmo w .amoOr) | 7 => some (decAmo w .amoXor) | 8 => some (decAmo w .amoSwap)
    | 9 => some do return .amoCas (wPred w) (← dst5 (sD w)) (sA w) (sB w) (sFN w) (← decAmoX (sImm w))
    | _ => none
  | 0x26 => match min with
    | 0 => some do
      need (sD w == 0 && sA w == 0 && sB w == 0 && sImm w == 0)
      return .fence (wPred w) (← Scope.ofCode (sFN w))
    | 1 => some do
      return .waitmem (wPred w) (← dst5 (sD w)) (sA w) (sB w) ((sFN w).extractLsb' 4 2) (← Cond.ofCode ((sFN w).extractLsb' 0 4))
        (sImm w)
    | 2 => some do
      need (sFN w == 0)
      return .semwait (wPred w) (← dst5 (sD w)) (sA w) (sB w) (sImm w)
    | 3 => some do
      need (sD w == 0 && sFN w == 0)
      return .sempost (wPred w) (sA w) (sB w) (sImm w)
    | 4 => some do
      need (sB w == 0 && sImm w == 0 && (sFN w).extractLsb' 3 3 == 0)
      return .barw (wPred w) (← dst5 (sD w)) (sA w) ((sFN w).extractLsb' 0 3)
    | _ => none
  | 0x28 => match min with
    | 0 => some do
      need (cRes w == 0)
      let e ← Eng.ofCode (cEng w)
      match (cImm w).extractLsb' 62 2 == 0#2, (cImm w).extractLsb' 62 2 == 1#2 with
      | true, _ => do
        need ((cImm w).extractLsb' 40 22 == 0)
        return .issue (wPred w) e (cPreg w) ((cImm w).extractLsb' 0 40)
      | _, true => do
        need ((cImm w).extractLsb' 6 56 == 0)
        return .issueReg (wPred w) e (cPreg w) ((cImm w).extractLsb' 0 6)
      | _, _ => none
    | 1 => some (decS0 w .rdv)
    | 2 => some (decTP w .tbind)
    | 3 => some do
      need (sD w == 0 && sA w == 0 && sB w == 0 && sFN w == 0 && (sImm w).extractLsb' 4 52 == 0)
      return .tfree (wPred w) ((sImm w).extractLsb' 0 4)
    | 4 => some (decS0 w .jobend)
    | _ => none
  | 0x2C => match min with
    | 0 => some do
      need (sD w == 0 && sA w == 0 && sB w == 0 && sFN w == 0 && (sImm w).extractLsb' 16 40 == 0)
      return .trap (wPred w) ((sImm w).extractLsb' 0 16)
    | 1 => some do
      need (sD w == 0 && sB w == 0 && sImm w == 0 && (sFN w).extractLsb' 1 5 == 0)
      if (sFN w).extractLsb' 0 1 = 1 then do
        need (sA w == 0)
        return .guardHealth (wPred w)
      else return .guard (wPred w) (sA w)
    | 2 => some (decRRI w .caprd)
    | 3 => some do
      need (sA w == 0 && sB w == 0 && sFN w == 0 && (sImm w).extractLsb' 12 44 == 0)
      return .csrrd (wPred w) (← dst5 (sD w)) ((sImm w).extractLsb' 0 12)
    | 4 => some (decCsrwr w)
    | 5 => some do
      need (sImm w == 0)
      return .grouprd (wPred w) (← dst5 (sD w)) (sA w) (sB w) (← GrpFn.ofCode (sFN w))
    | _ => none
  | _ => none

def decAccess (st : Stream) (maj min : Nat) (w : Word) : Option (Option Instr) :=
  match maj with
  | 0x40 => match min with
    | 0 => some (decG w .pset) | 1 => some (decG w .prst)
    | _ => none
  | 0x41 => match min with
    | 0 => some do
      need ((cImm w).extractLsb' 41 23 == 0)
      return .qinit (wPred w) (← decHandle w) ((cImm w).extractLsb' 0 22) ((cImm w).extractLsb' 22 3)
        ((cImm w).extractLsb' 25 10) ((cImm w).extractLsb' 35 3) ((cImm w).extractLsb' 38 3)
    | 1 => some (decHn w .waitf) | 2 => some (decHn w .waite) | 3 => some (decHn w .advh) | 4 => some (decHn w .advt)
    | _ => none
  | 0x42 => match min with
    | 0 => some do
      need (fld w 0 53 == 0)
      let cnt : BitVec 16 := fld w 62 16
      let wa := fld w 53 1 == 1#1
      need (!wa || st == .vx)
      if cnt.extractLsb' 15 1 = 1 then do
        need (cnt.extractLsb' 3 12 == 0)
        return .loop (wPred w) (fld w 78 2) (.z (cnt.extractLsb' 0 3)) (fld w 54 8) wa
      else return .loop (wPred w) (fld w 78 2) (.imm (cnt.extractLsb' 0 15)) (fld w 54 8) wa
    | _ => none
  | 0x44 => match min with
    | 0 => some (decHG w .fill) | 1 => some (decHG w .spillq)
    | 2 => some do
      need ((cEng w).extractLsb' 0 2 == 0)
      return .omld (wPred w) ((cEng w).extractLsb' 2 6) (← decV w)
    | _ => none
  | 0x45 => match min with
    | 0 => some do
      need ((cEng w).extractLsb' 0 4 == 0)
      return .bfmtw (wPred w) ((cEng w).extractLsb' 4 4) (← decV w)
    | 1 => some do
      need (cEng w == 0)
      return .spmove (wPred w) (← decV w)
    | 2 => some (decG w .sendt)
    | _ => none
  | 0x48 => match min with
    | 0 => some (decCopy w .copy) | 1 => some (decCopy w .copyx)
    | 2 => some do
      need ((cEng w).extractLsb' 0 4 == 0 && cRes w == 0 && cPreg w == 0 && (cImm w).extractLsb' 6 58 == 0)
      return .cwait (wPred w) (← dst5 ((cImm w).extractLsb' 0 6)) ((cEng w).extractLsb' 4 4)
    | 3 => some do
      need ((cEng w).extractLsb' 0 4 == 0 && cRes w == 0 && cPreg w == 0 && (cImm w).extractLsb' 3 61 == 0)
      return .ctest (wPred w) ((cImm w).extractLsb' 0 3) ((cEng w).extractLsb' 4 4)
    | _ => none
  | _ => none

/-- MMA's fields (R144). -/
def decMma (w : Word) : Option Instr := do
  need ((vD w).extractLsb' 5 10 == 0 && (vA w).extractLsb' 6 9 == 0 && (vB w).extractLsb' 6 9 == 0 &&
    (vC w).extractLsb' 6 9 == 0 && fld w 12 4 == 0 && (vMod w).extractLsb' 8 4 == 0 && (vMod w).extractLsb' 1 1 == 0)
  return .mma (wPred w) ((vD w).extractLsb' 0 5) ((vA w).extractLsb' 0 6) ((vB w).extractLsb' 0 6) ((vC w).extractLsb' 0 6)
    (← Ty.ofCode (vTy w)) ((vMod w).extractLsb' 6 2) ((vMod w).extractLsb' 4 2) ((vMod w).extractLsb' 2 2)
    ((vMod w).extractLsb' 0 1 == 1#1)

def decMatrix (maj min : Nat) (w : Word) : Option (Option Instr) :=
  match maj with
  | 0x60 => match min with
    | 0 => some (decO w .claim) | 1 => some (decO w .release)
    | _ => none
  | 0x61 => match min with
    | 0 => some (decMma w)
    | _ => none
  | 0x62 => match min with
    | 0 => some do
      need ((vD w).extractLsb' 5 10 == 0 && vZero w false true true true false true && fld w 12 4 == 0)
      return .mzero (wPred w) ((vD w).extractLsb' 0 5) (← Ty.ofCode (vTy w))
    | 1 => some do
      need ((vA w).extractLsb' 5 10 == 0 && vB w == 0 && vC w == 0 && vWin w == 0 && (vMod w).extractLsb' 8 4 == 0 &&
        (vMod w).extractLsb' 0 5 == 0)
      return .mdrain (wPred w) (← decOpnd (vD w)) ((vA w).extractLsb' 0 5) (← Ty.ofCode (vTy w)) (Rnd.ofCode (vRnd w))
        (vSat w == 1#1) ((vMod w).extractLsb' 6 2) ((vMod w).extractLsb' 5 1 == 1#1)
    | _ => none
  | 0x63 => match min with
    | 0 => some (decMset w .msetm) | 1 => some (decMset w .msetn) | 2 => some (decMset w .msetk)
    | 3 => some do
      need (vZero w true false true true false false && vTy w == 2 && fld w 12 4 == 0 && (vMod w).extractLsb' 1 11 == 0)
      return .mscale (wPred w) (← decOpnd (vA w)) ((vMod w).extractLsb' 0 1 == 1#1)
    | _ => none
  | 0x64 => match min with
    | 0 => some do
      need (vZero w true false true true true false && (vMod w).extractLsb' 2 10 == 0 && (vA w).extractLsb' 5 10 == 0)
      let a : BitVec 5 := (vA w).extractLsb' 0 5
      match ((vMod w).extractLsb' 0 2).toNat with
      | 0 => do need (a == 0); return .mstat (wPred w) .st a
      | 1 => return .mstat (wPred w) .kc a
      | 2 => return .mstat (wPred w) .md a
      | _ => none
    | _ => none
  | _ => none

/-- VCVT: MOD[7:4] is the source code; B and C are steps where a residue type needs them (R179). -/
def decVcvt (w : Word) : Option Instr := do
  let v ← decV1 w
  need ((vMod w).extractLsb' 0 4 == 0)
  let src ← Ty.ofCode ((vMod w).extractLsb' 4 4)
  let ub := v.x.ty.isRes || src.isRes
  let uc := v.x.ty.isRes && src.isRes
  need ((ub || vB w == 0) && (uc || vC w == 0))
  let b ← if ub then (decOpnd (vB w)).map some else some none
  let c ← if uc then (decOpnd (vC w)).map some else some none
  return .vcvt (wPred w) v src b c

def decVec1 (maj min : Nat) (w : Word) : Option (Option Instr) :=
  match maj with
  | 0x80 => match min with
    | 0 => some (dec2 w .vadd) | 1 => some (dec2 w .vsub) | 2 => some (dec2 w .vmul) | 3 => some (dec3 w .vfma)
    | 4 => some (dec3 w .vfms) | 5 => some (dec3 w .vfnma) | 6 => some (dec1 w .vneg) | 7 => some (dec1 w .vabs)
    | 8 => some (dec2 w .vmin) | 9 => some (dec2 w .vmax)
    | _ => none
  | 0x81 => match min with
    | 0 => some (dec2 w .vdiv) | 1 => some (dec1 w .vsqrt) | 2 => some (dec1 w .vrcp) | 3 => some (dec1 w .vrsq)
    | 4 => some (dec1 w .vexp2) | 5 => some (dec1 w .vlog2) | 6 => some (dec1 w .vexp) | 7 => some (dec1 w .vtanh)
    | 8 => some (dec1 w .vsigm)
    | _ => none
  | 0x84 => match min with
    | 0 => some (dec2 w .viadd) | 1 => some (dec2 w .visub) | 2 => some (dec2 w .vimul) | 3 => some (dec2 w .vimulh)
    | 4 => some (dec2 w .vimin) | 5 => some (dec2 w .vimax)
    | _ => none
  | 0x85 => match min with
    | 0 => some (dec2 w .vand) | 1 => some (dec2 w .vor) | 2 => some (dec2 w .vxor) | 3 => some (dec1 w .vnot)
    | 4 => some (dec2 w .vshl) | 5 => some (dec2 w .vshr) | 6 => some (dec2 w .vshra) | 7 => some (dec1 w .vclz)
    | 8 => some (dec1 w .vffs) | 9 => some (dec1 w .vpcnt)
    | _ => none
  | 0x88 => match min with
    | 0 => some (decVcvt w)
    | 1 => some do
      need (vC w == 0 && (vMod w).extractLsb' 4 4 == 0)
      return .vcmp (wPred w) (← decMask (vD w)) (← decOpnd (vA w)) (← decOpnd (vB w)) (← decSfx w)
        (← Cond.ofCode ((vMod w).extractLsb' 0 4))
    | 2 => some do
      need (mod8 w == 0)
      return .vsel (wPred w) (← decV2 w) (← decMask (vC w))
    | _ => none
  | 0x89 => match min with
    | 0 => some do
      need (vZero w false false false true true true)
      return .kand (wPred w) (← decMask (vD w)) (← decMask (vA w)) (← decMask (vB w))
    | 1 => some do
      need (vZero w false false false true true true)
      return .kor (wPred w) (← decMask (vD w)) (← decMask (vA w)) (← decMask (vB w))
    | 2 => some do
      need (vZero w false false true true true true)
      return .knot (wPred w) (← decMask (vD w)) (← decMask (vA w))
    | _ => none
  | _ => none

/-- VREDR and VREDC (R187). -/
def decRed (w : Word) (f : Pred → V1 → RedOp → Instr) : Option Instr := do
  need (vB w == 0 && vC w == 0 && (vMod w).extractLsb' 2 6 == 0)
  return f (wPred w) (← decV1 w) (← RedOp.ofCode ((vMod w).extractLsb' 0 2))

def decVec2 (maj min : Nat) (w : Word) : Option (Option Instr) :=
  match maj with
  | 0x8C => match min with
    | 0 => some (dec1 w .vmov) | 1 => some (dec2 w .vrotr) | 2 => some (dec2 w .vrotc) | 3 => some (dec1 w .vbcr)
    | 4 => some (dec1 w .vbcc) | 5 => some (decRed w .vredr) | 6 => some (decRed w .vredc) | 7 => some (dec2 w .vperm)
    | 8 => some (decMaskC w .vcmprs) | 9 => some (decMaskC w .vexpnd)
    | 10 => some do
      need (vB w == 0 && mod8 w == 0)
      return .vpushc (wPred w) (← decSlot0 (vD w)) (← decOpnd (vA w)) (← decMask (vC w)) (← decSfx w)
    | 11 => some do
      need (vB w == 0 && mod8 w == 0)
      return .vpopq (wPred w) (← decOpnd (vD w)) (← decSlot0 (vA w)) (← decMask (vC w)) (← decSfx w)
    | 12 => some (dec1 w .vtrn16)
    | _ => none
  | 0x8D => match min with
    | 0 => some do
      need (vZero w true false true true true false && mod8 w == 0)
      return .vflag (wPred w) (← decMask (vA w)) (← decKm (vMod w))
    | 1 => some do
      need ((vMod w).extractLsb' 7 5 == 0)
      let v ← decV3 w
      match ((vMod w).extractLsb' 0 2).toNat with
      | 0 => return .vsfck (wPred w) v ((vMod w).extractLsb' 2 5) .morton
      | 1 => return .vsfck (wPred w) v ((vMod w).extractLsb' 2 5) .hilbert
      | _ => none
    | _ => none
  | 0x90 => match min with
    | 0 => some do
      need (vZero w true false true true true true)
      return .winset (wPred w) (← decOpnd (vA w))
    | 1 => some do
      need (vZero w true true true true true false && (vMod w).extractLsb' 4 8 == 0)
      return .winadv (wPred w) ((vMod w).extractLsb' 0 4)
    | 2 => some do
      need (vB w == 0 && vC w == 0 && fld w 13 7 == 0 && vMod w == 0)
      return .tcfg (wPred w) (← decPlane (vD w)) (vWin w == 1#1) (← decOpnd (vA w))
    | 3 => some do
      need (vA w == 0 && vB w == 0 && vC w == 0 && fld w 13 7 == 0 && vMod w == 0)
      return .tdrop (wPred w) (← decPlane (vD w)) (vWin w == 1#1)
    | _ => none
  | _ => none

/-- VCVTK and UNCVTK: MOD[7:4] names the source; B is a step in the RES8 form (R199, R202). -/
def decVcvtk (w : Word) (res8 : Bool) (f : Pred → V1 → Option Opnd → Instr) : Option Instr := do
  need (vC w == 0 && (vMod w).extractLsb' 0 4 == 0 && (vMod w).extractLsb' 8 4 == 0)
  let v : V1 := ⟨← decOpnd (vD w), ← decOpnd (vA w), ⟨← Ty.ofCode (vTy w), Rnd.ofCode (vRnd w), vSat w == 1#1, vWin w == 1#1, none⟩⟩
  if res8 then return f (wPred w) v (some (← decOpnd (vB w)))
  else do need (vB w == 0); return f (wPred w) v none
/-- VLRELK and UNLRELK: MOD[4:0] is p (R199, R202). -/
def decLrel (w : Word) (f : Pred → V1 → BitVec 5 → Instr) : Option Instr := do
  need (vB w == 0 && vC w == 0 && (vMod w).extractLsb' 5 7 == 0)
  let v : V1 := ⟨← decOpnd (vD w), ← decOpnd (vA w), ⟨← Ty.ofCode (vTy w), Rnd.ofCode (vRnd w), vSat w == 1#1, vWin w == 1#1, none⟩⟩
  return f (wPred w) v ((vMod w).extractLsb' 0 5)

def decVec3 (maj min : Nat) (w : Word) : Option (Option Instr) :=
  match maj with
  | 0xA0 => match min with
    | 0 => some (dec2 w .vmulk) | 1 => some (dec2 w .vaddk)
    | 2 => some do
      need ((vMod w).extractLsb' 4 4 == 2)
      decVcvtk w (vTy w == 9) .vcvtk
    | 3 => some (dec2 w .vshrk) | 4 => some (decLrel w .vlrelk)
    | _ => none
  | 0xA1 => match min with
    | 0 => some (dec2 w .unmulk) | 1 => some (dec2 w .unaddk)
    | 2 => some do
      need ((vMod w).extractLsb' 4 4 == 0 || (vMod w).extractLsb' 4 4 == 9)
      decVcvtk w ((vMod w).extractLsb' 4 4 == 9) .uncvtk
    | 3 => some (dec2 w .unshrk) | 4 => some (decLrel w .unlrelk)
    | _ => none
  | 0xA2 => match min with
    | 0 => some do need (fld w 0 80 == 0); return .otmark (wPred w)
    | 1 => some do need (fld w 0 80 == 0); return .otdrop (wPred w)
    | 2 => some do
      need (vZero w true true true true true false && (vMod w).extractLsb' 11 1 == 0)
      return .otspill (wPred w) ((vMod w).extractLsb' 0 11)
    | 3 => some do
      need (vZero w true true true true true false && (vMod w).extractLsb' 2 10 == 0)
      match ((vMod w).extractLsb' 0 2).toNat with
      | 0 => return .otdepth (wPred w) .recs
      | 1 => return .otdepth (wPred w) .ent
      | 2 => return .otdepth (wPred w) .spl
      | _ => none
    | _ => none
  | 0xA8 => match min with
    | 0 => some (decStat w .vstat) | 1 => some (decStat w .vlse) | 2 => some (dec3 w .vnorms) | 3 => some (dec2 w .vsofts)
    | 4 => some (decSb w .sbld) | 5 => some (decSb w .sbst)
    | 6 => some do
      need (vZero w true false false true true true)
      return .sbclr (wPred w) (← decOpnd (vA w)) (← decOpnd (vB w))
    | _ => none
  | _ => none

def decStoreEng (maj min : Nat) (w : Word) : Option (Option Instr) :=
  match maj with
  | 0xC0 => match min with
    | 0 => some do
      if (vMod w).extractLsb' 5 1 = 1 then do
        need (vD w == 0 && vB w == 0 && (vMod w).extractLsb' 6 2 == 0 && (vMod w).extractLsb' 3 2 == 0)
        return .sdrainDev (wPred w) (← decOpnd (vA w)) (← decOpnd (vC w)) ((vMod w).extractLsb' 0 3) (← decSfx w)
      else dec1 w .sdrain
    | 1 => some (dec2 w .sacc)
    | 2 => some do
      need (fld w 12 4 == 0 && vB w == 0 && vC w == 0 && (vMod w).extractLsb' 2 10 == 0)
      match ((vMod w).extractLsb' 0 2).toNat with
      | 0 => do need (vD w == 0); return .snorm2 (wPred w) (← decOpnd (vA w)) (← Ty.ofCode (vTy w))
      | 1 => do need (vA w == 0 && vTy w == 2); return .snorm2Put (wPred w) (← decOpnd (vD w))
      | 2 => do need (vA w == 0 && vD w == 0 && vTy w == 0); return .snorm2Clr (wPred w)
      | _ => none
    | 3 => some (dec3 w .sscale)
    | _ => none
  | 0xC1 => match min with
    | 0 => some do
      need ((vMod w).extractLsb' 8 4 == 0)
      let v ← decV3 w
      return .optw (wPred w) v ((vMod w).extractLsb' 7 1 == 1#1) ((vMod w).extractLsb' 0 1 == 1#1)
        ((vMod w).extractLsb' 4 3) ((vMod w).extractLsb' 1 3)
    | 1 => some do
      need ((cEng w).extractLsb' 3 5 == 0 && cRes w == 0 && cPreg w == 0 && cImm w == 0)
      return .optstep (wPred w) ((cEng w).extractLsb' 0 3)
    | _ => none
  | _ => none

def decColl (maj min : Nat) (w : Word) : Option (Option Instr) :=
  match maj with
  | 0xC8 => match min with
    | 0 => some (decTP w .coll)
    | 1 => some do
      need (cEng w == 0 && cRes w == 0 && (cImm w).extractLsb' 6 58 == 0)
      return .collq (wPred w) (← dst5 ((cImm w).extractLsb' 0 6)) (cPreg w)
    | 2 => some (decTP w .wrrem)
    | 3 => some do
      need ((cEng w).extractLsb' 4 4 == 0)
      decTP w fun p _ r => .sigrem p r
    | 4 => some (decTP w .repart)
    | _ => none
  | _ => none

/-- The pairs valid on every stream: NOP and the handle words (R52). -/
def sharedPair (maj min : Nat) : Bool := (maj == 0x22 && min == 0) || (maj == 0x41 && decide (min ≤ 4))

/-- A pair's decoder on a stream: none where the pair is undefined or belongs to another stream (R42, R52). -/
def pairOn (st : Stream) (maj min : Nat) (w : Word) : Option (Option Instr) :=
  if sharedPair maj min then (decControl maj min w <|> decAccess st maj min w)
  else if maj == 0x42 then (if st = .sq then none else decAccess st maj min w)
  else match st with
    | .sq =>
      if maj < 0x20 then decScalar maj min w
      else if maj < 0x40 then decControl maj min w
      else if maj == 0x48 then decAccess st maj min w
      else if maj == 0xC8 then decColl maj min w else none
    | .ax => if maj == 0x48 then none else decAccess st maj min w
    | .mx => decMatrix maj min w
    | .vx =>
      if maj < 0x8A then decVec1 maj min w
      else if maj < 0xA0 then decVec2 maj min w else decVec3 maj min w
    | .sx => decStoreEng maj min w

/-- Decode a word on a stream (R33 items 1 and 2, R42). -/
def decode (st : Stream) (w : Word) : Except DecErr Instr :=
  match pairOn st (wMajor w).toNat (wMinor w).toNat w with
  | none => .error .illegal
  | some none => .error .reserved
  | some (some i) => if i.wf then .ok i else .error .reserved

/-- The follow-on word of a copy: an MMA with no predicate, in which RLS may be set (R152). -/
def decodeFow (w : Word) : Except DecErr Instr :=
  if (wMajor w).toNat = 0x61 ∧ (wMinor w).toNat = 0 then
    match pairOn .mx 0x61 0 (w &&& ~~~1#96) with
    | some (some (.mma p d a b k ty pm pn pk _)) =>
      let i (r : Bool) : Instr := .mma p d a b k ty pm pn pk r
      if p = ⟨false, 0⟩ ∧ (i false).wf then .ok (i (w.getLsbD 0)) else .error .reserved
    | none => .error .illegal
    | _ => .error .reserved
  else .error .illegal

/-! ### The encoder -/

def encHead (maj : BitVec 8) (min : BitVec 4) (p : Pred) : BitVec 16 := maj ++ min ++ BitVec.ofBool p.neg ++ p.sel

def encS (maj : BitVec 8) (min : BitVec 4) (p : Pred) (d a b fn : BitVec 6) (imm : BitVec 56) : Word :=
  encHead maj min p ++ d ++ a ++ b ++ fn ++ imm
def encI (maj : BitVec 8) (min : BitVec 4) (p : Pred) (d : BitVec 6) (imm : W64) : Word :=
  encHead maj min p ++ d ++ 0#10 ++ imm
def encB (min : BitVec 4) (p : Pred) (bt lb : BitVec 3) (src : BitVec 6) (off : BitVec 40) : Word :=
  encHead 0x20 min p ++ bt ++ lb ++ src ++ 0#28 ++ off
def encC (maj : BitVec 8) (min : BitVec 4) (p : Pred) (eng : BitVec 8) (preg : BitVec 6) (imm : W64) : Word :=
  encHead maj min p ++ eng ++ 0#2 ++ preg ++ imm
def encV (maj : BitVec 8) (min : BitVec 4) (p : Pred) (d a b c : BitVec 15) (ty : BitVec 4) (rnd : BitVec 2) (sat win : Bool)
    (md : BitVec 12) : Word :=
  encHead maj min p ++ d ++ a ++ b ++ c ++ ty ++ rnd ++ BitVec.ofBool sat ++ BitVec.ofBool win ++ md

def r6 (d : BitVec 5) : BitVec 6 := 0#1 ++ d
def p6 (f : BitVec 3) : BitVec 6 := 0#3 ++ f

def Opnd.enc : Opnd → BitVec 15
  | .plane d n ix => 0#2 ++ d.code ++ n ++ ix
  | .port g => 1#2 ++ 0#10 ++ g
  | .slot h off => 2#2 ++ h ++ off
  | .scalar s => 3#2 ++ 0#1 ++ 0#7 ++ s
  | .pool e => 3#2 ++ 1#1 ++ 0#4 ++ e

/-- A mask field (R173). -/
def k15 (k : BitVec 3) : BitVec 15 := 0#12 ++ k

/-- MOD[11:8] of a lane mask, beside MOD[7:0] (R27). -/
def encMod (km : Option (BitVec 3)) (lo : BitVec 8) : BitVec 12 :=
  match km with
  | some k => k ++ 1#1 ++ lo
  | none => 0#4 ++ lo

def encX (maj : BitVec 8) (min : BitVec 4) (p : Pred) (d a b c : BitVec 15) (x : Sfx) (lo : BitVec 8) : Word :=
  encV maj min p d a b c x.ty.code x.rnd.code x.sat x.win (encMod x.km lo)
def encV1 (maj : BitVec 8) (min : BitVec 4) (p : Pred) (v : V1) (lo : BitVec 8 := 0) : Word :=
  encX maj min p v.d.enc v.a.enc 0 0 v.x lo
def encV2 (maj : BitVec 8) (min : BitVec 4) (p : Pred) (v : V2) (lo : BitVec 8 := 0) : Word :=
  encX maj min p v.d.enc v.a.enc v.b.enc 0 v.x lo
def encV3 (maj : BitVec 8) (min : BitVec 4) (p : Pred) (v : V3) (lo : BitVec 8 := 0) : Word :=
  encX maj min p v.d.enc v.a.enc v.b.enc v.c.enc v.x lo

def encRRR (maj : BitVec 8) (min : BitVec 4) (p : Pred) (d : BitVec 5) (a b : BitVec 6) : Word := encS maj min p (r6 d) a b 0 0
def encRRI (maj : BitVec 8) (min : BitVec 4) (p : Pred) (d : BitVec 5) (a : BitVec 6) (imm : BitVec 56) : Word :=
  encS maj min p (r6 d) a 0 0 imm
def encCsrwr (p : Pred) (n : BitVec 12) (a : BitVec 6) : Word := encS 0x2C 4 p 0 a 0 0 (0#44 ++ n)
def encVS (maj : BitVec 8) (min : BitVec 4) (p : Pred) (eng : BitVec 8) : VSrc → Word
  | .imm v => encC maj min p eng 0 v
  | .reg r => encC maj min p eng r 0
def encAmoX (x : AmoX) : BitVec 56 := 1#1 ++ BitVec.ofBool x.w64 ++ BitVec.ofBool x.acq ++ BitVec.ofBool x.rel ++ 0#4 ++ x.off
def encAmo (min : BitVec 4) (p : Pred) (d : BitVec 5) (a b : BitVec 6) (x : AmoX) (c : BitVec 6 := 0) : Word :=
  encS 0x25 min p (r6 d) a b c (encAmoX x)
def encHn (min : BitVec 4) (p : Pred) (h : BitVec 4) (n : BitVec 10) : Word := encC 0x41 min p (h ++ 0#4) 0 (0#54 ++ n)
def encTP (maj : BitVec 8) (min : BitVec 4) (p : Pred) (t : BitVec 4) (preg : BitVec 6) : Word := encC maj min p (t ++ 0#4) preg 0
def encMset (min : BitVec 4) (p : Pred) (i : BitVec 2) (a : Opnd) (pat : Bool) : Word :=
  encV 0x63 min p (0#13 ++ i) a.enc 0 0 0 0 false false (0#11 ++ BitVec.ofBool pat)
def encBselMask : Option (MaskKind × BitVec 2) → BitVec 6
  | some (k, i) => k.code ++ 0#2 ++ i
  | none => 3#2 ++ 0#4

/-- The streams on which a word is valid (R52); none for an event. -/
def Instr.streams : Instr → List Stream
  | .nop _ | .qinit _ _ _ _ _ _ _ | .waitf _ _ _ | .waite _ _ _ | .advh _ _ _ | .advt _ _ _ => Stream.all
  | .loop _ _ _ _ wa => if wa then [.vx] else [.ax, .mx, .vx, .sx]
  | .pset _ _ _ | .prst _ _ _ | .fill _ _ _ _ | .spillq _ _ _ _ | .omld _ _ _ | .bfmtw _ _ _ | .spmove _ _
  | .sendt _ _ _ => [.ax]
  | .claim _ _ | .release _ _ | .mma .. | .mzero .. | .mdrain .. | .msetm .. | .msetn .. | .msetk .. | .mscale ..
  | .mstat .. => [.mx]
  | .vadd .. | .vsub .. | .vmul .. | .vfma .. | .vfms .. | .vfnma .. | .vneg .. | .vabs .. | .vmin .. | .vmax ..
  | .vdiv .. | .vsqrt .. | .vrcp .. | .vrsq .. | .vexp2 .. | .vlog2 .. | .vexp .. | .vtanh .. | .vsigm ..
  | .viadd .. | .visub .. | .vimul .. | .vimulh .. | .vimin .. | .vimax .. | .vand .. | .vor .. | .vxor .. | .vnot ..
  | .vshl .. | .vshr .. | .vshra .. | .vclz .. | .vffs .. | .vpcnt .. | .vcvt .. | .vcmp .. | .vsel .. | .kand ..
  | .kor .. | .knot .. | .vmov .. | .vrotr .. | .vrotc .. | .vbcr .. | .vbcc .. | .vredr .. | .vredc .. | .vperm ..
  | .vcmprs .. | .vexpnd .. | .vpushc .. | .vpopq .. | .vtrn16 .. | .vflag .. | .vsfck .. | .winset .. | .winadv ..
  | .tcfg .. | .tdrop .. | .vmulk .. | .vaddk .. | .vcvtk .. | .vshrk .. | .vlrelk .. | .unmulk .. | .unaddk ..
  | .uncvtk .. | .unshrk .. | .unlrelk .. | .otmark .. | .otdrop .. | .otspill .. | .otdepth .. | .vstat .. | .vlse ..
  | .vnorms .. | .vsofts .. | .sbld .. | .sbst .. | .sbclr .. => [.vx]
  | .sdrain .. | .sdrainDev .. | .sacc .. | .snorm2 .. | .snorm2Put .. | .snorm2Clr .. | .sscale .. | .optw ..
  | .optstep .. => [.sx]
  | .add .. | .sub .. | .addi .. | .lea .. | .mul .. | .mulh .. | .mulhn .. | .div .. | .divn .. | .rem .. | .remn ..
  | .and .. | .or .. | .xor .. | .andn .. | .andi .. | .ori .. | .xori .. | .shl .. | .shr .. | .shra .. | .rotl ..
  | .min .. | .max .. | .minn .. | .maxn .. | .clz .. | .ffs .. | .popc .. | .brev .. | .sext .. | .zext .. | .sel ..
  | .ldi .. | .cmp .. | .cmpi .. | .pand .. | .por .. | .pxor .. | .pnot .. | .ftest .. | .fcount .. | .prep ..
  | .prepr .. | .br .. | .brl .. | .binv .. | .bsel .. | .ifence .. | .ld .. | .st .. | .ldl .. | .stl .. | .amoAdd ..
  | .amoMin .. | .amoMax .. | .amoMinn .. | .amoMaxn .. | .amoAnd .. | .amoOr .. | .amoXor .. | .amoSwap .. | .amoCas ..
  | .fence .. | .waitmem .. | .semwait .. | .sempost .. | .barw .. | .issue .. | .issueReg .. | .rdv .. | .jobend ..
  | .tbind .. | .tfree .. | .trap .. | .guard .. | .guardHealth .. | .caprd .. | .csrrd .. | .csrwr .. | .domWrite ..
  | .otbaseWrite .. | .othiWrite .. | .otloWrite .. | .stepWrite .. | .grouprd .. | .copy .. | .copyx .. | .cwait ..
  | .ctest .. | .coll .. | .collq .. | .wrrem .. | .sigrem .. | .repart .. => [.sq]
  | _ => []

/-- The word of an instruction; events have none. -/
def encode : Instr → Option Word
  | .add p d a b => some (encRRR 0 0 p d a b)
  | .sub p d a b => some (encRRR 0 1 p d a b)
  | .addi p d a i => some (encRRI 0 2 p d a i)
  | .lea p d a b sh i => some (encS 0 3 p (r6 d) a b sh i)
  | .mul p d a b => some (encRRR 1 0 p d a b)
  | .mulh p d a b => some (encRRR 1 1 p d a b)
  | .mulhn p d a b => some (encRRR 1 2 p d a b)
  | .div p d a b => some (encRRR 1 3 p d a b)
  | .divn p d a b => some (encRRR 1 4 p d a b)
  | .rem p d a b => some (encRRR 1 5 p d a b)
  | .remn p d a b => some (encRRR 1 6 p d a b)
  | .and p d a b => some (encRRR 2 0 p d a b)
  | .or p d a b => some (encRRR 2 1 p d a b)
  | .xor p d a b => some (encRRR 2 2 p d a b)
  | .andn p d a b => some (encRRR 2 3 p d a b)
  | .andi p d a i => some (encRRI 2 4 p d a i)
  | .ori p d a i => some (encRRI 2 5 p d a i)
  | .xori p d a i => some (encRRI 2 6 p d a i)
  | .shl p d a b => some (encRRR 3 0 p d a b)
  | .shr p d a b => some (encRRR 3 1 p d a b)
  | .shra p d a b => some (encRRR 3 2 p d a b)
  | .rotl p d a b => some (encRRR 3 3 p d a b)
  | .min p d a b => some (encRRR 4 0 p d a b)
  | .max p d a b => some (encRRR 4 1 p d a b)
  | .minn p d a b => some (encRRR 4 2 p d a b)
  | .maxn p d a b => some (encRRR 4 3 p d a b)
  | .clz p d a => some (encS 5 0 p (r6 d) a 0 0 0)
  | .ffs p d a => some (encS 5 1 p (r6 d) a 0 0 0)
  | .popc p d a => some (encS 5 2 p (r6 d) a 0 0 0)
  | .brev p d a => some (encS 5 3 p (r6 d) a 0 0 0)
  | .sext p d a w => some (encS 5 4 p (r6 d) a 0 w.code 0)
  | .zext p d a w => some (encS 5 5 p (r6 d) a 0 w.code 0)
  | .sel p d a b n f => some (encS 6 0 p (r6 d) a b (0#2 ++ BitVec.ofBool n ++ f) 0)
  | .ldi p d i => some (encI 7 0 p (r6 d) i)
  | .cmp p f a b c => some (encS 8 0 p (p6 f) a b (0#2 ++ c.code) 0)
  | .cmpi p f a i c => some (encS 8 1 p (p6 f) a 0 (0#2 ++ c.code) i)
  | .pand p d a b => some (encS 9 0 p (p6 d) (p6 a) (p6 b) 0 0)
  | .por p d a b => some (encS 9 1 p (p6 d) (p6 a) (p6 b) 0 0)
  | .pxor p d a b => some (encS 9 2 p (p6 d) (p6 a) (p6 b) 0 0)
  | .pnot p d a => some (encS 9 3 p (p6 d) (p6 a) 0 0 0)
  | .ftest p f w => some (encS 10 0 p (p6 f) (0#4 ++ w) 0 0 0)
  | .fcount p d w => some (encS 10 1 p (r6 d) (0#4 ++ w) 0 0 0)
  | .prep p bt off => some (encB 0 p bt 0 0 off)
  | .prepr p bt src => some (encB 1 p bt 0 src 0)
  | .br p bt => some (encB 2 p bt 0 0 0)
  | .brl p bt lb => some (encB 3 p bt lb 0 0)
  | .binv p bt => some (encB 4 p bt 0 0 0)
  | .bsel p bt a b m d => some (encS 0x21 0 p (p6 bt) a b (encBselMask m) (0#50 ++ r6 d))
  | .nop p => some (encS 0x22 0 p 0 0 0 0 0)
  | .ifence p a b => some (encS 0x22 1 p 0 a b 0 0)
  | .ld p d a w s i => some (encS 0x24 0 p (r6 d) a 0 (0#3 ++ BitVec.ofBool s ++ w) i)
  | .st p a b w i => some (encS 0x24 1 p 0 a b (0#4 ++ w) i)
  | .ldl p d a w s i => some (encS 0x24 2 p (r6 d) a 0 (0#3 ++ BitVec.ofBool s ++ w) i)
  | .stl p a b w i => some (encS 0x24 3 p 0 a b (0#4 ++ w) i)
  | .amoAdd p d a b x => some (encAmo 0 p d a b x)
  | .amoMin p d a b x => some (encAmo 1 p d a b x)
  | .amoMax p d a b x => some (encAmo 2 p d a b x)
  | .amoMinn p d a b x => some (encAmo 3 p d a b x)
  | .amoMaxn p d a b x => some (encAmo 4 p d a b x)
  | .amoAnd p d a b x => some (encAmo 5 p d a b x)
  | .amoOr p d a b x => some (encAmo 6 p d a b x)
  | .amoXor p d a b x => some (encAmo 7 p d a b x)
  | .amoSwap p d a b x => some (encAmo 8 p d a b x)
  | .amoCas p d a b c x => some (encAmo 9 p d a b x c)
  | .fence p sc => some (encS 0x26 0 p 0 0 0 sc.code 0)
  | .waitmem p d a b w c i => some (encS 0x26 1 p (r6 d) a b (w ++ c.code) i)
  | .semwait p d a b i => some (encS 0x26 2 p (r6 d) a b 0 i)
  | .sempost p a b i => some (encS 0x26 3 p 0 a b 0 i)
  | .barw p d a l => some (encS 0x26 4 p (r6 d) a 0 (0#3 ++ l) 0)
  | .issue p e pr off => some (encC 0x28 0 p e.code pr (0#24 ++ off))
  | .issueReg p e pr ar => some (encC 0x28 0 p e.code pr (1#2 ++ 0#56 ++ ar))
  | .rdv p => some (encS 0x28 1 p 0 0 0 0 0)
  | .jobend p => some (encS 0x28 4 p 0 0 0 0 0)
  | .tbind p n pr => some (encTP 0x28 2 p n pr)
  | .tfree p n => some (encS 0x28 3 p 0 0 0 0 (0#52 ++ n))
  | .trap p c => some (encS 0x2C 0 p 0 0 0 0 (0#40 ++ c))
  | .guard p a => some (encS 0x2C 1 p 0 a 0 0 0)
  | .guardHealth p => some (encS 0x2C 1 p 0 0 0 1 0)
  | .caprd p d a i => some (encRRI 0x2C 2 p d a i)
  | .csrrd p d n => some (encS 0x2C 3 p (r6 d) 0 0 0 (0#44 ++ n))
  | .csrwr p n a => some (encCsrwr p n a)
  | .domWrite p a => some (encCsrwr p 0x010 a)
  | .otbaseWrite p a => some (encCsrwr p 0x070 a)
  | .othiWrite p a => some (encCsrwr p 0x071 a)
  | .otloWrite p a => some (encCsrwr p 0x072 a)
  | .stepWrite p n a => some (encCsrwr p (0x00F#9 ++ n) a)
  | .grouprd p d a b f => some (encS 0x2C 5 p (r6 d) a b f.code 0)
  | .pset p g v => some (encVS 0x40 0 p (g ++ 0#5) v)
  | .prst p g v => some (encVS 0x40 1 p (g ++ 0#5) v)
  | .qinit p h base sz depth pr co => some (encC 0x41 0 p (h ++ 0#4) 0 (0#23 ++ co ++ pr ++ depth ++ sz ++ base))
  | .waitf p h n => some (encHn 1 p h n)
  | .waite p h n => some (encHn 2 p h n)
  | .advh p h n => some (encHn 3 p h n)
  | .advt p h n => some (encHn 4 p h n)
  | .loop p l c bl wa =>
    some (encHead 0x42 0 p ++ l ++ (match c with | .imm n => 0#1 ++ n | .z r => 1#1 ++ 0#12 ++ r : BitVec 16) ++ bl ++
      BitVec.ofBool wa ++ 0#53)
  | .fill p h g v => some (encVS 0x44 0 p (h ++ g ++ 0#1) v)
  | .spillq p h g v => some (encVS 0x44 1 p (h ++ g ++ 0#1) v)
  | .omld p o v => some (encVS 0x44 2 p (o ++ 0#2) v)
  | .bfmtw p b v => some (encVS 0x45 0 p (b ++ 0#4) v)
  | .spmove p v => some (encVS 0x45 1 p 0 v)
  | .sendt p g v => some (encVS 0x45 2 p (g ++ 0#5) v)
  | .copy p t pr sr dr => some (encC 0x48 0 p (t ++ 0#4) pr (0#50 ++ dr ++ 0#2 ++ sr))
  | .copyx p t pr sr dr => some (encC 0x48 1 p (t ++ 0#4) pr (0#50 ++ dr ++ 0#2 ++ sr))
  | .cwait p d t => some (encC 0x48 2 p (t ++ 0#4) 0 (0#58 ++ r6 d))
  | .ctest p f t => some (encC 0x48 3 p (t ++ 0#4) 0 (0#61 ++ f))
  | .claim p o => some (encC 0x60 0 p (o ++ 0#2) 0 0)
  | .release p o => some (encC 0x60 1 p (o ++ 0#2) 0 0)
  | .mma p d a b k ty pm pn pk rls =>
    some (encV 0x61 0 p (0#10 ++ d) (0#9 ++ a) (0#9 ++ b) (0#9 ++ k) ty.code 0 false false
      (0#4 ++ pm ++ pn ++ pk ++ 0#1 ++ BitVec.ofBool rls))
  | .mzero p d ty => some (encV 0x62 0 p (0#10 ++ d) 0 0 0 ty.code 0 false false 0)
  | .mdrain p d a ty rnd sat band wrap =>
    some (encV 0x62 1 p d.enc (0#10 ++ a) 0 0 ty.code rnd.code sat false (0#4 ++ band ++ BitVec.ofBool wrap ++ 0#5))
  | .msetm p i a pat => some (encMset 0 p i a pat)
  | .msetn p i a pat => some (encMset 1 p i a pat)
  | .msetk p i a pat => some (encMset 2 p i a pat)
  | .mscale p a col => some (encV 0x63 3 p 0 a.enc 0 0 2 0 false false (0#11 ++ BitVec.ofBool col))
  | .mstat p .st _ => some (encV 0x64 0 p 0 0 0 0 0 0 false false 0)
  | .mstat p .kc a => some (encV 0x64 0 p 0 (0#10 ++ a) 0 0 0 0 false false 1)
  | .mstat p .md a => some (encV 0x64 0 p 0 (0#10 ++ a) 0 0 0 0 false false 2)
  | .vadd p v => some (encV2 0x80 0 p v)
  | .vsub p v => some (encV2 0x80 1 p v)
  | .vmul p v => some (encV2 0x80 2 p v)
  | .vfma p v => some (encV3 0x80 3 p v)
  | .vfms p v => some (encV3 0x80 4 p v)
  | .vfnma p v => some (encV3 0x80 5 p v)
  | .vneg p v => some (encV1 0x80 6 p v)
  | .vabs p v => some (encV1 0x80 7 p v)
  | .vmin p v => some (encV2 0x80 8 p v)
  | .vmax p v => some (encV2 0x80 9 p v)
  | .vdiv p v => some (encV2 0x81 0 p v)
  | .vsqrt p v => some (encV1 0x81 1 p v)
  | .vrcp p v => some (encV1 0x81 2 p v)
  | .vrsq p v => some (encV1 0x81 3 p v)
  | .vexp2 p v => some (encV1 0x81 4 p v)
  | .vlog2 p v => some (encV1 0x81 5 p v)
  | .vexp p v => some (encV1 0x81 6 p v)
  | .vtanh p v => some (encV1 0x81 7 p v)
  | .vsigm p v => some (encV1 0x81 8 p v)
  | .viadd p v => some (encV2 0x84 0 p v)
  | .visub p v => some (encV2 0x84 1 p v)
  | .vimul p v => some (encV2 0x84 2 p v)
  | .vimulh p v => some (encV2 0x84 3 p v)
  | .vimin p v => some (encV2 0x84 4 p v)
  | .vimax p v => some (encV2 0x84 5 p v)
  | .vand p v => some (encV2 0x85 0 p v)
  | .vor p v => some (encV2 0x85 1 p v)
  | .vxor p v => some (encV2 0x85 2 p v)
  | .vnot p v => some (encV1 0x85 3 p v)
  | .vshl p v => some (encV2 0x85 4 p v)
  | .vshr p v => some (encV2 0x85 5 p v)
  | .vshra p v => some (encV2 0x85 6 p v)
  | .vclz p v => some (encV1 0x85 7 p v)
  | .vffs p v => some (encV1 0x85 8 p v)
  | .vpcnt p v => some (encV1 0x85 9 p v)
  | .vcvt p v src b c =>
    some (encX 0x88 0 p v.d.enc v.a.enc ((b.map Opnd.enc).getD 0) ((c.map Opnd.enc).getD 0) v.x (src.code ++ 0#4))
  | .vcmp p k a b x cc => some (encX 0x88 1 p (k15 k) a.enc b.enc 0 x (0#4 ++ cc.code))
  | .vsel p v k => some (encX 0x88 2 p v.d.enc v.a.enc v.b.enc (k15 k) v.x 0)
  | .kand p d a b => some (encV 0x89 0 p (k15 d) (k15 a) (k15 b) 0 0 0 false false 0)
  | .kor p d a b => some (encV 0x89 1 p (k15 d) (k15 a) (k15 b) 0 0 0 false false 0)
  | .knot p d a => some (encV 0x89 2 p (k15 d) (k15 a) 0 0 0 0 false false 0)
  | .vmov p v => some (encV1 0x8C 0 p v)
  | .vrotr p v => some (encV2 0x8C 1 p v)
  | .vrotc p v => some (encV2 0x8C 2 p v)
  | .vbcr p v => some (encV1 0x8C 3 p v)
  | .vbcc p v => some (encV1 0x8C 4 p v)
  | .vredr p v op => some (encV1 0x8C 5 p v (0#6 ++ op.code))
  | .vredc p v op => some (encV1 0x8C 6 p v (0#6 ++ op.code))
  | .vperm p v => some (encV2 0x8C 7 p v)
  | .vcmprs p v k => some (encX 0x8C 8 p v.d.enc v.a.enc 0 (k15 k) v.x 0)
  | .vexpnd p v k => some (encX 0x8C 9 p v.d.enc v.a.enc 0 (k15 k) v.x 0)
  | .vpushc p h a k x => some (encX 0x8C 10 p (Opnd.slot h 0).enc a.enc 0 (k15 k) x 0)
  | .vpopq p d h k x => some (encX 0x8C 11 p d.enc (Opnd.slot h 0).enc 0 (k15 k) x 0)
  | .vtrn16 p v => some (encV1 0x8C 12 p v)
  | .vflag p k km => some (encV 0x8D 0 p 0 (k15 k) 0 0 0 0 false false (encMod km 0))
  | .vsfck p v hi .morton => some (encV3 0x8D 1 p v (0#1 ++ hi ++ 0#2))
  | .vsfck p v hi .hilbert => some (encV3 0x8D 1 p v (0#1 ++ hi ++ 1#2))
  | .winset p a => some (encV 0x90 0 p 0 a.enc 0 0 0 0 false false 0)
  | .winadv p n => some (encV 0x90 1 p 0 0 0 0 0 0 false false (0#8 ++ n))
  | .tcfg p pl win a => some (encV 0x90 2 p (Opnd.plane .whole pl 0).enc a.enc 0 0 0 0 false win 0)
  | .tdrop p pl win => some (encV 0x90 3 p (Opnd.plane .whole pl 0).enc 0 0 0 0 0 false win 0)
  | .vmulk p v => some (encV2 0xA0 0 p v)
  | .vaddk p v => some (encV2 0xA0 1 p v)
  | .vcvtk p v b => some (encX 0xA0 2 p v.d.enc v.a.enc ((b.map Opnd.enc).getD 0) 0 v.x (2#4 ++ 0#4))
  | .vshrk p v => some (encV2 0xA0 3 p v)
  | .vlrelk p v sh => some (encV1 0xA0 4 p v (0#3 ++ sh))
  | .unmulk p v => some (encV2 0xA1 0 p v)
  | .unaddk p v => some (encV2 0xA1 1 p v)
  | .uncvtk p v b =>
    some (encX 0xA1 2 p v.d.enc v.a.enc ((b.map Opnd.enc).getD 0) 0 v.x ((if b.isSome then 9#4 else 0#4) ++ 0#4))
  | .unshrk p v => some (encV2 0xA1 3 p v)
  | .unlrelk p v sh => some (encV1 0xA1 4 p v (0#3 ++ sh))
  | .otmark p => some (encV 0xA2 0 p 0 0 0 0 0 0 false false 0)
  | .otdrop p => some (encV 0xA2 1 p 0 0 0 0 0 0 false false 0)
  | .otspill p n => some (encV 0xA2 2 p 0 0 0 0 0 0 false false (0#1 ++ n))
  | .otdepth p .recs => some (encV 0xA2 3 p 0 0 0 0 0 0 false false 0)
  | .otdepth p .ent => some (encV 0xA2 3 p 0 0 0 0 0 0 false false 1)
  | .otdepth p .spl => some (encV 0xA2 3 p 0 0 0 0 0 0 false false 2)
  | .vstat p a b x => some (encX 0xA8 0 p 0 a.enc b.enc 0 x 0)
  | .vlse p a b x => some (encX 0xA8 1 p 0 a.enc b.enc 0 x 0)
  | .vnorms p v => some (encV3 0xA8 2 p v)
  | .vsofts p v => some (encV2 0xA8 3 p v)
  | .sbld p a b c tp => some (encV 0xA8 4 p 0 a.enc b.enc c.enc 0 0 false false (0#9 ++ tp))
  | .sbst p a b c tp => some (encV 0xA8 5 p 0 a.enc b.enc c.enc 0 0 false false (0#9 ++ tp))
  | .sbclr p a b => some (encV 0xA8 6 p 0 a.enc b.enc 0 0 0 false false 0)
  | .sdrain p v => some (encV1 0xC0 0 p v)
  | .sdrainDev p a c tp x => some (encX 0xC0 0 p 0 a.enc 0 c.enc x (0#2 ++ 1#1 ++ 0#2 ++ tp))
  | .sacc p v => some (encV2 0xC0 1 p v)
  | .snorm2 p a ty => some (encV 0xC0 2 p 0 a.enc 0 0 ty.code 0 false false 0)
  | .snorm2Put p d => some (encV 0xC0 2 p d.enc 0 0 0 2 0 false false 1)
  | .snorm2Clr p => some (encV 0xC0 2 p 0 0 0 0 0 0 false false 2)
  | .sscale p v => some (encV3 0xC0 3 p v)
  | .optw p v adam wd n pb => some (encV3 0xC1 0 p v (BitVec.ofBool adam ++ n ++ pb ++ BitVec.ofBool wd))
  | .optstep p n => some (encC 0xC1 1 p (0#5 ++ n) 0 0)
  | .coll p t pr => some (encTP 0xC8 0 p t pr)
  | .collq p d pr => some (encC 0xC8 1 p 0 pr (0#58 ++ r6 d))
  | .wrrem p t pr => some (encTP 0xC8 2 p t pr)
  | .sigrem p pr => some (encTP 0xC8 3 p 0 pr)
  | .repart p t pr => some (encTP 0xC8 4 p t pr)
  | _ => none

/-- The streams in the order in which the table's words are tried: the first on which the pair is valid. -/
def decodeAny (w : Word) : Option (Stream × Instr) :=
  Stream.all.findSome? fun st =>
    match decode st w with
    | .ok i => some (st, i)
    | .error _ => none

/-- The instruction the decoder reads from the bits of a table row: one word of 96 bits whose parcels the hardware stores
low-order first (R10), so that the row's numbering is the word's own. The table gives no row more bits than a word has;
bits above nbits are zero. -/
def decodeTableWord (nbits w : Nat) : Option Instr := (decodeAny (BitVec.ofNat 96 (w % 2 ^ nbits))).map Prod.snd

end Sys2Proof
end

