-- ==== Sys2Proof/Machine/Units.lean ====
section
/-! DEFINITION. The records of the units of a core and of its job: plain data. A job's own state is what a launch resets and
a pre-emption saves (R65, R86, R359); the rest belongs to the core or to the device. -/
namespace Sys2Proof.Machine

/-! ### Time -/

/-- What is left of the present device cycle: the acts of a cycle in the order in which the model takes them. -/
inductive Slot where
  | wake
  | landings
  | due
  | stream (st : Stream)
  | house
  | tick
  deriving DecidableEq, Repr

/-- An event that comes on a device cycle; `seq` keeps the order in which events were made. -/
structure Due where
  at_ : Nat
  seq : Nat
  ev : Ev
  deriving DecidableEq, Repr

/-- Why a presented word did not issue: the watchdog's causes (R364). The last kind, which no row of R364 names, is
reported as cause 5. -/
inductive Wait where
  | port | slot | token | watch | barw | claim | rdv | other
  deriving DecidableEq, Repr

/-! ### Sequencer -/

/-- A branch-target register with its prefetch buffer: the header and the first words of its target (R77). -/
structure BReg where
  addr : W64
  prep : Bool
  start : Option Nat
  ready : Bool
  buf : Option (W64 × List (BitVec 96))
  deriving DecidableEq, Repr

/-- Where the sequencer stands (R11, R19). -/
inductive SqPos where
  | off
  | header (addr : W64)
  | wait (addr hdr : W64) (tgt : List (Nat × Int))
  | run (addr hdr : W64) (idx : Nat)
  deriving DecidableEq, Repr

/-- A load or an AMO that has been asked for and has not returned to its register (R235, R273). -/
structure LdOut where
  reg : Nat
  amo : Bool
  iss : Nat
  deriving DecidableEq, Repr

/-- The scalar state of a job (R65). -/
structure Seq where
  s : Vector W64 32
  f : Vector Bool 8
  b : Vector BReg 8
  x : Vector W64 16
  z : Vector W64 8
  w0 : Bool
  w1 : Bool
  w2 : Bool
  w3 : W32
  ldm : SMap Byte
  pend : List (MaskKind × Nat × Nat)
  pos : SqPos
  buf : Option (W64 × List (BitVec 96))
  ldOut : List LdOut
  stOut : Nat
  postOut : List Nat
  amoOut : List (Nat × Nat)
  remOut : Nat
  deriving DecidableEq, Repr

/-! ### Streams -/

/-- A tensor parameter entry bound by an ISSUE, or a binding (R231, R233): its pages as (virtual base, physical base,
size). -/
structure TpEnt where
  v : Bool
  wr : Bool
  rd : Bool
  bnd : Option Nat
  base : Nat
  len : Nat
  pages : List (Nat × Nat × Nat)
  deriving DecidableEq, Repr

/-- A section in a command queue (R89). -/
structure QEnt where
  addr : W64
  hdr : W64
  tgt : List (Nat × Int)
  preds : BitVec 8
  snap : Vector W64 32
  pend : List (MaskKind × Nat × Nat)
  enter : Nat
  pages : List (Nat × Nat × Nat)
  tp : List TpEnt
  num : Nat
  held : List Nat
  deriving DecidableEq, Repr

/-- A loop being run (R167): its body is words `start` to `stop - 1` of the section. -/
structure Frame where
  start : Nat
  stop : Nat
  n : Nat
  lc : Nat
  wa : Bool
  deriving DecidableEq, Repr

/-- A section whose last word has issued and which has not retired (R90). -/
structure Ended where
  num : Nat
  hdr : W64
  word : WordRef
  pages : List (Nat × Nat × Nat)
  tp : List TpEnt
  deriving DecidableEq, Repr

/-- A read of a slot operand at the engine point (R98): the word issues when all of its reads are delivered. -/
structure SRead where
  addr : Nat
  len : Nat
  grant : Option Nat
  data : List Byte
  deriving DecidableEq, Repr

/-- An entry of the translation cache: one leaf of a table (R228, R230). -/
structure TlbEnt where
  root : Nat
  va : Nat
  pa : Nat
  size : Nat
  r : Bool
  w : Bool
  x : Bool
  deriving DecidableEq, Repr

/-- A read of a descriptor or a table that a word has asked for: what has come back, or the fault that the word takes (R232, R233). -/
structure DescRd where
  va : Nat
  len : Nat
  data : Option (List Byte)
  fault : Option FaultRec
  deriving DecidableEq, Repr

/-- How far a word that takes several cycles has come, what it has in hand, the ranges in flight that it waits for (R254), the leaves
that walks have found for it (R230) and the descriptors that it reads. -/
structure Micro where
  phase : Nat
  k : Nat
  due : Nat
  rds : List SRead
  got : List (List Byte)
  val : W64
  ranges : List Nat
  leaves : List TlbEnt
  descs : List DescRd
  deriving DecidableEq, Repr

/-- One of the four engine streams (R86 to R91, R167, R169). -/
structure EngSt where
  q : List QEnt
  cur : Option QEnt
  idx : Nat
  frames : List Frame
  lbuf : List (Nat × BitVec 96)
  lbr : Option (W64 × W64)
  ended : List Ended
  deriving DecidableEq, Repr

/-! ### Handles, ports, bank requests -/

/-- A queue handle (R96, R97), its pack counts and open pack slots (R190), the slots that have arrived and are not
published (R136). -/
structure Handle where
  init : Bool
  base : Nat
  sz : Nat
  depth : Nat
  prod : Nat
  cons : Nat
  rh : Nat
  wh : Nat
  f : Nat
  u : Nat
  v : Nat
  arrived : List (Nat × List Nat)
  rel : List (List Nat)
  deriving DecidableEq, Repr

/-- An element a read port has fetched: its bits and, where the bank converts, the format and step of its grant (R122). -/
structure PElem where
  bits : W32
  fmt : BitVec 4
  step : W32
  deriving DecidableEq, Repr

/-- A vector in a port's buffer: the walk positions it covers from `pos` on, the elements fetched or pushed, how many are done.
A vector read has its first pop at `ready`; one pushed bears a number there, is requested from `since` on, and carries the
operand's type, rounding and saturation, and the elements that stand as zero because a mask excludes them; one that SPILLQ pushed
bears the formats of its slot's bank (R111, R123, R128, R133). -/
structure PVec where
  pos : Nat
  cnt : Nat
  elems : List PElem
  ready : Nat
  ty : Ty
  rnd : Rnd
  sat : Bool
  done : Nat
  since : Nat
  word : WordRef
  bank : Bool
  off : List Nat
  deriving DecidableEq, Repr

/-- A port (R124, R125, R128). `out` holds the vectors that a word of three pops has taken and not yet used (R127). -/
structure Port where
  cfg : Bool
  desc : Nat
  strm : Nat
  wr : Bool
  vec : Nat
  esz : Nat
  wrap : Bool
  base : Nat
  lvls : List (Nat × Int)
  pos : Nat
  fpos : Nat
  since : Nat
  buf : List PVec
  out : List PVec
  deriving DecidableEq, Repr

/-- A slot write asked for at the engine point of its bank (R98): its bytes by address, and the slots it fills and publishes
(R191). -/
structure SWrite where
  st : Stream
  sec : Nat
  h : Nat
  parts : List (Nat × List Byte)
  pub : Nat
  word : WordRef
  deriving DecidableEq, Repr

/-! ### Matrix engine -/

/-- The states of an operand slot (R139). -/
inductive OState where
  | empty | filling | full | held | reserved
  deriving DecidableEq, Repr

/-- An operand slot: 48 bits an element hold a floating code or the three channels of W8 or W16 (R138, R112). -/
structure OSlot where
  st : OState
  tag : BitVec 4
  pair : Bool
  data : SMap W48
  rel : List Nat
  deriving DecidableEq, Repr

inductive TMode where
  | none | fp | w8 | w16
  deriving DecidableEq, Repr

/-- An accumulator tile (R141). -/
structure Tile where
  mode : TMode
  kc : Nat
  data : SMap W48
  deriving DecidableEq, Repr

/-- What an MMA adds on its landing (R145): the masks and the two operands as they were read. -/
structure MmaEff where
  d : Nat
  ty : Ty
  k : Nat
  a : SMap W48
  b : SMap W48
  pm : W64
  pn : W64
  pk : W64
  deriving DecidableEq, Repr

/-- A follow-on word in the queue (R152, R153). -/
structure FollowOn where
  copy : Nat
  word : Instr
  ref : WordRef
  slot : Nat
  deriving DecidableEq, Repr

/-- The matrix state that a job owns (R138 to R142, R148, R111). -/
structure Mx where
  o : Vector OSlot 64
  a : Vector Tile 32
  pm : Vector W64 4
  pn : Vector W64 4
  pk : Vector W64 4
  srow : Vector W32 64
  scol : Vector W32 64
  ncr : Bool
  qx : Bool
  deriving DecidableEq, Repr

/-- The array (R146, R153): its own count of cycles, which stands still where MMAs of MX that have not landed do; the cycle of that
count from which it is free, slots being read with the last cycle of the read, the follow-on queue, the follow-on landings and the
slots that follow-ons release. -/
structure ArraySt where
  t : Nat
  free : Nat
  reads : List (Nat × Nat)
  fq : List FollowOn
  fland : List (Nat × MmaEff)
  rls : List (Nat × Nat)
  deriving DecidableEq, Repr

/-! ### Vector engine, outtake stack, statistics -/

/-- A physical plane with its shape and its owner tag (R157 to R163). -/
structure Plane where
  owner : Option Nat
  cfg : Bool
  dirty : Bool
  shape : BitVec 12
  data : SMap W32
  deriving DecidableEq, Repr

/-- A record of the outtake stack: its tag, its element count and the words of its entries, 64 an entry (R195, R207). -/
structure OtRec where
  tag : W32
  n : Nat
  data : List W32
  deriving DecidableEq, Repr

/-- A spill under way (R205): its number, the entries of its record, where it is written, the lines that have left, the cycle on
which the first leaves; once its trailer line is served, the cycle on which OCC falls. -/
structure OtSpill where
  id : Nat
  n : Nat
  va : Nat
  sent : Nat
  start : Nat
  done : Option Nat
  deriving DecidableEq, Repr

/-- A fill under way (R206), or the reading of a trailer for OTDROP: its number, where the trailer stands, the lines that have left
and the cycle on which the first leaves, of the trailer or, once that is checked, of the data; what has come back, and when the last does. -/
structure OtFill where
  id : Nat
  drop : Bool
  va : Nat
  data : Bool
  sent : Nat
  start : Nat
  tag : W32
  n : Nat
  cnt : Nat
  got : List (Nat × List Byte)
  back : Nat
  deriving DecidableEq, Repr

/-- The outtake stack of a job (R195 to R198, R205, R206): its on-chip records, oldest first; DEPTH, its markers, SP, BRK; OTBASE,
OTHI and OTLO; the spill and the fill under way; the spills that were cancelled, of which no further line is written; whether a
spill is to follow one that has completed, a word waits for a spill or for a fill; the copies whose ranges held up its lines (R254). -/
structure Ot where
  recs : List OtRec
  depth : Nat
  marks : Nat
  sp : Nat
  brk : Bool
  base : W64
  hi : Nat
  lo : Nat
  spill : Option OtSpill
  fill : Option OtFill
  cut : List Nat
  cont : Bool
  force : Bool
  want : Bool
  ranges : List Nat
  deriving DecidableEq, Repr

/-- The vector state that a job owns (R160, R165, R54). -/
structure Vx where
  k : Vector (BitVec 1024) 8
  wbase : BitVec 4
  perm : Option Nat
  deriving DecidableEq, Repr

/-! ### Copies and tokens -/

/-- The states of a token (R269). -/
inductive TokSt where
  | idle | busy | done | err
  deriving DecidableEq, Repr

structure Tok where
  st : TokSt
  status : W64
  held : List Nat
  deriving DecidableEq, Repr

/-- A result that lands on a job cycle (R55). -/
inductive Eff where
  | sreg (r : Nat) (v : W64)
  | freg (i : Nat) (v : Bool)
  | wbits (any all none : Bool) (cnt : W32)
  | wcnt (v : W32)
  | wcntMx (v : W32)
  | statClr
  | breg (i : Nat) (t : Option W64)
  | pend (k : MaskKind) (i n : Nat)
  | ldm (a : Nat) (d : List Byte)
  | lanes (p : Nat) (l : List (Nat × W32))
  | shape (p : Nat) (v : Option (BitVec 12))
  | kmask (i : Nat) (m v : BitVec 1024)
  | wset (b : BitVec 4)
  | wadv (n : BitVec 4)
  | push (g id : Nat) (l : List W32) (off : List Nat)
  | slotW (h : Nat) (parts : List (Nat × List Byte)) (pub : Nat) (w : WordRef)
  | qinit (h : Nat) (base sz depth prod cons : Nat)
  | advh (h n : Nat) (word : Bool)
  | advt (h n : Nat) (rel : List Nat)
  | sticky (ncr qx : Bool)
  | bfmt (bank : Nat) (v : W64)
  | mma (m : MmaEff)
  | mzero (ts : List Nat) (m : TMode)
  | mset (k : MaskKind) (i : Nat) (v : W64)
  | mscale (col : Bool) (v : List W32)
  | claim (o : Nat)
  | release (o : Nat)
  | port (g : Nat) (p : Port)
  | orow (o r : Nat) (l : List W48)
  | ofull (o : Nat)
  | skind (kind : Nat) (rows : List Nat)
  | stat (kind : Nat) (ty : Ty) (rows : List (Nat × List W32))
  | nacc (v : W32)
  | naccAdd (ty : Ty) (l : List W32)
  | otPush (cls sig n : Nat) (data : List W32)
  | otPop (n : Nat)
  | othr (hi : Bool) (v : Nat)
  | ostep (n : Nat) (v : W32)
  | nop
  deriving DecidableEq, Repr

/-- An entry of a delay line (R55): when it lands, whose it is, in which section, when its word issued. -/
structure DEnt where
  land : Nat
  st : Stream
  sec : Nat
  iss : Nat
  eff : Eff
  deriving DecidableEq, Repr

end Sys2Proof.Machine
end

