-- ==== Sys2Proof/Machine/Shared.lean ====
section
/-! DEFINITION. The records of the units that a core shares with the device: translation, the call sheet, copies, atomic engines,
domains, collectives, repartition, the queues and slots of the Grip (chapters 13 to 18). -/
namespace Sys2Proof.Machine

/-! ### Translation and fetch -/

/-- The in-flight counter of a page: the commands that hold it (R230). -/
structure Pin where
  root : Nat
  va : Nat
  pa : Nat
  size : Nat
  count : Nat
  deriving DecidableEq, Repr

/-- A walk under way for a word, a fetch or a prefetch, and a fault it met (R229, R230). -/
structure Walk where
  st : Stream
  va : Nat
  acc : Perm
  deriving DecidableEq, Repr

/-- How far a walk has come: the level whose entry is being read, and the table it is read from. -/
structure WalkRd where
  walk : Walk
  level : Nat
  table : Nat
  deriving DecidableEq, Repr

/-- A line of the stream cache, by physical line number (R13): its bytes, the root and the virtual address of every fetch that has named
it, whether it was read bad (R365). The store of an atomic engine is made of lines too. -/
structure ScLine where
  line : Nat
  data : List Byte
  vas : List (Nat × Nat)
  bad : Bool
  deriving DecidableEq, Repr

/-! ### Scratchpad entries and copies -/

/-- An entry of a range scoreboard (R132): its operation, its bounds, the cycle on which it was entered, whether it writes there. The
owner is a copy's number, or none for SPMOVE. -/
structure SbEnt where
  owner : Option Nat
  core : Nat
  lo : Nat
  hi : Nat
  at_ : Nat
  wr : Bool
  deriving DecidableEq, Repr

/-- A device-memory range in flight (R254): the operation that owns it, by party, and its number. -/
structure DevRange where
  id : Nat
  party : Nat
  lo : Nat
  hi : Nat
  deriving DecidableEq, Repr

/-- One end of a copy (R261). One in an external buffer bears the BASE of its handle as its check found it (R242, R243). -/
inductive End where
  | dev (va : Nat) (pages : List (Nat × Nat × Nat))
  | spad (core off : Nat)
  | ext (handle gen off base : Nat)
  | oslot (o : Nat)
  deriving DecidableEq, Repr

/-- A level of a copy's walk (R261): bound, source stride, destination stride. -/
structure CLvl where
  n : Nat
  ss : Int
  ds : Int
  deriving DecidableEq, Repr

/-- The phases of a copy: in the queue, under service, retired and waiting for its completion (R266, R267). -/
inductive CPhase where
  | queued | active | retired
  deriving DecidableEq, Repr

/-- A copy in the queue or under service (R259 to R268). `rdPos` and `wrPos` count the positions asked for, in service order;
`rdOut` and `wrOut` the requests that are out; `stage` holds by walk position the elements that have come back and are not
written, `reads` counts those that have come back; `keep` the bytes that writes have replaced before they were read. -/
structure Copy where
  id : Nat
  jobId : Nat
  own : Bool
  token : Nat
  word : WordRef
  desc : Nat
  src : End
  dst : End
  sfmt : BitVec 4
  dfmt : BitVec 4
  esz : Nat
  desz : Nat
  lvls : List CLvl
  tr : Bool
  fow : Option Instr
  post : Option (Nat × Nat)
  ph : CPhase
  rdPos : Nat
  wrPos : Nat
  rdOut : Nat
  wrOut : Nat
  stage : List (Nat × PElem)
  reads : Nat
  keep : List (Nat × Byte)
  held : List Nat
  phase : Nat
  root : Nat
  pins : List (Nat × Nat × Nat)
  fjoin : Bool
  acked : Bool
  deriving DecidableEq, Repr

/-- A request at the external point of a bank (R130): of a copy of this core by walk positions, or of another core's by its bytes. -/
structure ExtReq where
  arr : Nat
  core : Nat
  id : Nat
  wr : Bool
  pos : List Nat
  els : List (Nat × PElem)
  w : Nat
  party : Nat
  phase : Nat
  held : List Nat
  deriving DecidableEq, Repr

/-! ### Call sheet and handles -/

/-- The deals of the call sheet: the default (R239), or another the driver names (R241, R331). -/
structure LastServed where
  owner : Owner
  stack : Nat
  cyc : Nat
  slot : Nat
  deriving DecidableEq, Repr

/-- An access of a unit outside the jobs by lines, each served in the owner's slots (R239, R240): the lines that are out, who makes it and
what it holds, whether a race is raised (R253), the bytes read, or of a write the lines written, by virtual address, whether a race or
bad data stopped it, for an operation of a job with the code and the two words of its fault, and the event that goes on when the
last line is served. -/
structure UnitOp where
  id : Nat
  left : Nat
  party : Nat
  held : List Nat
  raced : Bool
  got : List (Nat × List Byte)
  bad : Bool
  fault : Option (Nat × W64 × W64)
  next : Ev
  deriving DecidableEq, Repr

/-! ### Atomic engines -/

/-- The release set of a line with its phase (R250). -/
structure RelSet where
  line : Nat
  phase : Nat
  parties : List Nat
  deriving DecidableEq, Repr

/-- A fill on its way to an atomic engine, or come, with the requests parked on it (R271); one that a plain write's notice has
overtaken serves those and none later. -/
structure AFill where
  id : Nat
  line : Nat
  data : Option (List Byte)
  reqs : List AtomReq
  live : Bool
  deriving DecidableEq, Repr

/-- An atomic engine (R271 to R276): its store as lines in order of use, arrivals by cycle, its arrival queue, fills, watches,
release sets, atomic-write numbers by line, the numbers that the stacks have applied, the pointer of the ring, the cycle from
which it takes its next request. -/
structure Atom where
  store : List ScLine
  arr : List (Nat × AtomReq)
  queue : List AtomReq
  fills : List AFill
  nfill : Nat
  watches : List AtomReq
  rels : List RelSet
  seqs : SMap Nat
  applied : SMap Nat
  ptr : Nat
  next : Nat
  deriving DecidableEq, Repr

/-! ### Domains -/

/-- An instance of a synchronisation domain as this device sees it (R278, R282): members are the cores whose jobs belong to
it, `arrived` those whose job has arrived; `closing` is set once the last has; `start` is the cycle from which its next act may
come. Of a gang also its nodes, the latency of its class, the dissemination rounds it has started, and those whose packet has come. -/
structure Dom where
  lvl : Nat
  inst : Nat
  nodes : List Nat
  lam : Nat
  count : Nat
  members : List Nat
  arrived : List Nat
  held : List Nat
  closing : Bool
  round : Nat
  start : Nat
  remote : List (Nat × Nat)
  deriving DecidableEq, Repr

/-! ### Collectives -/

/-- A level of an explicit nest (R289): its bound, peer expression, SYNC and C, its strides in bytes here and at the peer. -/
structure NLvl where
  n : Nat
  pexp : Nat
  sync : Bool
  c : Nat
  ls : Int
  rs : Int
  deriving DecidableEq, Repr

/-- The fields of a collective record (R287, R288). -/
structure CollRec where
  group : Nat
  src : Nat
  src2 : Nat
  dst : Nat
  count : Nat
  comp : Nat
  blk : Nat
  root : Nat
  vc : Nat
  alg : Nat
  red : Nat
  dt : Ty
  op : Nat
  lvls : List NLvl
  deriving DecidableEq, Repr

/-- A transfer of a collective's schedule at this rank (R289, R292): its interval, its peer, whether it is sent or awaited, its first
byte of the image here and at the peer, its length in bytes, and whether it is combined or copied. -/
structure Xfer where
  itv : Nat
  peer : Nat
  send : Bool
  off : Nat
  roff : Nat
  len : Nat
  comb : Bool
  deriving DecidableEq, Repr

/-- A collective in flight at this device (R287 to R298): what the record and the table gave, its schedule, how far it has come
(`stage` 0 until the image of the present chunk stands, 1 in its intervals, 2 while its output is written), the output blocks that are
final, the output elements of blocks that are not, its status once it is over, whether its record is being written, whether an access
of the reducers is out. -/
structure Coll where
  rcd : CollRec
  gid : Nat
  num : Nat
  rid : Nat
  core : Nat
  jobId : Nat
  token : Nat
  root : Nat
  ranks : Nat
  rank : Nat
  nodes : List Nat
  op : Nat
  red : Nat
  dt : Ty
  vc : Nat
  count : Nat
  query : W64
  src : Nat
  src2 : Nat
  dst : Nat
  comp : Nat
  pages : List (Nat × Nat × Nat)
  sched : List Xfer
  itvs : Nat
  chunks : Nat
  chunk : Nat
  itv : Nat
  stage : Nat
  image : SMap W32
  arrivals : List RedPkt
  blocks : List Nat
  outp : SMap W32
  held : List Nat
  fin : Option W64
  wrote : Bool
  busy : Bool
  deriving DecidableEq, Repr

/-! ### Repartition -/

/-- A REPART pass in flight at this device (R304 to R315): its record's fields, its elements' keys and weights, the round it is in,
for every boundary the key bits found so far with the weight below them, the destinations once they are known, what it has
received and retained, whether any rank retains, its status once it is over and whether its record is being written, whether an
access of its units is out, the number that its acknowledgements name and
how many it awaits (R314), and what the members compare (R313). -/
structure Rep where
  gid : Nat
  num : Nat
  rid : Nat
  core : Nat
  jobId : Nat
  token : Nat
  root : Nat
  ranks : Nat
  rank : Nat
  nodes : List Nat
  ctrl : W64
  src : Nat
  nsrc : Nat
  rbuf : Nat
  rcap : Nat
  rhave : Nat
  comp : Nat
  reta : Nat
  retcap : Nat
  lo : List W32
  cell : List W32
  pages : List (Nat × Nat × Nat)
  keys : List (Nat × Nat)
  clamps : Nat
  round : Nat
  bnd : List (Nat × Nat)
  total : Nat
  dests : Option (List Nat)
  recv : Nat
  kept : List Nat
  ovf : Bool
  held : List Nat
  fin : Option W64
  wrote : Bool
  busy : Bool
  ack : Nat
  left : Nat
  key : List Nat
  deriving DecidableEq, Repr

/-- A one-sided write or signal in flight (R300, R301): the acknowledgements it awaits; of what it is to send the source, the length or
the increment, the offset, the binding, the channel and the destination; whether it has been sent; the copies whose ranges held up
the reading of its source (R254). -/
structure Remote where
  id : Nat
  gid : Nat
  core : Nat
  jobId : Nat
  token : Option Nat
  left : Nat
  bad : Bool
  held : List Nat
  root : Nat
  pages : List (Nat × Nat × Nat)
  word : WordRef
  src : Nat
  len : Nat
  off : Nat
  bix : Nat
  vc : Nat
  dst : Nat
  sent : Bool
  ranges : List Nat
  deriving DecidableEq, Repr

/-- A WRREM that is arriving (R300): who sends it under which number, the bytes to come, and where they go if its check has passed. -/
structure WrIn where
  src : Nat
  id : Nat
  left : Nat
  place : Option (Nat × List (Nat × Nat × Nat))
  deriving DecidableEq, Repr

/-! ### The Grip -/

/-- A packet that has been accepted and has not completed (R320, R321). -/
structure Pkt where
  id : Nat
  ty : Nat
  seq : W32
  csem : Nat
  left : Nat
  fault : Bool
  deriving DecidableEq, Repr

/-- Where a task stands. -/
inductive TaskSt where
  | waiting | placed | running
  deriving DecidableEq, Repr

/-- The task index that stands for a graph's run as a whole, which is dispatched as one task of its core set (R335). -/
def wholeGraph : Nat := 4096

/-- A task accepted at a queue (R320, R323), or a task of a running graph with its jobs placed: what each of its jobs is launched
with, the cycle since which it waits, the cycle from which all its cores have its jobs at their head (of a waiting task, that of its request for pre-emption), its jobs that have ended,
those that have reached their check point, with the kind of a guard that failed, and the cores that it has asked for and waits for
(R326 to R328, R345). -/
structure Task where
  id : Nat
  q : Nat
  pkt : Nat
  slot : Nat
  ncore : Nat
  xs : List W64
  zs : List W64
  gidTab : Option (Nat × List Nat)
  levels : Nat
  st : TaskSt
  since : Nat
  ended : Nat
  cores : List Nat
  graph : Option (Nat × Nat)
  epoch : Nat
  rel : Option Nat
  checks : List (Nat × Option Bool)
  want : List Nat
  deriving DecidableEq, Repr

/-- A mapped queue with its thread (R317 to R322): its descriptor, the host context that registered it with its page table, the ring's
head and tail, the stop, the cycle from which the thread takes its next packet, whether it is blocked on a WAIT, the packets that
have started and not completed, the deficit of R323; of the packet at the head what it has read and what it has asked to read; how
many writes of its packets have not been served. -/
structure Queue where
  d0 : W64
  d1 : W64
  ctx : Nat
  root : Nat
  head : Nat
  tail : Nat
  stop : Bool
  code : Byte
  seq : W32
  next : Nat
  blocked : Bool
  nextId : Nat
  pkts : List Pkt
  deficit : Nat
  got : List (Nat × List Byte)
  ask : Option (Nat × Nat)
  owed : Nat
  deriving DecidableEq, Repr

/-- What an atomic engine tells the Grip: its answer to a packet's wait, the service of a packet's write, of a reel's post (R320, R341). -/
inductive GripAck where
  | answer (q pk : Nat)
  | served (q pk : Nat)
  | post (graph sem : Nat)
  deriving DecidableEq, Repr

/-- The states of a residency slot (R324). -/
inductive SlotSt where
  | free | loading | resident | evicting
  deriving DecidableEq, Repr

/-- A definition that an object exports (R369, R370): its name, whether it is weak, its address and size. -/
structure Export where
  name : List Byte
  weak : Bool
  at_ : Nat
  size : Nat
  deriving DecidableEq, Repr

/-- A loaded object as the launches and the live maps use it (R324, R368, R358): live-map entries go by the address of their header. -/
structure Obj where
  img : Nat
  len : Nat
  root : Nat
  ctx : Nat
  entry : W64
  texts : List (Nat × Nat)
  data : Nat
  xdata : Option Nat
  ncore : Nat
  defdeal : Bool
  pool : List W32
  live : List (Nat × List Byte)
  exports : List Export
  imports : List (List Byte)
  pages : List (Nat × Nat × Nat)
  hash : List Byte
  deriving DecidableEq, Repr

/-- A residency slot (R324): the tasks accepted for it that have not ended, the EVICTSLOT packets that wait, its load report. -/
structure RSlot where
  st : SlotSt
  ver : W16
  obj : Option Obj
  jobs : Nat
  evq : List (Nat × Nat)
  report : List W64
  deriving DecidableEq, Repr

end Sys2Proof.Machine
end

