-- ==== Sys2Proof/Machine/Reel.lean ====
section
/-! DEFINITION. The records of graphs, reels and cuts, of the launched job and of the platform (chapters 19 to 22). -/
namespace Sys2Proof.Machine

/-! ### Graphs and reels -/

/-- A reel record (R340). -/
inductive ReelRec where
  | launch (task j : Nat)
  | copy (task : Nat)
  | semwait (task s v : Nat)
  | sempost (task s : Nat)
  | guard (task k : Nat) (health : Bool) (v : W64)
  | mark (task : Nat)
  | fin (n : Nat)
  deriving DecidableEq, Repr

/-- The 128 bits of a record (R340). -/
def ReelRec.encode (r : ReelRec) : BitVec 128 :=
  let put (ty task body : Nat) : BitVec 128 := BitVec.ofNat 128 (ty * 2 ^ 124 + task % 2 ^ 12 * 2 ^ 108 + body)
  match r with
  | .launch t j => put 1 t (j % 2 ^ 8 * 2 ^ 100)
  | .copy t => put 2 t 0
  | .semwait t s v => put 3 t (s % 2 ^ 12 * 2 ^ 96 + v % 2 ^ 64)
  | .sempost t s => put 4 t (s % 2 ^ 12 * 2 ^ 96 + 1)
  | .guard t k h v => put 5 t (k % 2 ^ 4 * 2 ^ 96 + (if h then 2 ^ 92 else 0) + v.toNat)
  | .mark t => put 6 t 0
  | .fin n => put 7 0 (n % 2 ^ 32)

/-- A record's meaning; none where its bits break R340's table. -/
def ReelRec.decode (w : BitVec 128) : Option ReelRec :=
  let n := w.toNat
  let t := n / 2 ^ 108 % 2 ^ 12
  let b := n % 2 ^ 108
  if n / 2 ^ 120 % 2 ^ 4 ≠ 0 then none
  else match n / 2 ^ 124 with
    | 1 => if b % 2 ^ 100 = 0 then some (.launch t (b / 2 ^ 100)) else none
    | 2 => if b = 0 then some (.copy t) else none
    | 3 => if b / 2 ^ 64 % 2 ^ 32 = 0 then some (.semwait t (b / 2 ^ 96) (b % 2 ^ 64)) else none
    | 4 => if b % 2 ^ 96 = 1 then some (.sempost t (b / 2 ^ 96)) else none
    | 5 =>
      if b / 2 ^ 100 = 0 ∧ b / 2 ^ 93 % 2 ^ 3 = 0 ∧ b / 2 ^ 64 % 2 ^ 28 = 0 then
        some (.guard t (b / 2 ^ 96) (decide (b / 2 ^ 92 % 2 = 1)) (BitVec.ofNat 64 b))
      else none
    | 6 => if b = 0 then some (.mark t) else none
    | 7 => if t = 0 ∧ b < 2 ^ 32 then some (.fin b) else none
    | _ => none

/-- A reel of a cut: its core, whether it is the copy reel, its records with their dailies; of a recording, how many records have left the
core's reel buffer for the store (R339, R340, R348). -/
structure Reel where
  core : Nat
  copy : Bool
  recs : List (BitVec 128)
  dailies : List Nat
  sent : Nat
  deriving DecidableEq, Repr

/-- The records of a reel as they read. -/
def Reel.list (r : Reel) : List ReelRec := r.recs.filterMap ReelRec.decode

structure Cut where
  num : Nat
  reels : List Reel
  deriving DecidableEq, Repr

/-- A reel set with the blocks that it takes of the store; its semaphores stand at the start of the first (R338) (DESIGN CHOICE, log 43). -/
structure ReelSet where
  slate : W64
  enc : List Byte
  alloc : List (Option Nat)
  cores : List Nat
  cuts : List Cut
  fails : Nat
  inUse : Bool
  lastUse : Nat
  blocks : List Nat
  dropAfter : Bool
  deriving DecidableEq, Repr

/-- A task of a graph record (R333). -/
structure GTask where
  copy : Bool
  preds : List Nat
  slot : Nat
  sver : Nat
  ncore : Nat
  cbase : Nat
  csrc : Nat
  cdst : Nat
  ccore : Nat
  zs : List W64
  xmap : List Nat
  deriving DecidableEq, Repr

/-- A tensor of a graph record (R334). -/
structure GTens where
  base : Nat
  len : Nat
  ty : BitVec 4
  spad : Bool
  gcore : Nat
  deriving DecidableEq, Repr

inductive GMode where
  | none | plain | record | replay | remainder
  deriving DecidableEq, Repr

/-- Where a task of a running graph stands. -/
inductive GTaskSt where
  | waiting | placed | launched | done | failed
  deriving DecidableEq, Repr

/-- A reel's head during a replay (R341). -/
structure Streamer where
  core : Nat
  copy : Bool
  pos : Nat
  since : Nat
  lastTask : Option Nat
  dailies : List Nat
  fin : Bool
  deriving DecidableEq, Repr

/-- A graph that runs (R332 to R350): its record, its core set, its allocation, how it is scheduled. Of a replay, `sems` holds what the
answers to its posts have given its semaphores, `posts` those that wait for a job's end, `owed` counts those that are out; of a
recording, the blocks and the 4 KiB pieces that it has taken, and whether it is abandoned; of a gang, whether this device has voted. -/
structure Graph where
  id : Nat
  q : Nat
  pkt : Nat
  root : Nat
  ctx : Nat
  addr : Nat
  gidTab : Option (Nat × List Nat)
  ncoreg : Nat
  cores : List Nat
  tasks : List GTask
  tens : List GTens
  enc : List Byte
  slate : W64
  alloc : List (Option Nat)
  st : List GTaskSt
  doneJobs : List (Nat × Nat)
  mode : GMode
  cut : Nat
  segs : List Reel
  heads : List Streamer
  sems : List Nat
  posts : List (Nat × Nat × Nat)
  paused : Bool
  aborted : Bool
  placed : Bool
  decided : Option (Option Nat)
  epoch : Nat
  held : List (Nat × List Nat)
  fails : List Nat
  floorAt : Nat
  pages : List (Nat × Nat × Nat)
  owed : Nat
  blocks : List Nat
  pieces : Nat
  lost : Bool
  voted : Bool
  deriving DecidableEq, Repr

/-- What a member of a gang has told rank 0 (R350). -/
structure GangVote where
  gid : Nat
  rank : Nat
  slate : W64
  holds : Bool
  cuts : List Nat
  deriving DecidableEq, Repr

/-! ### The job of the core -/

inductive JobSt where
  | none | running | frozen | saving | ending
  deriving DecidableEq, Repr

/-- How a job of a graph is placed, for its guards (R344): position of its guards in a recording or a replayed list. -/
inductive GuardMode where
  | plain | record | replay
  deriving DecidableEq, Repr

/-- What the Grip writes for a job before job cycle 0 (R327), and where the job came from. -/
structure Launch where
  task : Nat
  jidx : Nat
  njobs : Nat
  q : Nat
  graph : Option (Nat × Nat)
  slot : Nat
  hctx : Nat
  root : Nat
  cls : Nat
  xs : List W64
  zs : List W64
  pool : List W32
  entry : W64
  levels : Nat
  gang : Option (Nat × List Nat)
  epoch : Nat
  held : List Nat
  guards : List (Bool × W64)
  gmode : GuardMode
  resume : Option Nat
  deriving DecidableEq, Repr

/-- Check-point state of a job (R343 to R345). -/
inductive CheckSt where
  | before | waiting | passed
  deriving DecidableEq, Repr

/-- Rendezvous, section counts and stalls of the five streams (R86, R89, R94). -/
structure Flow where
  issued : Vector Nat 5
  retired : Vector Nat 5
  rdvIssued : Vector Nat 5
  rdvReached : Vector Nat 5
  rdvDone : Nat
  flags : Vector (Bool × Bool) 5
  words : Vector WordRef 5
  micro : Vector Micro 5
  stall : Vector (Option Wait) 5
  moved : Bool
  wdog : Nat
  retHeld : Vector (List (Nat × List Nat)) 5
  deriving DecidableEq, Repr

/-- A job: everything that a launch resets and a pre-emption saves, but for planes, statistics and scratchpad. -/
structure Job where
  st : JobSt
  id : Nat
  ctx : Nat
  l : Launch
  seq : Seq
  eng : Vector EngSt 4
  flow : Flow
  cycle : Nat
  dl : List DEnt
  h : Vector Handle 16
  g : Vector Port 8
  bfmt : Vector W64 16
  mx : Mx
  vx : Vx
  ot : Ot
  otPages : List (Nat × Nat × Nat)
  nacc : W32
  tok : Vector Tok 16
  bind : Vector TpEnt 16
  levels : BitVec 5
  phase0 : Nat
  held : SMap (List Nat)
  freg : Vector W64 4
  frec : Option FaultRec
  frozeAt : Nat
  side : Bool
  check : CheckSt
  guards : List (Bool × W64)
  preempt : Option Nat
  calpos : Nat
  sendOut : Nat
  deriving DecidableEq, Repr

/-- A saved context in its save area (R359, R361): the job, and the bytes of the slots of its live handles. -/
structure Saved where
  job : Job
  slots : List (Nat × List Byte)
  stat : SMap (BitVec 128)
  step : Vector W32 8
  deriving DecidableEq, Repr

/-! ### Platform -/

/-- A translation held in the flash store (R377); the store lists them by use, the latest last. -/
structure FlashEnt where
  key : List Byte
  stepping : Byte
  latver : Nat
  tsvn : Nat
  data : List Byte
  sum : List Byte
  blocks : List Nat
  deriving DecidableEq, Repr

/-- What the device sends out of the model: to the host, to other devices, to the other cores and their jobs. -/
inductive Out where
  | msix (v : Nat)
  | wrAck (k : SynPkt) (ok : Bool)
  | repHist (gid seqNo round : Nat) (h : List (Nat × Nat))
  | repCounts (gid seqNo : Nat) (c : RankCounts)
  | extWrite (handle gen addr : Nat) (d : List Byte)
  | extRead (copy : Nat) (handle gen addr len : Nat)
  | packet (port : Nat) (k : SynPkt)
  | send (m : SendMsg)
  | peerFault (core : Nat) (f : FaultRec)
  | remoteWrite (copy core : Nat) (els : List (Nat × PElem)) (w : Nat)
  | remoteRead (copy core : Nat) (offs : List Nat) (w : Nat)
  | remoteEntry (copy core lo hi : Nat) (wr enter : Bool)
  | remoteData (core copy : Nat) (els : List (Nat × PElem))
  | remoteDone (core copy : Nat) (ncr qx : Bool)
  | remoteFault (core copy code : Nat) (f2 f3 : W64)
  | atomReply (core : Nat) (eng : Bool) (v : W64) (acq : List Nat)
  | postAck (core va : Nat)
  | raceLog (f2 f3 : W64)
  | groupAbort (gid num cause : Nat)
  | groupRecord (gid num : Nat) (key : List Nat)
  | peerData (core va : Nat) (d : List Byte)
  | launch (core : Nat) (l : Launch)
  | graphCopy (core graph task : Nat) (src dst : Nat × Nat) (n : Nat)
  | preempt (core : Nat)
  | orders (core : Nat) (endJob : Bool)
  | checked (task : Nat)
  | faultRec (q : Nat) (w : List W64)
  | mailbox (status : Nat) (d : List Byte)
  | translation (key d tag : List Byte)
  | spdm (d : List Byte)
  | cxlData (d : List Byte)
  | reset
  deriving DecidableEq, Repr

/-- A core as the Grip sees it (R87, R326 to R330): the task whose job runs or is frozen there, the tasks placed in its job queue, the
graph whose core set it is in, its saved jobs, the task or, before one is dispatched, the queue that it is lent to, whether a request
for pre-emption is pending, whether a unit of it is to be tested or is fenced, the fault code of the job that is frozen. -/
structure CoreQ where
  run : Option Nat
  frozen : Bool
  q : List Nat
  graph : Option Nat
  saved : List Nat
  lent : Option (Bool × Nat)
  asked : Bool
  fenced : Bool
  fcode : Byte
  deriving DecidableEq, Repr

end Sys2Proof.Machine
end

