-- ==== Sys2Proof/Machine/State.lean ====
section
/-! DEFINITION. The state of the machine: one core with its job, the device that it shares, the Grip and the platform; and the
state right after reset. -/
namespace Sys2Proof.Machine

/-- What stops a run as a fault. Every fault of R351 is taken by the model and is a next state; none of them is here. -/
inductive Fault where
  /-- A host access in BAR2 beyond the first ALLOCGIB GiB, which do not decode (R380): raised by HOST_CXL_ACCESS. Safe: the
  model stops where the spec names no effect. -/
  | undecoded
  deriving DecidableEq, Repr

/-- What stops a run as a refusal. -/
inductive Refusal where
  /-- No meaning yet: raised by an arm of exec, by name. Safe. -/
  | notModelled (mnemonic : String)
  deriving DecidableEq, Repr

/-- What belongs to the core and not to its job: memories, caches, planes, engines at work, queues. -/
structure CoreSt where
  spad : SMap Byte
  stamps : SMap W32
  planes : Vector Plane 32
  images : List (Nat × Nat × Plane)
  stat : SMap (BitVec 128)
  step : Vector W32 8
  sc : SMap (List ScLine)
  scFill : List Nat
  scArr : List ScLine
  tlb : List TlbEnt
  pins : List Pin
  walks : List WalkRd
  walked : List Walk
  ldHeld : List (Nat × DevReq)
  sb : List SbEnt
  ranges : List DevRange
  writes : List SWrite
  won : Option (List Nat)
  banks : List Nat
  sbFull : List Nat
  arr : ArraySt
  copies : List Copy
  copyNext : Nat
  ext : List ExtReq
  copyAt : Nat × Nat
  foreign : List (Nat × Nat × Nat × Byte)
  rdLast : Nat
  wrLast : Nat
  landed : Nat × Nat
  jobq : List Launch
  saved : List Saved
  deriving DecidableEq, Repr

/-- Device memory and what serves it. -/
structure DevSt where
  mem : SMap Byte
  stamps : SMap W32
  handles : SMap (BitVec 256)
  hcount : SMap Nat
  revoked : List Nat
  deal : W32
  dealPend : Option W32
  served : List LastServed
  inval : List (Nat × Nat × Nat)
  reqs : List (Nat × DevReq)
  ops : List UnitOp
  opNext : Nat
  deriving DecidableEq, Repr

/-- Domains, collectives, repartition, one-sided writes: with the operations of other cores in flight, by group, core and kind (R295),
and the records of other members that came before this device's operation. -/
structure GroupSt where
  doms : List Dom
  seqs : List (Nat × Nat)
  colls : List Coll
  reps : List Rep
  rems : List Remote
  remNext : Nat
  early : List RedPkt
  foreign : List (Nat × Nat × Nat)
  recs : List (Nat × Nat × List Nat)
  wrs : List WrIn
  regs : List (Nat × Nat × Nat)
  deriving DecidableEq, Repr

/-- The Grip, with the fault records of the queues in BAR0 (R380): FAULT0 to FAULT3, zero where none is listed. -/
structure GripSt where
  queues : Vector Queue 32
  slots : Vector RSlot 256
  tasks : List Task
  taskNext : Nat
  turn : Vector (Option Nat) 4
  last : Vector Nat 4
  graphs : List Graph
  graphNext : Nat
  sets : List ReelSet
  cores : SMap CoreQ
  dispatch : BitVec 4
  decAt : Nat
  jobCount : Nat
  ctxCount : Nat
  asked : List (Nat × Nat × Nat)
  votes : List GangVote
  copyEnds : List (Nat × Nat × W64)
  acks : List GripAck
  copyFull : List Nat
  records : SMap (List W64)
  deriving DecidableEq, Repr

/-- The platform (R366, R367, R377, R380, R385 to R393): READY and the boot error; the fuse counter, the version of the running image,
the measurements, the attestation index; power and temperature; the matrix budget in force, that to come, whether the throttle holds,
the array cycles of this period; the fenced units; the bytes and places that hold an uncorrectable error; the units to test with the cycle on which the test started, once it has; packets discarded; the classes of
the ports; the flash store with its erase counts and the version of its translator; whether firmware runs. -/
structure PlatSt where
  ready : Bool
  bootErr : Byte
  fuse : Nat
  svn : Nat
  mr : Vector (List Byte) 8
  att : Nat
  power : Nat
  temp : Nat
  budget : Nat
  budgetNext : Nat
  throttled : Bool
  used : Nat
  fenced : BitVec 64
  bad : List BadAt
  testing : List (Nat × Option Nat)
  discarded : Nat
  classes : Vector (Option Nat) 12
  flash : List FlashEnt
  erases : SMap Nat
  tsvn : Nat
  fw : Bool
  deriving DecidableEq, Repr

/-- The machine. -/
structure State where
  variant : Config.Variant
  stepping : Byte
  coreNo : Nat
  node : W16
  cyc : Nat
  todo : List Slot
  turn : Stream
  agenda : List Due
  nseq : Nat
  fresh : Nat
  hold : Option Nat
  job : Job
  core : CoreSt
  dev : DevSt
  atoms : Vector Atom 16
  grp : GroupSt
  grip : GripSt
  plat : PlatSt
  out : List Out
  deriving DecidableEq, Repr

/-! ### Values at reset and at job start -/

def WordRef.zero : WordRef := ⟨.sq, 0, 0⟩
def BReg.init : BReg := ⟨0, false, none, false, none⟩

/-- The acts of a device cycle in the model's order (DESIGN CHOICE, log 2): what makes it a job cycle, the landings, what is due. The
vector stream is presented first, since a first touch holds every other word of the job presented on that cycle (R163). -/
def cycleSlots : List Slot :=
  [.wake, .landings, .due, .stream .vx, .stream .sq, .stream .ax, .stream .mx, .stream .sx, .house, .tick]

/-- The scalar state at job start (R65). -/
def Seq.init : Seq :=
  { s := .replicate 32 0, f := (Vector.replicate 8 false).set 0 true, b := .replicate 8 BReg.init, x := .replicate 16 0,
    z := .replicate 8 0, w0 := false, w1 := false, w2 := false, w3 := 0, ldm := [], pend := [], pos := .off, buf := none,
    ldOut := [], stOut := 0, postOut := [], amoOut := [], remOut := 0 }

def EngSt.init : EngSt := ⟨[], none, 0, [], [], none, []⟩
def Micro.init : Micro := ⟨0, 0, 0, [], [], 0, [], [], []⟩
def Handle.zero : Handle := ⟨false, 0, 0, 0, 0, 0, 0, 0, 0, 0, 0, [], []⟩
def Port.init : Port := ⟨false, 0, 0, false, 0, 0, false, 0, [], 0, 0, 0, [], []⟩
def OSlot.init : OSlot := ⟨.empty, 0, false, [], []⟩
def Tile.init : Tile := ⟨.none, 0, []⟩
def f32one : W32 := 0x3F800000

def Mx.init : Mx :=
  { o := .replicate 64 OSlot.init, a := .replicate 32 Tile.init, pm := .replicate 4 (.allOnes 64),
    pn := .replicate 4 (.allOnes 64), pk := .replicate 4 (.allOnes 64), srow := .replicate 64 f32one,
    scol := .replicate 64 f32one, ncr := false, qx := false }

def Vx.init : Vx := ⟨.replicate 8 (.allOnes 1024), 0, none⟩
def Ot.init : Ot := ⟨[], 0, 0, 0, false, 0, 1024, 0, none, none, [], false, false, false, []⟩
def Tok.init : Tok := ⟨.idle, 0, []⟩
def TpEnt.init : TpEnt := ⟨false, false, false, none, 0, 0, []⟩
/-- The reset value of a bank format register: raw, every other field zero (R121). -/
def bfmtRaw : W64 := 0xF000000000000000

def Flow.init : Flow :=
  { issued := .replicate 5 0, retired := .replicate 5 0, rdvIssued := .replicate 5 0, rdvReached := .replicate 5 0,
    rdvDone := 0, flags := .replicate 5 (false, false), words := .replicate 5 WordRef.zero,
    micro := .replicate 5 Micro.init, stall := .replicate 5 none, moved := false, wdog := 0, retHeld := .replicate 5 [] }

def Launch.init : Launch := ⟨0, 0, 1, 0, none, 0, 0, 0, 0, [], [], [], 0, 1, none, 0, [], [], .plain, none⟩

/-- A job as R86 leaves it at job cycle 0, before what its launch writes. -/
def Job.init : Job :=
  { st := .none, id := 0, ctx := 0, l := Launch.init, seq := Seq.init, eng := .replicate 4 EngSt.init, flow := Flow.init,
    cycle := 0, dl := [], h := .replicate 16 Handle.zero, g := .replicate 8 Port.init, bfmt := .replicate 16 bfmtRaw,
    mx := Mx.init, vx := Vx.init, ot := Ot.init, otPages := [], nacc := 0, tok := .replicate 16 Tok.init,
    bind := .replicate 16 TpEnt.init, levels := 1, phase0 := 0, held := [], freg := .replicate 4 0, frec := none,
    frozeAt := 0, side := false, check := .before, guards := [], preempt := none, calpos := 0, sendOut := 0 }

def Plane.init : Plane := ⟨none, false, false, 0, []⟩
def Atom.init : Atom := ⟨[], [], [], [], 0, [], [], [], [], 0, 0⟩

def CoreSt.init : CoreSt :=
  { spad := [], stamps := [], planes := .replicate 32 Plane.init, images := [], stat := [], step := .replicate 8 0,
    sc := [], scFill := [], scArr := [], tlb := [], pins := [], walks := [], walked := [], ldHeld := [], sb := [], ranges := [],
    writes := [], won := none, banks := [], sbFull := [], arr := ⟨0, 0, [], [], [], []⟩, copies := [], copyNext := 0, ext := [], copyAt := (0, 0), foreign := [], rdLast := 0, wrLast := 0, landed := (0, 0),
    jobq := [], saved := [] }

def DevSt.init : DevSt := ⟨[], [], [], [], [], 0, none, [], [], [], [], 0⟩
def GroupSt.init : GroupSt := ⟨[], [], [], [], [], 0, [], [], [], [], []⟩

/-- A queue at reset: WEIGHT 1, RSIZE 6, every other field zero (R317, R318). -/
def Queue.init : Queue :=
  ⟨0x0040000060000000, 0, 0, 0, 0, 0, false, 0, 0, 0, false, 0, [], 0, [], none, 0⟩
def RSlot.init : RSlot := ⟨.free, 0, none, 0, [], []⟩

def GripSt.init : GripSt :=
  { queues := .replicate 32 Queue.init, slots := .replicate 256 RSlot.init, tasks := [], taskNext := 0,
    turn := .replicate 4 none, last := .replicate 4 31, graphs := [], graphNext := 0, sets := [], cores := [],
    dispatch := 0, decAt := 0, jobCount := 0, ctxCount := 0, asked := [], votes := [], copyEnds := [], acks := [], copyFull := [], records := [] }

def PlatSt.init : PlatSt :=
  { ready := false, bootErr := 0, fuse := 0, svn := 0, mr := .replicate 8 (List.replicate 32 0), att := 0, power := 0,
    temp := 0, budget := 256, budgetNext := 256, throttled := false, used := 0, fenced := 0, bad := [], testing := [],
    discarded := 0, classes := .replicate 12 none, flash := [], erases := [], tsvn := 0, fw := false }

/-- The machine right after reset (R393): no job is resident, READY is clear, nothing is in flight. What the spec gives no
value for stands at the values of DESIGN CHOICE, logs 3, 5, 6 and 14 (DESIGN CHOICE, log 5). -/
def State.reset : State :=
  { variant := .b9, stepping := 0, coreNo := 0, node := 0, cyc := 0, todo := cycleSlots, turn := .sq, agenda := [],
    nseq := 0, fresh := 0, hold := none, job := Job.init, core := CoreSt.init, dev := DevSt.init,
    atoms := .replicate 16 Atom.init, grp := GroupSt.init, grip := GripSt.init, plat := PlatSt.init, out := [] }

end Sys2Proof.Machine
end

