-- ==== Sys2Proof/Machine/Ops.lean ====
section
/-! DEFINITION. The named operations over memory, registers and time that every meaning is built from; the freeze that a fault is
and the resumption from it. -/
namespace Sys2Proof.Machine

/-! ### Bytes, little-endian -/

def leNat : List Byte → Nat
  | [] => 0
  | b :: l => b.toNat + 256 * leNat l

def leBytes : Nat → Nat → List Byte
  | 0, _ => []
  | n + 1, v => BitVec.ofNat 8 v :: leBytes n (v / 256)

/-- Read bytes `a` to `a + n - 1` of a memory; what nothing has written reads 0 (DESIGN CHOICE, log 3). -/
def rdBytes (m : SMap Byte) (a n : Nat) : List Byte := (List.range n).map fun i => SMap.get 0 m (a + i)

/-- Write bytes from `a` on. -/
def wrBytes (m : SMap Byte) (a : Nat) : List Byte → SMap Byte
  | [] => m
  | b :: l => wrBytes (SMap.set 0 m a b) (a + 1) l

/-- The pieces of a range by lines of 64 bytes: address and length. -/
def linePieces (va len : Nat) : List (Nat × Nat) :=
  if len = 0 then []
  else (List.range ((va + len - 1) / 64 - va / 64 + 1)).map fun i =>
    let lo := max va ((va / 64 + i) * 64)
    (lo, min (va + len) ((va / 64 + i + 1) * 64) - lo)

def fit (n : Nat) (l : List Byte) : List Byte := (l ++ List.replicate n 0).take n

def sx64 (n : Nat) (v : BitVec n) : W64 := v.signExtend 64

/-- The low `bits` of a value, extended by sign or by zeros (R66, R235). -/
def extendLow (bits : Nat) (sign : Bool) (v : Nat) : W64 :=
  let x := v % 2 ^ bits
  if sign && decide (2 ^ (bits - 1) ≤ x) then BitVec.ofInt 64 ((x : Int) - 2 ^ bits) else BitVec.ofNat 64 x

/-- A list in the order of `le`; of two that are equal in it the first stays first. -/
def insertBy {α : Type} (le : α → α → Bool) (x : α) : List α → List α
  | [] => [x]
  | y :: l => if le x y then x :: y :: l else y :: insertBy le x l
def sortBy {α : Type} (le : α → α → Bool) (l : List α) : List α := l.foldr (insertBy le) []

/-! ### Updates of parts of the state -/

def State.onJob (s : State) (f : Job → Job) : State := { s with job := f s.job }
def State.onSeq (s : State) (f : Seq → Seq) : State := { s with job := { s.job with seq := f s.job.seq } }
def State.onFlow (s : State) (f : Flow → Flow) : State := { s with job := { s.job with flow := f s.job.flow } }
def State.onCore (s : State) (f : CoreSt → CoreSt) : State := { s with core := f s.core }
def State.onDev (s : State) (f : DevSt → DevSt) : State := { s with dev := f s.dev }
def State.onGrp (s : State) (f : GroupSt → GroupSt) : State := { s with grp := f s.grp }
def State.onGrip (s : State) (f : GripSt → GripSt) : State := { s with grip := f s.grip }
def State.onPlat (s : State) (f : PlatSt → PlatSt) : State := { s with plat := f s.plat }
def State.eng (s : State) (st : Stream) : EngSt := row s.job.eng EngSt.init (st.idx - 1)
def State.onEng (s : State) (st : Stream) (f : EngSt → EngSt) : State :=
  { s with job := { s.job with eng := rowSet s.job.eng (st.idx - 1) (f (s.eng st)) } }
def State.micro (s : State) (st : Stream) : Micro := row s.job.flow.micro Micro.init st.idx
def State.setMicro (s : State) (st : Stream) (m : Micro) : State :=
  s.onFlow fun f => { f with micro := rowSet f.micro st.idx m }
def State.handle (s : State) (h : Nat) : Handle := row s.job.h Handle.zero h
def State.setHandle (s : State) (h : Nat) (x : Handle) : State := s.onJob fun j => { j with h := rowSet j.h h x }
def State.port (s : State) (g : Nat) : Port := row s.job.g Port.init g
def State.setPort (s : State) (g : Nat) (x : Port) : State := s.onJob fun j => { j with g := rowSet j.g g x }
def State.plane (s : State) (p : Nat) : Plane := row s.core.planes Plane.init p
def State.setPlane (s : State) (p : Nat) (x : Plane) : State := s.onCore fun c => { c with planes := rowSet c.planes p x }
def State.oslot (s : State) (o : Nat) : OSlot := row s.job.mx.o OSlot.init o
def State.onMx (s : State) (f : Mx → Mx) : State := { s with job := { s.job with mx := f s.job.mx } }
def State.setOslot (s : State) (o : Nat) (x : OSlot) : State := s.onMx fun m => { m with o := rowSet m.o o x }
def State.tile (s : State) (a : Nat) : Tile := row s.job.mx.a Tile.init a
def State.setTile (s : State) (a : Nat) (x : Tile) : State := s.onMx fun m => { m with a := rowSet m.a a x }
def State.emit (s : State) (o : Out) : State := { s with out := s.out ++ [o] }

/-- A wait of a word that has ended without its issue counts as progress (R363). -/
def waitOver (st : Stream) (s : State) : State :=
  s.onFlow fun f => { f with moved := f.moved || (row f.stall none st.idx).isSome, stall := rowSet f.stall st.idx none }

/-- The next value the spec leaves open, and the state that has drawn it (DESIGN CHOICE, log 14). -/
def State.draw (s : State) : W64 × State := (Config.freeW64 s.fresh, { s with fresh := s.fresh + 1 })

/-! ### Device time and its agenda -/

def insDue (e : Due) : List Due → List Due
  | [] => [e]
  | x :: l => if e.at_ < x.at_ ∨ (e.at_ = x.at_ ∧ e.seq < x.seq) then e :: x :: l else x :: insDue e l

/-- Put an event on device cycle `at_`; of the events of one cycle that with the lower key comes first, then the earlier made. -/
def State.postAt (s : State) (at_ : Nat) (ev : Ev) (key : Nat := 0) : State :=
  { s with agenda := insDue ⟨at_, key * 2 ^ 64 + s.nseq, ev⟩ s.agenda, nseq := s.nseq + 1 }

/-- The meaning of an event of the agenda: it takes the entry at the head if that is one of its own and its cycle has come, and
then acts on it; otherwise it has no effect (DESIGN CHOICE, log 18). -/
def onDue {α : Type} (s : State) (mine : Ev → Option α) (f : α → State → State) : Host.Outcome State Fault Refusal :=
  match s.agenda with
  | e :: l =>
    match mine e.ev with
    | some x => if e.at_ ≤ s.cyc then .next (f x { s with agenda := l }) else .next s
    | none => .next s
  | [] => .next s

/-! ### Registers of the sequencer (R21, R65) -/

def Seq.sReg (q : Seq) (i : Nat) : W64 := if i = 0 then 0 else row q.s 0 i
def Seq.fReg (q : Seq) (i : Nat) : Bool := if i = 0 then true else row q.f false i
def Seq.bReg (q : Seq) (i : Nat) : BReg := row q.b BReg.init i
def Seq.setS (q : Seq) (i : Nat) (v : W64) : Seq := if i = 0 then q else { q with s := rowSet q.s i v }
def Seq.setF (q : Seq) (i : Nat) (v : Bool) : Seq := if i = 0 then q else { q with f := rowSet q.f i v }
def Seq.setB (q : Seq) (i : Nat) (v : BReg) : Seq := { q with b := rowSet q.b i v }

/-- The value of a register field: s, x or z (R21). -/
def Seq.reg (q : Seq) (r : BitVec 6) : W64 :=
  let i := r.toNat
  if i < 32 then q.sReg i else if i < 48 then row q.x 0 (i - 32) else row q.z 0 (i - 48)

def State.reg (s : State) (r : BitVec 6) : W64 := s.job.seq.reg r

/-- A register as an engine's section sees it: s as snapshotted at its ISSUE (R29, R122), x and z of the launch. -/
def State.snapReg (s : State) (st : Stream) (r : BitVec 6) : W64 :=
  let i := r.toNat
  if i < 32 then (if i = 0 then 0 else match (s.eng st).cur with | some q => row q.snap 0 i | none => 0) else s.reg r

/-- The word's scope: its immediate as a 64-bit address offset. -/
def addr64 (s : State) (a : BitVec 6) (imm : BitVec 56) : Nat := (s.reg a + sx64 56 imm).toNat

/-! ### Where a stream stands -/

def hdrLen (h : W64) : Nat := (h.extractLsb' 48 12).toNat
def hdrRdve (h : W64) : Bool := h.getLsbD 40
def hdrSafe (h : W64) : Bool := h.getLsbD 41
def hdrJend (h : W64) : Bool := h.getLsbD 42
def hdrLbr (h : W64) : Bool := h.getLsbD 43
def hdrLmap (h : W64) : Bool := h.getLsbD 44

/-- The word at which a stream stands. -/
def wordRef (s : State) (st : Stream) : WordRef :=
  match st with
  | .sq => match s.job.seq.pos with
    | .run a _ i => ⟨.sq, a, i⟩
    | .header a => ⟨.sq, a, 0⟩
    | .wait a _ _ => ⟨.sq, a, 0⟩
    | .off => ⟨.sq, 0, 0⟩
  | st => match (s.eng st).cur with
    | some q => ⟨st, q.addr, (s.eng st).idx⟩
    | none => ⟨st, 0, 0⟩

/-- The number of the section a stream is running; the sequencer's results belong to none. -/
def curSec (s : State) (st : Stream) : Nat :=
  match st with
  | .sq => 0
  | st => match (s.eng st).cur with | some q => q.num | none => 0

/-- The byte address of the word at which a stream stands (R10). -/
def wordAddr (w : WordRef) : W64 := w.hdr + BitVec.ofNat 64 (8 + 12 * w.idx)

/-- R15, R16: the predicate of the common head; an engine's is the snapshot of its section. -/
def enabled (s : State) (st : Stream) (p : Pred) : Bool :=
  let v := match st with
    | .sq => s.job.seq.fReg p.sel.toNat
    | st => match (s.eng st).cur with
      | some q => p.sel = 0 || q.preds.getLsbD p.sel.toNat
      | none => true
  xor v p.neg

/-- R55: a result of the word at which a stream stands lands `lat` job cycles later. -/
def later (st : Stream) (lat : Nat) (e : Eff) (s : State) : State :=
  s.onJob fun j => { j with dl := j.dl ++ [⟨j.cycle + lat, st, curSec s st, j.cycle, e⟩] }

/-! ### Parties and held sets (R244, R248, R250) -/

def party (s : State) (agent : Nat) : Nat := s.coreNo * 32 + agent
def strParty (s : State) (st : Stream) : Nat := party s st.idx
def atomParty (s : State) : Nat := party s 24

def unionNat (a b : List Nat) : List Nat := b.foldl (fun l x => if l.contains x then l else l ++ [x]) a

def heldOf (s : State) (p : Nat) : List Nat := SMap.get [] s.job.held p
def addHeld (s : State) (p : Nat) (l : List Nat) : State :=
  s.onJob fun j => { j with held := SMap.set [] j.held p (unionNat (SMap.get [] j.held p) (l.filter (· ≠ p))) }

/-- What a party passes on along an edge: itself and all it holds. -/
def passes (s : State) (p : Nat) : List Nat := unionNat [p] (heldOf s p)

/-- H(q) after what the rules add to every party: itself, the Grip and the host, a sequencer its own atomic party (R250). -/
def holds (s : State) (q p : Nat) (extra : List Nat) : Bool :=
  decide (q = p) || extra.contains p || (decide (q = party s 0) && decide (p = atomParty s))

/-- The instance of a level that this core's jobs belong to (R277): of a cluster, a die, the device, or the gang of a GID. -/
def domInst (s : State) (lvl : Nat) : Nat :=
  match lvl with
  | 1 => Config.coreCluster s.coreNo
  | 2 => s.coreNo / 64
  | 4 => (s.job.l.gang.map fun g => g.1).getD 0
  | _ => 0

def findDom (s : State) (lvl inst : Nat) : Option Dom := s.grp.doms.find? fun d => d.lvl = lvl ∧ d.inst = inst

/-- PHASEn of the running job: level 0 counts its own job's phases (R278). -/
def phaseOf (s : State) (lvl : Nat) : Nat :=
  if lvl = 0 then s.job.phase0 else ((findDom s lvl (domInst s lvl)).map Dom.count).getD 0

/-- The highest level set in DOM (R248). -/
def topLevel (l : BitVec 5) : Nat := ((List.range 5).reverse.find? fun i => l.getLsbD i).getD 0

/-- The race phase of the job's parties (R248). -/
def racePhase (s : State) : Nat := (s.job.l.epoch + phaseOf s (topLevel s.job.levels)) % 16

/-! ### Faults: the record, the freeze, the resumption (R351 to R357) -/

/-- A fault at the word at which a stream stands. -/
def faultAt (s : State) (st : Stream) (code cause : Nat) (f2 f3 : W64 := 0) : FaultRec :=
  ⟨BitVec.ofNat 8 code, BitVec.ofNat 8 cause, wordRef s st, false, false, false, false, false, false, f2, f3⟩

/-- FAULT0 to FAULT3 (R352). -/
def faultWords (r : FaultRec) : Vector W64 4 :=
  let b (x : Bool) (i : Nat) : Nat := if x then 2 ^ i else 0
  #v[BitVec.ofNat 64 (r.code.toNat * 2 ^ 56 + r.cause.toNat * 2 ^ 48 + r.word.st.idx * 2 ^ 45 + b r.fetch 44 + b r.hdrF 43 +
      b r.op 42 + b r.peer 41 + b r.multi 40 + b r.defer 39 + r.word.idx % 4096),
    r.word.hdr &&& 0xFFFFFFFFFFFFF, r.f2, r.f3]

/-- R353: a fault taken on job cycle f freezes the job, which keeps its pending results, also one that has passed its last rendezvous or
waits to be saved; a second one of the cycle sets MULTI and the lowest stream is named; one of a forked operation after the freeze
sets MULTI only. -/
def takeFault (s : State) (r : FaultRec) : State :=
  match s.job.st with
  | .none => s
  | .frozen =>
    s.onJob fun j => { j with frec := j.frec.map fun o =>
      let named := if r.op = false ∧ s.job.frozeAt = s.cyc ∧ r.word.st.idx < o.word.st.idx then r else o
      { named with multi := true } }
  | _ => s.onJob fun j => { j with st := .frozen, frec := some r, frozeAt := s.cyc, calpos := (s.cyc + 1) % 256 }

/-- Whether the device cycle is one of the job's: it runs and is not held, or this is the cycle on which it freezes, whose other words
and waits are as without the freeze (R56, R163, R353). -/
def jobCycle (s : State) : Bool :=
  s.hold.isNone && (decide (s.job.st = .running) || (decide (s.job.st = .frozen) && decide (s.job.frozeAt = s.cyc)))

/-- Whether the array's count goes on: it stands still, as the job's cycles do, while an MMA of MX waits for its landing in a hold or
a freeze, so that MMAs land in the order in which they entered (R56, R146); otherwise follow-ons go on (R360). -/
def arrayRuns (s : State) : Bool :=
  (decide (s.job.st ≠ .frozen) && s.hold.isNone) || !(s.job.dl.any fun e => match e.eff with | .mma _ => true | _ => false)

/-- The array's count rises by one where `go` holds. -/
def arrayTick (go : Bool) (s : State) : State :=
  s.onCore fun c => { c with arr := { c.arr with t := if go then c.arr.t + 1 else c.arr.t } }

/-- R354, R356, R357: the release of a resumed job. It goes on with job cycle f + 1, its registers show the record, and every
prepared register is fetched again. -/
def resumeJob (s : State) : State :=
  (arrayTick (!arrayRuns s) s).onJob fun j =>
    { j with
      st := .running, cycle := j.cycle + 1, frec := none,
      freg := (j.frec.map faultWords).getD j.freg,
      seq := { j.seq with buf := none, b := j.seq.b.map fun b =>
        { b with buf := none, ready := false, start := if b.prep then some (j.cycle + 1) else none } } }

/-! ### Uncorrectable errors (R365) -/

/-- The first bad byte of device memory, or of the scratchpad, in a range. -/
def badDev (s : State) (pa n : Nat) : Option Nat :=
  s.plat.bad.findSome? fun b => match b with | .dev x => if pa ≤ x ∧ x < pa + n then some x else none | _ => none
def badSpad (s : State) (a n : Nat) : Option Nat :=
  s.plat.bad.findSome? fun b => match b with | .spad x => if a ≤ x ∧ x < a + n then some x else none | _ => none

/-- One of these places holds bad data. -/
def badAmong (s : State) (l : List BadAt) : Bool := s.plat.bad.any fun b => l.contains b

/-- What is written anew is good again (DESIGN CHOICE, log 34). -/
def mend (now : BadAt → Bool) (s : State) : State :=
  if s.plat.bad.isEmpty then s else s.onPlat fun p => { p with bad := p.bad.filter fun b => !now b }

/-- Bytes of device memory by physical address. -/
def putDev (pa : Nat) (d : List Byte) (s : State) : State :=
  mend (fun b => match b with | .dev x => decide (pa ≤ x) && decide (x < pa + d.length) | _ => false)
    (s.onDev fun x => { x with mem := wrBytes x.mem pa d })

/-! ### The health word (R367) -/

/-- The units that are present under CAP0. -/
def presentUnits (v : Config.Variant) : Nat :=
  (match v with | .b9 => 2 ^ 52 | .b9h => 0) + (2 ^ Config.ports v - 1) * 2 ^ 40 + (2 ^ Config.nstacks v - 1) * 2 ^ 16 + 1023

/-- A bit reads 1 when its unit is present and not fenced. -/
def healthWord (s : State) : W64 := BitVec.ofNat 64 (presentUnits s.variant) &&& ~~~s.plat.fenced

end Sys2Proof.Machine
end

