-- ==== Sys2Proof/Machine/Issue.lean ====
section
/-! DEFINITION. What issuing a word is, apart from its own effect: the predicate, the stall, the fault, the advance to the next
word, the end of a loop's iteration and of a section, the arrival at a rendezvous (R16, R33, R79, R90 to R94, R101, R168). -/
namespace Sys2Proof.Machine

/-- Why an enabled word does not issue on a cycle: an interlocked wait, or a fault that it takes. The state is the one that
is left: a wait may have made requests. -/
inductive Halt where
  | wait (s : State) (w : Wait)
  | trap (s : State) (r : FaultRec)
  deriving DecidableEq, Repr

/-- A precise fault of the word at which a stream stands. -/
def stop {α : Type} (s : State) (st : Stream) (code : Nat) (cause : Nat := 0) (f2 : W64 := 0) (f3 : W64 := 0) : Except Halt α :=
  .error (.trap s (faultAt s st code cause f2 f3))

def hold {α : Type} (s : State) (w : Wait) : Except Halt α := .error (.wait s w)

/-- A check that faults. -/
def check (bad : Bool) (s : State) (st : Stream) (code : Nat) (cause : Nat := 0) (f2 : W64 := 0) (f3 : W64 := 0) :
    Except Halt Unit :=
  if bad then stop s st code cause f2 f3 else .ok ()

/-- A word that consumes bad data, with its unit's health bit; which bit the local data memory and the sequencer's registers have is not
stated (R365, R367; DESIGN CHOICE, log 34: a free value). -/
def checkBad (s : State) (st : Stream) (l : List BadAt) (bit : Option Nat) : Except Halt Unit :=
  if badAmong s l then
    match bit with
    | some b => stop s st 0x13 0 0 (BitVec.ofNat 64 b)
    | none => stop s.draw.2 st 0x13 0 0 s.draw.1
  else .ok ()

/-- A condition that is waited for. -/
def waitFor (ok : Bool) (s : State) (w : Wait) : Except Halt Unit := if ok then .ok () else hold s w

/-! ### Rendezvous (R93, R94) -/

def cnt5 (v : Vector Nat 5) (st : Stream) : Nat := row v 0 st.idx

/-- A stream that has reached a rendezvous which is not complete issues nothing. -/
def atRdv (s : State) (st : Stream) : Bool := decide (s.job.flow.rdvDone < cnt5 s.job.flow.rdvReached st)

/-- A stream reaches its next rendezvous. -/
def reachRdv (st : Stream) (safe jend : Bool) (w : WordRef) (s : State) : State :=
  s.onFlow fun f =>
    { f with
      rdvReached := rowSet f.rdvReached st.idx (cnt5 f.rdvReached st + 1)
      flags := rowSet f.flags st.idx (safe, jend)
      words := rowSet f.words st.idx w }

/-- A forward wait that cannot be met at the sequencer's rendezvous: the stream index named and the target (R92). -/
def forwardWait (s : State) : Option (Nat × Int) :=
  let all := [Stream.ax, .mx, .vx, .sx].flatMap fun e => (s.eng e).q.flatMap QEnt.tgt
  all.find? fun t => decide (((row s.job.flow.issued 0 t.1 : Nat) : Int) < t.2)

/-- The checks of the sequencer at a rendezvous, in the order of R94's table. -/
def rdvCheck (s : State) (w : WordRef) : Option FaultRec :=
  let f := s.job.flow
  let n := cnt5 f.rdvReached .sq + 1
  let mk (code : Nat) (f2 f3 : W64) : FaultRec := { faultAt s .sq code 0 f2 f3 with word := w }
  if [Stream.ax, .mx, .vx, .sx].any fun e => decide (cnt5 f.rdvIssued e < n) then some (mk 0x0A 0 0)
  else match forwardWait s with
    | some (i, t) => some (mk 0x0F (BitVec.ofNat 64 i) (BitVec.ofInt 64 t))
    | none => none

/-! ### Advancing -/

/-- What every issued word does to its stream's bookkeeping: the watchdog's reset, the end of its stall (R363). -/
def issuedWord (st : Stream) (s : State) : State :=
  s.onFlow fun f =>
    { f with moved := true, stall := rowSet f.stall st.idx none, micro := rowSet f.micro st.idx Micro.init }

/-- The sequencer at the end of a section's words: the next header, and the rendezvous of RDVE with its checks (R79, R92, R94). -/
def sqSectionEnd (a h : W64) (s : State) : State :=
  let w : WordRef := ⟨.sq, a, hdrLen h - 1⟩
  let s := s.onSeq fun q => { q with pos := .header (a + BitVec.ofNat 64 (8 + 12 * hdrLen h)), buf := none }
  if hdrRdve h then
    match rdvCheck s w with
    | some r => takeFault s r
    | none => reachRdv .sq (hdrSafe h) (hdrJend h) w s
  else s

/-- A job of a graph that has not passed its check point stops before its job-end rendezvous (R345). -/
def checkDue (s : State) : Bool := s.job.l.graph.isSome && decide (s.job.check ≠ .passed)

/-- The sequencer after a word that transfers no control. The end of a section waits for a rendezvous of its last word, for the
resumption of a TRAP that is its last word, and for a check point at the job's end. -/
def advanceSq (s : State) : State :=
  match s.job.seq.pos with
  | .run a h i =>
    if i + 1 < hdrLen h || atRdv s .sq || decide (s.job.st ≠ .running) || (hdrJend h && checkDue s) then
      s.onSeq fun q => { q with pos := .run a h (i + 1) }
    else sqSectionEnd a h s
  | _ => s

/-- A transfer of control (R77, R79): the section's flags take effect if the word is its last. -/
def transfer (tgt : W64) (s : State) : State :=
  let s := issuedWord .sq s
  match s.job.seq.pos with
  | .run a h i =>
    let s' := if i + 1 = hdrLen h then sqSectionEnd a h s else s
    s'.onSeq fun q => { q with pos := .header tgt }
  | _ => s

/-- R167, R168: the frames left, the next word and the advances of the window after the word before `n` has issued. -/
def endIter : List Frame → Nat → Nat → List Frame × Nat × Nat
  | [], n, w => ([], n, w)
  | fr :: l, n, w =>
    if n < fr.stop then (fr :: l, n, w)
    else
      let w' := if fr.wa then w + 1 else w
      if fr.lc + 1 < fr.n then ({ fr with lc := fr.lc + 1 } :: l, fr.start, w') else endIter l n w'

def repeatN {α : Type} (f : α → α) : Nat → α → α
  | 0, a => a
  | n + 1, a => repeatN f n (f a)

/-- An engine moves to word `n` of its section, or past its last word (R90). -/
def engAt (st : Stream) (n : Nat) (s : State) : State :=
  s.onEng st fun e =>
    match e.cur with
    | some q =>
      if hdrLen q.hdr ≤ n then
        { e with cur := none, idx := 0, frames := [],
                 ended := e.ended ++ [⟨q.num, q.hdr, ⟨st, q.addr, hdrLen q.hdr - 1⟩, q.pages, q.tp⟩] }
      else { e with idx := n }
    | none => e

/-- An engine goes on at word `next` of its section: loops, then the end of the section. -/
def engineTo (st : Stream) (next : Nat) (s : State) : State :=
  let (fs, n, w) := endIter (s.eng st).frames next 0
  let s := repeatN (later st 1 (.wadv 1)) w s
  engAt st n (s.onEng st fun e => { e with frames := fs })

/-- An engine after a word. -/
def advanceEng (st : Stream) (s : State) : State := engineTo st ((s.eng st).idx + 1) s

def advance (st : Stream) (s : State) : State :=
  let s := issuedWord st s
  match st with
  | .sq => advanceSq s
  | st => advanceEng st s

def stalled (st : Stream) (w : Wait) (s : State) : State :=
  s.onFlow fun f => { f with stall := rowSet f.stall st.idx (some w) }

/-- What becomes of a presented word. -/
def finish (st : Stream) : Except Halt State → Host.Outcome State Fault Refusal
  | .ok s => .next (advance st s)
  | .error (.wait s w) => .next (stalled st w s)
  | .error (.trap s r) => .next (takeFault s r)

/-- A word of a stream: one that is not enabled only occupies its cycle (R101). -/
def word (st : Stream) (p : Pred) (s : State) (body : State → Except Halt State) : Host.Outcome State Fault Refusal :=
  if enabled s st p then finish st (body s) else .next (advance st s)

/-- A sequencer word that is a side effect of its job (R343). -/
def sideWord (p : Pred) (s : State) (body : State → Except Halt State) : Host.Outcome State Fault Refusal :=
  word .sq p s fun s => (body s).map fun s => s.onJob fun j => { j with side := true }

/-! ### Scalar words -/

/-- The scalar registers among operands, as places that may hold bad data. -/
def regCells (l : List (BitVec 6)) : List BadAt := l.map fun r => .sreg r.toNat

/-- Registers that can be read: no load or AMO is still to return to one, and none holds bad data (R235, R273, R365). -/
def ready (s : State) (l : List (BitVec 6)) : Bool :=
  (l.all fun r => !(s.job.seq.ldOut.any fun o => o.reg = r.toNat ∧ o.reg ≠ 0)) && !badAmong s (regCells l)

/-- A word that reads registers faults on bad data and waits for what has not returned. -/
def needRegs (s : State) (l : List (BitVec 6)) : Except Halt Unit := do
  checkBad s .sq (regCells l) none
  waitFor (ready s l) s .other

/-- A word that computes one scalar from registers: value of the state, latency, destination (R55, R71). -/
def scalarWord (p : Pred) (d : BitVec 5) (lat : Nat) (rs : List (BitVec 6)) (f : State → W64) (s : State) :
    Host.Outcome State Fault Refusal :=
  word .sq p s fun s => do
    needRegs s rs
    .ok (later .sq lat (.sreg d.toNat (f s)) s)

/-- A word that computes one predicate (R74 to R76). -/
def predWord (p : Pred) (d : BitVec 3) (rs : List (BitVec 6)) (f : State → Bool) (s : State) : Host.Outcome State Fault Refusal :=
  word .sq p s fun s => do
    needRegs s rs
    .ok (later .sq 1 (.freg d.toNat (f s)) s)

end Sys2Proof.Machine
end

