-- ==== Sys2Proof/Machine/Stamp.lean ====
section
/-! DEFINITION. Race stamps: the test of one access at one granule and over a range, and the record of a race (R244, R245, R250,
R251, R253). -/
namespace Sys2Proof.Machine

/-- The fields of a stamp (R244). -/
structure StampF where
  wparty : Nat
  wphase : Nat
  rsum : Nat
  wv : Bool
  rparty : Nat
  deriving DecidableEq, Repr

def stampF (s : W32) : StampF :=
  let n := s.toNat
  ⟨n / 2 ^ 20, n / 2 ^ 16 % 16, n / 2 ^ 14 % 4, s.getLsbD 13, n % 4096⟩

def mkStamp (f : StampF) : W32 :=
  BitVec.ofNat 32 (f.wparty % 4096 * 2 ^ 20 + f.wphase % 16 * 2 ^ 16 + f.rsum % 4 * 2 ^ 14 +
    (if f.wv then 2 ^ 13 else 0) + f.rparty % 4096)

def accWrites : Acc → Bool | .write | .awrite => true | _ => false
def accAtomic : Acc → Bool | .aread | .awrite => true | _ => false
/-- The kind of an access in a record (R351). -/
def accKind : Acc → Nat | .read => 0 | .write => 1 | _ => 2

/-- Whether a party number is an atomic party (R244, agent 24). -/
def isAtomParty (p : Nat) : Bool := decide (p % 32 = 24)

/-- R251: the stamp after an access by `q` in race phase `ph`, or the second party of a race. -/
def stampTest (st : W32) (q ph : Nat) (a : Acc) (held : Nat → Bool) : Except Nat W32 :=
  let f := stampF st
  if (!f.wv && decide (f.rsum = 0)) || decide (f.wphase ≠ ph) then
    match a with
    | .read => .ok (mkStamp ⟨0, ph, 1, false, q⟩)
    | .aread => .ok st
    | _ => .ok (mkStamp ⟨q, ph, 0, true, 0⟩)
  else if f.wv && !held f.wparty && !(accAtomic a && isAtomParty f.wparty) then .error f.wparty
  else if accWrites a then
    if f.rsum = 1 ∧ held f.rparty = false then .error f.rparty
    else if f.rsum = 2 then .error 0xFFF
    else .ok (mkStamp ⟨q, ph, 0, true, 0⟩)
  else match a with
    | .read =>
      if f.rsum = 0 then .ok (mkStamp { f with rsum := 1, rparty := q })
      else if f.rsum = 1 ∧ f.rparty ≠ q then .ok (mkStamp { f with rsum := 2 })
      else .ok st
    | _ => .ok st

/-- A race found in a range: its granule, the second party, and whether that one wrote. -/
structure RaceAt where
  gran : Nat
  second : Nat
  secondWrote : Bool
  deriving DecidableEq, Repr

/-- An access over granules `g` to `g + n - 1` in ascending order; on a race, the stamps of the granules below it (R245, R253). -/
def stampGrans (m : SMap W32) (q ph : Nat) (a : Acc) (held : Nat → Bool) : Nat → Nat → SMap W32 × Option RaceAt
  | _, 0 => (m, none)
  | g, n + 1 =>
    let st := SMap.get 0 m g
    match stampTest st q ph a held with
    | .ok st' => stampGrans (SMap.set 0 m g st') q ph a held (g + 1) n
    | .error p => (m, some ⟨g, p, (stampF st).wv && decide (p = (stampF st).wparty)⟩)

/-- The granules that bytes `lo` to `lo + len - 1` touch, with granules of `g` bytes. -/
def granSpan (g lo len : Nat) : Nat × Nat := if len = 0 then (lo / g, 0) else (lo / g, (lo + len - 1) / g - lo / g + 1)

/-- FAULT3 of a race (R351). -/
def raceF3 (q : Nat) (a : Acc) (r : RaceAt) (ph : Nat) (scratch : Bool) : W64 :=
  let k2 := if r.secondWrote then (if isAtomParty r.second then 2 else 1) else 0
  BitVec.ofNat 64 (q * 2 ^ 52 + r.second * 2 ^ 40 + accKind a * 2 ^ 38 + k2 * 2 ^ 36 + ph * 2 ^ 32 +
    (if scratch then 2 ^ 31 else 0))

/-- The kind-1 address of a byte of a scratchpad (R261). -/
def spadAddr (core off : Nat) : W64 := BitVec.ofNat 64 (core * 2 ^ 22 + off % 2 ^ 22)

/-- A scratchpad access of this core by a party in a race phase: the state with its stamps tested, or the race. -/
def spadStampIn (s : State) (q ph : Nat) (held : Nat → Bool) (a : Acc) (off len : Nat) : State × Option RaceAt :=
  let (g, n) := granSpan 64 off len
  let (m, r) := stampGrans s.core.stamps q ph a held g n
  (s.onCore fun c => { c with stamps := m }, r)

/-- Such an access by a party of the resident job. -/
def spadStamp (s : State) (q : Nat) (held : Nat → Bool) (a : Acc) (off len : Nat) : State × Option RaceAt :=
  spadStampIn s q (racePhase s) held a off len

/-- What a stream of this job holds (R250). -/
def streamHolds (s : State) (st : Stream) (p : Nat) : Bool := holds s (strParty s st) p (heldOf s (strParty s st))

/-- The record of a race of a stream's word on a granule of this core's scratchpad. -/
def spadRace (s : State) (w : WordRef) (q : Nat) (a : Acc) (r : RaceAt) : FaultRec :=
  ⟨0x08, 0, w, false, false, false, false, false, false, spadAddr s.coreNo (r.gran * 64), raceF3 q a r (racePhase s) true⟩

/-- A scratchpad access of a stream's word, which takes its race precisely (R253). -/
def spadAccess (s : State) (st : Stream) (a : Acc) (off len : Nat) : Except Halt State :=
  match spadStamp s (strParty s st) (streamHolds s st) a off len with
  | (s', none) => .ok s'
  | (s', some r) => .error (.trap s' (spadRace s (wordRef s st) (strParty s st) a r))

/-- A device-memory access by a party in the job's race phase: the granules are of 256 bytes of physical memory. -/
def devStamp (s : State) (q ph : Nat) (held : Nat → Bool) (a : Acc) (pa len : Nat) : State × Option RaceAt :=
  let (g, n) := granSpan 256 pa len
  let (m, r) := stampGrans s.dev.stamps q ph a held g n
  (s.onDev fun d => { d with stamps := m }, r)

/-! ### Accesses of parties outside the jobs (R248, R253) -/

/-- The stamp that such an access meets: that of a party of the resident job, else none. -/
def namedStamp (s : State) (st : W32) : W32 :=
  let f := stampF st
  let p := if f.wv then f.wparty else f.rparty
  if (s.job.st = .running ∨ s.job.st = .frozen) ∧ p / 32 = s.coreNo ∧ p % 32 < 25 then st else 0

/-- A stamp renewed by an access that never raises. -/
def renewStamp (q ph : Nat) (a : Acc) (st : W32) : W32 :=
  if accWrites a then mkStamp ⟨q, ph, 0, true, 0⟩
  else match a with
    | .read =>
      let f := stampF st
      if !f.wv && decide (f.rsum = 0) then mkStamp ⟨0, ph, 1, false, q⟩
      else if f.rsum = 0 then mkStamp { f with rsum := 1, rparty := q }
      else if f.rsum = 1 ∧ f.rparty ≠ q then mkStamp { f with rsum := 2 }
      else st
    | _ => st

/-- Granules `l` of a map of stamps under an access by the reducers, the fabric, the host link or the Grip; the first two are raced. -/
def outsideGrans (s : State) (q : Nat) (held : List Nat) (raced : Bool) (a : Acc) (m : SMap W32) (l : List Nat) :
    SMap W32 × Option RaceAt :=
  let ph := racePhase s
  l.foldl (fun acc k => match acc with
    | (m, some r) => (m, some r)
    | (m, none) =>
      let st := namedStamp s (SMap.get 0 m k)
      match stampTest st q ph a fun p => decide (p = q) || held.contains p with
      | .ok v => (SMap.set 0 m k v, none)
      | .error p =>
        if raced then (m, some ⟨k, p, (stampF st).wv && decide (p = (stampF st).wparty)⟩)
        else (SMap.set 0 m k (renewStamp q ph a st), none)) (m, none)

/-- Such an access to device memory (DESIGN CHOICE, log 4). -/
def outsideAccess (q : Nat) (held : List Nat) (raced : Bool) (a : Acc) (pa len : Nat) (s : State) : State × Option RaceAt :=
  let (g, n) := granSpan 256 pa len
  let (m, r) := outsideGrans s q held raced a s.dev.stamps ((List.range n).map (g + ·))
  (s.onDev fun d => { d with stamps := m }, r)

/-- An access of the Grip to this core's scratchpad, which never raises. -/
def gripSpad (a : Acc) (off len : Nat) (s : State) : State :=
  let (g, n) := granSpan 64 off len
  s.onCore fun c => { c with stamps := (outsideGrans s 31 [] false a s.core.stamps ((List.range n).map (g + ·))).1 }

end Sys2Proof.Machine
end

