-- ==== Sys2Proof/Machine/Translate.lean ====
section
/-! DEFINITION. Page tables, the translation cache, pins, walks; where a line lives; the call sheet and the requests to the stacks
(R225 to R241). -/
namespace Sys2Proof.Machine

/-! ### The walk (R227 to R229) -/

/-- A fault of a translation: code, cause, level. -/
structure WalkFault where
  code : Nat
  cause : Nat
  level : Nat
  deriving DecidableEq, Repr

def rd64 (s : State) (pa : Nat) : W64 := BitVec.ofNat 64 (leNat (rdBytes s.dev.mem pa 8))
def rd32 (s : State) (pa : Nat) : W32 := BitVec.ofNat 32 (leNat (rdBytes s.dev.mem pa 4))

/-- Page size of a leaf of a level, and its level back. -/
def leafSize (level : Nat) : Nat := match level with | 0 => 2 ^ 16 | 1 => 2 ^ 21 | _ => 2 ^ 30
def leafLevel (size : Nat) : Nat := if size = 2 ^ 16 then 0 else if size = 2 ^ 21 then 1 else 2

/-- The index of a virtual address in the table of a level, and the size of the table that a pointer of that level names. -/
def walkIndex (level va : Nat) : Nat :=
  match level with | 3 => va / 2 ^ 39 % 8192 | 2 => va / 2 ^ 30 % 512 | 1 => va / 2 ^ 21 % 512 | _ => va / 2 ^ 16 % 32
def tableSize (level : Nat) : Nat := match level with | 3 => 65536 | 0 => 256 | _ => 4096

/-- An entry that breaks R228 at a level. -/
def badEntry (level : Nat) (e : W64) : Bool :=
  let addr := (e &&& 0xFFFFFFFFFFF00).toNat
  let leaf := e.getLsbD 1
  decide (e.extractLsb' 52 12 ≠ 0) || decide (e.extractLsb' 5 3 ≠ 0) ||
    (if leaf then decide (level = 3) || decide (addr % leafSize level ≠ 0)
     else decide (level = 0) || decide (e.extractLsb' 2 3 ≠ 0) || decide (addr % tableSize (level - 1) ≠ 0))

def permOk (e : TlbEnt) : Perm → Bool | .r => e.r | .w => e.w | .x => e.x

/-- The walk from a level's table down to its leaf, without the test of the permission. -/
def walkFrom (s : State) (root va : Nat) : Nat → Nat → Except WalkFault TlbEnt
  | 0, table => entry 0 table (fun _ => .error ⟨0x06, 2, 0⟩)
  | level + 1, table => entry (level + 1) table fun t => walkFrom s root va level t
where
  entry (level table : Nat) (down : Nat → Except WalkFault TlbEnt) : Except WalkFault TlbEnt :=
    let e := rd64 s (table + 8 * walkIndex level va)
    let addr := (e &&& 0xFFFFFFFFFFF00).toNat
    if !e.getLsbD 0 then .error ⟨0x06, 1, level⟩
    else if badEntry level e then .error ⟨0x06, 2, level⟩
    else if e.getLsbD 1 then
      let size := leafSize level
      let base := va / size * size
      if Config.allocBytes s.variant < addr + size then .error ⟨0x06, 2, level⟩
      else if addr / 2 ^ 16 % 2 ^ 24 % 3 ≠ base / 2 ^ 16 % 3 then .error ⟨0x06, 3, level⟩
      else .ok ⟨root, base, addr, size, e.getLsbD 2, e.getLsbD 3, e.getLsbD 4⟩
    else down addr

def walkTable (s : State) (root va : Nat) : Except WalkFault TlbEnt := walkFrom s root va 3 root

/-! ### The translation cache (R230) -/

def TlbEnt.covers (e : TlbEnt) (root va : Nat) : Bool := decide (e.root = root) && decide (e.va ≤ va) && decide (va < e.va + e.size)

def tlbFind (s : State) (root va : Nat) : Option TlbEnt := s.core.tlb.find? fun e => e.covers root va

/-- Put a leaf in front, as most recently used; the least recently used of 257 goes. -/
def tlbTouch (e : TlbEnt) (s : State) : State :=
  s.onCore fun c => { c with tlb := (e :: c.tlb.filter (· ≠ e)).take 256 }

/-- A translated piece of a range: virtual base, physical base, size. -/
abbrev Piece := Nat × Nat × Nat

/-- The physical address of a virtual one in pinned pages. -/
def pieceAt (l : List Piece) (va : Nat) : Option Nat :=
  (l.find? fun p => p.1 ≤ va ∧ va < p.1 + p.2.2).map fun p => p.2.1 + (va - p.1)

/-- Bytes read through pinned pages. -/
def pieceBytes (s : State) (l : List Piece) (va n : Nat) : List Byte :=
  (List.range n).map fun i => match pieceAt l (va + i) with | some pa => SMap.get 0 s.dev.mem pa | none => 0

/-! ### Pins (R230) -/

def pinCount (s : State) (root : Nat) (p : Piece) : Nat :=
  ((s.core.pins.find? fun x => x.root = root ∧ x.va = p.1 ∧ x.pa = p.2.1).map Pin.count).getD 0

def pinOne (root : Nat) (p : Piece) (s : State) : State :=
  let c := pinCount s root p
  s.onCore fun k => { k with pins :=
    ⟨root, p.1, p.2.1, p.2.2, c + 1⟩ :: k.pins.filter fun x => ¬(x.root = root ∧ x.va = p.1 ∧ x.pa = p.2.1) }

def unpinOne (root : Nat) (p : Piece) (s : State) : State :=
  let c := pinCount s root p
  let rest := s.core.pins.filter fun x => ¬(x.root = root ∧ x.va = p.1 ∧ x.pa = p.2.1)
  s.onCore fun k => { k with pins := if c ≤ 1 then rest else ⟨root, p.1, p.2.1, p.2.2, c - 1⟩ :: rest }

/-- A command adds one to the counter of each page it uses, however often it names the page. -/
def onePer (l : List Piece) : List Piece := l.foldl (fun a p => if a.contains p then a else a ++ [p]) []
def pinAll (s : State) (l : List Piece) : State := (onePer l).foldl (fun s p => pinOne s.job.l.root p s) s
def unpinAll (s : State) (l : List Piece) : State := (onePer l).foldl (fun s p => unpinOne s.job.l.root p s) s

/-- A page whose counter is at its maximum holds the word up (R230). -/
def pinRoom (s : State) (l : List Piece) : Bool := l.all fun p => pinCount s s.job.l.root p < 65535

/-! ### Where a line lives (R237, R238) -/

def stackOf (v : Config.Variant) (va : Nat) : Nat :=
  let g := Config.nstacks v / 3
  g * (va / 2 ^ 16 % 3) + va / 256 % 256 % g

def homeOf (v : Config.Variant) (va : Nat) : Nat :=
  ((va / 2 ^ 6 % 16) ^^^ (va / 2 ^ 10 % 16) ^^^ (va / 2 ^ 14 % 4)) % Config.clusters v

/-! ### The call sheet (R239, R240) -/

/-- The slots that an owner holds in cycle t under the default deal (R239). The spec deals no other: see `nextSlot`. -/
def slotsOf (v : Config.Variant) (o : Owner) (t : Nat) : List Nat :=
  let pick (n m base k : Nat) : List Nat := let j := (n + m * k - k * t % m) % m; if j < k then [base + j] else []
  match o with
  | .core n => pick n (Config.cores v) 0 24
  | .copyEng n => pick n (Config.cores v) 24 16
  | .reducer => [40, 41]
  | .keyUnit => [42]
  | .port p => pick p (Config.ports v) 43 3
  | .grip => [46]
  | .refresh => if t % 2 = 0 then [47] else []

/-- The first slot held at or after slot `lo` of cycle `t`. -/
def findSlot (v : Config.Variant) (o : Owner) : Nat → Nat → Nat → Nat × Nat
  | 0, t, lo => (t, lo)
  | fuel + 1, t, lo =>
    match (slotsOf v o t).find? fun j => lo ≤ j with
    | some j => (t, j)
    | none => findSlot v o fuel (t + 1) 0

def ownerNo : Owner → Nat
  | .core n => n
  | .copyEng n => 256 + n
  | .reducer => 512
  | .keyUnit => 513
  | .grip => 514
  | .refresh => 515
  | .port p => 516 + p

/-- The first slot that an owner holds at or after slot `lo` of cycle `t` at a stack. Under a deal other than the default, number 0, which
slots an owner holds is open: the wait W and the slot are free values (R61, R241, R331) (DESIGN CHOICE, log 53). -/
def nextSlot (s : State) (o : Owner) (stack t lo : Nat) : Nat × Nat :=
  if s.dev.deal = 0 then findSlot s.variant o 600 t lo
  else
    let x := Config.dealSlot s.dev.deal (ownerNo o) stack t lo
    if x.1 = 0 ∧ lo < 48 then (t, lo + x.2 % (48 - lo)) else (t + max 1 x.1, x.2 % 48)

/-- The node from which an owner's requests come (R60, R402). -/
def ownerNode (o : Owner) : Config.Node :=
  match o with
  | .core n => Config.coreNode n
  | .copyEng n => Config.coreNode n
  | .port p => Config.portNode p
  | _ => Config.gripNode

/-- Travel of an owner's request to a stack, and of its answer back. -/
def ownerTravel (o : Owner) (stack : Nat) : Nat :=
  match o with
  | .grip => Config.travelStack Config.gripNode stack + 2
  | .reducer => 0
  | .keyUnit => 0
  | o => Config.travelStack (ownerNode o) stack

/-- The slot that serves a request of an owner that arrives at a stack on a cycle: the first that it holds at or after it and after
the slot of its request before (R240). -/
def serveSlot (s : State) (o : Owner) (stack arr : Nat) : Nat × Nat :=
  match s.dev.served.find? fun l => l.owner = o ∧ l.stack = stack with
  | some l =>
    if l.cyc < arr then nextSlot s o stack arr 0 else nextSlot s o stack l.cyc (l.slot + 1)
  | none => nextSlot s o stack arr 0

/-- A request leaves its source on a cycle; its slot is settled when it arrives. -/
def request (leave : Nat) (r : DevReq) (s : State) : State :=
  let a := leave + ownerTravel r.owner (stackOf s.variant r.va)
  s.onDev fun d => { d with reqs := d.reqs ++ [(a, r)] }

/-- Requests that arrive on cycle `a` take their slots: those of one owner in ascending stream index, in the order in which they
left (R240). -/
def settle (a : Nat) (s : State) : State :=
  let now := s.dev.reqs.filter fun x => x.1 ≤ a
  let s := s.onDev fun d => { d with reqs := d.reqs.filter fun x => ¬ x.1 ≤ a }
  let ordered := (List.range 5).flatMap fun i => now.filter fun x => x.2.word.st.idx = i
  ordered.foldl (fun s x =>
    let stack := stackOf s.variant x.2.va
    let (t, j) := serveSlot s x.2.owner stack a
    let s := s.onDev fun d => { d with served :=
      ⟨x.2.owner, stack, t, j⟩ :: d.served.filter fun l => ¬(l.owner = x.2.owner ∧ l.stack = stack) }
    s.postAt t (.stackSlotService x.2) (j + 1)) s

/-! ### The accesses of units outside the jobs, by lines (R239, R240, R244) -/

/-- Lines of device memory: virtual and physical address, length, and the bytes to write. -/
abbrev LineAcc := Nat × Nat × Nat × List Byte

/-- A unit asks for lines as an owner, which leave on a cycle; `next` goes on once the last has been served. -/
def unitAsk (leave : Nat) (o : Owner) (a : Acc) (party phase : Nat) (held : List Nat) (raced : Bool) (l : List LineAcc) (next : Ev) (s : State) : State :=
  let id := s.dev.opNext
  let op : UnitOp := ⟨id, l.length, party, held, raced, [], false, none, next⟩
  let s := s.onDev fun d => { d with opNext := id + 1, ops := d.ops ++ [op] }
  if l.isEmpty then s.postAt leave next
  else l.foldl (fun s x =>
    request leave ⟨o, party, phase, a, .unit id, x.2.1, x.1, x.2.2.1, x.2.2.2, ⟨.sq, 0, 0⟩, 0⟩ s) s

/-- The lines of a range in pinned pages; `d` are the bytes to write, from its start. -/
def lineAccs (pages : List Piece) (va len : Nat) (d : List Byte) : List LineAcc :=
  (linePieces va len).filterMap fun p => (pieceAt pages p.1).map fun pa => (p.1, pa, p.2, (d.drop (p.1 - va)).take p.2)

/-- The unit's access that an event goes on with, taken out of the list. -/
def unitTake (next : Ev) (s : State) : Option UnitOp × State :=
  match s.dev.ops.find? fun x => x.left = 0 ∧ x.next = next with
  | some x => (some x, s.onDev fun d => { d with ops := d.ops.erase x })
  | none => (none, s)

/-- The bytes of a range among those that a unit has read; a byte that it has not read is 0. -/
def UnitOp.bytes (x : UnitOp) (va n : Nat) : List Byte :=
  (List.range n).map fun i =>
    ((x.got.find? fun g => g.1 ≤ va + i ∧ va + i < g.1 + g.2.length).map fun g => g.2.getD (va + i - g.1) 0).getD 0

/-! ### Walks and the translation of a word's addresses (R230, R235) -/

/-- The read of a walk's entry: a request of the core's sequencer, in its share of the call sheet; the entry's stack goes by its
physical address, for which the tables have no other (DESIGN CHOICE, log 48). -/
def walkRead (leave : Nat) (x : WalkRd) (s : State) : State :=
  let pa := x.table + 8 * walkIndex x.level x.walk.va
  request leave ⟨.core s.coreNo, strParty s .sq, racePhase s, .read, .walk x.walk.st x.walk.va x.walk.acc, pa, pa, 8, [], wordRef s x.walk.st, 0⟩
    (s.onCore fun c => { c with walks := x :: c.walks })

/-- A page that is not at hand: its walk is asked for, once, and is waited for. -/
def walkWait {α : Type} (s : State) (w : Walk) : Except Halt α :=
  if s.core.walks.any fun x => x.walk = w then hold s .other
  else hold (walkRead (s.cyc + 1) ⟨w, 3, s.job.l.root⟩ s) .other

/-- The table that a walk goes on to after the entry it has read, or none where it ends there (R229). -/
def walkNext (s : State) (x : WalkRd) : Option WalkRd :=
  let e := rd64 s (x.table + 8 * walkIndex x.level x.walk.va)
  match x.level with
  | 0 => none
  | l + 1 =>
    if e.getLsbD 0 && !badEntry x.level e && !e.getLsbD 1 then some ⟨x.walk, l, (e &&& 0xFFFFFFFFFFF00).toNat⟩ else none

/-- The permission's page fault at a word, or the physical address and whether a walk was made for it. -/
def wordPage (s : State) (st : Stream) (va : Nat) (acc : Perm) : Except Halt (State × Nat × Bool) :=
  if 2 ^ 52 ≤ va then stop s st 0x06 0 (BitVec.ofNat 64 va) 0
  else
    let w : Walk := ⟨st, va / 2 ^ 16 * 2 ^ 16, acc⟩
    let walked := s.core.walked.contains w
    let clear (s : State) : State := s.onCore fun c => { c with walked := c.walked.filter (· ≠ w) }
    let use (s : State) (e : TlbEnt) : Except Halt (State × Nat × Bool) :=
      if permOk e acc then .ok (clear (tlbTouch e s), e.pa + (va - e.va), walked)
      else stop (clear s) st 0x07 0 (BitVec.ofNat 64 va) (BitVec.ofNat 64 (leafLevel e.size))
    match tlbFind s s.job.l.root va with
    | some e => use s e
    | none =>
      if walked then
        match walkTable s s.job.l.root va with
        | .ok e => use s e
        | .error f => stop (clear s) st f.code f.cause (BitVec.ofNat 64 va) (BitVec.ofNat 64 f.level)
      else walkWait s w

/-- A range at an enqueue check: every page it touches with the permissions it needs, from the translation cache, by the walks that its
word has made, or after another walk. The word takes the fault of the first page that fails. Pages are taken one leaf at a time,
at most one for every 64 KiB. -/
def rangePages (st : Stream) (perms : List Perm) : Nat → State → Nat → Nat → Except Halt (State × List Piece)
  | 0, s, _, _ => .ok (s, [])
  | fuel + 1, s, va, stop_ =>
    if stop_ ≤ va then .ok (s, [])
    else
      let w : Walk := ⟨st, va / 2 ^ 16 * 2 ^ 16, perms.headD .r⟩
      let clear (s : State) : State := s.onCore fun c => { c with walked := c.walked.filter (· ≠ w) }
      let use (s : State) (e : TlbEnt) : Except Halt (State × List Piece) :=
        if perms.all (permOk e) then do
          let (s, l) ← rangePages st perms fuel (clear (tlbTouch e s)) (e.va + e.size) stop_
          .ok (s, (e.va, e.pa, e.size) :: l)
        else stop (clear s) st 0x07 0 (BitVec.ofNat 64 va) (BitVec.ofNat 64 (leafLevel e.size))
      match tlbFind s s.job.l.root va, (s.micro st).leaves.find? fun e => e.covers s.job.l.root va with
      | some e, _ => use s e
      | none, some e => use s e
      | none, none =>
        if s.core.walked.contains w then
          match walkTable s s.job.l.root va with
          | .ok e => use s e
          | .error f => stop (clear s) st f.code f.cause (BitVec.ofNat 64 va) (BitVec.ofNat 64 f.level)
        else walkWait s w

def pagesIn (len : Nat) : Nat := len / 2 ^ 16 + 2

/-- The pages of a range of the running job, checked at a word of the sequencer, which takes the fault precisely (R229, R230) (DEDUCED, log 45). -/
def needPages (s : State) (st : Stream) (va len : Nat) (perms : List Perm) : Except Halt (State × List Piece) :=
  if 2 ^ 52 ≤ va ∨ 2 ^ 52 < va + len then stop s st 0x06 0 (BitVec.ofNat 64 (if 2 ^ 52 ≤ va then va else 2 ^ 52)) 0
  else rangePages st perms (pagesIn len) s va (va + len)

/-- A range in flight of another operation of this core that overlaps bytes of device memory (R254). -/
def rangeBusy (s : State) (self : Option Nat) (va len : Nat) : Bool :=
  s.core.ranges.any fun r => decide (some r.id ≠ self) && decide (r.lo < va + len) && decide (va < r.hi)

end Sys2Proof.Machine
end

