-- ==== Sys2Proof/Machine/Array.lean ====
section
/-! DEFINITION. The matrix array as a function: what an MMA adds to a tile on its landing, what a drain delivers (R108 to R115, R141,
R145, R147, R150). -/
namespace Sys2Proof.Machine

/-- A sparse map as a row of `n`, and a row as a sparse map. -/
def dense {α : Type} (d : α) (n : Nat) (m : SMap α) : Array α :=
  m.foldl (fun a kv => a.setIfInBounds kv.1 kv.2) (Array.replicate n d)

def sparseFrom {α : Type} [DecidableEq α] (d : α) : Nat → List α → SMap α
  | _, [] => []
  | i, x :: l => if x = d then sparseFrom d (i + 1) l else (i, x) :: sparseFrom d (i + 1) l

def at0 (a : Array W48) (i : Nat) : W48 := a.getD i 0

def tileMode (t : Ty) : TMode := match t with | .res8 => .w8 | .res16 => .w16 | _ => .fp
/-- The code of a mode (R141). -/
def modeCode : TMode → Nat | .none => 0 | .fp => 1 | .w8 => 2 | .w16 => 3
/-- k positions a cycle (R145). -/
def mmaRate (t : Ty) : Nat := match t with | .res8 => 16 | .res16 => 4 | _ => 8
/-- Array cycles of an MMA of `k` terms (R145). -/
def mmaCycles (t : Ty) (k : Nat) : Nat := (k + mmaRate t - 1) / mmaRate t
/-- The active k positions of an MMA. -/
def mmaK (k : Nat) (pk : W64) : List Nat := (List.range k).filter fun i => pk.getLsbD i

/-- One group of a chain: the chain plus the exact sum of the group's products, rounded once (R109). -/
def chainStep (t : Ty) (a b : Array W48) (m n : Nat) (ks : List Nat) (c : W48) : W48 :=
  if ks.isEmpty then c
  else
    let f := tyFmt t
    let ps := ks.map fun k => extMul (f.dec (at0 a (64 * m + k)).toNat) (f.dec (at0 b (64 * k + n)).toNat)
    BitVec.ofNat 48 (acc48.round .rne false (extSum .rne (acc48.dec c.toNat :: ps)))

/-- A chain over all groups of 8: the even or the odd k positions (R109). -/
def chainAll (t : Ty) (a b : Array W48) (m n : Nat) (ks : List Nat) (odd : Bool) (c : W48) : W48 :=
  (List.range 8).foldl (fun c j =>
    chainStep t a b m n (ks.filter fun k => k / 8 = j ∧ decide (k % 2 = 1) = odd) c) c

/-- All channels of a residue element (R112). -/
def resAll (w16 : Bool) (a b : Array W48) (m n : Nat) (ks : List Nat) (c : W48) : W48 :=
  ks.foldl (fun c k => chMac w16 c (at0 a (64 * m + k)) (at0 b (64 * k + n))) c

/-- A tile with every active element updated. -/
def tileMap (pm pn : W64) (f : Nat → Nat → W48 → W48) (t : SMap W48) : SMap W48 :=
  let old := dense 0 4096 t
  sparseFrom 0 0 ((List.range 4096).map fun i =>
    let m := i / 64
    let n := i % 64
    if pm.getLsbD m && pn.getLsbD n then f m n (at0 old i) else at0 old i)

/-- The landing of an MMA (R145): the tile or pair, and its count. -/
def mmaLand (e : MmaEff) (x : Mx) : Mx :=
  let ks := mmaK e.k e.pk
  let a := dense 0 4096 e.a
  let b := dense 0 4096 e.b
  let cnt (t : Tile) : Nat := min (t.kc + ks.length) (2 ^ 32 - 1)
  let td := row x.a Tile.init e.d
  if e.ty.isRes then
    let f (m n : Nat) (c : W48) : W48 := resAll (decide (e.ty = .res16)) a b m n ks c
    let td' : Tile := { td with data := tileMap e.pm e.pn f td.data, kc := cnt td }
    { x with a := rowSet x.a e.d td' }
  else
    let tod := row x.a Tile.init (e.d + 1)
    let f (odd : Bool) (m n : Nat) (c : W48) : W48 := chainAll e.ty a b m n ks odd c
    let td' : Tile := { td with data := tileMap e.pm e.pn (f false) td.data, kc := cnt td }
    let tod' : Tile := { tod with data := tileMap e.pm e.pn (f true) tod.data }
    { x with a := rowSet (rowSet x.a e.d td') (e.d + 1) tod' }

/-- The landing of MZERO on a list of tiles; a residue mode on half of an FP pair leaves its partner without a mode (R147). -/
def mzeroLand (ts : List Nat) (m : TMode) (x : Mx) : Mx :=
  let x := match m, ts with
    | .fp, _ => x
    | _, [d] =>
      let p := if d % 2 = 0 then d + 1 else d - 1
      if (row x.a Tile.init (d / 2 * 2)).mode = .fp then { x with a := rowSet x.a p Tile.init } else x
    | _, _ => x
  ts.foldl (fun x t => { x with a := rowSet x.a t ⟨m, 0, []⟩ }) x

/-- One drained element (R109, R114, R115, R150). -/
def drainElem (ty : Ty) (rnd : Rnd) (sat : Bool) (mode : TMode) (even odd : W48) (sr sc : W32) : W32 :=
  match mode with
  | .fp =>
    let r := acc48.round .rne false (extAdd .rne (acc48.dec even.toNat) (acc48.dec odd.toNat))
    fout ty rnd sat (acc48.dec r)
  | m =>
    let v := baseCrt (decide (m = .w16)) even
    match ty with
    | .i32 => intOut .i32 true v
    | ty =>
      let t := rne32 (extMul (.num v false) (f32v sr))
      let t := rne32 (extMul (f32v t) (f32v sc))
      fout ty rnd sat (f32v t)

/-- A band of a tile: 1,024 elements in row-major order (R149, R150). -/
def drainBand (x : Mx) (t band : Nat) (ty : Ty) (rnd : Rnd) (sat : Bool) : List W32 :=
  let td := row x.a Tile.init t
  let even := dense 0 4096 td.data
  let odd := dense 0 4096 (row x.a Tile.init (t + 1)).data
  (List.range 1024).map fun e =>
    let m := 16 * band + e / 64
    let n := e % 64
    drainElem ty rnd sat td.mode (at0 even (64 * m + n)) (at0 odd (64 * m + n)) (row x.srow 0 m) (row x.scol 0 n)

end Sys2Proof.Machine
end

