-- ==== Sys2Proof/Machine/Real.lean ====
section
/-! DEFINITION. Real functions rounded once (R175, R212, R213, R219, R221): rational enclosures that narrow with the precision,
and the rounding that both ends of an enclosure agree on. An irrational value lies between two codes, so some precision
separates it from every rounding boundary; the precisions tried are named here (DESIGN CHOICE, log 13). -/
namespace Sys2Proof.Machine

/-- A closed rational interval that holds a real number. -/
structure Encl where
  lo : Rat
  hi : Rat
  deriving DecidableEq, Repr

def Encl.pt (q : Rat) : Encl := ⟨q, q⟩
def Encl.add (a b : Encl) : Encl := ⟨a.lo + b.lo, a.hi + b.hi⟩
def Encl.neg (a : Encl) : Encl := ⟨-a.hi, -a.lo⟩
def Encl.sub (a b : Encl) : Encl := a.add b.neg
def rmin (a b : Rat) : Rat := if a ≤ b then a else b
def rmax (a b : Rat) : Rat := if a ≤ b then b else a
def Encl.mul (a b : Encl) : Encl :=
  let p := a.lo * b.lo
  let q := a.lo * b.hi
  let r := a.hi * b.lo
  let s := a.hi * b.hi
  ⟨rmin (rmin p q) (rmin r s), rmax (rmax p q) (rmax r s)⟩

/-- The reciprocal of an interval that does not hold 0. -/
def Encl.inv (a : Encl) : Encl := ⟨1 / a.hi, 1 / a.lo⟩
def Encl.div (a b : Encl) : Encl := a.mul b.inv

/-- Widen the ends to multiples of 2^-p. -/
def Encl.trim (p : Nat) (a : Encl) : Encl :=
  let s : Rat := ((2 ^ p : Nat) : Rat)
  ⟨((a.lo * s).floor : Rat) / s, ((a.hi * s).ceil : Rat) / s⟩

/-- The greatest r with r * r ≤ n, by bisection on the bits. -/
def isqrt (n : Nat) : Nat :=
  (List.range (Nat.log2 n / 2 + 1)).reverse.foldl
    (fun r i => if (r + 2 ^ i) * (r + 2 ^ i) ≤ n then r + 2 ^ i else r) 0

/-- The square root of a non-negative rational: a point where the root is rational. -/
def sqrtE (p : Nat) (q : Rat) : Encl :=
  let n := q.num.natAbs * q.den * 4 ^ p
  let r := isqrt n
  let d : Rat := ((q.den * 2 ^ p : Nat) : Rat)
  if r * r = n then .pt ((r : Rat) / d) else ⟨(r : Rat) / d, ((r + 1 : Nat) : Rat) / d⟩

/-- The partial sum of e^y for 0 ≤ y ≤ 1 and the last term. -/
def expSeries (y : Rat) (p : Nat) : Nat → Nat → Rat → Rat → Rat × Rat
  | 0, _, t, acc => (acc, t)
  | fuel + 1, k, t, acc =>
    let t' := ((t * y / (k : Rat) * ((2 ^ p : Nat) : Rat)).floor : Rat) / ((2 ^ p : Nat) : Rat)
    if t' = 0 then (acc, t) else expSeries y p fuel (k + 1) t' (acc + t')

/-- Square an interval of positive numbers `n` times, trimming. -/
def sqTimes (p : Nat) : Nat → Encl → Encl
  | 0, a => a
  | n + 1, a => sqTimes p n ((Encl.mul a a).trim p)

/-- e^y for y ≥ 0: halve until at most 1, sum the series, square back. Every dropped part of a term is less than 2^-p. -/
def expPos (p : Nat) (y : Rat) : Encl :=
  let j := Nat.log2 (y.ceil.toNat + 1) + 2
  let p' := p + 2 * j + 16
  let u := y / ((2 ^ j : Nat) : Rat)
  let (s, _) := expSeries u p' (p' + 4) 1 1 1
  sqTimes p' j ⟨s, s + ((p' + 8 : Nat) : Rat) / ((2 ^ p' : Nat) : Rat)⟩

/-- e^x; 1 exactly at 0. Beyond 4096 in magnitude the value of 4096 stands, which lies as far outside every format's
range. -/
def expE (p : Nat) (x : Rat) : Encl :=
  if x.num = 0 then .pt 1
  else if 0 < x then expPos p (rmin x 4096)
  else (expPos p (rmin (-x) 4096)).inv

/-- e^x over an interval of exponents. -/
def expI (p : Nat) (x : Encl) : Encl := ⟨(expE p x.lo).lo, (expE p x.hi).hi⟩

/-- 2 * (z + z^3/3 + z^5/5 + …), the logarithm of (1 + z) / (1 - z), for 0 ≤ z ≤ 1/3: partial sum with floored terms. -/
def atanhSeries (z2 : Rat) (p : Nat) : Nat → Nat → Rat → Rat → Rat
  | 0, _, _, acc => acc
  | fuel + 1, k, t, acc =>
    if t = 0 then acc
    else
      let s : Rat := ((2 ^ p : Nat) : Rat)
      atanhSeries z2 p fuel (k + 2) ((t * z2 * s).floor / s) (acc + t / (k : Rat))

/-- ln m for 1 ≤ m ≤ 2; 0 exactly at 1. -/
def lnE (p : Nat) (m : Rat) : Encl :=
  if m = 1 then .pt 0
  else
    let z := (m - 1) / (m + 1)
    let s : Rat := ((2 ^ (p + 16) : Nat) : Rat)
    let z0 := ((z * s).floor : Rat) / s
    let v := 2 * atanhSeries (z0 * z0) (p + 16) (p + 16) 1 z0 0
    ⟨v, v + ((4 * (p + 16) : Nat) : Rat) / s⟩

def ln2E (p : Nat) : Encl := lnE p 2

/-- 2^x; exact at an integer. -/
def exp2E (p : Nat) (x : Rat) : Encl :=
  let y := rmax (-8192) (rmin 8192 x)
  let n := y.floor
  let f := y - (n : Rat)
  if f.num = 0 then .pt (pow2 n)
  else (Encl.pt (pow2 n)).mul (expI p ((Encl.pt f).mul (ln2E p)))

/-- log2 x for x > 0; exact at a power of two. -/
def log2E (p : Nat) (x : Rat) : Encl :=
  let e := ilog2 x.num.natAbs x.den
  let m := x / pow2 e
  (Encl.pt (e : Rat)).add ((lnE p m).div (if m = 1 then .pt 1 else ln2E p))

/-- tanh x = 1 - 2 / (e^2x + 1). -/
def tanhE (p : Nat) (x : Rat) : Encl :=
  let t := expE p (2 * rmax (-512) (rmin 512 x))
  (Encl.pt 1).sub ((Encl.pt 2).div (t.add (.pt 1)))

/-- 1 / (1 + e^-x). -/
def sigmE (p : Nat) (x : Rat) : Encl := ((Encl.pt 1).add (expE p (-x))).inv

/-- The precisions tried, narrowest first. -/
def precisions : List Nat := [64, 192, 640, 2560]

/-- The code on which both ends of an enclosure agree, at the first precision at which they do (R106: one rounding). -/
def roundReal (f : Fmt) (rnd : Rnd) (sat : Bool) (zn : Bool) (enc : Nat → Encl) : Nat :=
  let r (q : Rat) : Nat := f.round rnd sat (.num q (if q.num = 0 then zn else decide (q.num < 0)))
  match precisions.find? (fun p => decide (r (enc p).lo = r (enc p).hi)) with
  | some p => r (enc p).lo
  | none => r (enc 2560).lo

end Sys2Proof.Machine
end

