-- ==== Sys2Proof/Machine/Elem.lean ====
section
/-! DEFINITION. What each vector and store operation computes from its elements: no state, one function an operation (R174 to
R181, R187, R200 to R204, R212, R213, R217 to R221). -/
namespace Sys2Proof.Machine

/-! ### Floating arithmetic (R174 to R176) -/

def fAdd (t : Ty) (r : Rnd) (s : Bool) (a b : W32) : W32 := fout t r s (extAdd r (fval t a) (fval t b))
def fSub (t : Ty) (r : Rnd) (s : Bool) (a b : W32) : W32 := fout t r s (extSub r (fval t a) (fval t b))
def fMul (t : Ty) (r : Rnd) (s : Bool) (a b : W32) : W32 := fout t r s (extMul (fval t a) (fval t b))
def fDiv (t : Ty) (r : Rnd) (s : Bool) (a b : W32) : W32 := fout t r s (extDiv (fval t a) (fval t b))

/-- a × b + c with the product exact and one rounding (R175). -/
def fFma (t : Ty) (r : Rnd) (s : Bool) (a b c : W32) : W32 :=
  fout t r s (extAdd r (extMul (fval t a) (fval t b)) (fval t c))
def fFms (t : Ty) (r : Rnd) (s : Bool) (a b c : W32) : W32 :=
  fout t r s (extSub r (extMul (fval t a) (fval t b)) (fval t c))
def fFnma (t : Ty) (r : Rnd) (s : Bool) (a b c : W32) : W32 :=
  fout t r s (extAdd r (extMul (fval t a) (fval t b)).negate (fval t c))

/-- Exact words keep the value; a NaN becomes canonical (R175). -/
def fExact (t : Ty) (x : Ext) : W32 := fout t .rne false x
def fNeg (t : Ty) (a : W32) : W32 := fExact t (fval t a).negate
def fAbs (t : Ty) (a : W32) : W32 := fExact t (fval t a).abs
def fMin (t : Ty) (a b : W32) : W32 := fExact t (extMin (fval t a) (fval t b))
def fMax (t : Ty) (a b : W32) : W32 := fExact t (extMax (fval t a) (fval t b))

def outReal (t : Ty) (r : Rnd) (s : Bool) (enc : Nat → Encl) : W32 :=
  BitVec.ofNat 32 (roundReal (tyFmt t) r s false enc)

def fSqrt (t : Ty) (r : Rnd) (s : Bool) (a : W32) : W32 :=
  match fval t a with
  | .num q nz =>
    if q.num = 0 then fExact t (.num 0 nz)
    else if q < 0 then fExact t .nan
    else outReal t r s (fun p => sqrtE (p + 256) q)
  | .inf false => fExact t (.inf false)
  | _ => fExact t .nan

def fRcp (t : Ty) (r : Rnd) (s : Bool) (a : W32) : W32 := fout t r s (extDiv (.num 1 false) (fval t a))

def fRsq (t : Ty) (r : Rnd) (s : Bool) (a : W32) : W32 :=
  match fval t a with
  | .num q nz =>
    if q.num = 0 then fExact t (.inf nz)
    else if q < 0 then fExact t .nan
    else outReal t r s (fun p => (sqrtE (p + 256) q).inv)
  | .inf false => fExact t (.num 0 false)
  | _ => fExact t .nan

/-- 2^a and e^a: +0 at −∞, +∞ at +∞, +1 at a zero (R176). -/
def fExpLike (f : Nat → Rat → Encl) (t : Ty) (r : Rnd) (s : Bool) (a : W32) : W32 :=
  match fval t a with
  | .nan => fExact t .nan
  | .inf neg => fExact t (if neg then .num 0 false else .inf false)
  | .num q _ => if q.num = 0 then fExact t (.num 1 false) else outReal t r s (fun p => f p q)

def fExp2 : Ty → Rnd → Bool → W32 → W32 := fExpLike exp2E
def fExp : Ty → Rnd → Bool → W32 → W32 := fExpLike expE

def fLog2 (t : Ty) (r : Rnd) (s : Bool) (a : W32) : W32 :=
  match fval t a with
  | .nan => fExact t .nan
  | .inf neg => fExact t (if neg then .nan else .inf false)
  | .num q _ =>
    if q.num = 0 then fExact t (.inf true)
    else if q < 0 then fExact t .nan
    else outReal t r s (fun p => log2E p q)

def fTanh (t : Ty) (r : Rnd) (s : Bool) (a : W32) : W32 :=
  match fval t a with
  | .nan => fExact t .nan
  | .inf neg => fExact t (.num (if neg then -1 else 1) neg)
  | .num q nz => if q.num = 0 then fExact t (.num 0 nz) else outReal t r s (fun p => tanhE p q)

def fSigm (t : Ty) (r : Rnd) (s : Bool) (a : W32) : W32 :=
  match fval t a with
  | .nan => fExact t .nan
  | .inf neg => fExact t (.num (if neg then 0 else 1) false)
  | .num q _ => if q.num = 0 then fExact t (.num (mkRat 1 2) false) else outReal t r s (fun p => sigmE p q)

/-! ### Integer arithmetic (R177) -/

def iAdd (t : Ty) (s : Bool) (a b : W32) : W32 := intOut t s (intOf t a + intOf t b)
def iSub (t : Ty) (s : Bool) (a b : W32) : W32 := intOut t s (intOf t a - intOf t b)
def iMul (t : Ty) (s : Bool) (a b : W32) : W32 := intOut t s (intOf t a * intOf t b)
def iMulh (t : Ty) (a b : W32) : W32 := intOut t false ((intOf t a * intOf t b) / (2 ^ t.width : Int))
def iMin (t : Ty) (a b : W32) : W32 := intOut t false (min (intOf t a) (intOf t b))
def iMax (t : Ty) (a b : W32) : W32 := intOut t false (max (intOf t a) (intOf t b))

/-! ### Bits (R178): elements as patterns of w bits -/

def bitsOut (t : Ty) (n : Nat) : W32 := BitVec.ofNat 32 (n % 2 ^ t.width)
def bAnd (t : Ty) (a b : W32) : W32 := bitsOut t (a &&& b).toNat
def bOr (t : Ty) (a b : W32) : W32 := bitsOut t (a ||| b).toNat
def bXor (t : Ty) (a b : W32) : W32 := bitsOut t (a ^^^ b).toNat
def bNot (t : Ty) (a : W32) : W32 := bitsOut t (~~~a).toNat

/-- The shift amount: the low log2 w bits of b. -/
def shAmt (t : Ty) (b : W32) : Nat := b.toNat % t.width
def bShl (t : Ty) (a b : W32) : W32 := bitsOut t (lowBits t.width a * 2 ^ shAmt t b)
def bShr (t : Ty) (a b : W32) : W32 := bitsOut t (lowBits t.width a / 2 ^ shAmt t b)

/-- A pattern as two's complement of its width, whatever the signedness. -/
def asSigned (w : Nat) (n : Nat) : Int := if 2 ^ (w - 1) ≤ n then (n : Int) - 2 ^ w else n
def bShra (t : Ty) (a b : W32) : W32 :=
  bitsOut t ((asSigned t.width (lowBits t.width a) / (2 ^ shAmt t b : Int)) % (2 ^ t.width : Int)).toNat

/-- Leading zeros, lowest set bit, set bits of a pattern of w bits (R73, R178). -/
def clzN (w n : Nat) : Nat := if n = 0 then w else w - 1 - Nat.log2 n
def ffsN (w n : Nat) : Nat := ((List.range w).find? fun i => n.testBit i).getD w
def popN (w n : Nat) : Nat := ((List.range w).filter fun i => n.testBit i).length
def bClz (t : Ty) (a : W32) : W32 := bitsOut t (clzN t.width (lowBits t.width a))
def bFfs (t : Ty) (a : W32) : W32 := bitsOut t (ffsN t.width (lowBits t.width a))
def bPcnt (t : Ty) (a : W32) : W32 := bitsOut t (popN t.width (lowBits t.width a))

/-! ### Compares (R180) -/

def cmpElem (t : Ty) (cc : Cond) (a b : W32) : Bool :=
  if t.isFloat then
    let x := fval t a
    let y := fval t b
    if x.isNan || y.isNan then decide (cc = .ne)
    else match cc with
      | .eq => extEq x y | .ne => !extEq x y | .lt => extLt x y | .le => !extLt y x | .gt => extLt y x
      | _ => !extLt x y
  else
    let x := intOf t a
    let y := intOf t b
    match cc with
    | .eq => decide (x = y) | .ne => decide (x ≠ y) | .lt => decide (x < y) | .le => decide (x ≤ y)
    | .gt => decide (y < x) | _ => decide (y ≤ x)

/-! ### Reductions (R187) -/

/-- The sum of a set, +0 when it is empty. -/
def redAdd (t : Ty) (r : Rnd) (s : Bool) (l : List W32) : W32 :=
  if t.isFloat then (if l.isEmpty then 0 else fout t r s (extSum r (l.map (fval t))))
  else intOut t s ((l.map (intOf t)).foldl (· + ·) 0)

def redMax (t : Ty) (l : List W32) : W32 :=
  if t.isFloat then fExact t ((l.map (fval t)).foldl extMax (.inf true))
  else intOut t false ((l.map (intOf t)).foldl max (intLo t))

def redMin (t : Ty) (l : List W32) : W32 :=
  if t.isFloat then fExact t ((l.map (fval t)).foldl extMin (.inf false))
  else intOut t false ((l.map (intOf t)).foldl min (intHi t))

def reduce (op : RedOp) (t : Ty) (r : Rnd) (s : Bool) (l : List W32) : W32 :=
  match op with | .add => redAdd t r s l | .max => redMax t l | .min => redMin t l

/-! ### Keep and undo forms (R201, R204) -/

/-- What a keep form makes of an element: result and record, or the cause of fault 0x0D (R209). -/
inductive Kept where
  | ok (y rec : W32)
  | bad (cause : Nat)
  deriving DecidableEq, Repr

/-- ±0 in FP32 with the sign of an element. -/
def signedZero (neg : Bool) : W32 := if neg then 0x80000000 else 0

/-- An exact error as a record element; the zero has the sign of a; none when FP32 cannot hold it. -/
def errRec (q : Rat) (aNeg : Bool) : Option W32 :=
  if q.num = 0 then some (signedZero aNeg)
  else if fp32.exact q then some (rne32 (Ext.ofRat q)) else none

def ratOf : Ext → Rat
  | .num q _ => q
  | _ => 0

def keepMul (t : Ty) (a s : W32) : Kept :=
  let x := fval t a
  let k := fval t s
  if !k.isFin || decide ((ratOf k).num = 0) then .bad 0
  else if !x.isFin then .bad 1
  else
    let y := fMul t .rne false a s
    if (fval t y).isInf then .bad 2
    else match errRec (ratOf x * ratOf k - ratOf (fval t y)) x.neg? with
      | some r => .ok y r
      | none => .bad 3

def keepAdd (t : Ty) (a b : W32) : Kept :=
  let x := fval t a
  let k := fval t b
  if !k.isFin || !x.isFin then .bad 1
  else
    let y := fAdd t .rne false a b
    if (fval t y).isInf then .bad 2
    else match errRec (ratOf x + ratOf k - ratOf (fval t y)) x.neg? with
      | some r => .ok y r
      | none => .bad 3

/-- FP32 to BF16: the upper half plus one where RNE rounds away from the truncation. -/
def keepBf16 (a : W32) : Kept :=
  if (f32v a).isNan then .bad 1
  else
    let hi := a.toNat / 2 ^ 16
    let lo := a.toNat % 2 ^ 16
    let up := if lo > 2 ^ 15 ∨ (lo = 2 ^ 15 ∧ hi % 2 = 1) then 1 else 0
    .ok (BitVec.ofNat 32 ((hi + up) % 2 ^ 16)) (BitVec.ofNat 32 (up * 2 ^ 16 + lo))

def keepRes8 (a step : W32) : Kept :=
  match stepOf step, f32v a with
  | none, _ => .bad 0
  | some s, .num q nz =>
    if q / s < (-84 : Rat) ∨ (83 : Rat) < q / s then .bad 4
    else
      let k := roundInt .rne (q / s)
      match errRec (q - (k : Rat) * s) (Ext.neg? (.num q nz)) with
      | some r => .ok (resEnc .res8 k) r
      | none => .bad 3
  | some _, _ => .bad 1

def keepShr (t : Ty) (a b : W32) : Kept :=
  .ok (if t.signed then bShra t a b else bShr t a b) (BitVec.ofNat 32 (lowBits t.width a % 2 ^ shAmt t b))

def keepLrel (t : Ty) (p : Nat) (a : W32) : Kept :=
  let x := fval t a
  if !x.isFin then .bad 1
  else if !x.neg? then .ok (bitsOut t a.toNat) 0
  else
    let y := fout t .rne false (extMul x (.num (pow2 (-p)) false))
    match errRec (ratOf x - ratOf (fval t y) * pow2 p) true with
    | some r => .ok y r
    | none => .bad 3

/-- An exact restoration in a type; the zero has the sign of the record (R204). -/
def restore (t : Ty) (q : Rat) (rec : W32) : Option W32 :=
  let x : Ext := if q.num = 0 then .num 0 (f32v rec).neg? else Ext.ofRat q
  let c := fout t .rtz false x
  if decide (fval t c = x) then some c else none

/-- Finite values of the operands of an undo form; with any other the restoration is not exact. -/
def fin2 (f : Rat → Rat → Option W32) (a b : Ext) : Option W32 :=
  match a, b with
  | .num p _, .num q _ => f p q
  | _, _ => none

def undoMul (t : Ty) (y s rec : W32) : Option W32 :=
  match fval t s with
  | .num k _ => if k.num = 0 then none else fin2 (fun p q => restore t ((p + q) / k) rec) (fval t y) (f32v rec)
  | _ => none

def undoAdd (t : Ty) (y b rec : W32) : Option W32 :=
  match fval t b with
  | .num k _ => fin2 (fun p q => restore t (p + q - k) rec) (fval t y) (f32v rec)
  | _ => none

def undoBf16 (y rec : W32) : Option W32 :=
  let up := rec.toNat / 2 ^ 16 % 2
  let h := y.toNat % 2 ^ 16
  if h < up then none else some (BitVec.ofNat 32 ((h - up) * 2 ^ 16 + rec.toNat % 2 ^ 16))

def undoRes8 (y step rec : W32) : Option W32 :=
  match f32v step with
  | .num s _ => fin2 (fun p q => restore .f32 (p * s + q) rec) (.num (resDec .res8 y) false) (f32v rec)
  | _ => none

def undoShr (t : Ty) (y b rec : W32) : Option W32 :=
  some (bitsOut t ((lowBits t.width y * 2 ^ shAmt t b) ||| rec.toNat))

def undoLrel (t : Ty) (p : Nat) (y rec : W32) : Option W32 :=
  let v := fval t y
  if !y.getLsbD (t.width - 1) then some (bitsOut t y.toNat)
  else fin2 (fun a q => restore t (a * pow2 p + q) rec) v (f32v rec)

/-! ### Statistics rows (R211 to R213) -/

structure SRow where
  kind : Nat
  hi : W32
  mid : W32
  count : Nat
  deriving DecidableEq, Repr

def SRow.ofBits (r : BitVec 128) : SRow :=
  ⟨(r.extractLsb' 96 8).toNat, r.extractLsb' 64 32, r.extractLsb' 32 32, (r.extractLsb' 0 32).toNat⟩
def SRow.toBits (r : SRow) : BitVec 128 := (0 : BitVec 24) ++ BitVec.ofNat 8 r.kind ++ r.hi ++ r.mid ++ BitVec.ofNat 32 r.count

def f32nan : W32 := 0x7FC00000
def f32negInf : W32 := 0xFF800000
def capCount (n : Nat) : Nat := min n (2 ^ 32 - 1)

/-- A row of KIND 0 acts as COUNT 0 with MEAN 0, M2 0, MAX −∞ and SUM 0, whatever its fields hold (R211). -/
def SRow.empty (kind : Nat) : SRow := ⟨kind, 0, if kind = 2 then f32negInf else 0, 0⟩

/-- KIND set by a word of a kind. An empty row takes with its KIND the fields that it acts with (DEDUCED, log 19). -/
def SRow.setKind (k : Nat) (r : SRow) : SRow := if r.kind = 0 then .empty k else { r with kind := k }

/-- Moments of a row and a set of values (R212). -/
def statMoments (row : SRow) (xs : List Ext) : SRow :=
  let m := xs.length
  let n' := capCount (row.count + m)
  if m = 0 then row
  else
    match f32v row.mid, f32v row.hi with
    | .num mu _, .num m2 _ =>
      if xs.all Ext.isFin then
        let qs := xs.map ratOf
        let s : Rat := qs.foldl (· + ·) 0
        let d : Rat := s - (m : Rat) * mu
        let nn : Rat := ((row.count + m : Nat) : Rat)
        let mean := rne32 (Ext.ofRat (mu + d / nn))
        let dev : Rat := qs.foldl (fun a x => a + (x - mu) * (x - mu)) 0
        ⟨1, rne32 (Ext.ofRat (m2 + dev - d * d / nn)), mean, n'⟩
      else ⟨1, f32nan, f32nan, n'⟩
    | _, _ => ⟨1, f32nan, f32nan, n'⟩

/-- The running log-sum-exp of a row and a set of values (R212). -/
def statLse (row : SRow) (xs : List Ext) : SRow :=
  let m := xs.length
  let n' := capCount (row.count + m)
  if m = 0 then row
  else
    let mx : Ext := f32v row.mid
    let sm := f32v row.hi
    if xs.any Ext.isNan || mx.isNan || sm.isNan then ⟨2, f32nan, f32nan, n'⟩
    else
      let m' := xs.foldl extMax mx
      match m' with
      | .inf true => ⟨2, 0, f32negInf, n'⟩
      | .num q _ =>
        let term (p : Nat) (x : Ext) : Encl := match x with | .num v _ => expE p (v - q) | _ => .pt 0
        let old (p : Nat) : Encl := match sm with | .num s _ => (Encl.pt s).mul (term p mx) | _ => .pt 0
        let sum (p : Nat) : Encl := xs.foldl (fun a x => a.add (term p x)) (old p)
        let out : W32 := if sm.isInf then (if !mx.isFin then f32nan else if sm.neg? then f32negInf else 0x7F800000)
          else BitVec.ofNat 32 (roundReal fp32 .rne false false sum)
        ⟨2, out, rne32 m', n'⟩
      | _ => ⟨2, f32nan, rne32 m', n'⟩

/-- (a − MEAN) / √(M2 / COUNT + ε) (R213). The sign of a zero is that of the outermost quotient (R105). -/
def normElem (t : Ty) (r : Rnd) (s : Bool) (row : SRow) (eps : W32) (a : W32) : W32 :=
  match f32v row.mid, f32v row.hi, f32v eps, fval t a with
  | .num mu muz, .num m2 _, .num e _, x =>
    if row.count = 0 ∨ m2 / (row.count : Rat) + e ≤ 0 ∨ x.isNan then fExact t .nan
    else match x with
      | .num v vz =>
        let d := extSub r (.num v vz) (.num mu muz)
        if (ratOf d).num = 0 then fExact t d
        else outReal t r s (fun p => (Encl.pt (v - mu)).div (sqrtE (p + 256) (m2 / (row.count : Rat) + e)))
      | y => fExact t y
  | _, _, _, _ => fExact t .nan

/-- e^(a − MAX) / SUM (R213). -/
def softElem (t : Ty) (r : Rnd) (s : Bool) (row : SRow) (a : W32) : W32 :=
  match f32v row.mid, f32v row.hi, fval t a with
  | .num mx _, .num sm _, x =>
    if sm.num = 0 ∨ x.isNan then fExact t .nan
    else match x with
      | .num v _ => outReal t r s (fun p => (expE p (v - mx)).div (.pt sm))
      | .inf neg => fExact t (if neg then .num 0 false else .inf false)
      | .nan => fExact t .nan
  | _, _, _ => fExact t .nan

/-! ### Store engine (R217 to R221) -/

def saccElem (t : Ty) (r : Rnd) (s : Bool) (a b : W32) : W32 := if t.isFloat then fAdd t r s a b else iAdd t s a b

/-- NACC plus the squares of a vector (R218): a NaN makes it the canonical NaN, an infinity +∞. -/
def norm2 (t : Ty) (nacc : W32) (l : List W32) : W32 :=
  rne32 (extSum .rne (f32v nacc :: l.map (fun a => extMul (fval t a) (fval t a))))

/-- Clipping by a squared norm and a limit (R219). -/
def sscaleElem (t : Ty) (r : Rnd) (s : Bool) (a n k : W32) : W32 :=
  let x := fval t a
  let nv := f32v n
  let kv := f32v k
  if x.isNan || nv.isNan || kv.isNan then fExact t .nan
  else if !extLt (extMul kv kv) nv then bitsOut t a.toNat
  else
    let num := extMul x kv
    match num, nv with
    | .num q nz, .num nn _ =>
      if q.num = 0 then fExact t (.num 0 nz) else outReal t r s (fun p => (Encl.pt q).div (sqrtE (p + 512) nn))
    | .num _ nz, .inf _ => fExact t (.num 0 nz)
    | .inf g, .num _ _ => fExact t (.inf g)
    | _, _ => fExact t .nan

/-- The new state and weights of .sgd for one element (R221). -/
def sgdElem (t : Ty) (r : Rnd) (sat wd : Bool) (lr mu lam : W32) (w g st : W32) : W32 × W32 :=
  let s' := rne32 (extAdd .rne (extMul (f32v mu) (f32v st)) (f32v g))
  let l := f32v lr
  let decay : List Ext := if wd then [(extMul (extMul l (f32v lam)) (fval t w)).negate] else []
  (s', fout t r sat (extSum r (fval t w :: (extMul l (f32v s')).negate :: decay)))

/-- The new m, v and weights of .adam for one element at step number n (R221). Where the root is irrational and every value
is finite, an enclosure is rounded; in every other case the value is rational, or its sign alone counts. -/
def adamElem (t : Ty) (r : Rnd) (sat wd : Bool) (lr b1 b2 eps lam : W32) (n : Nat) (w g m v : W32) : W32 × W32 × W32 :=
  let one : Ext := .num 1 false
  let mix (b old x : Ext) : W32 := rne32 (extAdd .rne (extMul b old) (extMul (extSub .rne one b) x))
  let m' := mix (f32v b1) (f32v m) (f32v g)
  let v' := mix (f32v b2) (f32v v) (extMul (f32v g) (f32v g))
  let powE (b : Ext) : Ext := match b with | .num q _ => .num (q ^ n) false | x => x
  let mh := extDiv (f32v m') (extSub .rne one (powE (f32v b1)))
  let vh := extDiv (f32v v') (extSub .rne one (powE (f32v b2)))
  let l := f32v lr
  let decay : List Ext := if wd then [(extMul (extMul l (f32v lam)) (fval t w)).negate] else []
  let fin (u : Ext) : W32 := fout t r sat (extSum r (fval t w :: (extMul l u).negate :: decay))
  let root : Ext := match vh with
    | .num b _ => if b < 0 then .nan else .num (sqrtE 512 b).lo false
    | .inf false => .inf false
    | _ => .nan
  let u := extDiv mh (extAdd .rne root (f32v eps))
  let out : W32 :=
    match mh, vh, f32v eps, l, fval t w with
    | .num a _, .num b _, .num e _, .num lq _, .num wq _ =>
      if b < 0 ∨ !decay.all Ext.isFin ∨ a = 0 ∨ lq = 0 ∨ (sqrtE 8 b).lo = (sqrtE 8 b).hi then fin u
      else
        let rest : Rat := decay.foldl (fun x y => x + ratOf y) wq
        outReal t r sat (fun p => (Encl.pt rest).sub ((Encl.pt (lq * a)).div ((sqrtE (p + 512) b).add (.pt e))))
    | _, _, _, _, _ => fin u
  (m', v', out)

end Sys2Proof.Machine
end

