-- ==== Sys2Proof/Machine/Landing.lean ====
section
/-! DEFINITION. What lands on a job cycle: the effect of every kind of delay-line entry, and the landings of a cycle in their
order (R55, R98, R100, R151, R192). -/
namespace Sys2Proof.Machine

/-- Lanes of a plane the job owns; an entry on a released plane is discarded (R401). -/
def landPlane (p : Nat) (f : Plane → Plane) (s : State) : State :=
  let x := s.plane p
  if x.owner = some s.job.ctx then s.setPlane p (f x) else s

def setLanes (l : List (Nat × W32)) (x : Plane) : Plane :=
  { x with dirty := true, data := l.foldl (fun m e => SMap.set 0 m e.1 e.2) x.data }

/-- R160: the bits of a mask that a word writes. -/
def maskWrite (old m v : BitVec 1024) : BitVec 1024 := (old &&& ~~~m) ||| (v &&& m)

def setMask (k : MaskKind) (i : Nat) (v : W64) (x : Mx) : Mx :=
  match k with
  | .pm => { x with pm := rowSet x.pm i v }
  | .pn => { x with pn := rowSet x.pn i v }
  | .pk => { x with pk := rowSet x.pk i v }

/-- The mask that a pending value stands for (R142). -/
def pendMask (n : Nat) : W64 := if 64 ≤ n then .allOnes 64 else BitVec.ofNat 64 (2 ^ n - 1)

def isPair (s : State) (o : Nat) : Bool := decide ((s.oslot o).tag = 0xA)

/-- A slot's new state, of both halves for a .res16 pair (R138 to R140). -/
def slotState (o : Nat) (st : OState) (s : State) : State :=
  let one (i : Nat) (s : State) : State :=
    s.setOslot i (if st = .empty then OSlot.init else { s.oslot i with st := st })
  if isPair s o then one (o + 1) (one o s) else one o s

/-- Slots freed: by the word ADVH, which ends a partly read slot, or by VPOPQ, which does not (R97, R190, R191). -/
def handleAdvh (n : Nat) (word : Bool) (h : Handle) : Handle :=
  { h with
    rh := if h.depth = 0 then 0 else (h.rh + n) % h.depth, f := h.f - n, rel := h.rel.drop n
    v := if word && decide (0 < n) then 0 else h.v }

/-- Slots published, a partly written one first; they carry what their publisher held (R97, R190, R246). -/
def handleAdvt (n : Nat) (rel : List Nat) (h : Handle) : Handle :=
  { h with
    wh := if h.depth = 0 then 0 else (h.wh + n) % h.depth, f := h.f + n, rel := h.rel ++ List.replicate n rel
    u := if 0 < n then 0 else h.u }

/-! ### The outtake stack and the statistics rows (R195 to R207, R211, R212) -/

/-- Entries of a record of `n` elements (R195). -/
def otSize (n : Nat) : Nat := (4 * n + 255) / 256

def otOcc (o : Ot) : Nat := (o.recs.map fun r => otSize r.n).foldl (· + ·) 0
def otClass (r : OtRec) : Nat := r.tag.toNat / 2 ^ 26
def otMarker : Nat := 0x38
/-- Bytes of the spill area that a record of `n` entries takes (R205). -/
def otBytes (n : Nat) : Nat := 256 * n + 64

def otTag (cls sig seq : Nat) : W32 := BitVec.ofNat 32 (cls * 2 ^ 26 + sig % 1024 * 2 ^ 16 + seq % 2 ^ 16)

/-- A push: DEPTH rises, and the tag holds it as SEQ (R196, R200). -/
def otPushRec (cls sig n : Nat) (l : List W32) (o : Ot) : Ot :=
  { o with
    recs := o.recs ++ [⟨otTag cls sig (o.depth + 1), n, l⟩], depth := o.depth + 1
    marks := if cls = otMarker then o.marks + 1 else o.marks }

/-- Take the newest record away, of `n` entries: its spill, if it has not completed, is cancelled; of one whose spill has completed
since the word found it on chip the room goes too, and so does a fill of it (R203, R205, R208). -/
def otRemove (n : Nat) (o : Ot) : Ot :=
  match o.recs.getLast? with
  | none => { o with depth := o.depth - 1, sp := o.sp - otBytes n, fill := none }
  | some r =>
    let o := { o with recs := o.recs.dropLast, depth := o.depth - 1, marks := if otClass r = otMarker then o.marks - 1 else o.marks }
    if o.recs.isEmpty then
      match o.spill with
      | some sp =>
        if sp.done.isSome then { o with spill := none, sp := o.sp - otBytes sp.n } else { o with spill := none, cut := sp.id :: o.cut }
      | none => o
    else o

def statRow (s : State) (r : Nat) : SRow := SRow.ofBits (SMap.get 0 s.core.stat r)
def setRow (r : Nat) (f : SRow → SRow) (s : State) : State :=
  s.onCore fun c => { c with stat := SMap.set 0 c.stat r (f (statRow s r)).toBits }

/-- A pushed vector lands. A port receives vectors in the order of their landings, so it takes the first place that has not been filled;
the push whose place that was takes the other (R127, R215). -/
def landPush (id : Nat) (es : List PElem) (bank : Bool) (off : List Nat) (since : Nat) (l : List PVec) : List PVec :=
  match l.find? (fun v => v.ready = id), l.find? (fun v => v.elems.isEmpty) with
  | some w, some f =>
    l.map fun v =>
      if v.ready = f.ready then { w with pos := f.pos, cnt := f.cnt, elems := es, bank := bank, off := off, since := since }
      else if v.ready = id then { f with pos := w.pos, cnt := w.cnt }
      else v
  | _, _ => l

/-- What one entry does on its landing. -/
def landEff (st : Stream) (sec : Nat) (s : State) : Eff → State
  | .sreg r v => s.onSeq fun q => q.setS r v
  | .freg i v => s.onSeq fun q => q.setF i v
  | .wbits a b c n => s.onSeq fun q => { q with w0 := a, w1 := b, w2 := c, w3 := n }
  | .wcnt v => s.onSeq fun q => { q with w3 := v }
  | .wcntMx v => s.onSeq fun q => { q with w3 := v }
  | .statClr => s.onMx fun m => { m with ncr := false, qx := false }
  | .sticky a b => s.onMx fun m => { m with ncr := m.ncr || a, qx := m.qx || b }
  | .breg i t => s.onSeq fun q => q.setB i (match t with
    | some a => ⟨a, true, some s.job.cycle, false, none⟩
    | none => { q.bReg i with prep := false, start := none, ready := false, buf := none })
  | .pend k i n => s.onSeq fun q => { q with pend := q.pend.filter (fun x => ¬(x.1 = k ∧ x.2.1 = i)) ++ [(k, i, n)] }
  | .ldm a d => s.onSeq fun q => { q with ldm := wrBytes q.ldm a d }
  | .lanes p l => landPlane p (setLanes l) s
  | .shape p v => landPlane p (fun x => match v with
    | some w => { x with cfg := true, dirty := true, shape := w, data := [] }
    | none => { x with cfg := false, dirty := false, data := [] }) s
  | .kmask i m v => s.onJob fun j => { j with vx := { j.vx with k := rowSet j.vx.k i (maskWrite (row j.vx.k 0 i) m v) } }
  | .wset b => s.onJob fun j => { j with vx := { j.vx with wbase := b } }
  | .wadv n => s.onJob fun j => { j with vx := { j.vx with wbase := j.vx.wbase + n } }
  | .push g id l off =>
    let p := s.port g
    s.setPort g { p with buf := landPush id (l.map fun x => ⟨x, 0xF, 0⟩) false off (s.job.cycle + 1) p.buf }
  | .slotW h parts pub w => s.onCore fun c => { c with writes := c.writes ++ [⟨st, sec, h, parts, pub, w⟩] }
  | .qinit h base sz depth prod cons => s.setHandle h ⟨true, base, sz, depth, prod, cons, 0, 0, 0, 0, 0, [], []⟩
  | .advh h n w => s.setHandle h (handleAdvh n w (s.handle h))
  | .advt h n r => s.setHandle h (handleAdvt n r (s.handle h))
  | .bfmt b v => s.onJob fun j => { j with bfmt := rowSet j.bfmt b v }
  | .mma m => s.onMx (mmaLand m)
  | .mzero ts m => mend (fun b => ts.any fun t => decide (b = .tile t)) (s.onMx (mzeroLand ts m))
  | .mset k i v => s.onMx (setMask k i v)
  | .mscale col v => s.onMx fun m =>
    let x := Vector.ofFn fun i : Fin 64 => v.getD i.val 0
    if col then { m with scol := x } else { m with srow := x }
  | .claim o => slotState o .held s
  | .release o => slotState o .empty s
  | .port g p => s.setPort g { p with since := s.job.cycle }
  | .orow o r l =>
    let x := s.oslot o
    s.setOslot o { x with data := (l.zipIdx).foldl (fun m e => SMap.set 0 m (64 * r + e.2) e.1) x.data }
  | .ofull o => slotState o .full s
  | .skind k rs => rs.foldl (fun s r => setRow r (SRow.setKind k) s) s
  | .stat k ty l => l.foldl (fun s r => setRow r.1 (fun x =>
      if k = 1 then statMoments x (r.2.map (fval ty)) else statLse x (r.2.map (fval ty))) s) s
  | .nacc v => s.onJob fun j => { j with nacc := v }
  | .naccAdd ty l => s.onJob fun j => { j with nacc := norm2 ty j.nacc l }
  | .otPush cls sig n l => s.onJob fun j => { j with ot := otPushRec cls sig n l j.ot }
  | .otPop n => s.onJob fun j => { j with ot := otRemove n j.ot }
  | .othr hi v => s.onJob fun j => { j with ot := if hi then { j.ot with hi := v } else { j.ot with lo := v } }
  | .ostep n v => s.onCore fun c => { c with step := rowSet c.step n v }
  | .nop => s

/-- The entries that land on a cycle, in their order: a clear of the sticky bits before a set, MSTAT's count before a vector
word's, otherwise the order of issue (R55, R111, R151). -/
def dueEntries (n : Nat) (l : List DEnt) : List DEnt :=
  let now := l.filter fun e => e.land ≤ n
  let first (e : DEnt) : Bool := match e.eff with | .statClr => true | .wcntMx _ => true | _ => false
  now.filter first ++ now.filter fun e => !first e

/-- Where the data of an entry goes, for the kinds whose destination can hold bad data. -/
def effCells (s : State) : Eff → List BadAt
  | .sreg r _ => if r = 0 then [] else [.sreg r]
  | .ldm a d => (List.range d.length).map fun i => .ldm (a + i)
  | .lanes p l => if (s.plane p).owner = some s.job.ctx then l.map fun e => .lane p e.1 else []
  | .mma m => (if m.ty.isRes then [m.d] else [m.d, m.d + 1]).map .tile
  | .orow o _ _ => [.oslot o]
  | .stat _ _ l => l.map fun r => .stat r.1
  | .otPush _ _ _ _ => [.record (s.job.ot.depth + 1)]
  | _ => []

/-- What an entry does whose data is bad, and is not delivered: a plane is written to, a record is pushed. -/
def lostEff : Eff → Eff
  | .lanes p _ => .lanes p []
  | .otPush c g n l => .otPush c g n l
  | _ => .nop

/-- An entry lands. Bad data in a delay line is never delivered: the word that consumes it from its destination faults instead (R365; a
kind without such a destination is not affected: DESIGN CHOICE, log 34). What is delivered makes its destination good, but for a row or
a tile that it adds to and a slot of which it is one row. -/
def landOne (s : State) (e : DEnt) : State :=
  if s.plat.bad.isEmpty then landEff e.st e.sec s e.eff
  else
    let cells := effCells s e.eff
    if s.plat.bad.contains (.line e.land e.iss e.st.idx) && !cells.isEmpty then
      (landEff e.st e.sec s (lostEff e.eff)).onPlat fun p => { p with bad := p.bad ++ cells }
    else
      let anew := match e.eff with | .mma _ | .orow _ _ _ | .stat _ _ _ => [] | _ => cells
      mend (fun b => anew.contains b || match e.eff, b with
        | .shape p (some _), .lane p' _ => decide (p = p')
        | _, _ => false) (landEff e.st e.sec s e.eff)

/-- The landings of the present job cycle (R55). -/
def landAll (s : State) : State :=
  let n := s.job.cycle
  let now := dueEntries n s.job.dl
  let s := s.onJob fun j => { j with dl := j.dl.filter fun e => ¬ e.land ≤ n }
  now.foldl landOne s

/-- What lands on an array cycle: the follow-on MMAs, and the operand slots that theirs release (R152, R153). -/
def arrayDue (s : State) : Bool :=
  (s.core.arr.fland.any fun x => x.1 ≤ s.core.arr.t) || s.core.arr.rls.any fun x => x.2 ≤ s.core.arr.t

def landArray (s : State) : State :=
  let a := s.core.arr
  let s := (a.fland.filter fun x => x.1 ≤ a.t).foldl (fun s x => s.onMx (mmaLand x.2)) s
  let s := (a.rls.filter fun x => x.2 ≤ a.t).foldl (fun s x => slotState x.1 .empty s) s
  s.onCore fun c => { c with arr := { c.arr with
    fland := c.arr.fland.filter fun x => ¬ x.1 ≤ a.t
    rls := c.arr.rls.filter fun x => ¬ x.2 ≤ a.t } }

/-- Whether a plane destination of an entry, and which plane (R401). -/
def effPlane : Eff → Option Nat
  | .lanes p _ => some p
  | .shape p _ => some p
  | _ => none

end Sys2Proof.Machine
end

