-- ==== Sys2Proof/Machine/Ports.lean ====
section
/-! DEFINITION. Scratchpad banks: formats and crossings, ports and their walks, slot operands, the ring of each bank's engine point and
the range scoreboard (R98, R99, R116, R120 to R132). -/
namespace Sys2Proof.Machine

/-! ### Banks and their formats (R120, R121) -/

def bankOf (a : Nat) : Nat := a / 2 ^ 18 % 16
def blockOf (a : Nat) : Nat := a / 256

/-- The format registers in force: the resident job's, else raw (R121). -/
def bankFmt (s : State) (bank : Nat) : W64 := row s.job.bfmt bfmtRaw bank

def fmtCode (v : W64) : BitVec 4 := v.extractLsb' 60 4
def fmtTy (v : W64) : Option Ty := Ty.ofCode (fmtCode v)

def spad32 (s : State) (a : Nat) : W32 :=
  BitVec.ofNat 32 (leNat ((List.range 4).map fun i => SMap.get 0 s.core.spad ((a + i) % 2 ^ 22)))

/-- The step of the element at a scratchpad address under its bank's format register (R116, R121). -/
def stepAt (s : State) (v : W64) (a : Nat) : W32 :=
  let gran := (v.extractLsb' 58 2).toNat
  let low : W32 := v.extractLsb' 0 32
  if gran = 0 then low
  else
    let pitch := (v.extractLsb' 40 18).toNat
    let w := match fmtTy v with | some t => t.width / 8 | none => 1
    let off := a % 2 ^ 18
    let i := if pitch = 0 then 0 else off / pitch
    let j := if pitch = 0 then 0 else off % pitch / w
    let cols := pitch / w
    let n := if gran = 1 then i else if gran = 2 then j else i / 8 * ((cols + 7) / 8) + j / 8
    spad32 s (low.toNat + 4 * n)

/-- A crossing from a bank element to an operand of type `t` (R123). -/
def crossIn (bf : BitVec 4) (step : W32) (t : Ty) (rnd : Rnd) (sat : Bool) (x : W32) : Conv :=
  match Ty.ofCode bf with
  | none => ⟨x, false, false⟩
  | some f => if f = t then ⟨x, false, false⟩ else convElem false f t step f32one rnd sat x

/-- A crossing from an operand of type `t` to a bank element (R123). -/
def crossTo (bf : BitVec 4) (step : W32) (t : Ty) (rnd : Rnd) (sat : Bool) (x : W32) : Conv :=
  match Ty.ofCode bf with
  | none => ⟨BitVec.ofNat 32 (lowBits t.width x), false, false⟩
  | some f => convElem false t f f32one step rnd sat x

/-- A crossing from one bank to another (R117, R123). -/
def crossBank (bf : BitVec 4) (step : W32) (bf' : BitVec 4) (step' : W32) (x : W32) : Conv :=
  match Ty.ofCode bf, Ty.ofCode bf' with
  | some f, some t => convElem false f t step step' .rne t.isInt x
  | _, _ => ⟨x, false, false⟩

/-- Width in bytes of a bank's elements when it has a format. -/
def bankWidth (bf : BitVec 4) : Option Nat := (Ty.ofCode bf).map fun t => t.width / 8

def elemBytes (s : State) (a w : Nat) : W32 :=
  BitVec.ofNat 32 (leNat ((List.range w).map fun i => SMap.get 0 s.core.spad ((a + i) % 2 ^ 22)))

def putSpad (a : Nat) (d : List Byte) (s : State) : State :=
  mend (fun b => match b with | .spad x => decide (a ≤ x) && decide (x < a + d.length) | _ => false)
    (s.onCore fun c => { c with spad := wrBytes c.spad (a % 2 ^ 22) d })

/-- A word that consumes bad data of the scratchpad: precise (R365). -/
def checkSpad (s : State) (st : Stream) (a n : Nat) : Except Halt Unit :=
  match badSpad s a n with
  | some x => stop s st 0x13 0 (spadAddr s.coreNo x) 2
  | none => .ok ()

/-- A sticky bit that a conversion sets is seen from the next job cycle (R111). -/
def setSticky (st : Stream) (ncr qx : Bool) (s : State) : State := if ncr || qx then later st 1 (.sticky ncr qx) s else s

def convSticky (l : List Conv) : Bool × Bool := (l.any Conv.ncr, l.any Conv.qx)

/-! ### Walks (R124, R125) -/

def vecCount (p : Port) : Nat := match p.vec with | 0 => 16 | 1 => 64 | _ => 1024
def eszBytes (p : Port) : Nat := 2 ^ p.esz
def walkTotal (p : Port) : Nat := p.lvls.foldl (fun n l => n * l.1) 1

def walkOff : List (Nat × Int) → Nat → Int
  | [], _ => 0
  | (n, st) :: l, i => (i % n : Nat) * st + walkOff l (i / n)

/-- The address of a position of a walk. -/
def walkAddr (p : Port) (i : Nat) : Nat := (((p.base : Int) + walkOff p.lvls i) % 2 ^ 22).toNat

/-- The start of the next vector of a walk and its count of positions; none when the walk is over and does not wrap. -/
def nextVec (p : Port) (pos : Nat) : Option (Nat × Nat) :=
  let t := walkTotal p
  if pos < t then some (pos, min (vecCount p) (t - pos)) else if p.wrap then some (0, min (vecCount p) t) else none

/-- The run that starts at a position: consecutive positions in one block, at most `n` (R128). -/
def runLen (p : Port) (pos : Nat) : Nat → Nat
  | 0 => 0
  | n + 1 => if blockOf (walkAddr p (pos + 1)) = blockOf (walkAddr p pos) ∧ 0 < n then 1 + runLen p (pos + 1) n else 1

/-! ### The range scoreboard (R132) -/

def spans (lo hi : Nat) (e : SbEnt) : Bool := decide (e.lo < hi) && decide (lo < e.hi)

/-- A request of no owner is withheld by every entry that overlaps it; one of an owner only by entries before its own. -/
def withheld (s : State) (own : Option SbEnt) (lo len : Nat) : Bool :=
  match own with
  | none => s.core.sb.any (spans lo (lo + len))
  | some e => (s.core.sb.takeWhile (· ≠ e)).any (spans lo (lo + len))

/-! ### Requests of the ports (R128) -/

/-- The job cycle on which a port asks: a write port of a frozen job drains on though CYCLE stands (R353). -/
def portCycle (s : State) : Nat := if s.job.st = .running ∨ s.job.st = .ending then s.job.cycle else s.job.cycle + 1

/-- The next run a port asks for: first position and length. A read port fetches ahead into a buffer of two vectors; a write
port drains the vector that was pushed first. -/
def portRun (s : State) (p : Port) : Option (Nat × Nat) :=
  if !p.cfg || decide (portCycle s < p.since) then none
  else if p.wr then
    match p.buf with
    | v :: _ => if v.since = 0 ∨ portCycle s < v.since then none else some (v.pos + v.done, runLen p (v.pos + v.done) (v.cnt - v.done))
    | [] => none
  else if s.job.st ≠ .running then none
  else
    match p.buf.getLast? with
    | some v =>
      if v.elems.length < v.cnt then
        some (v.pos + v.elems.length, runLen p (v.pos + v.elems.length) (v.cnt - v.elems.length))
      else if p.buf.length < 2 then (nextVec p p.fpos).map fun n => (n.1, runLen p n.1 n.2)
      else none
    | none => (nextVec p p.fpos).map fun n => (n.1, runLen p n.1 n.2)

/-! ### The ring (R129) -/

/-- A bank's requester: a port, a slot read or a slot write of a stream, or SPMOVE. -/
inductive Req where
  | port (g : Nat)
  | rd (st : Stream) (r : SRead)
  | wr (w : SWrite)
  | spmove
  deriving DecidableEq, Repr

def Req.pos : Req → Nat
  | .port g => g
  | .rd st _ => 8 + st.idx
  | .wr w => 8 + w.st.idx
  | .spmove => 13

/-- The slot reads that a stream asks for. -/
def slotRds (s : State) (st : Stream) : List SRead := (s.micro st).rds.filter fun r => r.grant = none

/-- The slot writes that a stream asks for, in the order of their landing cycles. -/
def slotWrs (s : State) (st : Stream) : List SWrite := s.core.writes.filter fun w => w.st = st

/-- Whether two slot writes share bytes: they keep their order. -/
def partsMeet (a b : SWrite) : Bool :=
  a.parts.any fun p => b.parts.any fun q => decide (p.1 < q.1 + q.2.length) && decide (q.1 < p.1 + p.2.length)

/-- Whether a slot read waits for a slot write of its own stream (R98). -/
def readMeets (r : SRead) (w : SWrite) : Bool :=
  w.parts.any fun p => decide (p.1 < r.addr + r.len) && decide (r.addr < p.1 + p.2.length)

def partsLo (w : SWrite) : Nat := (w.parts.map Prod.fst).foldl min (2 ^ 22)
def partsHeld (s : State) (w : SWrite) : Bool := w.parts.any fun p => withheld s none p.1 p.2.length

/-- The scoreboard entry of the SPMOVE of this core. -/
def spEntry (s : State) : Option SbEnt := s.core.sb.find? fun e => e.owner = none ∧ e.core = s.coreNo

/-- SPMOVE under way: source, destination, bytes, and how many it has read or written (R135). -/
def spState (s : State) : Option (Nat × Nat × Nat × Nat) :=
  let m := s.micro .ax
  if m.phase = 9 then
    let v := m.val
    some ((v.extractLsb' 0 22).toNat, (v.extractLsb' 22 22).toNat, 64 * (v.extractLsb' 44 17).toNat, m.k)
  else none

/-- The bytes of SPMOVE's next grant: address, length, whether it writes. Its first write follows the delivery of its last read. -/
def spNext (s : State) : Option (Nat × Nat × Bool) :=
  match spState s with
  | some (src, dst, n, k) =>
    if s.job.cycle < (s.micro .ax).due + (if k = n then 2 else 1) then none else
    let seg (base i : Nat) : Nat × Nat := (base + i, min (256 - (base + i) % 256) (n - i))
    if k < n then let (a, l) := seg src k; some (a, l, false)
    else if k < 2 * n then let (a, l) := seg dst (k - n); some (a, l, true)
    else none
  | none => none

/-- The slot requests of a stream, each at its own bank's ring: writes stand before reads (DESIGN CHOICE, log 16), and of requests for the
same bytes only the first is made. -/
def slotReqs (s : State) (st : Stream) : List (Req × Nat) :=
  let ws := slotWrs s st
  let free := ws.zipIdx.filter fun (w, i) => !partsHeld s w && !((ws.take i).any (partsMeet w))
  (free.map fun x => (Req.wr x.1, bankOf (partsLo x.1))) ++
    (slotRds s st).filterMap fun r =>
      if withheld s none r.addr r.len || ws.any (readMeets r) then none else some (Req.rd st r, bankOf r.addr)

/-- Every request at the engine points on this cycle, with its bank, but for those that the scoreboard withholds and those at banks that
have granted. A slot's access is one grant, at the bank of its first byte, as the worked example of R154 times it (log 16). -/
def ringReqs (s : State) : List (Req × Nat) :=
  let ports := (List.range 8).filterMap fun g =>
    let p := s.port g
    match portRun s p with
    | some (pos, n) =>
      let as := (List.range n).map fun i => walkAddr p (pos + i)
      if as.any fun a => withheld s none a (eszBytes p) then none else some (Req.port g, bankOf (walkAddr p pos))
    | none => none
  let slots := Stream.all.flatMap (slotReqs s)
  let sp := match spNext s with
    | some (a, l, _) => if withheld s (spEntry s) a l then [] else [(Req.spmove, bankOf a)]
    | none => []
  (ports ++ slots ++ sp).filter fun r => !s.core.banks.contains r.2

/-- The winner at a bank: the first position from the job cycle's on. -/
def ringWinner (s : State) (reqs : List (Req × Nat)) (bank : Nat) : Option Req :=
  let mine := (reqs.filter fun r => r.2 = bank).map Prod.fst
  ((List.range 14).map fun i => (s.job.cycle + i) % 14).findSome? fun p => mine.find? fun r => r.pos = p

/-! ### Grants -/

/-- A run's bytes under stamps, granule by granule of its block (R120, R251). -/
def runStampBy (s : State) (q ph : Nat) (held : Nat → Bool) (a : Acc) (as : List Nat) (w : Nat) : State × Option RaceAt :=
  match as with
  | [] => (s, none)
  | _ =>
    let lo := as.foldl min (2 ^ 22)
    let hi := as.foldl max 0 + w
    let gs := ((List.range ((hi - 1) / 64 - lo / 64 + 1)).map fun i => lo / 64 + i).filter fun g =>
      as.any fun x => decide (x < (g + 1) * 64) && decide (g * 64 < x + w)
    gs.foldl (fun acc g => match acc with
      | (s, none) => spadStampIn s q ph held a (g * 64) 1
      | r => r) (s, none)

def runStamp (s : State) (st : Stream) (a : Acc) (as : List Nat) (w : Nat) : State × Option RaceAt :=
  runStampBy s (strParty s st) (racePhase s) (streamHolds s st) a as w

/-- The stream whose words use a port: a race of its walk is recorded at that stream's word. The walk itself is an access of stream 1
(R245, R253). -/
def portStream (p : Port) : Stream := (Stream.ofIdx p.strm).getD .ax

/-- The bytes of a racing access at `a` that lie in granules below the failing one (R245, R253). -/
def beforeRace (r : RaceAt) (a : Nat) (d : List Byte) : List Byte := d.take (64 * r.gran - a)

/-- A read port's granted run: its elements join the vector being fetched, with the format and step of the grant (R122, R128). -/
def grantRead (g : Nat) (s : State) : State :=
  let p := s.port g
  match portRun s p with
  | none => s
  | some (pos, n) =>
    let as := (List.range n).map fun i => walkAddr p (pos + i)
    match runStamp s .ax .read as (eszBytes p) with
    | (s, some r) => takeFault s (spadRace s (wordRef s (portStream p)) (strParty s .ax) .read r)
    | (s, none) =>
      let es : List PElem := as.map fun a =>
        let v := bankFmt s (bankOf a)
        ⟨elemBytes s a (eszBytes p), fmtCode v, stepAt s v a⟩
      let now := s.job.cycle
      let fresh (l : List PVec) : Port :=
        match nextVec p p.fpos with
        | some (q, c) =>
          { p with buf := l ++ [⟨q, c, es, if es.length = c then now + 2 else 0, .f32, .rne, false, 0, 0, WordRef.zero, false, []⟩],
                   fpos := q + c, since := now + 1 }
        | none => p
      let p' := match p.buf.getLast? with
        | some v =>
          if v.elems.length < v.cnt then
            let l := v.elems ++ es
            { p with buf := p.buf.dropLast ++ [{ v with elems := l, ready := if l.length = v.cnt then now + 2 else 0 }],
                     since := now + 1 }
          else fresh p.buf
        | none => fresh []
      s.setPort g p'

/-- The elements of a write port's run as they stand in their banks (R123). One that a mask excludes sets no sticky bit (R111). -/
def runConvs (s : State) (v : PVec) (as : List Nat) : List (Nat × Conv) :=
  as.zipIdx.map fun (a, i) =>
    let f := bankFmt s (bankOf a)
    let x := v.elems.getD (v.done + i) ⟨0, 0xF, 0⟩
    let c := if v.bank then crossBank x.fmt x.step (fmtCode f) (stepAt s f a) x.bits
      else crossTo (fmtCode f) (stepAt s f a) v.ty v.rnd v.sat x.bits
    (a, if v.off.contains (v.done + i) then ⟨c.bits, false, false⟩ else c)

def putConvs (w : Nat) (cs : List (Nat × Conv)) (s : State) : State :=
  cs.foldl (fun s c => putSpad c.1 (leBytes w c.2.bits.toNat) s) s

/-- A write port's granted run: its elements are converted to the bank's format and written, in walk order (R123, R128); of a run that
races, those in the granules below the failing one (R253). -/
def grantWrite (g : Nat) (s : State) : State :=
  let p := s.port g
  match portRun s p, p.buf with
  | some (pos, n), v :: rest =>
    let as := (List.range n).map fun i => walkAddr p (pos + i)
    let cs := runConvs s v as
    match runStamp s .ax .write as (eszBytes p) with
    | (s, some r) =>
      takeFault (putConvs (eszBytes p) (cs.filter fun c => c.1 < 64 * r.gran) s) (spadRace s v.word (strParty s .ax) .write r)
    | (s, none) =>
      let s := putConvs (eszBytes p) cs s
      let v' := { v with done := v.done + n }
      let s := s.setPort g { p with buf := if v'.done < v'.cnt then v' :: rest else rest, since := s.job.cycle + 1 }
      let st := convSticky (cs.map Prod.snd)
      setSticky .ax st.1 st.2 s
  | _, _ => s

/-- A slot read's grant: the data as of now, delivered two cycles later (R98, R120). -/
def grantSlotRd (st : Stream) (r : SRead) (s : State) : State :=
  match spadStamp s (strParty s st) (streamHolds s st) .read r.addr r.len with
  | (s, some x) => takeFault s (spadRace s (wordRef s st) (strParty s st) .read x)
  | (s, none) =>
    let m := s.micro st
    let upd (q : SRead) : SRead :=
      if q = r then { q with grant := some s.job.cycle, data := rdBytes s.core.spad r.addr r.len } else q
    s.setMicro st { m with rds := m.rds.map upd }

/-- A slot write's grant: it lands, and the slots that it fills are published (R98, R191); of one that races, the granules below the
failing one (R253). -/
def grantSlotWr (w : SWrite) (s : State) : State :=
  let st := w.st
  let s := s.onCore fun c => { c with writes := c.writes.erase w }
  let (s, bad) := w.parts.foldl (fun acc p => match acc with
    | (s, none) =>
      match spadStamp s (strParty s st) (streamHolds s st) .write p.1 p.2.length with
      | (s, none) => (putSpad p.1 p.2 s, none)
      | (s, some x) => (putSpad p.1 (beforeRace x p.1 p.2) s, some x)
    | r => r) (s, (none : Option RaceAt))
  match bad with
  | some x => takeFault s (spadRace s w.word (strParty s st) .write x)
  | none =>
    if w.pub = 0 then s
    else
      let h := s.handle w.h
      s.setHandle w.h { handleAdvt w.pub (passes s (strParty s st)) h with u := h.u - w.pub * (64 * 2 ^ h.sz) }

/-- SPMOVE's grant: the source is read whole before the destination is written (R135). -/
def grantSpmove (s : State) : State :=
  match spNext s with
  | none => s
  | some (a, l, wr) =>
    let m := s.micro .ax
    let n := (m.got.map List.length).foldl (· + ·) 0
    let d := ((m.got.flatten).drop (m.k - n)).take l
    match spadStamp s (strParty s .ax) (streamHolds s .ax) (if wr then .write else .read) a l with
    | (s, some x) =>
      let s := if wr then putSpad a (beforeRace x a d) s else s
      takeFault (s.onCore fun c => { c with sb := c.sb.filter fun e => ¬(e.owner = none ∧ e.core = s.coreNo) })
        (spadRace s (wordRef s .ax) (strParty s .ax) (if wr then .write else .read) x)
    | (s, none) =>
      let s := if wr then putSpad a d s else s
      let got := if wr then m.got else m.got ++ [rdBytes s.core.spad a l]
      s.setMicro .ax { m with k := m.k + l, got := got, due := s.job.cycle }

/-- The engine points of a cycle: slots and SPMOVE take their grants, the ports that have won are left to be served, and a stream
whose stalled word waits on a slot is presented again after a write has landed (R98, R129). The reads that such a word asks for take the
banks that have granted nothing (DESIGN CHOICE, log 16). -/
def ringRound (s : State) : State :=
  let reqs := ringReqs s
  let banks := (List.range 16).filter fun b => (ringWinner s reqs b).isSome
  let wins := banks.filterMap (ringWinner s reqs)
  let ports := wins.filterMap fun r => match r with | .port g => some g | _ => none
  let wrote := wins.any fun r => match r with | .wr _ => true | _ => false
  let s := wins.foldl (fun s r => match r with
    | .rd st r => grantSlotRd st r s
    | .wr w => grantSlotWr w s
    | .spmove => grantSpmove s
    | .port _ => s) s
  let s := s.onCore fun c => { c with won := some (c.won.getD [] ++ ports), banks := c.banks ++ banks }
  if wrote && decide (s.job.st = .running) then
    let again := Stream.all.filter fun st =>
      decide (row s.job.flow.stall none st.idx = some .slot) && decide ((s.micro st).phase = 0) && (s.micro st).rds.isEmpty
    { s with todo := again.map Slot.stream ++ s.todo }
  else s

/-- Whether a word presented again has asked for a slot that a free bank can grant on this cycle. -/
def lateReads (s : State) : Bool := (ringReqs s).any fun r => match r.1 with | .rd _ _ => true | _ => false

/-! ### Checks of port and slot operands (R99, R127, R190) -/

def badPort {α : Type} (s : State) (st : Stream) (g : Nat) : Except Halt α := stop s st 0x0A 0 (BitVec.ofNat 64 (g + 16))
def badHandle {α : Type} (s : State) (st : Stream) (h : Nat) : Except Halt α := stop s st 0x0A 0 (BitVec.ofNat 64 h)

/-- Whether every element of the next vector lies in a bank that suits a type's width (R127, check 5). -/
def widthsOk (s : State) (p : Port) (w : Nat) (pos cnt : Nat) : Bool :=
  (List.range cnt).all fun i =>
    match bankWidth (fmtCode (bankFmt s (bankOf (walkAddr p (pos + i))))) with
    | none => decide (w = eszBytes p)
    | some b => decide (b = eszBytes p)

/-- The first four of R127's checks: configured, of the stream, of the direction, of the element count. -/
def checkPortUse (s : State) (st : Stream) (g : Nat) (wr : Bool) (n : Nat) : Except Halt Unit :=
  let p := s.port g
  if !p.cfg || decide (p.strm ≠ st.idx) || decide (p.wr ≠ wr) || decide (vecCount p ≠ n) then badPort s st g else .ok ()

/-- R127's checks, in order, for the `k`-th use of a port by one word. -/
def checkPort (s : State) (st : Stream) (g : Nat) (wr : Bool) (n w : Nat) (k : Nat := 0) : Except Halt Unit := do
  let p := s.port g
  checkPortUse s st g wr n
  let rec skip : Nat → Nat → Option (Nat × Nat)
    | 0, pos => nextVec p pos
    | k + 1, pos => match nextVec p pos with | some (q, c) => skip k (q + c) | none => none
  match skip k p.pos with
  | none => badPort s st g
  | some (pos, cnt) => if widthsOk s p w pos cnt then .ok () else badPort s st g

def vecReady (s : State) (v : PVec) : Bool :=
  decide (v.elems.length = v.cnt) && decide (v.ready ≤ s.job.cycle) && decide (v.ready ≠ 0)

/-- The vectors that a word may pop: those it has taken already, then the buffer. -/
def Port.avail (p : Port) : List PVec := p.out ++ p.buf

/-- Whether a port's next `k` vectors are in its buffer. -/
def popReady (s : State) (g k : Nat) : Bool :=
  let l := (s.port g).avail.take k
  decide (l.length = k) && l.all (vecReady s)

/-- The first `k` vectors of a port hold no bad data. -/
def checkPops (s : State) (st : Stream) (g k : Nat) : Except Halt Unit :=
  if s.plat.bad.isEmpty then .ok ()
  else
    let p := s.port g
    (p.avail.take k).forM fun v => (List.range v.cnt).forM fun i => checkSpad s st (walkAddr p (v.pos + i)) (eszBytes p)

/-- The first vector of a port's buffer is taken: a full buffer has room again from the next cycle on (R128). -/
def taken (s : State) (p : Port) (rest : List PVec) : Port :=
  let full := match rest with | [x] => decide (x.elems.length = x.cnt) | _ => false
  { p with buf := rest, since := if full then max p.since (s.job.cycle + 1) else p.since }

/-- The next vector that a word pops, and the port after the pop. -/
def popNext (s : State) (p : Port) : Option (PVec × Port) :=
  match p.out, p.buf with
  | v :: rest, _ => some (v, { p with out := rest, pos := v.pos + v.cnt })
  | [], v :: rest => some (v, { taken s p rest with pos := v.pos + v.cnt })
  | [], [] => none

/-- A word that pops one port more often than its buffer holds vectors takes the first ones as they come, in its order (R127). -/
def takeAhead (s : State) (g k : Nat) : State :=
  let p := s.port g
  match p.buf with
  | v :: rest => if p.out.length + 2 < k ∧ vecReady s v = true then s.setPort g { taken s p rest with out := p.out ++ [v] } else s
  | [] => s

/-- Pop one vector, converted to the operand's type (R123, R127). -/
def popPort (st : Stream) (g : Nat) (t : Ty) (rnd : Rnd) (sat : Bool) (s : State) : State × List W32 :=
  let p := s.port g
  match popNext s p with
  | some (v, p') =>
    let cs := v.elems.map fun e => crossIn e.fmt e.step t rnd sat e.bits
    let (a, b) := convSticky cs
    let s := s.setPort g p'
    let out := cs.map Conv.bits
    (setSticky st a b s, out ++ List.replicate (vecCount p - out.length) 0)
  | none => (s, [])

/-- Pop one vector with its bits as they are (R136). -/
def popRaw (g : Nat) (s : State) : State × List PElem :=
  match popNext s (s.port g) with
  | some (v, p) => (s.setPort g p, v.elems)
  | none => (s, [])

def pushRoom (s : State) (g : Nat) : Bool := decide ((s.port g).buf.length < 2)

/-- Take the place of a push at issue: the walk's next positions are taken, its elements land later (R127). -/
def pushTake (g : Nat) (t : Ty) (rnd : Rnd) (sat : Bool) (w : WordRef) (s : State) : State × Nat :=
  let p := s.port g
  match nextVec p p.pos with
  | some (q, c) =>
    let id := p.fpos + 1
    (s.setPort g { p with pos := q + c, fpos := id, buf := p.buf ++ [⟨q, c, [], id, t, rnd, sat, 0, 0, w, false, []⟩] }, id)
  | none => (s, 0)

def slotSize (h : Handle) : Nat := 64 * 2 ^ h.sz
def slotAddr (h : Handle) (head i : Nat) : Nat := h.base + (if h.depth = 0 then 0 else (head + i) % h.depth) * slotSize h

/-- A handle that a word may name: initialised, and its QINIT has landed (R99). -/
def handleOn (s : State) (h : Nat) : Bool :=
  (s.handle h).init && !(s.job.dl.any fun e => match e.eff with | .qinit h' _ _ _ _ _ => decide (h' = h) | _ => false)

/-- A word that names a handle is decided after the engine points of its cycle where a slot of the handle may be published there (R191). -/
def waitPub (s : State) (h : Nat) : Except Halt Unit :=
  waitFor (s.core.won.isSome || !(s.core.writes.any fun w => decide (w.h = h) && decide (w.pub ≠ 0))) s .slot

/-- R99 and R190 for a slot operand. -/
def checkSlot (s : State) (st : Stream) (h i : Nat) (wr : Bool) (bytes : Nat) : Except Halt Unit := do
  waitPub s h
  let x := s.handle h
  let role := if wr then x.prod else x.cons
  if !handleOn s h || decide (role ≠ st.idx) || decide (x.depth ≤ i) || decide (slotSize x < bytes) ||
      decide ((if wr then x.u else x.v) ≠ 0) then badHandle s st h
  else .ok ()

def slotFull (s : State) (h i : Nat) : Bool := decide (i < (s.handle h).f)
def slotRoom (s : State) (h i : Nat) : Bool := let x := s.handle h; decide (i < x.depth - x.f)

/-- The reads that a word makes at the engine point: asked for when it is otherwise ready, and delivered on grant + 2 (R98) (DEDUCED, log 16). -/
def slotData (s : State) (st : Stream) (l : List (Nat × Nat)) : Except Halt (List (List Byte)) :=
  if l.isEmpty then .ok []
  else
    let m := s.micro st
    if m.rds.isEmpty then hold (s.setMicro st { m with rds := l.map fun r => ⟨r.1, r.2, none, []⟩ }) .slot
    else if m.rds.all fun r => match r.grant with | some g => decide (g + 2 ≤ s.job.cycle) | none => false then do
      m.rds.forM fun r => checkSpad s st r.addr r.len
      .ok (m.rds.map SRead.data)
    else hold s .slot

/-- A consumer's read of slot `i` joins what its publisher held (R246, R250). -/
def acquireSlot (st : Stream) (h i : Nat) (s : State) : State :=
  addHeld s (strParty s st) ((s.handle h).rel.getD i [])

/-- A write to slot `i` of a handle lands `lat` cycles later, the rest of the slot zero (R98). -/
def slotPut (st : Stream) (lat h i : Nat) (d : List Byte) (s : State) : State :=
  let x := s.handle h
  later st lat (.slotW h [(slotAddr x x.wh i, fit (slotSize x) d)] 0 (wordRef s st)) s

/-- Writes of a stream to slots `a` to `a + n - 1` of a handle that have not landed (R97). -/
def slotWritesOut (s : State) (st : Stream) (h n : Nat) : Bool :=
  let x := s.handle h
  let as := (List.range n).map fun i => slotAddr x x.wh i
  let hit (p : Nat × List Byte) : Bool := as.any fun a => decide (a ≤ p.1) && decide (p.1 < a + slotSize x)
  (s.core.writes.any fun w => decide (w.st = st) && decide (w.h = h) && w.parts.any hit) ||
    (s.job.dl.any fun e => decide (e.st = st) && match e.eff with
      | .slotW h' ps _ _ => decide (h' = h) && ps.any hit
      | _ => false)

end Sys2Proof.Machine
end

