-- ==== Sys2Proof/Machine/Operands.lean ====
section
/-! DEFINITION. The operands of the wide engines: planes with their slices, shapes, masks and first touches, constants, ports and
slots; reading them in R171's order and writing a result (R28 to R30, R157 to R165, R170, R171, R194). -/
namespace Sys2Proof.Machine

/-! ### Planes -/

/-- R30: the physical plane. -/
def physPlane (s : State) (win : Bool) (n : BitVec 5) : Nat :=
  if win && decide (16 ≤ n.toNat) then 16 + (n.toNat - 16 + s.job.vx.wbase.toNat) % 16 else n.toNat

/-- The lanes that a plane operand covers, in its order (R28, R157, R158). -/
def lanesOf (d : Dir) (ix : Nat) : List Nat :=
  match d with
  | .whole => List.range 1024
  | .row => (List.range 64).map fun j => 64 * ix + j
  | .col => (List.range 16).map fun i => 64 * i + ix
  | .diag => (List.range 16).map fun i => 64 * i + (i + ix) % 64

def planeRows (x : Plane) : Nat := (x.shape.extractLsb' 0 4).toNat + 1
def planeCols (x : Plane) : Nat := (x.shape.extractLsb' 4 6).toNat + 1
/-- Element width in bits of a configured plane (R161). -/
def planeWidth (x : Plane) : Nat := 8 * 2 ^ (x.shape.extractLsb' 10 2).toNat
def inShape (x : Plane) (lane : Nat) : Bool := decide (lane / 64 < planeRows x) && decide (lane % 64 < planeCols x)

/-- A plane's lanes at a width, those out of shape as zero (R158). -/
def planeRead (x : Plane) (w : Nat) (lanes : List Nat) : Array W32 :=
  let a := dense (0 : W32) 1024 x.data
  (lanes.map fun l => if inShape x l then BitVec.ofNat 32 (lowBits w (a.getD l 0)) else 0).toArray

/-- R163 for one plane: who owns it afterwards, what was saved, and how many holds of 64 cycles it costs. A plane that is not
DIRTY is kept for its owner as it stands, though no save is made of it (DESIGN CHOICE, log 55). -/
def firstTouch (p : Nat) (s : State) : State × Nat :=
  let x := s.plane p
  let me := s.job.ctx
  if x.owner = some me then (s, 0)
  else
    let (s, n) := match x.owner with
      | some y =>
        (s.onCore fun c => { c with images := c.images ++ [(y, p, x)] }, if x.dirty then 1 else 0)
      | none => (s, 0)
    let s := mend (fun b => match b with | .lane q _ => decide (q = p) | _ => false) s
    match s.core.images.find? fun i => i.1 = me ∧ i.2.1 = p with
    | some (_, _, img) =>
      ((s.onCore fun c => { c with images := c.images.filter fun i => ¬(i.1 = me ∧ i.2.1 = p) }).setPlane p
        { img with owner := some me, dirty := false }, n + 1)
    | none => (s.setPlane p { Plane.init with owner := some me }, n)

/-- FirstTouch of the planes that a word names, in ascending number (R163, R171). A hold stops the word and every other of the
job for its length; the word is presented again when it ends. -/
def touchAll (ps : List Nat) (s : State) : Except Halt State :=
  let (s, n) := ((List.range 32).filter (ps.contains ·)).foldl (fun a p =>
    let (s', k) := firstTouch p a.1
    (s', a.2 + k)) (s, 0)
  if n = 0 then .ok s else hold { s with hold := some (s.cyc + 64 * n) } .other

/-- The plane checks of one operand: configured, and of the width it is read or written at (R159). -/
def checkPlane (s : State) (st : Stream) (p w : Nat) : Except Halt Unit :=
  let x := s.plane p
  if !x.cfg then stop s st 0x05 0 (BitVec.ofNat 64 p)
  else if planeWidth x ≠ w then stop s st 0x05 1 (BitVec.ofNat 64 p)
  else .ok ()

/-! ### Operands as a word uses them -/

/-- An operand with the type it is read or written at. -/
structure Use where
  o : Opnd
  ty : Ty
  dst : Bool
  deriving DecidableEq, Repr

/-- The reference operand of an elementwise word (R170). -/
def refPlane (us : List Use) : Option (Dir × BitVec 5 × Nat) :=
  us.findSome? fun u => match u.o with | .plane d n ix => some (d, n, ix.toNat) | _ => none

/-- The element count of an elementwise word (R170). -/
def elemCount (s : State) (us : List Use) : Nat :=
  match refPlane us with
  | some (d, _, _) => d.count
  | none => (us.findSome? fun u => match u.o with | .port g => some (vecCount (s.port g.toNat)) | _ => none).getD 1024

/-- The lane of every element (R170). -/
def elemLanes (us : List Use) (n : Nat) : List Nat :=
  match refPlane us with
  | some (d, _, ix) => lanesOf d ix
  | none => List.range n

def planesOf (s : State) (win : Bool) (us : List Use) : List Nat :=
  us.filterMap fun u => match u.o with | .plane _ n _ => some (physPlane s win n) | _ => none

/-- The uses of a port among operands: its pops, or its pushes. -/
def portUses (us : List Use) (g : BitVec 3) (dst : Bool := false) : Nat :=
  (us.filter fun u => decide (u.dst = dst) && decide (u.o = .port g)).length

/-- R194's checks of plane shapes, then of ports and slots, each in the order of the operands; an operand has its own count. A lane of
a source plane that holds bad data faults after them (R365). -/
def checkUses (s : State) (st : Stream) (win : Bool) (us : List (Use × Nat)) : Except Halt Unit := do
  us.forM fun (u, _) => match u.o with
    | .plane _ n _ => checkPlane s st (physPlane s win n) u.ty.width
    | _ => .ok ()
  us.zipIdx.forM fun ((u, n), i) => match u.o with
    | .port g => checkPort s st g.toNat u.dst n (u.ty.width / 8) (portUses ((us.take i).map Prod.fst) g u.dst)
    | .slot h off => checkSlot s st h.toNat off.toNat u.dst (n * u.ty.width / 8)
    | _ => .ok ()
  us.forM fun (u, _) => match u.o with
    | .plane d n ix =>
      if u.dst then .ok () else checkBad s st ((lanesOf d ix.toNat).map (.lane (physPlane s win n))) (some 1)
    | _ => .ok ()

/-- The interlocked waits of the operands: port data and room, slot fill and room, and the slot reads themselves (R57, R98). -/
def waitUses (s : State) (st : Stream) (us : List (Use × Nat)) : Except Halt (List (List Byte)) := do
  us.forM fun (u, _) => match u.o with
    | .port g => if u.dst then waitFor (pushRoom s g.toNat) s .port
        else let k := portUses (us.map Prod.fst) g; waitFor (popReady s g.toNat k) (takeAhead s g.toNat k) .port
    | .slot h off => if u.dst then waitFor (slotRoom s h.toNat off.toNat) s .slot
        else waitFor (slotFull s h.toNat off.toNat) s .slot
    | _ => .ok ()
  let ds ← slotData s st (us.filterMap fun (u, n) => match u.o with
    | .slot h off =>
      if u.dst then none
      else let x := s.handle h.toNat; some (slotAddr x x.rh off.toNat, n * u.ty.width / 8)
    | _ => none)
  us.forM fun (u, _) => match u.o with
    | .port g => if u.dst then .ok () else checkPops s st g.toNat (portUses (us.map Prod.fst) g)
    | _ => .ok ()
  .ok ds

/-- The elements of a slot's bytes. -/
def bytesElems (w : Nat) (l : List Byte) : List W32 :=
  let a := l.toArray
  (List.range (l.length / w)).map fun i =>
    BitVec.ofNat 32 (leNat ((List.range w).map fun k => a.getD (i * w + k) 0))

def elemsBytes (w : Nat) (l : List W32) : List Byte := l.flatMap fun x => leBytes w x.toNat

/-- The one element of a KIND 11 operand (R29). -/
def constElem (s : State) (st : Stream) (o : Opnd) : W32 :=
  match o with
  | .scalar r => (s.snapReg st (0#1 ++ r)).setWidth 32
  | .pool e => s.job.l.pool.getD e.toNat 0
  | _ => 0

/-- The 64-bit value of a KIND 11 operand: a scalar whole, a pool entry zero-extended (R143, R162). -/
def constVal (s : State) (st : Stream) (o : Opnd) : W64 :=
  match o with
  | .scalar r => s.snapReg st (0#1 ++ r)
  | .pool e => (s.job.l.pool.getD e.toNat 0).setWidth 64
  | _ => 0

/-- Read the sources in their order, popping ports; slot bytes are at hand (R171). -/
def readUses (st : Stream) (win : Bool) (rnd : Rnd) (sat : Bool) :
    List (Use × Nat) → List (List Byte) → State → State × List (Array W32)
  | [], _, s => (s, [])
  | (u, n) :: us, bs, s =>
    if u.dst then readUses st win rnd sat us bs s
    else match u.o with
      | .plane d p ix =>
        let v := planeRead (s.plane (physPlane s win p)) u.ty.width (lanesOf d ix.toNat)
        let (s', l) := readUses st win rnd sat us bs s
        (s', v :: l)
      | .port g =>
        let (s, v) := popPort st g.toNat u.ty rnd sat s
        let (s', l) := readUses st win rnd sat us bs s
        (s', v.toArray :: l)
      | .slot h off =>
        let v := bytesElems (u.ty.width / 8) (bs.headD [])
        let (s', l) := readUses st win rnd sat us bs.tail (acquireSlot st h.toNat off.toNat s)
        (s', v.toArray :: l)
      | o =>
        let v := Array.replicate n (BitVec.ofNat 32 (lowBits u.ty.width (constElem s st o)))
        let (s', l) := readUses st win rnd sat us bs s
        (s', v :: l)

/-- The bit of a lane under the word's mask (R27, R160). -/
def maskBit (s : State) (km : Option (BitVec 3)) (lane : Nat) : Bool :=
  match km with
  | some k => (row s.job.vx.k 0 k.toNat).getLsbD lane
  | none => true

/-- Write a result: the lanes of a plane that shape and mask admit, or the whole vector with excluded elements zero (R158, R160). The
sticky bits are those of the elements written (R111). -/
def putResult (st : Stream) (lat : Nat) (d : Opnd) (ty : Ty) (win : Bool) (rnd : Rnd) (sat : Bool) (km : Option (BitVec 3))
    (lanes : List Nat) (out : List Conv) (s : State) : State :=
  let z := lanes.zip out
  match d with
  | .plane _ n _ =>
    let p := physPlane s win n
    let x := s.plane p
    let ws := z.filter fun e => inShape x e.1 && maskBit s km e.1
    let (a, b) := convSticky (ws.map Prod.snd)
    let s := later st lat (.lanes p (ws.map fun e => (e.1, e.2.bits))) s
    if a || b then later st lat (.sticky a b) s else s
  | _ =>
    let vs := z.map fun e => if maskBit s km e.1 then e.2.bits else 0
    let off := (z.zipIdx.filter fun e => !maskBit s km e.1.1).map Prod.snd
    let (a, b) := convSticky ((z.filter fun e => maskBit s km e.1).map Prod.snd)
    let s := if a || b then later st lat (.sticky a b) s else s
    match d with
    | .port g =>
      let (s, id) := pushTake g.toNat ty rnd sat (wordRef s st) s
      later st lat (.push g.toNat id vs off) s
    | .slot h off => slotPut st lat h.toNat off.toNat (elemsBytes (ty.width / 8) vs) s
    | _ => s

/-- A type that this part's absent RES16 makes an absent unit (R7, R48). -/
def absentTy (s : State) (t : Ty) : Bool := decide (t = .res16) && !Config.res16 s.variant

/-- An elementwise word: R171 whole. The function is given the state, the lane of the element and its sources. -/
def elemWordL (st : Stream) (p : Pred) (lat : Nat) (d : Opnd) (dty : Ty) (srcs : List (Opnd × Ty)) (x : Sfx)
    (f : State → Nat → (Nat → W32) → Conv) (s : State) : Host.Outcome State Fault Refusal :=
  word st p s fun s => do
    let us := ⟨d, dty, true⟩ :: srcs.map fun a => (⟨a.1, a.2, false⟩ : Use)
    check (us.any fun u => absentTy s u.ty) s st 0x04
    let n := elemCount s us
    let uns := us.map fun u => (u, n)
    let s ← touchAll (planesOf s x.win us) s
    checkUses s st x.win uns
    let bs ← waitUses s st uns
    let (s, vs) := readUses st x.win x.rnd x.sat uns bs s
    let lanes := elemLanes us n
    let out := lanes.zipIdx.map fun (l, e) => f s l fun i => (vs.getD i #[]).getD e 0
    .ok (putResult st lat d dty x.win x.rnd x.sat x.km lanes out s)

/-- An elementwise word whose elements do not depend on their lanes. -/
def elemWord (st : Stream) (p : Pred) (lat : Nat) (d : Opnd) (dty : Ty) (srcs : List (Opnd × Ty)) (x : Sfx)
    (f : (Nat → W32) → Conv) (s : State) : Host.Outcome State Fault Refusal :=
  elemWordL st p lat d dty srcs x (fun _ _ g => f g) s

/-- The lanes of a destination that is not taken element by element with the sources. -/
def ownLanes (d : Opnd) (n : Nat) : List Nat :=
  match d with
  | .plane dir _ ix => lanesOf dir ix.toNat
  | _ => List.range n

/-- A word whose result is a function of its whole operands: each source with its count, the destination with its own. -/
def wholeWord (st : Stream) (p : Pred) (lat : Nat) (d : Opnd) (n : Nat) (srcs : List (Opnd × Nat)) (x : Sfx)
    (f : State → List (Array W32) → List Conv) (s : State) : Host.Outcome State Fault Refusal :=
  word st p s fun s => do
    let us : List (Use × Nat) := (⟨d, x.ty, true⟩, n) :: srcs.map fun a => ((⟨a.1, x.ty, false⟩ : Use), a.2)
    check (absentTy s x.ty) s st 0x04
    let s ← touchAll (planesOf s x.win (us.map Prod.fst)) s
    checkUses s st x.win us
    let bs ← waitUses s st us
    let (s, vs) := readUses st x.win x.rnd x.sat us bs s
    .ok (putResult st lat d x.ty x.win x.rnd x.sat x.km (ownLanes d n) (f s vs) s)

/-- A result that sets no sticky bit. -/
def plain (v : W32) : Conv := ⟨v, false, false⟩

end Sys2Proof.Machine
end

