-- ==== Sys2Proof/Machine/Domains.lean ====
section
/-! DEFINITION. Synchronisation domains: membership, arrival, the closing of a phase change, its completion at this core
(R248, R250, R277 to R282). -/
namespace Sys2Proof.Machine

def Dom.init (lvl inst : Nat) : Dom := ⟨lvl, inst, [], 0, 0, [], [], [], false, 0, 0, []⟩

/-- The instance of a level that the running job belongs to; one that nobody has joined has count 0 (R278). -/
def domOf (s : State) (lvl : Nat) : Dom := (findDom s lvl (domInst s lvl)).getD (Dom.init lvl (domInst s lvl))

def putDom (d : Dom) (s : State) : State :=
  s.onGrp fun g => { g with doms := d :: g.doms.filter fun x => ¬(x.lvl = d.lvl ∧ x.inst = d.inst) }

/-- A job among the members of an instance: its core and the task that it belongs to, so that a saved job is not its core's present one. -/
def memberKey (core task : Nat) : Nat := core + 128 * task
def myKey (s : State) : Nat := memberKey s.coreNo s.job.l.task

def isMember (s : State) (lvl : Nat) : Bool := s.job.levels.getLsbD lvl

/-- Cycles from the last arrival to the completion at every member of this device (R282). -/
def domDelay (v : Config.Variant) (lvl : Nat) : Nat :=
  match lvl with
  | 1 => 8
  | 2 => 20
  | 3 => (match v with | .b9 => 44 | .b9h => 20)
  | _ => 44

/-- The least k with 2^k at or above n. -/
def clog2 (n : Nat) : Nat := ((List.range 13).find? fun k => n ≤ 2 ^ k).getD 13

/-- A phase change in progress closes when every member has arrived (R279, R282). -/
def closeDom (lvl : Nat) (d : Dom) (s : State) : State :=
  if !d.closing && !d.members.isEmpty && d.members.all d.arrived.contains then
    let at_ := max d.start (s.cyc + domDelay s.variant lvl)
    (putDom { d with closing := true, start := at_ } s).postAt at_ (.phaseChangeComplete lvl d.inst)
  else putDom d s

/-- The job of this core arrives at its instance of a level (R281). -/
def arriveDom (lvl : Nat) (s : State) : State :=
  let d := domOf s lvl
  closeDom lvl { d with arrived := unionNat d.arrived [myKey s], held := unionNat d.held (passes s (party s 0)) } s

/-- A job becomes a member of an instance at once; a phase change in progress then needs its arrival as well (R279). -/
def addMember (d : Dom) (key : Nat) (s : State) : State :=
  putDom { d with members := unionNat d.members [key], closing := false } s

/-- A job stops being a member; its leave may be the last arrival (R279). -/
def dropMember (lvl : Nat) (d : Dom) (key : Nat) (s : State) : State :=
  let out (l : List Nat) : List Nat := l.filter (· ≠ key)
  closeDom lvl { d with members := out d.members, arrived := out d.arrived } s

def joinDom (lvl : Nat) (s : State) : State :=
  let d := domOf s lvl
  addMember d (myKey s) s

def leaveDom (lvl : Nat) (s : State) : State := dropMember lvl (domOf s lvl) (myKey s) s

/-- A change of the job's membership that may change its race phase, on which every held set is emptied (R250). -/
def withPhase (f : State → State) (s : State) : State :=
  let s' := f s
  if racePhase s' = racePhase s then s'
  else (s'.onJob fun j => { j with held := [] }).onCore fun c =>
    { c with copies := c.copies.map fun x => if x.own && decide (x.jobId = s.job.id) then { x with held := [] } else x }

/-! ### BARW's own progress (R281, R353) -/

/-- A word of the sequencer that has made its request and is waiting: its result is written and the stream goes on. The result
takes its place among those of its cycle by the cycle on which the word issued (R55); a frozen job's is written at once. -/
def landReturn (iss : Nat) (e : Eff) (direct : Seq → Seq) (s : State) : State :=
  match s.job.st with
  | .running =>
    s.onJob fun j =>
      let old := j.dl.takeWhile fun x => x.iss ≤ iss
      let new := j.dl.dropWhile fun x => x.iss ≤ iss
      { j with dl := old ++ [⟨j.cycle, .sq, 0, iss, e⟩] ++ new }
  | _ => s.onSeq direct

/-- The phase change at a level reaches this core: the count rises, the race phase with it, and a waiting BARW acquires what the
arrivals held (R246, R250, R281). -/
def completeDom (lvl : Nat) (s : State) : State :=
  let d := domOf s lvl
  let mine := isMember s lvl && d.arrived.contains (myKey s)
  let s := withPhase (putDom { d with count := d.count + 1, arrived := [], held := [], closing := false, round := 0, start := 0 }) s
  if !mine then s
  else
    let s := addHeld s (party s 0) d.held
    let m := s.micro .sq
    if m.phase = 1 ∧ m.k = lvl then
      let m' := { m with phase := 2, val := BitVec.ofNat 64 (d.count + 1) }
      let s := s.onFlow fun f => { f with moved := true }
      match s.job.st with
      | .running => s.setMicro .sq m'
      | _ => advance .sq ((s.setMicro .sq m').onSeq fun q => q.setS m.due m'.val)
    else s

end Sys2Proof.Machine
end

