-- ==== Sys2Proof/Machine/Requests.lean ====
section
/-! DEFINITION. What the sequencer asks of device memory: the checks of an address, the limits and waits of its requests, the reads
of descriptors and tables at a word, requests to the atomic engines (R230, R235, R254, R264, R271 to R275). -/
namespace Sys2Proof.Machine

/-! ### Addresses (R235, R258, R273) -/

def checkAddr (s : State) (st : Stream) (va size : Nat) : Except Halt Unit := do
  check (decide (2 ^ 52 ≤ va)) s st 0x06 0 (BitVec.ofNat 64 va)
  check (decide (va % size ≠ 0)) s st 0x12 0 (BitVec.ofNat 64 va)

/-- A unit of the health word is present and fenced (R366, R367). -/
def fencedUnit (s : State) (bit : Nat) : Bool := s.plat.fenced.getLsbD bit && (presentUnits s.variant).testBit bit

/-- The address in bytes `va` to `va + len - 1` at which the first fenced stack stands, with its health bit. -/
def fencedStack (s : State) (va len : Nat) : Option (Nat × Nat) :=
  if s.plat.fenced = 0 then none
  else ((List.range ((va + len - 1) / 256 - va / 256 + 1)).map fun i => max va ((va / 256 + i) * 256)).findSome? fun a =>
    let b := 16 + stackOf s.variant a
    if fencedUnit s b then some (a, b) else none

/-- A word that reaches a fenced stack, or one whose route needs a fenced port: 0x13 with cause 2 (R365). -/
def checkStacks (s : State) (st : Stream) (va len : Nat) : Except Halt Unit :=
  match fencedStack s va len with
  | some (a, b) => stop s st 0x13 2 (BitVec.ofNat 64 a) (BitVec.ofNat 64 b)
  | none => .ok ()

/-- A group of more than one rank is reached over port 0 (DESIGN CHOICE, log 30). -/
def checkRoute (s : State) (ranks : Nat) : Except Halt Unit :=
  check (decide (1 < ranks) && fencedUnit s 40) s .sq 0x13 2 0 40

/-- A word whose bytes overlap a range in flight stalls until the operation retires, and is told whose it was (R254). -/
def waitRanges (s : State) (st : Stream) (self : Option Nat) (va len : Nat) : Except Halt Unit :=
  let hit := s.core.ranges.filter fun r => decide (some r.id ≠ self) && decide (r.lo < va + len) && decide (va < r.hi)
  if hit.isEmpty then .ok ()
  else
    let m := s.micro st
    hold (s.setMicro st { m with ranges := unionNat m.ranges (hit.map DevRange.id) }) .other

/-! ### Requests that are out (R235, R240, R274) -/

def overlaps (a n b k : Nat) : Bool := decide (a < b + k) && decide (b < a + n)

/-- An AMO or a SEMPOST of the sequencer that overlaps bytes and has not been served (R274, R275). -/
def amoOver (s : State) (va len : Nat) : Bool :=
  (s.job.seq.amoOut.any fun x => overlaps va len x.1 x.2) || s.job.seq.postOut.any fun x => overlaps va len x 8

/-- Every ST of the sequencer that has left and is not served: on its way, or in its slot. -/
def storesOut (s : State) : List DevReq :=
  let mine (r : DevReq) : Bool := decide (r.kind = .st)
  (s.dev.reqs.map Prod.snd).filter mine ++ (s.core.ldHeld.map Prod.snd).filter mine ++
    s.agenda.filterMap fun e => match e.ev with
      | .stackSlotService r => if mine r then some r else none
      | _ => none

/-- A store or an atomic of the sequencer to these bytes has not been served. -/
def unserved (s : State) (va len : Nat) : Bool :=
  amoOver s va len || (storesOut s).any fun r => overlaps va len r.va r.len

/-- An LD that overlaps an atomic not yet served holds its request until it is, and later requests of the sequencer to that stack
keep their order behind it (R240, R274). -/
def leaveCore (leave : Nat) (r : DevReq) (s : State) : State :=
  let same (x : Nat × DevReq) : Bool := decide (stackOf s.variant x.2.va = stackOf s.variant r.va)
  let after := match r.kind with | .ld _ _ _ | .desc _ => amoOver s r.va r.len | _ => false
  if after || s.core.ldHeld.any same then s.onCore fun c => { c with ldHeld := c.ldHeld ++ [(leave, r)] }
  else request leave r s

/-- An atomic has been served: the requests that waited for it leave, in their order. -/
def releaseHeld (s : State) : State :=
  let held := s.core.ldHeld
  held.foldl (fun s x => leaveCore (max x.1 s.cyc) x.2 s) (s.onCore fun c => { c with ldHeld := [] })

/-- A request that reaches a stack from another node than its owner's. -/
def arriveAt (at_ : Nat) (r : DevReq) (s : State) : State := s.onDev fun d => { d with reqs := d.reqs ++ [(at_, r)] }

/-- Loads that are out, at most 8; AMOs that are out, at most 8; stores and posts, at most 16 (R235, R273, R275, R300). -/
def loadsOut (s : State) (amo : Bool) : Nat := (s.job.seq.ldOut.filter fun x => x.amo = amo).length
def storeRoom (s : State) : Bool := decide (s.job.seq.stOut + s.job.seq.postOut.length + s.job.seq.remOut < 16)

/-- Every earlier ST and AMO of the sequencer has been served (R81). -/
def writesServed (s : State) : Bool := decide (s.job.seq.stOut = 0) && s.job.seq.amoOut.isEmpty

/-- Every earlier ST, AMO and SEMPOST of the sequencer has been served (R257, R273, R275). -/
def allServed (s : State) : Bool := decide (s.job.seq.stOut = 0) && s.job.seq.postOut.isEmpty && s.job.seq.amoOut.isEmpty

/-- Every earlier STL has landed (R257). -/
def stlLanded (s : State) : Bool := !(s.job.dl.any fun e => match e.eff with | .ldm _ _ => true | _ => false)

/-- The cycle on which the request of a word leaves the core (R235, R274). -/
def leaveCycle (s : State) (walked : Bool) : Nat := if walked then s.cyc + 1 else s.cyc + 2

/-! ### Reads of descriptors, blocks and tables (R232, R233, R264) -/

/-- The pieces in which a descriptor is read: lines, or the two halves of a TBIND's entry (R233) (DESIGN CHOICE, log 9). -/
def descPieces (va len : Nat) : List (Nat × Nat) := if len = 16 then [(va, 8), (va + 8, 8)] else linePieces va len

/-- A read of a descriptor that this word has asked for. -/
def descFind (s : State) (st : Stream) (p : Nat × Nat) : Option DescRd := (s.micro st).descs.find? fun d => d.va = p.1 ∧ d.len = p.2

/-- Ask for a piece of a descriptor, as an LD is asked for (R235, R240, R274). -/
def descAsk (st : Stream) (pages : List Piece) (p : Nat × Nat) (s : State) : State :=
  match pieceAt pages p.1 with
  | none => s
  | some pa =>
    let m := s.micro st
    let s := s.setMicro st { m with descs := m.descs ++ [⟨p.1, p.2, none, none⟩] }
    leaveCore (leaveCycle s (!m.leaves.isEmpty))
      ⟨.core s.coreNo, strParty s st, racePhase s, .read, .desc st, pa, p.1, p.2, [], wordRef s st, 0⟩ s

/-- The bytes of a descriptor as the sequencer reads them: requests of its share, under the stamp test of their slots. The word waits
until all are back, and takes a fault of one precisely (R251, R253). -/
def descRead (s : State) (st : Stream) (va len : Nat) : Except Halt (State × List Byte) := do
  let (s, pages) ← needPages s st va len [.r]
  checkStacks s st va len
  waitRanges s st none va len
  let ps := descPieces va len
  if ps.all fun p => (descFind s st p).isSome then
    match ps.findSome? fun p => (descFind s st p).bind DescRd.fault with
    | some f => .error (.trap s f)
    | none =>
      waitFor (ps.all fun p => ((descFind s st p).bind DescRd.data).isSome) s .other
      .ok (s, ps.flatMap fun p => ((descFind s st p).bind DescRd.data).getD [])
  else hold (ps.foldl (fun s p => if (descFind s st p).isSome then s else descAsk st pages p s) s) .other

/-- The 64-bit, 32-bit and shorter fields of a descriptor at a byte offset. -/
def fieldN (l : List Byte) (off n : Nat) : Nat := leNat ((l.drop off).take n)
def field64 (l : List Byte) (off : Nat) : W64 := BitVec.ofNat 64 (fieldN l off 8)

/-! ### The atomic engines (R271 to R275) -/

/-- The node of the engine that serves a line, and that of the line's stack. -/
def engineOf (s : State) (va : Nat) : Nat := homeOf s.variant va

/-- Travel from a requester to an engine, and back (R271, R402). -/
def engineTravel (s : State) (src : AtomSrc) (eng : Nat) : Nat :=
  match src with
  | .grip _ _ | .reel _ _ => Config.travel Config.gripNode (Config.engineNode eng) + 2
  | .synric p => Config.travel (Config.portNode p) (Config.engineNode eng) + 2
  | .peer k _ => Config.travel (Config.coreNode k) (Config.engineNode eng)
  | _ => Config.travel (Config.coreNode s.coreNo) (Config.engineNode eng)

/-- The owner in whose slots a request's fill and write-through are served (R271). -/
def atomOwner (s : State) (src : AtomSrc) : Owner :=
  match src with
  | .core => .core s.coreNo
  | .copy _ => .copyEng s.coreNo
  | .grip _ _ | .reel _ _ => .grip
  | .synric p => .port p
  | .peer k true => .copyEng k
  | .peer k false => .core k

/-- A request leaves for the home engine of its line. -/
def atomSend (leave : Nat) (r : AtomReq) (s : State) : State :=
  let k := engineOf s r.va
  let a := row s.atoms Atom.init k
  { s with atoms := rowSet s.atoms k { a with arr := a.arr ++ [(leave + engineTravel s r.src k, r)] } }

/-- A request of the sequencer: made by the core's atomic party, forked from the sequencer (R245, R246, R250). -/
def seqAtom (s : State) (k : AtomKind) (va pa size : Nat) (b c : W64) (reg : BitVec 5) (acq rel : Bool) : AtomReq :=
  ⟨.core, k, va, pa, size, b, c, reg, acq, rel, atomParty s, racePhase s, passes s (party s 0), wordRef s .sq, s.job.cycle⟩

end Sys2Proof.Machine
end

