-- ==== Sys2Proof/Machine/Access.lean ====
section
/-! DEFINITION. The access engine's words and the handle words of every stream: ports, bank formats, queue handles, loops, FILL,
SPILLQ, OMLD, SPMOVE and SENDT (R63, R96 to R100, R121 to R126, R133 to R136, R139, R167, R190, R283). -/
namespace Sys2Proof.Machine

/-- The operand V of a format-C word of AX (R122). -/
def vOf (s : State) (v : VSrc) : W64 :=
  match v with
  | .imm x => x
  | .reg r => s.snapReg .ax r

/-- The bits of V from `i` up, which must be zero. -/
def vHigh (v : W64) (i : Nat) : Nat := v.toNat / 2 ^ i

/-- What a word does while it occupies its stream after its issue: it counts as progress (R363). -/
def working {α : Type} (st : Stream) (m : Micro) (s : State) (w : Wait) : Except Halt α :=
  hold ((s.setMicro st m).onFlow fun f => { f with moved := true }) w

/-! ### PSET and PRST (R124, R126) -/

/-- A level of a descriptor: bound and stride, or nothing where it breaks R124. -/
def descLevel (w : Nat) (l : W64) : Option (Nat × Int) :=
  let n := (l.extractLsb' 0 16).toNat
  let st := (l.extractLsb' 32 24).toInt
  if l.extractLsb' 56 8 ≠ 0 ∨ l.extractLsb' 16 16 ≠ 0 ∨ n = 0 ∨ st % w ≠ 0 then none else some (n, st)

/-- A port out of the 64 bytes of its descriptor (R124). -/
def parsePort (s : State) (off : Nat) (d : List Byte) : Option Port :=
  let c := field64 d 0
  let f (i n : Nat) : Nat := c.toNat / 2 ^ i % 2 ^ n
  let lv (l : Nat) : W64 := field64 d (8 + 8 * l)
  let strm := f 32 3
  let dir := f 30 2
  let vec := f 28 2
  let esz := f 26 2
  let nl := f 22 3
  let base := f 0 22
  let w := 2 ^ esz
  let fmtBad := match bankWidth (fmtCode (bankFmt s (bankOf base))) with | some b => decide (b ≠ w) | none => false
  if vHigh c 35 ≠ 0 ∨ strm = 0 ∨ 4 < strm ∨ 1 < dir ∨ vec = 3 ∨ esz = 3 ∨ nl = 0 ∨ nl = 7 ∨ field64 d 56 ≠ 0 ∨
      (List.range 6).any (fun l => decide (nl ≤ l) && decide (lv l ≠ 0)) = true ∨ base % w ≠ 0 ∨ fmtBad = true then none
  else
    match (List.range nl).mapM fun l => descLevel w (lv l) with
    | some lvls => some ⟨true, off, strm, decide (dir = 1), vec, esz, c.getLsbD 25, base, lvls, 0, 0, s.job.cycle, [], []⟩
    | none => none

/-- Everything pushed to a port has been written. -/
def portDrained (s : State) (g : Nat) : Bool := let p := s.port g; !p.cfg || !p.wr || p.buf.isEmpty

def execPset (p : Pred) (g : BitVec 3) (v : VSrc) (s : State) : Host.Outcome State Fault Refusal :=
  word .ax p s fun s => do
    let x := vOf s v
    let off := x.toNat
    check (decide (vHigh x 22 ≠ 0)) s .ax 0x02
    check (decide (off % 64 ≠ 0)) s .ax 0x12 0 x
    let m := s.micro .ax
    if m.phase = 0 then
      waitFor (portDrained s g.toNat) s .port
      working .ax { m with phase := 1 } s .slot
    else
      let ds ← slotData s .ax [(off, 64)]
      match parsePort s off (ds.headD []) with
      | none => stop s .ax 0x02 0 x
      | some q => .ok (s.setPort g.toNat q)

def execPrst (p : Pred) (g : BitVec 3) (v : VSrc) (s : State) : Host.Outcome State Fault Refusal :=
  word .ax p s fun s => do
    let x := vOf s v
    let q := s.port g.toNat
    check (decide (vHigh x 1 ≠ 0)) s .ax 0x02
    if !q.cfg then badPort s .ax g.toNat
    waitFor (portDrained s g.toNat) s .port
    let q' := if x = 0 then { q with pos := 0, fpos := 0, buf := [], out := [] } else Port.init
    .ok (later .ax 1 (.port g.toNat q') s)

/-! ### Queue handles (R96, R97, R99, R190) -/

/-- A handle word of any stream; on the sequencer it is a side effect of its job (R96, R343). -/
def handleWord (st : Stream) (p : Pred) (s : State) (body : State → Except Halt State) : Host.Outcome State Fault Refusal :=
  match st with
  | .sq => sideWord p s body
  | st => word st p s body

/-- A write to a handle's slots that is in its shadow. -/
def handleWritten (s : State) (h : Nat) : Bool :=
  (s.core.writes.any fun w => w.h = h) || s.job.dl.any fun e => match e.eff with | .slotW h' _ _ _ => decide (h' = h) | _ => false

/-- A copy's entry, or SPMOVE's, takes its place in the scoreboard: by the cycle of its entry, then by the issuing core; of one core
an SPMOVE is there before its copies start (R132). -/
def enterSb (e : SbEnt) (s : State) : State :=
  let before (x : SbEnt) : Bool := decide (x.at_ < e.at_) || (decide (x.at_ = e.at_) && decide (x.core ≤ e.core))
  s.onCore fun c => { c with sb := c.sb.takeWhile before ++ [e] ++ c.sb.dropWhile before }

def execQinit (p : Pred) (h : BitVec 4) (base : BitVec 22) (sz : BitVec 3) (depth : BitVec 10) (prod cons : BitVec 3)
    (s : State) : Host.Outcome State Fault Refusal :=
  let st := s.turn
  handleWord st p s fun s => do
    waitPub s h.toNat
    let x := s.handle h.toNat
    check (decide (base.toNat % 64 ≠ 0)) s st 0x12 0 (base.setWidth 64)
    check (decide (2 ^ 22 < base.toNat + depth.toNat * (64 * 2 ^ sz.toNat))) s st 0x07 0 (base.setWidth 64)
    if x.init && (decide (x.f ≠ 0 ∨ x.u ≠ 0 ∨ x.v ≠ 0) || handleWritten s h.toNat) then badHandle s st h.toNat
    .ok (later st 1 (.qinit h.toNat base.toNat sz.toNat depth.toNat prod.toNat cons.toNat) s)

/-- The role of a stream at a handle (R99). -/
def checkRole (s : State) (st : Stream) (h : Nat) (prod : Bool) : Except Halt Unit := do
  waitPub s h
  let x := s.handle h
  if !handleOn s h || decide ((if prod then x.prod else x.cons) ≠ st.idx) then badHandle s st h else .ok ()

/-- A read of slots joins what their publishers held (R246, R250). -/
def acquireSlots (st : Stream) (h n : Nat) (s : State) : State :=
  (List.range n).foldl (fun s i => acquireSlot st h i s) s

def execWaitf (p : Pred) (h : BitVec 4) (n : BitVec 10) (s : State) : Host.Outcome State Fault Refusal :=
  let st := s.turn
  handleWord st p s fun s => do
    checkRole s st h.toNat false
    if (s.handle h.toNat).depth < n.toNat then badHandle s st h.toNat
    waitFor (decide (n.toNat ≤ (s.handle h.toNat).f)) s .slot
    .ok (acquireSlots st h.toNat n.toNat s)

def execWaite (p : Pred) (h : BitVec 4) (n : BitVec 10) (s : State) : Host.Outcome State Fault Refusal :=
  let st := s.turn
  handleWord st p s fun s => do
    checkRole s st h.toNat true
    let x := s.handle h.toNat
    if x.depth < n.toNat then badHandle s st h.toNat
    waitFor (decide (n.toNat ≤ x.depth - x.f)) s .slot
    .ok s

def execAdvh (p : Pred) (h : BitVec 4) (n : BitVec 10) (s : State) : Host.Outcome State Fault Refusal :=
  let st := s.turn
  handleWord st p s fun s => do
    checkRole s st h.toNat false
    if (s.handle h.toNat).f < n.toNat then badHandle s st h.toNat
    .ok (if n = 0 then s else later st 1 (.advh h.toNat n.toNat true) s)

def execAdvt (p : Pred) (h : BitVec 4) (n : BitVec 10) (s : State) : Host.Outcome State Fault Refusal :=
  let st := s.turn
  handleWord st p s fun s => do
    let x := s.handle h.toNat
    checkRole s st h.toNat true
    waitFor (!slotWritesOut s st h.toNat n.toNat) s .slot
    if x.depth - x.f < n.toNat then badHandle s st h.toNat
    .ok (if n = 0 then s else later st 1 (.advt h.toNat n.toNat (passes s (strParty s st))) s)

/-! ### LOOP (R167) -/

def execLoop (p : Pred) (lvl : BitVec 2) (cnt : LoopCnt) (bl : BitVec 8) (wa : Bool) (s : State) :
    Host.Outcome State Fault Refusal :=
  let st := s.turn
  let e := s.eng st
  let body := e.idx + 1
  let stop := body + bl.toNat + 1
  let skip : State := engineTo st stop (issuedWord st s)
  if enabled s st p then
    let n := match cnt with | .imm k => k.toNat | .z r => (row s.job.seq.z 0 r.toNat).toNat
    let secLen := match e.cur with | some q => hdrLen q.hdr | none => 0
    let room := match e.frames with | fr :: _ => fr.stop | [] => secLen
    if 2 ^ 32 - 1 < n ∨ lvl.toNat ≠ e.frames.length ∨ room < stop then .next (takeFault s (faultAt s st 0x02 0))
    else if n = 0 then .next skip
    else .next (engAt st body ((issuedWord st s).onEng st fun e => { e with frames := ⟨body, stop, n, 0, wa⟩ :: e.frames }))
  else .next skip

/-! ### BFMTW (R121, R122) -/

/-- A value that breaks R121. -/
def badBfmt (v : W64) : Bool :=
  let fmt := fmtCode v
  let gran := (v.extractLsb' 58 2).toNat
  let pitch := (v.extractLsb' 40 18).toNat
  if fmt = 0x9 ∨ fmt = 0xA then
    let w := if fmt = 0x9 then 1 else 2
    decide (v.extractLsb' 32 8 ≠ 0) ||
      (if gran = 0 then decide (pitch ≠ 0) else decide (pitch = 0 ∨ pitch % w ≠ 0 ∨ v.extractLsb' 22 10 ≠ 0))
  else decide (0xB ≤ fmt.toNat ∧ fmt.toNat ≤ 0xE) || decide (v.extractLsb' 0 60 ≠ 0)

def execBfmtw (p : Pred) (bank : BitVec 4) (v : VSrc) (s : State) : Host.Outcome State Fault Refusal :=
  word .ax p s fun s => do
    let x := vOf s v
    let svec : W64 := (x.extractLsb' 0 22).setWidth 64
    check (badBfmt x) s .ax 0x02
    check (decide (fmtCode x = 0xA) && !Config.res16 s.variant) s .ax 0x04
    check (decide (x.extractLsb' 58 2 ≠ 0) && decide (svec.toNat % 4 ≠ 0)) s .ax 0x12 0 svec
    waitFor (!s.core.sb.any (spans (bank.toNat * 2 ^ 18) ((bank.toNat + 1) * 2 ^ 18))) s .other
    .ok (later .ax 1 (.bfmt bank.toNat x) s)

/-! ### FILL and SPILLQ (R133) -/

/-- The width of a slot's elements for a port: of its bank's format, or of the port where that bank is raw (R123). -/
def slotWidth (s : State) (p : Port) (a : Nat) : Nat := (bankWidth (fmtCode (bankFmt s (bankOf a)))).getD (eszBytes p)

/-- The checks that FILL and SPILLQ make before any pop or push: role, pack count, the port and every vector of the walk, each with the
width of its slot, the slots' size (R97, R99, R127, R133). -/
def checkMove (s : State) (h g n : Nat) (fill : Bool) : Except Halt Unit := do
  checkRole s .ax h fill
  let x := s.handle h
  let p := s.port g
  let w (k : Nat) : Nat := slotWidth s p (slotAddr x (if fill then x.wh else x.rh) k)
  if (if fill then x.u else x.v) ≠ 0 then badHandle s .ax h
  checkPortUse s .ax g (!fill) (vecCount p)
  (List.range n).forM fun k => checkPort s .ax g (!fill) (vecCount p) (w k) k
  if x.depth < n ∨ (List.range n).any (fun k => decide (slotSize x < vecCount p * w k)) then badHandle s .ax h

/-- A vector as it stands in a slot of FILL: each element converted for its place (R123). -/
def fillBytes (s : State) (p : Port) (a w : Nat) (l : List PElem) : List Conv :=
  (l ++ List.replicate (vecCount p - l.length) (⟨0, 0xF, 0⟩ : PElem)).zipIdx.map fun (e, i) =>
    let f := bankFmt s (bankOf (a + i * w))
    if i < l.length then crossBank e.fmt e.step (fmtCode f) (stepAt s f (a + i * w)) e.bits else ⟨0, false, false⟩

/-- Moves that FILL and SPILLQ make one a cycle: a slot write of AX is out while it has not been granted. -/
def axWriteOut (s : State) : Bool :=
  (s.core.writes.any fun w => w.st = .ax) || s.job.dl.any fun e => decide (e.st = .ax) && match e.eff with | .slotW _ _ _ _ => true | _ => false

def fillVector (h g k : Nat) (s : State) : State :=
  let x := s.handle h
  let p := s.port g
  let a := slotAddr x x.wh k
  let w := slotWidth s p a
  let (s, l) := popRaw g s
  let cs := fillBytes s p a w l
  let (ncr, qx) := convSticky cs
  let s := setSticky .ax ncr qx s
  later .ax 1 (.slotW h [(a, fit (slotSize x) (elemsBytes w (cs.map Conv.bits)))] 0 (wordRef s .ax)) s

def execFill (p : Pred) (h : BitVec 4) (g : BitVec 3) (v : VSrc) (s : State) : Host.Outcome State Fault Refusal :=
  word .ax p s fun s => do
    let x := vOf s v
    let n := x.toNat
    let hn := h.toNat
    check (decide (512 < n)) s .ax 0x02
    let m := s.micro .ax
    if m.phase = 0 then
      checkMove s hn g.toNat n true
      waitFor (decide (n ≤ (s.handle hn).depth - (s.handle hn).f)) s .slot
      if n = 0 then .ok s else step1 hn g.toNat n { m with phase := 1, k := 0 } s
    else step1 hn g.toNat n m s
where
  step1 (h g n : Nat) (m : Micro) (s : State) : Except Halt State :=
    if axWriteOut s then hold (s.setMicro .ax m) .slot
    else if m.k = n then .ok (later .ax 1 (.advt h n (passes s (strParty s .ax))) s)
    else if popReady s g 1 then do
      checkPops s .ax g 1
      working .ax { m with k := m.k + 1 } (fillVector h g m.k s) .slot
    else hold (s.setMicro .ax m) .port

/-- Push the elements of a slot to a write port, with the format and step they have there (R123, R133). -/
def spillVector (h g k : Nat) (d : List Byte) (s : State) : State :=
  let x := s.handle h
  let p := s.port g
  let a := slotAddr x x.rh k
  let w := slotWidth s p a
  let es : List PElem := (bytesElems w d).zipIdx.map fun (b, i) =>
    let f := bankFmt s (bankOf (a + i * w))
    ⟨b, fmtCode f, stepAt s f (a + i * w)⟩
  let (s, id) := pushTake g .f32 .rne false (wordRef s .ax) s
  let p := s.port g
  s.setPort g { p with buf := landPush id es true [] (s.job.cycle + 1) p.buf }

def execSpillq (p : Pred) (h : BitVec 4) (g : BitVec 3) (v : VSrc) (s : State) : Host.Outcome State Fault Refusal :=
  word .ax p s fun s => do
    let x := vOf s v
    let n := x.toNat
    let hn := h.toNat
    check (decide (512 < n)) s .ax 0x02
    let m := s.micro .ax
    if m.phase = 0 then
      checkMove s hn g.toNat n false
      waitFor (decide (n ≤ (s.handle hn).f)) s .slot
      let s := acquireSlots .ax hn n s
      if n = 0 then .ok s else step1 hn g.toNat n { m with phase := 1, k := 0 } s
    else step1 hn g.toNat n m s
where
  step1 (h g n : Nat) (m : Micro) (s : State) : Except Halt State := do
    let q := s.handle h
    let a := slotAddr q q.rh m.k
    let s := s.setMicro .ax m
    let ds ← slotData s .ax [(a, vecCount (s.port g) * slotWidth s (s.port g) a)]
    if !pushRoom s g then hold s .port
    else
      let s := spillVector h g m.k (ds.headD []) s
      if m.k + 1 = n then .ok (later .ax 1 (.advh h n true) s)
      else working .ax { m with k := m.k + 1, rds := [] } s .slot

/-! ### OMLD (R134, R138, R139) -/

/-- A tile element as operand memory holds it: a residue is base-extended (R112, R138). -/
def oElem (t : Ty) (x : W32) : W48 := if t.isRes then baseExt (decide (t = .res16)) (resDec t x) else x.setWidth 48

/-- Whether an element is decoded from a non-canonical code as it enters operand memory (R110 to R112). -/
def oNcr (t : Ty) (x : W32) : Bool := t.isRes && resNonCanon t x

/-- A write of a tile starts: the slot, or the pair, is being filled (R138, R139). -/
def slotBegin (o : Nat) (t : Ty) (s : State) : State :=
  let s := mend (fun b => decide (b = .oslot o) || (decide (t = .res16) && decide (b = .oslot (o + 1))))
    (s.setOslot o ⟨.filling, t.code, false, [], []⟩)
  if t = .res16 then s.setOslot (o + 1) ⟨.filling, 0, true, [], []⟩ else s

def slotEmpty (s : State) (o : Nat) (t : Ty) : Bool :=
  decide ((s.oslot o).st = .empty) && (decide (t ≠ .res16) || decide ((s.oslot (o + 1)).st = .empty))

/-- OMLD (R134, R139): of a port that does not suit and a slot that is not EMPTY the port is checked first (DESIGN CHOICE, log 52). -/
def execOmld (p : Pred) (o : BitVec 6) (v : VSrc) (s : State) : Host.Outcome State Fault Refusal :=
  word .ax p s fun s => do
    let x := vOf s v
    let g := (x.extractLsb' 0 3).toNat
    let rows := (x.extractLsb' 8 7).toNat
    let code := x.extractLsb' 4 4
    let bad := decide (vHigh x 15 ≠ 0) || x.getLsbD 3 || decide (rows = 0 ∨ 64 < rows)
    match (if bad then none else Ty.ofCode code) with
    | none => stop s .ax 0x02
    | some t =>
      check (!(decide (t = .bf16 ∨ t = .f16) || t.isRes)) s .ax 0x02
      check (decide (t = .res16) && o.getLsbD 0) s .ax 0x02
      check (absentTy s t) s .ax 0x04
      let m := s.micro .ax
      if m.phase = 0 then
        (List.range rows).forM fun k => checkPort s .ax g false 64 (t.width / 8) k
        check (!slotEmpty s o.toNat t) s .ax 0x11 0 (o.setWidth 64)
        step1 o.toNat g rows t { m with phase := 1, k := 0 } (slotBegin o.toNat t s)
      else step1 o.toNat g rows t m s
where
  step1 (o g rows : Nat) (t : Ty) (m : Micro) (s : State) : Except Halt State :=
    if m.k = rows then .ok (later .ax 1 (.ofull o) s)
    else if popReady s g 1 then do
      checkPops s .ax g 1
      let (s, l) := popPort .ax g t .rne false s
      let s := setSticky .ax (l.any (oNcr t)) false s
      working .ax { m with k := m.k + 1 } (later .ax 1 (.orow o m.k (l.map (oElem t))) s) .port
    else hold (s.setMicro .ax m) .port

/-! ### SPMOVE (R132, R135) -/

/-- SPMOVE (R135). It waits for a free entry as a copy does, and retires on the cycle after its last write's grant (DESIGN CHOICE, log 52). -/
def execSpmove (p : Pred) (v : VSrc) (s : State) : Host.Outcome State Fault Refusal :=
  word .ax p s fun s => do
    let x := vOf s v
    let src := (x.extractLsb' 0 22).toNat
    let dst := (x.extractLsb' 22 22).toNat
    let len := (x.extractLsb' 44 17).toNat
    let m := s.micro .ax
    let off (n : Nat) : W64 := BitVec.ofNat 64 n
    if m.phase = 9 then
      if m.k < 2 * (64 * len) then hold s .other
      else .ok (s.onCore fun c => { c with sb := c.sb.filter fun e => ¬(e.owner = none ∧ e.core = s.coreNo) })
    else
      check (decide (65536 < len) || decide (vHigh x 61 ≠ 0)) s .ax 0x02
      check (decide (src % 64 ≠ 0)) s .ax 0x12 0 (off src)
      check (decide (dst % 64 ≠ 0)) s .ax 0x12 0 (off dst)
      check (decide (2 ^ 22 < src + 64 * len)) s .ax 0x07 0 (off src)
      check (decide (2 ^ 22 < dst + 64 * len)) s .ax 0x07 0 (off dst)
      if len = 0 then .ok s
      else
        waitFor (decide (s.core.sb.length < 64)) s .other
        working .ax { m with phase := 9, k := 0, val := x, got := [], due := s.job.cycle }
          (enterSb ⟨none, s.coreNo, min src dst, max src dst + 64 * len, s.cyc, true⟩ s) .other

/-! ### SENDT (R63, R136, R283) -/

/-- The communication level of the job (R283). -/
def commLevel (s : State) : Option Nat := [1, 2, 3, 4].find? fun l => isMember s l && decide (phaseOf s l % 2 = 1)

/-- A job is resident at a core of this device, and belongs to the instance that this core's job belongs to at a level. -/
def sharesStep (s : State) (core lvl : Nat) : Bool :=
  decide (core = s.coreNo) || (match s.grip.cores.find? fun x => x.1 = core with
    | some x => (match x.2.run with | some t => (domOf s lvl).members.contains (memberKey core t) | none => false)
    | none => false)

/-- SENDT (R136, R283; the place of its checks DEDUCED, log 25). -/
def execSendt (p : Pred) (g : BitVec 3) (v : VSrc) (s : State) : Host.Outcome State Fault Refusal :=
  word .ax p s fun s => do
    let x := vOf s v
    let arr := (x.extractLsb' 0 16).toNat
    let slot := x.extractLsb' 16 9
    let h := x.extractLsb' 25 4
    let core := (x.extractLsb' 29 7).toNat
    let q := s.port g.toNat
    check (decide (vHigh x 36 ≠ 0)) s .ax 0x02
    check (decide (Config.cores s.variant ≤ core)) s .ax 0x04
    checkPort s .ax g.toNat false (vecCount q) (eszBytes q)
    match commLevel s with
    | none => stop s .ax 0x16 0
    | some lvl =>
      waitFor (popReady s g.toNat 1) s .port
      checkPops s .ax g.toNat 1
      let t := Config.travelCore s.coreNo core
      let f2 : W64 := BitVec.ofNat 64 (s.coreNo + core * 2 ^ 7 + h.toNat * 2 ^ 14 + slot.toNat * 2 ^ 18)
      let f3 : W64 := BitVec.ofNat 64 (arr + t * 2 ^ 16)
      check (decide (arr ≠ t)) s .ax 0x09 0 f2 f3
      check (!sharesStep s core lvl) s .ax 0x09 1 f2 f3
      let (s, l) := popRaw g.toNat s
      let d := fit (vecCount q * eszBytes q) (elemsBytes (eszBytes q) (l.map PElem.bits))
      let id := if core = s.coreNo then s.job.id else 0
      let msg : SendMsg :=
        ⟨s.coreNo, core, id, h, slot, d, arr, t, wordRef s .ax, passes s (strParty s .ax), racePhase s⟩
      let s := s.onJob fun j => { j with sendOut := j.sendOut + 1 }
      let s := if core = s.coreNo then s else s.emit (.send msg)
      .ok (s.postAt (s.cyc + t) (.sendtArrival msg) (s.coreNo + 1))

/-- The slot of a handle that is free for an arrival now (R136). -/
def arrivalSlot (s : State) (m : SendMsg) : Option Nat :=
  let x := s.handle m.handle.toNat
  let i := m.slot.toNat
  if x.depth = 0 then none
  else
    let j := (x.wh + i) % x.depth
    let a := x.base + j * slotSize x
    if !x.init || decide (x.prod ≠ 5) || decide (x.u ≠ 0) || decide (x.depth - x.f ≤ i) ||
        (x.arrived.any fun y => y.1 = j) || decide (slotSize x < m.bytes.length) ||
        s.core.sb.any (spans a (a + slotSize x)) then none
    else some j

/-- Slots that have arrived at the head are published in order (R136). -/
def publishArrived (h : Nat) : Nat → State → State
  | 0, s => s
  | n + 1, s =>
    let x := s.handle h
    match x.arrived.find? fun y => y.1 = x.wh with
    | some y =>
      publishArrived h n (s.setHandle h (handleAdvt 1 y.2 { x with arrived := x.arrived.filter fun z => z.1 ≠ y.1 }))
    | none => s

/-- A timed send arrives. One for another core has arrived there (DESIGN CHOICE, log 1). One for this core is written to its slot, or finds it not
free: the data is discarded, and the two jobs freeze (R63, R131, R136). -/
def execSendtArrival (s : State) : Host.Outcome State Fault Refusal :=
  onDue s (fun | .sendtArrival m => some m | _ => none) fun m s =>
    let mine := decide (m.srcCore = s.coreNo)
    let s := if mine then s.onJob fun j => { j with sendOut := j.sendOut - 1 } else s
    if m.dstCore ≠ s.coreNo then s
    else
      let k := if s.core.landed.1 = s.cyc then s.core.landed.2 + 1 else 1
      let s := s.onCore fun c => { c with landed := (s.cyc, k) }
      let here := decide (s.job.id = m.jobId) && decide (s.job.st ≠ .none)
      let f2 : W64 := BitVec.ofNat 64 (m.srcCore + m.dstCore * 2 ^ 7 + m.handle.toNat * 2 ^ 14 + m.slot.toNat * 2 ^ 18)
      let f3 : W64 := BitVec.ofNat 64 (m.arr + m.trav * 2 ^ 16)
      let late : FaultRec := ⟨0x09, 2, m.word, false, false, false, false, false, false, f2, f3⟩
      let blame (f : FaultRec) (s : State) : State := if mine then takeFault s f else s.emit (.peerFault m.srcCore f)
      let fail (s : State) : State :=
        blame late (if here && !mine then takeFault s { late with peer := true } else s)
      match (if here && decide (k ≤ 2) then arrivalSlot s m else none) with
      | none => fail s
      | some j =>
        let h := m.handle.toNat
        let x := s.handle h
        let a := x.base + j * slotSize x
        let q := m.srcCore * 32 + 1
        let (g, n) := granSpan 64 a (slotSize x)
        let (st, bad) := stampGrans s.core.stamps q m.phase .write (fun p => decide (p = q) || m.held.contains p) g n
        let s := s.onCore fun c => { c with stamps := st }
        match bad with
        | some r =>
          let s := putSpad a (beforeRace r a (fit (slotSize x) m.bytes)) s
          blame ⟨0x08, 0, m.word, false, false, true, false, false, false, spadAddr s.coreNo (r.gran * 64),
            raceF3 q .write r m.phase true⟩ s
        | none =>
          let s := putSpad a (fit (slotSize x) m.bytes) s
          let s := s.setHandle h { x with arrived := x.arrived ++ [(j, unionNat m.held [q])] }
          publishArrived h x.depth s

/-! ### Grants to ports (R128, R129) -/

/-- The port whose grant of this cycle is to be served next. -/
def wonPort (s : State) (wr : Bool) : Option (Nat × List Nat) :=
  match s.core.won with
  | some (g :: l) => if (s.port g).wr = wr then some (g, l) else none
  | _ => none

def grantWon (wr : Bool) (f : Nat → State → State) (s : State) : Host.Outcome State Fault Refusal :=
  match wonPort s wr with
  | some (g, l) => .next (f g (s.onCore fun c => { c with won := some l }))
  | none => .next s

def execPortRunGrant (s : State) : Host.Outcome State Fault Refusal := grantWon false grantRead s
def execPortDrainRun (s : State) : Host.Outcome State Fault Refusal := grantWon true grantWrite s

end Sys2Proof.Machine
end

