-- ==== Sys2Proof/Machine/Flags.lean ====
section
/-! DEFINITION. Conditions, predicates and the wide flags (R44, R74 to R76, R180, R192). -/
namespace Sys2Proof.Machine

/-- A condition on two 64-bit values (R44, R74): the signed ones compare two's complement, the others natural numbers. -/
def condHolds (cc : Cond) (a b : W64) : Bool :=
  match cc with
  | .eq => a == b
  | .ne => a != b
  | .lt => a.slt b
  | .le => a.sle b
  | .gt => b.slt a
  | .ge => b.sle a
  | .ltn => a.ult b
  | .len => a.ule b
  | .gtn => b.ult a
  | .gen => b.ule a

/-- A value of `bits` bits extended as a condition's signedness gives (R258). -/
def condExtend (cc : Cond) (bits : Nat) (v : W64) : W64 := extendLow bits cc.signed v.toNat

/-- The wide flag of a number, zero-extended (R76). -/
def wideFlag (q : Seq) (i : Nat) : W64 :=
  match i with
  | 0 => (BitVec.ofBool q.w0).setWidth 64
  | 1 => (BitVec.ofBool q.w1).setWidth 64
  | 2 => (BitVec.ofBool q.w2).setWidth 64
  | _ => q.w3.setWidth 64

/-- The set bits of a mask. -/
def maskCount (k : BitVec 1024) : Nat := ((List.range 1024).filter k.getLsbD).length

/-- What VFLAG delivers (R192). -/
def flagEff (k : BitVec 1024) (m : Option (BitVec 1024)) : Eff :=
  let cnt := maskCount (match m with | some x => k &&& x | none => k)
  let tot := match m with | some x => maskCount x | none => 1024
  .wbits (decide (0 < cnt)) (decide (cnt = tot)) (decide (cnt = 0)) (BitVec.ofNat 32 cnt)

end Sys2Proof.Machine
end

