-- ==== Sys2Proof/Machine/Fetch.lean ====
section
/-! DEFINITION. Instruction fetch: the stream cache and its fills, headers and their checks, the words of a section, the prefetch
buffers of b0 to b7 (R10 to R14, R17 to R19, R34, R77, R78, R82, R169). -/
namespace Sys2Proof.Machine

/-! ### The stream cache (R13): 256 sets of 8 ways, by physical line (DESIGN CHOICE, log 8) -/

def scFind (s : State) (line : Nat) : Option ScLine := (SMap.get [] s.core.sc (line % 256)).find? fun l => l.line = line

/-- A line becomes the most recently used of its set. -/
def scTouch (l : ScLine) (s : State) : State :=
  s.onCore fun c =>
    let row := l :: (SMap.get [] c.sc (l.line % 256)).filter fun x => x.line ≠ l.line
    { c with sc := SMap.set [] c.sc (l.line % 256) (row.take 8) }

/-- Ask for a line, once. A miss is a request of the stream that caused it and leaves on its cycle (R13, R61, R240). -/
def askLine (st : Stream) (va line : Nat) (s : State) : State :=
  if s.core.scFill.contains line then s
  else request s.cyc ⟨.core s.coreNo, strParty s st, 0, .read, .fetch, line * 64, va / 64 * 64, 64, [], wordRef s st, 0⟩
    (s.onCore fun c => { c with scFill := line :: c.scFill })

/-- The lines that `n` bytes at a virtual address touch: virtual address and physical line, of a range whose translation is at
hand. -/
def linesOf (tr : Nat → Option Nat) (va n : Nat) : List (Nat × Nat) :=
  ((List.range ((va + n - 1) / 64 - va / 64 + 1)).map fun i => (va / 64 + i) * 64).filterMap fun a =>
    (tr (max a va)).map fun pa => (a, pa / 64)

/-- A fetch names a resident line by a virtual address, and makes it the most recently used. -/
def scName (va : Nat) (l : ScLine) (s : State) : State :=
  let v := (s.job.l.root, va)
  scTouch (if l.vas.contains v then l else { l with vas := v :: l.vas }) s

/-- The fault of a fetch that consumes a line which was read bad (R365). -/
def badLine (s : State) (st : Stream) (va : Nat) : FaultRec :=
  { faultAt s st 0x13 0 (BitVec.ofNat 64 va) (BitVec.ofNat 64 (16 + stackOf s.variant va)) with fetch := true }

/-- Bytes out of resident lines; a wait with the misses asked for; or a fault where a line was read bad. -/
def cachedBytes (s : State) (st : Stream) (tr : Nat → Option Nat) (va n : Nat) : Except Halt (State × List Byte) :=
  let ls := linesOf tr va n
  if ls.all fun l => (scFind s l.2).isSome then
    let s' := ls.foldl (fun s l => match scFind s l.2 with | some x => scName l.1 x s | none => s) s
    match ls.find? fun l => (scFind s l.2).any ScLine.bad with
    | some l => .error (.trap s' (badLine s st l.1))
    | none =>
      .ok (s', (List.range n).map fun i =>
        match tr (va + i) with
        | some pa => match scFind s (pa / 64) with | some x => x.data.getD (pa % 64) 0 | none => 0
        | none => 0)
  else hold (ls.foldl (fun s l => if (scFind s l.2).isSome then s else askLine st l.1 l.2 s) s) .other

/-- The translation of the sequencer's fetch, on demand; a fault is a fetch fault (R14). -/
def sqPages (s : State) (va n : Nat) : Except Halt State :=
  let one (s : State) (a : Nat) : Except Halt State :=
    match wordPage s .sq a .x with
    | .ok (s', _, _) => .ok s'
    | .error (.trap s' r) => .error (.trap s' { r with fetch := true })
    | .error e => .error e
  do
    let s ← one s va
    if (va + n - 1) / 2 ^ 16 = va / 2 ^ 16 then .ok s else one s (va + n - 1)

def tlbPa (s : State) (va : Nat) : Option Nat := (tlbFind s s.job.l.root va).map fun e => e.pa + (va - e.va)

/-- Bytes of the sequencer's code. -/
def sqFetch (s : State) (va n : Nat) : Except Halt (State × List Byte) := do
  let s ← sqPages s va n
  cachedBytes s .sq (tlbPa s) va n

/-- Bytes of an engine's section, through the pages that its ISSUE pinned (R14). -/
def engFetch (s : State) (st : Stream) (q : QEnt) (va n : Nat) : Except Halt (State × List Byte) :=
  cachedBytes s st (pieceAt q.pages) va n

/-! ### Headers (R17, R18) -/

def hdrType (h : W64) : BitVec 4 := h.extractLsb' 60 4
/-- DEP field `j`: valid, and its offset. -/
def hdrDep (h : W64) (j : Nat) : BitVec 10 := h.extractLsb' (30 - 10 * j) 10
def depV (d : BitVec 10) : Bool := d.getLsbD 9
def depD (d : BitVec 10) : Int := (d.extractLsb' 0 8).toInt

/-- The four streams that the DEP fields of a stream's section name. -/
def depStreams (st : Stream) : List Stream := Stream.all.filter (· ≠ st)

/-- The fault code of a header that is none, or breaks R18. -/
def hdrFault (st : Stream) (h : W64) : Option Nat :=
  if hdrType h ≠ 1 then some 0x01
  else
    let badDep (j : Nat) : Bool := let d := hdrDep h j; d.getLsbD 8 || (!depV d && decide (d ≠ 0))
    let bad := decide (h.extractLsb' 45 3 ≠ 0) || (List.range 4).any badDep ||
      (decide (st ≠ .sq) && decide (hdrDep h 0 ≠ 0)) ||
      ((hdrSafe h || hdrJend h) && !hdrRdve h) || (hdrLmap h && !hdrSafe h) ||
      (hdrLbr h && (decide (st = .sq) || decide (256 < hdrLen h)))
    if bad then some 0x02 else none

/-- The targets of a header's waits (R89, R91): stream index and count, or the stream of a dependency of −128. -/
def hdrTargets (s : State) (st : Stream) (h : W64) : Except (Nat × Int) (List (Nat × Int)) :=
  (depStreams st).zipIdx.foldlM (fun l (f, j) =>
    let d := hdrDep h j
    if depV d then
      let t : Int := (row s.job.flow.issued 0 f.idx : Nat) + depD d
      if depD d = -128 then .error (f.idx, t) else .ok (l ++ [(f.idx, t)])
    else .ok l) []

/-- Whether a wait's targets are met (R91). -/
def targetsMet (s : State) (l : List (Nat × Int)) : Bool :=
  l.all fun t => decide (t.2 ≤ ((row s.job.flow.retired 0 t.1 : Nat) : Int))

/-- What the sections counted by targets pass on at their retirement (R246). -/
def targetHeld (s : State) (l : List (Nat × Int)) : List Nat :=
  l.foldl (fun a t =>
    let h := (row s.job.flow.retHeld [] t.1).filter fun x => ((x.1 : Nat) : Int) ≤ t.2
    unionNat a ((h.getLast?.map Prod.snd).getD [])) []

/-! ### The words of a section -/

def wordOf (l : List Byte) : BitVec 96 := BitVec.ofNat 96 (leNat l)

/-- The word at which the sequencer stands: from the buffer of the branch that led here, or by fetch. -/
def sqWord (s : State) (a : W64) (i : Nat) : Except Halt (State × BitVec 96) :=
  match s.job.seq.buf with
  | some (_, ws) =>
    match ws[i]? with
    | some w => .ok (s, w)
    | none => fetchIt
  | none => fetchIt
where
  fetchIt : Except Halt (State × BitVec 96) := do
    let (s, l) ← sqFetch s (a + BitVec.ofNat 64 (8 + 12 * i)).toNat 12
    .ok (s, wordOf l)

/-- The words `i` to `i + n - 1` of a section by fetch. -/
def fetchWords (s : State) (st : Stream) (q : QEnt) (i n : Nat) : Except Halt (State × List (Nat × BitVec 96)) := do
  let (s, l) ← engFetch s st q (q.addr.toNat + 8 + 12 * i) (12 * n)
  .ok (s, (List.range n).map fun k => (i + k, wordOf ((l.drop (12 * k)).take 12)))

/-- The word at which an engine stands: from the loop buffer, or by fetch. A section with LBR is fetched whole before its first word
and held; without it the buffer holds the body of a loop that runs (R167, R169) (DEDUCED, log 17). -/
def engWord (s : State) (st : Stream) (q : QEnt) (i : Nat) : Except Halt (State × BitVec 96) :=
  match (s.eng st).lbuf.find? fun x => x.1 = i with
  | some (_, w) => .ok (s, w)
  | none => do
    let (s, ws) ← if hdrLbr q.hdr then fetchWords s st q 0 (hdrLen q.hdr) else fetchWords s st q i 1
    let s := if hdrLbr q.hdr then s.onEng st fun e => { e with lbuf := ws }
      else if (s.eng st).frames.isEmpty then s else s.onEng st fun e => { e with lbuf := e.lbuf ++ ws }
    .ok (s, ((ws.find? fun x => x.1 = i).map Prod.snd).getD 0)

/-! ### Prefetch (R77, R78) -/

def startPrefetch (i c : Nat) (s : State) : State :=
  s.onSeq fun q => q.setB i { q.bReg i with start := some c, ready := false, buf := none }

def discardPrefetch (i : Nat) (s : State) : State :=
  s.onSeq fun q => q.setB i { q.bReg i with start := none, ready := false, buf := none }

/-- The bytes a prefetch needs, once its header is known: header and up to four words. -/
def prefetchLen (h : W64) : Nat := 8 + 12 * min 4 (hdrLen h)

/-- A register whose prefetch is under way asks for its lines; the answer is the buffer when all are resident, or that its
translation fails, which is kept for the target header (R77). -/
def prefetchTry (s : State) (i : Nat) : State × Option (Option (W64 × List (BitVec 96))) :=
  let a := (s.job.seq.bReg i).addr.toNat
  let get (s : State) (n : Nat) : State × Option (Option (List Byte)) :=
    match sqFetch s a n with
    | .ok (s, l) => (s, some (some l))
    | .error (.wait s _) => (s, none)
    | .error (.trap s _) => (s, some none)
  match get s 8 with
  | (s, none) => (s, none)
  | (s, some none) => (s, some none)
  | (s, some (some l)) =>
    let h := BitVec.ofNat 64 (leNat l)
    match get s (prefetchLen h) with
    | (s, none) => (s, none)
    | (s, some none) => (s, some none)
    | (s, some (some l)) =>
      (s, some (some (h, (List.range (min 4 (hdrLen h))).map fun k => wordOf ((l.drop (8 + 12 * k)).take 12))))

/-- Prefetches of this cycle: one that has all it needs 6 cycles after its start is ready; the others ask for what they miss. -/
def prefetchStep (i : Nat) (s : State) : State × Bool :=
  let b := s.job.seq.bReg i
  match b.start with
  | some c =>
    if b.ready then (s, false)
    else match prefetchTry s i with
      | (s, some _) => (s, decide (c + Config.latPrep ≤ s.job.cycle))
      | (s, none) => (s, false)
  | none => (s, false)

end Sys2Proof.Machine
end

