-- ==== Sys2Proof/Machine/Memory.lean ====
section
/-! DEFINITION. The sequencer's words over local and device memory: LDL, STL, LD, ST, the AMOs, SEMWAIT, SEMPOST, WAITMEM, FENCE and
BARW (R66, R235, R257, R258, R273 to R275, R281). -/
namespace Sys2Proof.Machine

/-! ### Local data memory (R66) -/

def checkLdm (s : State) (a n : Nat) : Except Halt Unit := do
  check (decide (a % n ≠ 0)) s .sq 0x12 0 (BitVec.ofNat 64 a)
  check (decide (65536 < a + n)) s .sq 0x07 0 (BitVec.ofNat 64 a)

/-- The bytes of local data memory that a word consumes are good (R365). -/
def readLdm (s : State) (a n : Nat) : Except Halt Unit := checkBad s .sq ((List.range n).map fun i => .ldm (a + i)) none

def execLdl (p : Pred) (d : BitVec 5) (a : BitVec 6) (width : BitVec 2) (sign : Bool) (imm : BitVec 56) (s : State) :=
  word .sq p s fun s => do
    needRegs s [a]
    let off := addr64 s a imm
    let n := 2 ^ width.toNat
    checkLdm s off n
    readLdm s off n
    .ok (later .sq Config.latLdl (.sreg d.toNat (extendLow (8 * n) sign (leNat (rdBytes s.job.seq.ldm off n)))) s)

def execStl (p : Pred) (a b : BitVec 6) (width : BitVec 2) (imm : BitVec 56) (s : State) :=
  word .sq p s fun s => do
    needRegs s [a, b]
    let off := addr64 s a imm
    let n := 2 ^ width.toNat
    checkLdm s off n
    .ok (later .sq 1 (.ldm off (leBytes n (s.reg b).toNat)) s)

/-! ### LD and ST (R235) -/

def execLd (p : Pred) (d : BitVec 5) (a : BitVec 6) (width : BitVec 2) (sign : Bool) (imm : BitVec 56) (s : State) :=
  sideWord p s fun s => do
    needRegs s [a]
    let va := addr64 s a imm
    let n := 2 ^ width.toNat
    checkAddr s .sq va n
    let (s, pa, walked) ← wordPage s .sq va .r
    checkStacks s .sq va n
    waitRanges s .sq none va n
    waitFor (decide (loadsOut s false < 8)) s .other
    let r : DevReq := ⟨.core s.coreNo, party s 0, racePhase s, .read, .ld d width sign, pa, va, n, [], wordRef s .sq, s.job.cycle⟩
    let s := leaveCore (leaveCycle s walked) r s
    .ok (s.onSeq fun q => { q with ldOut := q.ldOut ++ [⟨d.toNat, false, s.job.cycle⟩] })

def execSt (p : Pred) (a b : BitVec 6) (width : BitVec 2) (imm : BitVec 56) (s : State) :=
  sideWord p s fun s => do
    needRegs s [a, b]
    let va := addr64 s a imm
    let n := 2 ^ width.toNat
    checkAddr s .sq va n
    let (s, pa, walked) ← wordPage s .sq va .w
    checkStacks s .sq va n
    waitRanges s .sq none va n
    waitFor (storeRoom s) s .other
    let d := leBytes n (s.reg b).toNat
    let r : DevReq := ⟨.core s.coreNo, party s 0, racePhase s, .write, .st, pa, va, n, d, wordRef s .sq, 0⟩
    let s := leaveCore (leaveCycle s walked) r s
    .ok (s.onSeq fun q => { q with stOut := q.stOut + 1 })

/-! ### Atomics (R273) -/

/-- The translation of an atomic: for read and, but for WAITMEM, for write. -/
def atomPage (s : State) (va : Nat) (write : Bool) : Except Halt (State × Nat × Bool) := do
  let (s, pa, w1) ← wordPage s .sq va .r
  if write then
    let (s, pa, w2) ← wordPage s .sq va .w
    .ok (s, pa, w1 || w2)
  else .ok (s, pa, w1)

/-- A word that is waiting for the engine's answer, which completes it. -/
def atomWaits (s : State) : Bool := decide ((s.micro .sq).phase = 1)

/-- The word has sent its request and stays until the answer comes (R258, R273, R275). -/
def atomHold {α : Type} (s : State) (w : Wait) : Except Halt α :=
  let m := s.micro .sq
  let s := (s.setMicro .sq { m with phase := 1, k := s.job.cycle }).onJob fun j => { j with side := true }
  hold (waitOver .sq s) w

/-- Every AMO (R273, R274): an AMO with ACQ stays at its word until its answer has come. -/
def amoWord (op : AmoOp) (p : Pred) (d : BitVec 5) (a b : BitVec 6) (c : Option (BitVec 6)) (x : AmoX) (s : State) :
    Host.Outcome State Fault Refusal :=
  sideWord p s fun s => do
    if atomWaits s then hold s .other
    needRegs s ([a, b] ++ c.toList)
    let va := (s.reg a + sx64 48 x.off).toNat
    let n := if x.w64 then 8 else 4
    checkAddr s .sq va n
    let (s, pa, walked) ← atomPage s va true
    checkStacks s .sq va n
    waitRanges s .sq none va n
    if x.rel then waitFor (allServed s) s .other
    waitFor (decide (loadsOut s true < 8)) s .other
    let low (v : W64) : W64 := extendLow (8 * n) false v.toNat
    let cv : W64 := match c with | some r => low (s.reg r) | none => 0
    let r := seqAtom s (.amo op) va pa n (low (s.reg b)) cv d x.acq x.rel
    let s := atomSend (leaveCycle s walked) r s
    let s := s.onSeq fun q =>
      { q with ldOut := q.ldOut ++ [⟨d.toNat, true, s.job.cycle⟩], amoOut := q.amoOut ++ [(va, n)] }
    if x.acq then atomHold s .other else .ok s

def execAmoAdd (p : Pred) (d : BitVec 5) (a b : BitVec 6) (x : AmoX) (s : State) := amoWord .add p d a b none x s
def execAmoMin (p : Pred) (d : BitVec 5) (a b : BitVec 6) (x : AmoX) (s : State) := amoWord .min p d a b none x s
def execAmoMax (p : Pred) (d : BitVec 5) (a b : BitVec 6) (x : AmoX) (s : State) := amoWord .max p d a b none x s
def execAmoMinn (p : Pred) (d : BitVec 5) (a b : BitVec 6) (x : AmoX) (s : State) := amoWord .minn p d a b none x s
def execAmoMaxn (p : Pred) (d : BitVec 5) (a b : BitVec 6) (x : AmoX) (s : State) := amoWord .maxn p d a b none x s
def execAmoAnd (p : Pred) (d : BitVec 5) (a b : BitVec 6) (x : AmoX) (s : State) := amoWord .and p d a b none x s
def execAmoOr (p : Pred) (d : BitVec 5) (a b : BitVec 6) (x : AmoX) (s : State) := amoWord .or p d a b none x s
def execAmoXor (p : Pred) (d : BitVec 5) (a b : BitVec 6) (x : AmoX) (s : State) := amoWord .xor p d a b none x s
def execAmoSwap (p : Pred) (d : BitVec 5) (a b : BitVec 6) (x : AmoX) (s : State) := amoWord .swap p d a b none x s
def execAmoCas (p : Pred) (d : BitVec 5) (a b c : BitVec 6) (x : AmoX) (s : State) := amoWord .cas p d a b (some c) x s

/-! ### FENCE (R257) -/

/-- What every FENCE waits for: local stores landed, loads, AMOs and WAITMEMs returned. -/
def fenceCore (s : State) : Bool := stlLanded s && s.job.seq.ldOut.isEmpty

def execFence (p : Pred) (sc : Scope) (s : State) : Host.Outcome State Fault Refusal :=
  sideWord p s fun s => do
    waitFor (fenceCore s) s .other
    if sc ≠ .core then waitFor (allServed s) s .other
    if sc = .gang then
      waitFor (decide (s.job.seq.remOut = 0) && !(s.grp.rems.any fun r => decide (r.jobId = s.job.id))) s .other
    .ok s

/-! ### WAITMEM, SEMWAIT and SEMPOST (R258, R275) -/

/-- A word that waits at the home engine. -/
def waitWord (k : AtomKind) (write : Bool) (p : Pred) (d : BitVec 5) (a b : BitVec 6) (n : Nat) (imm : BitVec 56) (s : State) :
    Host.Outcome State Fault Refusal :=
  sideWord p s fun s => do
    if atomWaits s then hold s .watch
    needRegs s [a, b]
    let va := addr64 s a imm
    checkAddr s .sq va n
    let (s, pa, walked) ← atomPage s va write
    checkStacks s .sq va n
    waitRanges s .sq none va n
    let r := seqAtom s k va pa n (extendLow (8 * n) false (s.reg b).toNat) 0 d true false
    atomHold (atomSend (leaveCycle s walked) r s) .watch

def execWaitmem (p : Pred) (d : BitVec 5) (a b : BitVec 6) (width : BitVec 2) (cc : Cond) (imm : BitVec 56) (s : State) :=
  waitWord (.waitmem cc) false p d a b (2 ^ width.toNat) imm s

def execSemwait (p : Pred) (d : BitVec 5) (a b : BitVec 6) (imm : BitVec 56) (s : State) :=
  waitWord .semwait true p d a b 8 imm s

def execSempost (p : Pred) (a b : BitVec 6) (imm : BitVec 56) (s : State) : Host.Outcome State Fault Refusal :=
  sideWord p s fun s => do
    needRegs s [a, b]
    let va := addr64 s a imm
    checkAddr s .sq va 8
    let (s, pa, walked) ← atomPage s va true
    checkStacks s .sq va 8
    waitRanges s .sq none va 8
    waitFor (allServed s) s .other
    waitFor (storeRoom s) s .other
    let s := atomSend (leaveCycle s walked) (seqAtom s .sempost va pa 8 (s.reg b) 0 0 false true) s
    .ok (s.onSeq fun q => { q with postOut := q.postOut ++ [va] })

/-! ### BARW (R280, R281) -/

/-- What a BARW waits for before it arrives. -/
def barwReady (s : State) : Bool :=
  ([Stream.ax, .mx, .vx, .sx].all fun e => cnt5 s.job.flow.issued e = cnt5 s.job.flow.retired e) &&
    stlLanded s && allServed s && decide (s.job.seq.remOut = 0) && decide (s.job.sendOut = 0)

/-- The fields of a process-group table that a word has read, with R285's checks: its address must be a multiple of 64. -/
structure PgTable where
  gid : Nat
  nodes : List Nat
  deriving DecidableEq, Repr

def groupTable (s : State) (st : Stream) (va : Nat) : Except Halt (State × PgTable) := do
  let bad : W64 := BitVec.ofNat 64 va
  check (decide (va % 64 ≠ 0)) s st 0x12 0 bad
  let (s, h) ← descRead s st va 64
  let n := fieldN h 4 4
  check (decide (fieldN h 0 4 ≠ 1) || decide (n = 0) || decide (4096 < n) || decide (fieldN h 8 8 = 0) ||
    (h.drop 16).any (· ≠ 0)) s st 0x02 0 bad
  let (s, l) ← descRead s st (va + 64) (8 * n)
  check ((List.range n).any fun r => fieldN l (8 * r + 2) 6 ≠ 0) s st 0x02 0 bad
  .ok (s, ⟨fieldN h 8 8, (List.range n).map fun r => fieldN l (8 * r) 2⟩)

def execBarw (p : Pred) (d : BitVec 5) (a : BitVec 6) (lvl : BitVec 3) (s : State) : Host.Outcome State Fault Refusal :=
  sideWord p s fun s => do
    let n := lvl.toNat
    let m := s.micro .sq
    match m.phase with
    | 1 => hold s .barw
    | 2 => .ok (later .sq 1 (.sreg d.toNat m.val) s)
    | _ =>
      let f2 : W64 := BitVec.ofNat 64 n
      check (!isMember s n) s .sq 0x16 1 f2
      let s ← if n = 4 then do
          needRegs s [a]
          let (s, t) ← groupTable s .sq (s.reg a).toNat
          check (decide (s.job.l.gang.map (fun g => g.1) ≠ some t.gid)) s .sq 0x16 1 f2
          pure s
        else pure s
      waitFor (barwReady s) s .barw
      if n = 0 then
        let c := s.job.phase0 + 1
        let s := withPhase (fun s => s.onJob fun j => { j with phase0 := c }) s
        .ok (later .sq 1 (.sreg d.toNat (BitVec.ofNat 64 c)) s)
      else
        let s := s.setMicro .sq { m with phase := 1, k := n, due := d.toNat }
        let s := waitOver .sq s
        hold ((arriveDom n s).onJob fun j => { j with side := true }) .barw

end Sys2Proof.Machine
end

