-- ==== Sys2Proof/Machine/Control.lean ====
section
/-! DEFINITION. The sequencer's control words: prepare and transfer, BSEL, IFENCE, ISSUE with its tensor parameters, bindings,
rendezvous, TRAP and the guards (R77 to R84, R88, R89, R93, R231 to R234, R342, R343, R356). -/
namespace Sys2Proof.Machine

/-! ### Prepare and transfer (R77 to R80) -/

/-- A register is prepared on the word's own cycle, and its prefetch starts. -/
def prepare (i : Nat) (a : W64) (s : State) : State := s.onSeq fun q => q.setB i ⟨a, true, some s.job.cycle, false, none⟩

/-- The address `4 * (parcel address of this word + offset)` (R24). -/
def relTarget (s : State) (off : BitVec 40) : W64 := wordAddr (wordRef s .sq) + sx64 40 off * 4

def execPrep (p : Pred) (bt : BitVec 3) (off : BitVec 40) (s : State) : Host.Outcome State Fault Refusal :=
  word .sq p s fun s => .ok (prepare bt.toNat (relTarget s off) s)

def execPrepr (p : Pred) (bt : BitVec 3) (src : BitVec 6) (s : State) : Host.Outcome State Fault Refusal :=
  word .sq p s fun s => do
    needRegs s [src]
    let a := s.reg src
    check (decide (a.toNat % 4 ≠ 0)) s .sq 0x12 0 a
    .ok (prepare bt.toNat a s)

/-- BINV: no longer prepared, and its prefetch is discarded. -/
def unprepare (i : Nat) (s : State) : State :=
  s.onSeq fun q => q.setB i { q.bReg i with prep := false, start := none, ready := false, buf := none }

def execBinv (p : Pred) (bt : BitVec 3) (s : State) : Host.Outcome State Fault Refusal :=
  word .sq p s fun s => .ok (unprepare bt.toNat s)

/-- BR and BRL: the fault of an unprepared target, the wait for its prefetch, the transfer (R77 to R79). -/
def branch (p : Pred) (bt : BitVec 3) (link : State → State) (s : State) : Host.Outcome State Fault Refusal :=
  if enabled s .sq p then
    let b := s.job.seq.bReg bt.toNat
    if b.prep = false then .next (takeFault s (faultAt s .sq 0x03 0 (bt.setWidth 64)))
    else if b.ready = false then .next (stalled .sq .other s)
    else .next ((transfer b.addr (link s)).onSeq fun q => { q with buf := b.buf })
  else .next (advance .sq s)

def execBr (p : Pred) (bt : BitVec 3) (s : State) : Host.Outcome State Fault Refusal := branch p bt id s

/-- The parcel after the last word of the sequencer's section. -/
def afterSection (s : State) : W64 :=
  match s.job.seq.pos with
  | .run a h _ => a + BitVec.ofNat 64 (8 + 12 * hdrLen h)
  | _ => 0

def execBrl (p : Pred) (bt lb : BitVec 3) (s : State) : Host.Outcome State Fault Refusal :=
  branch p bt (fun s => prepare lb.toNat (afterSection s) s) s

/-! ### BSEL (R83, R84) -/

/-- What a bucket table says: a fault code, or the index found, the count and the target. -/
def bucket (m : SMap Byte) (t : Nat) (dim : Nat) : Except Nat (Nat × Nat × Option W64) :=
  let n32 (a : Nat) : Nat := leNat (rdBytes m a 4)
  let n64 (a : Nat) : Nat := leNat (rdBytes m a 8)
  let n := n32 t
  if t % 8 ≠ 0 then .error 0x12
  else if 65536 < t + 8 then .error 0x07
  else if 65536 < t + 8 + 16 * n then .error 0x07
  else
    let size (i : Nat) : Nat := n32 (t + 8 + 16 * i)
    let target (i : Nat) : Nat := n64 (t + 16 + 16 * i)
    let is := List.range n
    if n = 0 ∨ 16 < n ∨ n32 (t + 4) ≠ 0 ∨ (is.any fun i => n32 (t + 12 + 16 * i) ≠ 0 || target i % 4 ≠ 0) ∨
        ((is.drop 1).any fun i => size i ≤ size (i - 1)) then .error 0x02
    else match is.find? fun i => dim ≤ size i with
      | some i => .ok (i, n, some (BitVec.ofNat 64 (target i)))
      | none => .ok (n, n, none)

/-- The active part of the last 64-wide tile (R84). -/
def lastTile (dim : Nat) : Nat := if dim = 0 then 0 else dim - 64 * ((dim - 1) / 64)

def execBsel (p : Pred) (bt : BitVec 3) (a b : BitVec 6) (mask : Option (MaskKind × BitVec 2)) (d : BitVec 5) (s : State) :
    Host.Outcome State Fault Refusal :=
  word .sq p s fun s => do
    needRegs s [a, b]
    let t := s.reg b
    let dim := (s.reg a).toNat
    match bucket s.job.seq.ldm t.toNat dim with
    | .error c => stop s .sq c 0 t
    | .ok (i, n, tgt) => do
      readLdm s t.toNat (8 + 16 * n)
      let s := later .sq 3 (.sreg d.toNat (BitVec.ofNat 64 i)) s
      let s := later .sq 3 (.breg bt.toNat tgt) s
      match tgt, mask with
      | some _, some (k, n) => .ok (later .sq 3 (.pend k n.toNat (lastTile dim)) s)
      | _, _ => .ok s

/-! ### NOP and IFENCE (R81) -/

def execNop (p : Pred) (s : State) : Host.Outcome State Fault Refusal := word s.turn p s fun s => .ok s

/-- The stream cache without the lines of a range of virtual addresses: those that the job's fetches have named in it, and those that a
translation at hand places there (DESIGN CHOICE, log 8); or the whole cache. -/
def scDrop (s : State) (lo hi : Nat) (all : Bool) : State :=
  let hit (va : Nat) : Bool := overlaps lo (hi - lo) va 64
  let keep (l : ScLine) : Bool :=
    !all && !(l.vas.any fun v => decide (v.1 = s.job.l.root) && hit v.2) &&
      !((s.core.tlb.filter fun e => e.root = s.job.l.root).any fun e =>
        decide (e.pa ≤ l.line * 64) && decide (l.line * 64 < e.pa + e.size) && hit (e.va + (l.line * 64 - e.pa)))
  s.onCore fun c =>
    { c with sc := (c.sc.map fun r => (r.1, r.2.filter keep)).filter fun r => !r.2.isEmpty, scArr := c.scArr.filter keep }

/-- The words of a section at `a` that the sequencer has in hand before the first of which a line lies in a range (R81). -/
def wordsBefore (a lo n : Nat) (ws : List (BitVec 96)) : List (BitVec 96) :=
  let hit (i : Nat) : Bool := overlaps (lo / 64 * 64) ((lo + n + 63) / 64 * 64 - lo / 64 * 64) (a + 8 + 12 * i) 12
  ws.take (((List.range ws.length).find? hit).getD ws.length)

def execIfence (p : Pred) (a b : BitVec 6) (s : State) : Host.Outcome State Fault Refusal :=
  sideWord p s fun s => do
    needRegs s [a, b]
    waitFor (fenceCore s && writesServed s) s .other
    let len := (s.reg b).toNat
    let lo := if len = 0 then 0 else (s.reg a).toNat
    let n := if len = 0 then 2 ^ 64 else len
    let s := scDrop s lo (lo + n) (decide (len = 0))
    let hit (at_ : W64) (h : W64) (k : Nat) : Bool := overlaps lo n at_.toNat (8 + 12 * min k (hdrLen h))
    let s := s.onJob fun j =>
      { j with
        seq := { j.seq with
          b := j.seq.b.map fun x =>
            let buffered := match x.buf with | some (h, _) => hit x.addr h 4 | none => overlaps lo n x.addr.toNat 8
            if x.prep && buffered then { x with start := some j.cycle, ready := false, buf := none } else x
          buf := match j.seq.buf, j.seq.pos with
            | some (h, ws), .run at_ _ _ => some (h, wordsBefore at_.toNat lo n ws)
            | b, _ => b }
        eng := j.eng.map fun e =>
          match e.lbr with
          | some (at_, h) => if hit at_ h 4096 then { e with lbr := none } else e
          | none => e }
    .ok s

/-! ### Tensor parameters and bindings (R231 to R234) -/

/-- An entry of 16 bytes, or nothing if it breaks R231. -/
def tpParse (l : List Byte) : Option TpEnt :=
  let base := fieldN l 0 8
  let len := fieldN l 8 6
  let f := fieldN l 14 1
  let top := fieldN l 15 1
  let bit (i : Nat) : Bool := f.testBit i
  if bit 7 = false then (if l.all (· = 0) then some TpEnt.init else none)
  else if top ≠ 0 then none
  else if bit 4 then (if base = 0 ∧ len = 0 then some ⟨true, bit 6, bit 5, some (f % 16), 0, 0, []⟩ else none)
  else if f % 16 ≠ 0 ∨ len = 0 then none
  else some ⟨true, bit 6, bit 5, none, base, len, []⟩

def tpPerms (e : TpEnt) : List Perm := (if e.rd then [Perm.r] else []) ++ (if e.wr then [Perm.w] else [])

def State.binding (s : State) (n : Nat) : TpEnt := row s.job.bind TpEnt.init n

/-- The entries of an ISSUE's block: each checked and translated, one that names a binding taking its tensor (R232). -/
def bindBlock (s : State) (p : Nat) : Nat → List Byte → Except Halt (State × List TpEnt)
  | 0, _ => .ok (s, [])
  | n + 1, l => do
    let f2 : W64 := BitVec.ofNat 64 p
    match tpParse (l.take 16) with
    | none => stop s .sq 0x02 0 f2
    | some e =>
      let (s, e) ← (if e.v then
          match e.bnd with
          | some b =>
            let x := s.binding b
            if !x.v || (e.wr && !x.wr) || (e.rd && !x.rd) then stop s .sq 0x07 0 f2
            else .ok (s, { e with base := x.base, len := x.len, pages := x.pages })
          | none => do
            let (s, pages) ← needPages s .sq e.base e.len (tpPerms e)
            .ok (s, { e with pages := pages })
        else .ok (s, e) : Except Halt (State × TpEnt))
      let (s, es) ← bindBlock s p n (l.drop 16)
      .ok (s, e :: es)

/-- A section or a word that names a binding has not retired (R234). -/
def bindingUsed (s : State) (n : Nat) : Bool :=
  let uses (l : List TpEnt) : Bool := l.any fun e => e.bnd = some n
  [Stream.ax, .mx, .vx, .sx].any fun st =>
    let e := s.eng st
    (e.q.any fun q => uses q.tp) || (e.cur.toList.any fun q => uses q.tp) || e.ended.any fun x => uses x.tp

/-- TFREE's effect. -/
def freeBinding (n : Nat) (s : State) : State :=
  (unpinAll s (s.binding n).pages).onJob fun j => { j with bind := rowSet j.bind n TpEnt.init }

def execTbind (p : Pred) (n : BitVec 4) (preg : BitVec 6) (s : State) : Host.Outcome State Fault Refusal :=
  sideWord p s fun s => do
    needRegs s [preg]
    let a := s.reg preg
    check (decide (a.toNat % 16 ≠ 0)) s .sq 0x12 0 a
    let (s, l) ← descRead s .sq a.toNat 16
    match tpParse l with
    | none => stop s .sq 0x02 0 a
    | some e =>
      check (!e.v || e.bnd.isSome) s .sq 0x02 0 a
      let (s, pages) ← needPages s .sq e.base e.len (tpPerms e)
      waitFor (!(s.binding n.toNat).v || !bindingUsed s n.toNat) s .other
      let s := freeBinding n.toNat s
      waitFor (pinRoom s pages) s .other
      .ok ((pinAll s pages).onJob fun j => { j with bind := rowSet j.bind n.toNat { e with pages := pages } })

def execTfree (p : Pred) (n : BitVec 4) (s : State) : Host.Outcome State Fault Refusal :=
  sideWord p s fun s => do
    waitFor (!(s.binding n.toNat).v || !bindingUsed s n.toNat) s .other
    .ok (freeBinding n.toNat s)

/-! ### ISSUE (R88, R89) -/

/-- An ISSUE of a section at an address: every check in R89's order, the wait for room, the enqueuing. The header is read from device
memory as it stands, not through the stream cache (DESIGN CHOICE, log 9). -/
def issueAt (st : Stream) (addr : W64) (preg : BitVec 6) (s : State) : Except Halt State := do
  check (decide (addr.toNat % 4 ≠ 0)) s .sq 0x12 0 addr
  let (s, pg) ← needPages s .sq addr.toNat 8 [.x]
  let h := BitVec.ofNat 64 (leNat (pieceBytes s pg addr.toNat 8))
  let (s, pages) ← needPages s .sq addr.toNat (8 + 12 * hdrLen h) [.x]
  match hdrFault st h with
  | some c => stop s .sq c
  | none =>
    match hdrTargets s st h with
    | .error (i, t) => stop s .sq 0x0F 0 (BitVec.ofNat 64 i) (BitVec.ofInt 64 t)
    | .ok tgt =>
      let (s, tp) ← (if preg = 0 then .ok (s, []) else do
        let p := s.reg preg
        check (decide (p.toNat % 16 ≠ 0)) s .sq 0x12 0 p
        let (s, l) ← descRead s .sq p.toNat 128
        bindBlock s p.toNat 8 l : Except Halt (State × List TpEnt))
      waitFor (decide ((s.eng st).q.length < 16)) s .other
      let all := pages ++ tp.flatMap TpEnt.pages
      waitFor (pinRoom s all) s .other
      let q := s.job.seq
      let preds : BitVec 8 := BitVec.ofNat 8 (((List.range 8).filter q.fReg).foldl (fun n i => n + 2 ^ i) 0)
      let num := row s.job.flow.issued 0 st.idx + 1
      let mine := if st = .mx then q.pend else []
      let ent : QEnt :=
        ⟨addr, h, tgt, preds, q.s, mine, s.job.cycle + 1, pages, tp, num, passes s (party s 0)⟩
      let s := (pinAll s all).onEng st fun e => { e with q := e.q ++ [ent] }
      let s := if st = .mx then s.onSeq fun q => { q with pend := [] } else s
      .ok (s.onFlow fun f =>
        { f with
          issued := rowSet f.issued st.idx num
          rdvIssued := if hdrRdve h then rowSet f.rdvIssued st.idx (row f.rdvIssued 0 st.idx + 1) else f.rdvIssued })

def execIssue (p : Pred) (e : Eng) (preg : BitVec 6) (off : BitVec 40) (s : State) : Host.Outcome State Fault Refusal :=
  sideWord p s fun s => do
    needRegs s [preg]
    issueAt e.stream (relTarget s off) preg s

def execIssueReg (p : Pred) (e : Eng) (preg areg : BitVec 6) (s : State) : Host.Outcome State Fault Refusal :=
  sideWord p s fun s => do
    needRegs s [preg, areg]
    issueAt e.stream (s.reg areg) preg s

/-! ### Rendezvous, TRAP, guards (R93, R94, R343, R344, R356) -/

def rdvWord (jend : Bool) (p : Pred) (s : State) : Host.Outcome State Fault Refusal :=
  sideWord p s fun s =>
    let w := wordRef s .sq
    match rdvCheck s w with
    | some r => .error (.trap s r)
    | none => .ok (reachRdv .sq false jend w s)

def execRdv (p : Pred) (s : State) : Host.Outcome State Fault Refusal := rdvWord false p s
def execJobend (p : Pred) (s : State) : Host.Outcome State Fault Refusal := rdvWord true p s

/-- TRAP counts as issued: the job freezes, and the sequencer stands behind the word. -/
def execTrap (p : Pred) (code : BitVec 16) (s : State) : Host.Outcome State Fault Refusal :=
  if enabled s .sq p then
    let r := faultAt s .sq 0x14 0 (code.setWidth 64)
    .next (advance .sq (takeFault (s.onJob fun j => { j with side := true }) r))
  else .next (advance .sq s)

/-- A guard: late after a side effect, at most sixteen, otherwise noted with its kind and value. -/
def guardWord (p : Pred) (health : Bool) (regs : List (BitVec 6)) (v : State → W64) (s : State) : Host.Outcome State Fault Refusal :=
  word .sq p s fun s => do
    needRegs s regs
    let k := s.job.guards.length
    check s.job.side s .sq 0x10 0 (BitVec.ofNat 64 k)
    check (decide (16 ≤ k)) s .sq 0x10 1 (BitVec.ofNat 64 k)
    .ok (s.onJob fun j => { j with guards := j.guards ++ [(health, v s)] })

def execGuard (p : Pred) (a : BitVec 6) (s : State) : Host.Outcome State Fault Refusal :=
  guardWord p false [a] (fun s => s.reg a) s
def execGuardHealth (p : Pred) (s : State) : Host.Outcome State Fault Refusal := guardWord p true [] healthWord s

end Sys2Proof.Machine
end

