-- ==== Sys2Proof/Machine/Copy.lean ====
section
/-! DEFINITION. The copy engine: descriptors, the walk and its runs, starts, requests and grants at the external points, retirement
and completion, COPY, COPYX and the tokens (R130, R132, R242, R243, R253, R254, R259 to R270). -/
namespace Sys2Proof.Machine

/-! ### The walk (R261, R265, R266) -/

def copyTotal (c : Copy) : Nat := c.lvls.foldl (fun n l => n * l.n) 1

/-- The strides of one end. -/
def endLvls (c : Copy) (src : Bool) : List (Nat × Int) := c.lvls.map fun l => (l.n, if src then l.ss else l.ds)

def endBase : End → Nat
  | .dev va _ => va
  | .spad _ off => off
  | .ext _ _ off _ => off
  | .oslot _ => 0

def copyEnd (c : Copy) (src : Bool) : End := if src then c.src else c.dst
def endWidth (c : Copy) (src : Bool) : Nat := if src then c.esz else c.desz

/-- The address, in its end, of the element at a walk position. -/
def copyAddr (c : Copy) (src : Bool) (i : Nat) : Nat := ((endBase (copyEnd c src) : Int) + walkOff (endLvls c src) i).toNat

/-- The bounding range of an end (R261). -/
def boundRange (base : Int) (lvls : List (Nat × Int)) (w : Nat) : Int × Int :=
  let lo := lvls.foldl (fun a l => a + min 0 (((l.1 : Int) - 1) * l.2)) base
  let hi := lvls.foldl (fun a l => a + max 0 (((l.1 : Int) - 1) * l.2)) base
  (lo, hi + w)

def copyBound (c : Copy) (src : Bool) : Nat × Nat :=
  let r := boundRange (endBase (copyEnd c src)) (endLvls c src) (endWidth c src)
  (r.1.toNat, r.2.toNat)

/-- The `p`-th position in service order, as a position of the walk, with the first position of its block (R266). -/
def servePos (c : Copy) (rd : Bool) (p : Nat) : Nat × Nat :=
  match c.tr, c.lvls with
  | true, l0 :: l1 :: _ =>
    let n0 := l0.n
    let n1 := l1.n
    let b0 := 64 / c.esz
    let b1 := 64 / c.desz
    let base := p / (n0 * n1) * (n0 * n1)
    let q := p % (n0 * n1)
    let i1 := q / (n0 * b1) * b1
    let q1 := q % (n0 * b1)
    let h := min b1 (n1 - i1)
    let i0 := q1 / (b0 * h) * b0
    let q2 := q1 % (b0 * h)
    let w := min b0 (n0 - i0)
    let j0 := if rd then q2 % w else q2 / h
    let j1 := if rd then q2 / w else q2 % h
    (base + (i1 + j1) * n0 + i0 + j0, base + i1 * n0 + i0)
  | _, _ => (p, 0)

/-- The bytes within which a run must lie. -/
def runUnit : End → Nat
  | .spad _ _ => 256
  | _ => 64

/-- The walk positions of the run that starts at a place of the service order; a run is never longer than the staging buffer,
nor does it leave its block. -/
def copyRun (c : Copy) (rd : Bool) (p : Nat) : List Nat :=
  let u := runUnit (copyEnd c rd)
  let first := servePos c rd p
  let key := copyAddr c rd first.1 / u
  let rec go : Nat → Nat → List Nat
    | 0, _ => []
    | n + 1, q =>
      let x := servePos c rd q
      if q < copyTotal c ∧ x.2 = first.2 ∧ copyAddr c rd x.1 / u = key then x.1 :: go n (q + 1) else []
  go (4096 / c.esz) p

/-! ### Copies of the core -/

def copyOf (s : State) (id : Nat) : Option Copy := s.core.copies.find? fun c => c.id = id

def setCopy (c : Copy) (s : State) : State :=
  s.onCore fun k => { k with copies := k.copies.map fun x => if x.id = c.id then c else x }

def dropCopy (id : Nat) (s : State) : State := s.onCore fun k => { k with copies := k.copies.filter fun x => x.id ≠ id }

/-- The party of a copy: the agent of its token (R244, R264); a graph's copy is made by the Grip. -/
def copyParty (s : State) (c : Copy) : Nat := if c.own then party s (8 + c.token) else 31

/-- The phase of a copy's access: that of the job that forked it, as it stands (R248). -/
def copyPhase (s : State) (c : Copy) : Nat := if c.own ∧ s.job.id = c.jobId then racePhase s else c.phase

def copyHolds (s : State) (c : Copy) (p : Nat) : Bool := decide (p = copyParty s c) || c.held.contains p

/-- A job of this core, resident or saved, that an operation belongs to. -/
def onJobOf (id : Nat) (f : Job → Job) (s : State) : State :=
  if s.job.id = id then s.onJob f
  else s.onCore fun c => { c with saved := c.saved.map fun x => if x.job.id = id then { x with job := f x.job } else x }

/-- A token completes (R269): what the operation's accesses ordered is passed on to its join. -/
def completeToken (job tok : Nat) (status : W64) (held : List Nat) (s : State) : State :=
  onJobOf job (fun j => { j with tok := rowSet j.tok tok ⟨if status = 0 then .done else .err, status, held⟩ }) s

def finishCopy (c : Copy) (status : W64) (s : State) : State :=
  let s := dropCopy c.id s
  if c.own then completeToken c.jobId c.token status (unionNat [copyParty s c] c.held) s
  else s.onGrip fun g => { g with copyEnds := g.copyEnds ++ [(c.jobId, c.token, status)] }

/-- The bytes of a core's scratchpad that bound a copy's footprint there: one range for both of its ends (R132). -/
def footprint (c : Copy) (k : Nat) : Option (Nat × Nat) :=
  let ends := [true, false].filterMap fun src => match copyEnd c src with
    | .spad j _ => if j = k then some (copyBound c src) else none
    | _ => none
  match ends with
  | [] => none
  | b :: l => some (l.foldl (fun a x => (min a.1 x.1, max a.2 x.2)) b)

/-- The cores in whose scratchpads a copy has an end, each with its range and whether the copy writes there. -/
def footprints (c : Copy) : List (Nat × Nat × Nat × Bool) :=
  ([c.dst, c.src].filterMap fun e => match e with | .spad k _ => some k | _ => none).eraseDups.filterMap fun k =>
    (footprint c k).map fun b => (k, b.1, b.2, match c.dst with | .spad d _ => decide (d = k) | _ => false)

/-- A command that names a handle is counted there, or is over (R243). -/
def countHandle (h : Nat) (up : Bool) (s : State) : State :=
  let n := SMap.get 0 s.dev.hcount h
  s.onDev fun d => { d with hcount := SMap.set 0 d.hcount h (if up then n + 1 else n - 1) }

/-- A copy's entries, ranges and pins go (R267, R268); it gives back its shares of its handles (R243). -/
def releaseCopy (c : Copy) (s : State) : State :=
  let s := (onePer c.pins).foldl (fun s p => unpinOne c.root p s) s
  let s := s.onCore fun k =>
    { k with
      sb := k.sb.filter fun e => ¬(e.owner = some c.id ∧ e.core = s.coreNo)
      ranges := k.ranges.filter fun r => r.id ≠ c.id
      ext := k.ext.filter fun r => ¬(r.id = c.id ∧ r.core = s.coreNo) }
  let share (s : State) (e : End) : State :=
    match e with
    | .ext h _ _ _ => countHandle h false s
    | _ => s
  let leave (s : State) (f : Nat × Nat × Nat × Bool) : State :=
    if f.1 = s.coreNo ∨ c.ph = .queued then s else s.emit (.remoteEntry c.id f.1 f.2.1 f.2.2.1 f.2.2.2 false)
  (footprints c).foldl leave ([c.src, c.dst].foldl share s)

/-- The writes that a copy asked for before the cycle of its failing request stay to be made; those asked for later are not performed (R268). -/
def orphanWrites (c : Copy) (made : Nat) (s : State) : State :=
  let late (r : DevReq) : DevReq :=
    match r.kind with
    | .copyWr id parts => if id = c.id ∧ r.sec < made then { r with kind := .copyWr 0 parts } else r
    | _ => r
  let s := s.onDev fun d => { d with reqs := d.reqs.map fun x => (x.1, late x.2) }
  let s := { s with agenda := s.agenda.map fun (e : Due) => match e.ev with
    | .stackSlotService r => { e with ev := .stackSlotService (late r) }
    | _ => e }
  s.onCore fun k => { k with ext := k.ext.map fun (r : ExtReq) =>
    if r.id = c.id ∧ r.core = s.coreNo ∧ r.wr = true ∧ r.arr < made then { r with id := 0 } else r }

/-- The freezing errors of a copy, and those that its job runs on after, met by the request made on cycle `made` (R253, R268). -/
def failCopy (c : Copy) (code cause : Nat) (f2 f3 : W64) (freeze : Bool) (made : Nat) (s : State) : State :=
  let s := releaseCopy c (orphanWrites c made s)
  let s := match c.dst with
    | .oslot o => if c.ph = .active then slotState o .empty s else s
    | _ => s
  let s := finishCopy c (BitVec.ofNat 64 (code + cause * 256)) s
  if freeze ∧ c.own ∧ s.job.id = c.jobId then
    takeFault s ⟨BitVec.ofNat 8 code, BitVec.ofNat 8 cause, c.word, false, false, true, false, false, false, f2, f3⟩
  else s

/-! ### Start (R254, R266, R268) -/

def activeCopies (s : State) : List Copy := s.core.copies.filter fun c => c.ph = .active
def nextCopy (s : State) : Option Copy := s.core.copies.find? fun c => c.ph = .queued

/-- The range scoreboard of every core in whose scratchpad a copy has an end has room; whether another core's has is told from outside
(R132, R266) (DESIGN CHOICE, log 1). -/
def sbRoom (s : State) (c : Copy) : Bool :=
  (footprints c).all fun f => if f.1 = s.coreNo then decide (s.core.sb.length < 64) else !s.core.sbFull.contains f.1

def copyStartable (s : State) : Option Copy :=
  match nextCopy s with
  | some c =>
    if s.core.copyAt.1 ≠ s.cyc + 1 ∧ (activeCopies s).length < 4 ∧ sbRoom s c = true then some c
    else none
  | none => none

/-- A bank of a scratchpad end here does not suit its width, or a raw one not an end of equal widths (R262, R268). Another core tells of
its own banks with COPY_RETIRE's `copyError` (DESIGN CHOICE, log 1). -/
def badBanks (s : State) (c : Copy) : Bool :=
  [true, false].any fun src => match copyEnd c src with
    | .spad k _ =>
      let b := copyBound c src
      decide (k = s.coreNo) && (List.range (bankOf (b.2 - 1) + 1)).any fun n =>
        decide (bankOf b.1 ≤ n) && match bankWidth (fmtCode (bankFmt s n)) with
          | some w => decide (w ≠ endWidth c src)
          | none => decide (c.esz ≠ c.desz)
    | _ => false

def tileTy (f : BitVec 4) : Ty := (Ty.ofCode f).getD .bf16

/-- A copy starts, or meets an error at its start. -/
def startCopy (c : Copy) (s : State) : State :=
  let s := s.onCore fun k => { k with copyAt := (s.cyc + 1, k.copyAt.2) }
  if badBanks s c then failCopy c 0x02 0 (BitVec.ofNat 64 c.desc) 0 true s.cyc s
  else
    let full := match c.dst with | .oslot o => !slotEmpty s o (tileTy c.dfmt) | _ => false
    match c.dst, full with
    | .oslot o, true => failCopy c 0x11 0 (BitVec.ofNat 64 o) 0 true s.cyc s
    | _, _ =>
      let s := setCopy { c with ph := .active } s
      let add (src : Bool) (s : State) : State :=
        let b := copyBound c src
        match copyEnd c src with
        | .dev _ _ => s.onCore fun k => { k with ranges := k.ranges ++ [⟨c.id, copyParty s c, b.1, b.2⟩] }
        | .oslot o => slotBegin o (tileTy c.dfmt) s
        | _ => s
      let enter (s : State) (f : Nat × Nat × Nat × Bool) : State :=
        if f.1 = s.coreNo then enterSb ⟨some c.id, f.1, f.2.1, f.2.2.1, s.cyc, f.2.2.2⟩ s
        else s.emit (.remoteEntry c.id f.1 f.2.1 f.2.2.1 f.2.2.2 true)
      (footprints c).foldl enter (add false (add true s))

/-- The entry at the head of the agenda if it is one of an event's own and due; otherwise the event's other act. -/
def dueElse {α : Type} (s : State) (mine : Ev → Option α) (f : α → State → State)
    (other : State → State) : Host.Outcome State Fault Refusal :=
  match s.agenda with
  | e :: l =>
    match mine e.ev with
    | some x => if e.at_ ≤ s.cyc then .next (f x { s with agenda := l }) else .next (other s)
    | none => .next (other s)
  | [] => .next (other s)

/-- An event at the head of the agenda, once its cycle has come, goes before what else an instruction does. -/
def dueThen (s : State) (mine : Ev → Option (State → State)) (other : State → Host.Outcome State Fault Refusal) :
    Host.Outcome State Fault Refusal :=
  match s.agenda with
  | e :: l =>
    match mine e.ev with
    | some f => if e.at_ ≤ s.cyc then .next (f { s with agenda := l }) else other s
    | none => other s
  | [] => other s

/-- The oldest copy starts; or another core's copy enters its range here, among the entries of its cycle by its core's number (R132,
DESIGN CHOICE, log 1) (DEDUCED, log 24). -/
def execCopyStart (s : State) : Host.Outcome State Fault Refusal :=
  dueElse s (fun | .extEntry k id lo hi wr true => some (⟨some id, k, lo, hi, s.cyc, wr⟩ : SbEnt) | _ => none) enterSb
    fun s => match copyStartable s with | some c => startCopy c s | none => s

/-! ### Requests (R266) -/

/-- The next read of a copy, if it is ready: staging room, and no earlier range in the way (R254). -/
def rangeHeld (s : State) (c : Copy) (src : Bool) (lo len : Nat) : Bool :=
  match copyEnd c src with
  | .dev _ _ =>
    (s.core.ranges.takeWhile fun r => r.id ≠ c.id).any fun r => decide (r.lo < lo + len) && decide (lo < r.hi)
  | _ => false

def runSpan (c : Copy) (src : Bool) (run : List Nat) : Nat × Nat :=
  let as := run.map (copyAddr c src)
  let lo := as.foldl min (as.headD 0)
  (lo, as.foldl max 0 + endWidth c src - lo)

def readReady (s : State) (c : Copy) : Option (List Nat) :=
  if c.rdPos < copyTotal c then
    let run := copyRun c true c.rdPos
    let staged := c.rdPos - c.wrPos
    let sp := runSpan c true run
    if (staged = 0 ∨ (staged + run.length) * c.esz ≤ 4096) ∧ rangeHeld s c true sp.1 sp.2 = false then some run else none
  else none

def writeReady (s : State) (c : Copy) : Option (List Nat) :=
  if c.wrPos < copyTotal c then
    let run := copyRun c false c.wrPos
    let sp := runSpan c false run
    if (run.all fun i => c.stage.any fun x => x.1 = i) ∧ rangeHeld s c false sp.1 sp.2 = false then some run else none
  else none

/-- The active copy whose turn it is: the first that is ready after the one that asked last (R266). -/
def rotate (s : State) (last : Nat) (f : Copy → Option (List Nat)) : Option (Copy × List Nat) :=
  let l := activeCopies s
  ((l.filter fun c => last < c.id) ++ l.filter fun c => c.id ≤ last).findSome? fun c => (f c).map fun r => (c, r)

def devReqOf (s : State) (c : Copy) (src : Bool) (acc : Acc) (k : ReqKind) (lo len : Nat) : DevReq :=
  let pages := match copyEnd c src with | .dev _ l => l | _ => []
  ⟨.copyEng s.coreNo, copyParty s c, copyPhase s c, acc, k, (pieceAt pages lo).getD 0, lo, len, [], c.word, s.cyc⟩

def askRead (s : State) : State :=
  match rotate s s.core.rdLast (readReady s) with
  | none => s
  | some (c, run) =>
    let s := setCopy { c with rdPos := c.rdPos + run.length, rdOut := c.rdOut + 1 } (s.onCore fun k => { k with rdLast := c.id })
    let sp := runSpan c true run
    match c.src with
    | .dev _ _ => request s.cyc (devReqOf s c true .read (.copyRd c.id run) sp.1 sp.2) s
    | .spad k _ =>
      if k = s.coreNo then
        s.onCore fun x => { x with ext := x.ext ++ [⟨s.cyc, k, c.id, false, run, [], c.esz, copyParty s c, 0, []⟩] }
      else s.emit (.remoteRead c.id k (run.map (copyAddr c true)) c.esz)
    | .ext h g _ b => s.emit (.extRead c.id h g (b + sp.1) sp.2)
    | .oslot _ => s

/-- Whether no later position of the walk writes the same bytes: with TR the requests are not made in walk order (R265). -/
def lastOf (c : Copy) (i : Nat) : Bool :=
  !c.tr || !((List.range (copyTotal c)).drop (i + 1)).any fun j => copyAddr c false j = copyAddr c false i

/-- The elements of a run that are written, out of staging, at their addresses. -/
def runElems (c : Copy) (run : List Nat) : List (Nat × PElem) :=
  (run.filter (lastOf c)).filterMap fun i => (c.stage.find? fun x => x.1 = i).map fun x => (copyAddr c false i, x.2)

/-- A staged element as a named format of device or external memory (R123, R265). -/
def toNamed (c : Copy) (e : PElem) : Conv := crossBank e.fmt e.step c.dfmt 0 e.bits

def askWrite (s : State) : State :=
  match rotate s s.core.wrLast (writeReady s) with
  | none => s
  | some (c, run) =>
    let els := runElems c run
    let c' := { c with
      wrPos := c.wrPos + run.length, wrOut := c.wrOut + 1, stage := c.stage.filter fun x => !run.contains x.1 }
    let s := setCopy c' (s.onCore fun k => { k with wrLast := c.id })
    let sp := runSpan c false run
    let sticky (cs : List Conv) (s : State) : State := let (a, b) := convSticky cs; setSticky .sq a b s
    match c.dst with
    | .dev _ _ =>
      let cs := els.map fun e => (e.1, toNamed c e.2)
      let parts := cs.map fun x => (x.1 - sp.1, leBytes c.desz x.2.bits.toNat)
      request s.cyc (devReqOf s c false .write (.copyWr c.id parts) sp.1 sp.2) (sticky (cs.map Prod.snd) s)
    | .spad k _ =>
      if k = s.coreNo then
        s.onCore fun x => { x with ext := x.ext ++ [⟨s.cyc, k, c.id, true, run, els, c.desz, copyParty s c, 0, []⟩] }
      else s.emit (.remoteWrite c.id k els c.desz)
    | .ext h g _ b =>
      let cs := els.map fun e => (e.1, toNamed c e.2)
      let s := cs.foldl (fun s x => s.emit (.extWrite h g (b + x.1) (leBytes c.desz x.2.bits.toNat))) (sticky (cs.map Prod.snd) s)
      s.postAt (s.cyc + 1 + Config.hostCycles s.nseq) (.copyWritten c.id [] false false)
    | .oslot _ =>
      let t := tileTy c.dfmt
      let cs := els.map fun e => (e.1 / c.desz, crossIn e.2.fmt e.2.step t .rne false e.2.bits)
      let ncr := cs.any fun x => oNcr t x.2.bits
      (setSticky .sq ncr false (sticky (cs.map Prod.snd) s)).postAt (s.cyc + 1)
        (.copyWritten c.id (cs.map fun x => (x.1, oElem t x.2.bits)) false false)

def copyAskable (s : State) : Bool :=
  decide (s.core.copyAt.2 ≠ s.cyc + 1) &&
    ((activeCopies s).any fun c => (readReady s c).isSome || (writeReady s c).isSome)

/-- A write of a copy has been made. -/
def wroteRun (id : Nat) (s : State) : State :=
  match copyOf s id with
  | some c => setCopy { c with wrOut := c.wrOut - 1 } s
  | none => s

def landTile (id : Nat) (tile : List (Nat × W48)) (s : State) : State :=
  match copyOf s id with
  | some c =>
    match c.dst with
    | .oslot o =>
      let x := s.oslot o
      wroteRun id (s.setOslot o { x with data := tile.foldl (fun m e => SMap.set 0 m e.1 e.2) x.data })
    | _ => wroteRun id s
  | none => s

def requestDue : Ev → Option (State → State)
  | .copyWritten id tile ncr qx => some fun s => setSticky .sq ncr qx (landTile id tile s)
  | .remoteRoom k room => some fun s => s.onCore fun c =>
    { c with sbFull := if room then c.sbFull.filter (· ≠ k) else unionNat c.sbFull [k] }
  | .extAccess k id wr els w q ph held => some fun s =>
    let l : List (Nat × PElem) := els.map fun e => (e.1, ⟨e.2.1, e.2.2.1, e.2.2.2⟩)
    s.onCore fun c => { c with ext := c.ext ++ [⟨s.cyc, k, id, wr, [], l, w, q, ph, held⟩] }
  | _ => none

/-- The requests of a cycle: one read and one write; a write that reaches a slot, or that another core's bank has granted or the link
accepted, with the sticky bits that its conversions set; whether another core's scoreboard has room; or a request of another core at
this scratchpad (R111, R130, R266, R267, DESIGN CHOICE, log 1). -/
def execCopyRequest (s : State) : Host.Outcome State Fault Refusal :=
  dueElse s requestDue (fun f s => f s) fun s =>
    if copyAskable s then askWrite (askRead (s.onCore fun k => { k with copyAt := (k.copyAt.1, s.cyc + 1) })) else s

/-- A copy read's data comes back to the staging buffer (R266). -/
def execCopyDataReturn (s : State) : Host.Outcome State Fault Refusal :=
  onDue s (fun | .copyDataReturn id l => some (id, l) | _ => none) fun (id, l) s =>
    match copyOf s id with
    | some c =>
      let es := l.map fun e => (e.1, (⟨e.2.1, e.2.2.1, e.2.2.2⟩ : PElem))
      setCopy { c with rdOut := c.rdOut - 1, reads := c.reads + l.length, stage := c.stage ++ es } s
    | none => s

/-! ### Bytes under a copy (R265): what a read finds is what stood before any write of the copy -/

/-- Whether both ends may be the same bytes, some of which are still to be read. Of two ends in one other core's scratchpad that core keeps
what was replaced, as `keptHere` does here. -/
def selfOverlap (s : State) (c : Copy) : Bool :=
  decide (c.reads < copyTotal c) &&
    match c.src, c.dst with
    | .dev _ l, .dev _ m => l.any fun p => m.any fun q => decide (p.2.1 < q.2.1 + q.2.2) && decide (q.2.1 < p.2.1 + p.2.2)
    | .spad a _, .spad b _ => decide (a = b) && decide (a = s.coreNo)
    | _, _ => false

/-- The bytes that a write replaces are kept, the first time. -/
def keepOld (old : Nat → Byte) (c : Copy) (a : Nat) (d : List Byte) : Copy :=
  (List.range d.length).foldl (fun c i =>
    if c.keep.any fun x => x.1 = a + i then c else { c with keep := (a + i, old (a + i)) :: c.keep }) c

def keptByte (c : Copy) (now : Nat → Byte) (a : Nat) : Byte := ((c.keep.find? fun x => x.1 = a).map Prod.snd).getD (now a)

def keptElem (c : Copy) (now : Nat → Byte) (a w : Nat) : W32 :=
  BitVec.ofNat 32 (leNat ((List.range w).map fun i => keptByte c now (a + i)))

/-! ### Grants at the external points (R120, R130, R132) -/

def spadByte (s : State) (a : Nat) : Byte := SMap.get 0 s.core.spad (a % 2 ^ 22)
def memByte (s : State) (a : Nat) : Byte := SMap.get 0 s.dev.mem a

def extOffs (s : State) (r : ExtReq) : List Nat :=
  if r.wr ∨ r.pos = [] then r.els.map Prod.fst
  else match copyOf s r.id with | some c => r.pos.map (copyAddr c true) | none => []

def extHeld (s : State) (r : ExtReq) : Bool :=
  let own := s.core.sb.find? fun e => e.owner = some r.id ∧ e.core = r.core
  (extOffs s r).any fun a => withheld s own a r.w

/-- The request that a bank's external point grants on this cycle. -/
def extWinner (s : State) (bank : Nat) : Option ExtReq :=
  let l := s.core.ext.filter fun r => (r.arr ≤ s.cyc) ∧ (extOffs s r).head?.map bankOf = some bank ∧ extHeld s r = false
  let first (r : ExtReq) : Bool := l.all fun x => decide (r.arr < x.arr) || (decide (r.arr = x.arr) && decide (r.core ≤ x.core))
  l.find? first

/-- Write elements to the scratchpad, converted for their banks (R123). -/
def putElems (els : List (Nat × PElem)) (w : Nat) (s : State) : State × List Conv :=
  let cs := els.map fun e =>
    let f := bankFmt s (bankOf e.1)
    (e.1, crossBank e.2.fmt e.2.step (fmtCode f) (stepAt s f e.1) e.2.bits)
  (putConvs w cs s, cs.map Prod.snd)

/-- The elements of a run that lie in granules below the one at which it races (R253, R268). -/
def elemsBelow (x : RaceAt) (els : List (Nat × PElem)) : List (Nat × PElem) := els.filter fun e => e.1 < 64 * x.gran

/-- Elements of the scratchpad with the formats and steps of this cycle (R122). -/
def getElems (s : State) (now : Nat → Nat → W32) (as : List Nat) (w : Nat) : List PElem :=
  as.map fun a => let f := bankFmt s (bankOf a); ⟨now a w, fmtCode f, stepAt s f a⟩

/-- The stamp test of a copy's access: the copies of a graph are the Grip's, which never raise (R253, R334). -/
def copyDevStamp (s : State) (c : Copy) (acc : Acc) (pa len : Nat) : State × Option RaceAt :=
  if c.own then devStamp s (copyParty s c) (copyPhase s c) (copyHolds s c) acc pa len else outsideAccess 31 [] false acc pa len s

def copySpadStamp (s : State) (c : Copy) (acc : Acc) (as : List Nat) (w : Nat) : State × Option RaceAt :=
  if c.own then runStampBy s (copyParty s c) (copyPhase s c) (copyHolds s c) acc as w
  else (as.foldl (fun s a => gripSpad acc a w s) s, none)

/-- A write to this core's scratchpad by one of its copies: what it replaces is kept for the copy's reads, and its sticky bits are set. -/
def ownWrite (c : Copy) (els : List (Nat × PElem)) (w : Nat) (s : State) : State :=
  let c' := if selfOverlap s c then els.foldl (fun c e => keepOld (spadByte s) c e.1 (List.replicate w 0)) c else c
  let (s, cs) := putElems els w s
  let (a, b) := convSticky cs
  setCopy c' (setSticky .sq a b s)

/-- A grant to a copy of this core. -/
def grantOwn (r : ExtReq) (c : Copy) (s : State) : State :=
  let acc : Acc := if r.wr then .write else .read
  let as := extOffs s r
  let ph := copyPhase s c
  match (if r.wr then none else as.findSome? fun a => badSpad s a r.w), copySpadStamp s c acc as r.w with
  | some x, _ => failCopy c 0x13 0 (spadAddr s.coreNo x) 2 true r.arr s
  | none, (s, some x) =>
    let s := if r.wr then ownWrite c (elemsBelow x r.els) r.w s else s
    failCopy c 0x08 0 (spadAddr s.coreNo (x.gran * 64)) (raceF3 r.party acc x ph true) true r.arr s
  | none, (s, none) =>
    if r.wr then wroteRun c.id (ownWrite c r.els r.w s)
    else
      let es := getElems s (keptElem c (spadByte s)) as r.w
      s.postAt (s.cyc + 2) (.copyDataReturn c.id ((r.pos.zip es).map fun e => (e.1, e.2.bits, e.2.fmt, e.2.step)))

/-- The bytes that a write of another core's copy replaces here, kept the first time for that copy's own reads (R265). -/
def keepForeign (r : ExtReq) (s : State) : State :=
  let at_ := r.els.flatMap fun e => (List.range r.w).map (e.1 + ·)
  let old := at_.filterMap fun a =>
    if s.core.foreign.any fun x => x.1 = r.core ∧ x.2.1 = r.id ∧ x.2.2.1 = a then none else some (r.core, r.id, a, spadByte s a)
  s.onCore fun c => { c with foreign := c.foreign ++ old }

/-- A byte as another core's copy reads it here: as it stood before that copy's writes. -/
def keptHere (s : State) (r : ExtReq) (a : Nat) : Byte :=
  ((s.core.foreign.find? fun x => x.1 = r.core ∧ x.2.1 = r.id ∧ x.2.2.1 = a).map fun x => x.2.2.2).getD (spadByte s a)

def foreignElem (s : State) (r : ExtReq) (a w : Nat) : W32 := BitVec.ofNat 32 (leNat ((List.range w).map fun i => keptHere s r (a + i)))

/-- A grant to another core's copy, tested in the race phase that its request bears; the sticky bits of its conversions go to the core
that issued it (R111, R248, R253). -/
def grantOther (r : ExtReq) (s : State) : State :=
  let acc : Acc := if r.wr then .write else .read
  let as := extOffs s r
  match (if r.wr then none else as.findSome? fun a => badSpad s a r.w),
      runStampBy s r.party r.phase (fun p => decide (p = r.party) || r.held.contains p) acc as r.w with
  | some x, _ => s.emit (.remoteFault r.core r.id 0x13 (spadAddr s.coreNo x) 2)
  | none, (s, some x) =>
    let s := if r.wr then (putElems (elemsBelow x r.els) r.w (keepForeign r s)).1 else s
    s.emit (.remoteFault r.core r.id 0x08 (spadAddr s.coreNo (x.gran * 64)) (raceF3 r.party acc x r.phase true))
  | none, (s, none) =>
    if r.wr then
      let (s, cs) := putElems r.els r.w (keepForeign r s)
      let (a, b) := convSticky cs
      s.emit (.remoteDone r.core r.id a b)
    else s.emit (.remoteData r.core r.id (as.zip (getElems s (foreignElem s r) as r.w)))

/-- The external points of a cycle, before the engine points (R120). -/
def extRound (s : State) : State :=
  ((List.range 16).filterMap (extWinner s)).foldl (fun s r =>
    let s := s.onCore fun c => { c with ext := c.ext.erase r }
    match (if r.core = s.coreNo then copyOf s r.id else none) with
    | some c => grantOwn r c s
    | none => if r.core ≠ s.coreNo then grantOther r s else if r.id = 0 then (putElems r.els r.w s).1 else s) s

/-! ### Service in device memory (R240, R253) -/

/-- The pinned pages of an end. -/
def endPages : End → List (Nat × Nat × Nat)
  | .dev _ l => l
  | _ => []

/-- The physical address of a byte of an end. -/
def endAt (e : End) (va : Nat) : Nat := (pieceAt (endPages e) va).getD 0

/-- The stamp test of a request, line by line, each in its own page: an element may lie across two lines (R265) (DESIGN CHOICE, log 24). -/
def copyReqStamp (s : State) (c : Copy) (e : End) (acc : Acc) (r : DevReq) : State × Option (Nat × RaceAt) :=
  (linePieces r.va r.len).foldl (fun a p => match a with
    | (s, none) => (match copyDevStamp s c acc (endAt e p.1) p.2 with | (s, x) => (s, x.map fun y => (p.1, y)))
    | a => a) (s, none)

/-- The first bad byte of a request, by its virtual address. -/
def copyBad (s : State) (e : End) (r : DevReq) : Option Nat :=
  if s.plat.bad.isEmpty then none
  else (linePieces r.va r.len).findSome? fun p => (badDev s (endAt e p.1) p.2).map fun x => p.1 + (x - endAt e p.1)

def copyRead (r : DevReq) (id : Nat) (pos : List Nat) (s : State) : State :=
  match copyOf s id with
  | none => s
  | some c =>
    let ph := copyPhase s c
    match fencedStack s r.va r.len, copyBad s c.src r with
    | some (a, b), _ => failCopy c 0x13 2 (BitVec.ofNat 64 a) (BitVec.ofNat 64 b) true r.sec s
    | none, some x => failCopy c 0x13 0 (BitVec.ofNat 64 x) (BitVec.ofNat 64 (16 + stackOf s.variant x)) true r.sec s
    | none, none =>
    match copyReqStamp s c c.src .read r with
    | (s, some (a, x)) => failCopy c 0x08 0 (BitVec.ofNat 64 (a / 256 * 256)) (raceF3 r.party .read x ph false) true r.sec s
    | (s, none) =>
      let els := pos.map fun i =>
        let a := copyAddr c true i
        (i, BitVec.ofNat 32 (leNat ((List.range c.esz).map fun k => keptByte c (memByte s) (endAt c.src (a + k)))), c.sfmt, (0 : W32))
      s.postAt (s.cyc + Config.stackAccess + ownerTravel r.owner (stackOf s.variant r.va)) (.copyDataReturn id els)

/-- The bytes of a copy's write by physical address. -/
def partsAt (e : End) (r : DevReq) (parts : List (Nat × List Byte)) : List (Nat × Byte) :=
  parts.flatMap fun p => p.2.zipIdx.map fun (b, k) => (endAt e (r.va + p.1 + k), b)

def putBytes (l : List (Nat × Byte)) (s : State) : State := l.foldl (fun s x => putDev x.1 [x.2] s) s

def copyWrite (r : DevReq) (id : Nat) (parts : List (Nat × List Byte)) (s : State) : State :=
  match copyOf s id with
  | none =>
    if id = 0 then parts.foldl (fun s p => putDev (r.pa + p.1) p.2 s) (outsideAccess r.party [] false .write r.pa r.len s).1 else s
  | some c =>
    let ph := copyPhase s c
    match fencedStack s r.va r.len with
    | some (a, b) => failCopy c 0x13 2 (BitVec.ofNat 64 a) (BitVec.ofNat 64 b) true r.sec s
    | none =>
    match copyReqStamp s c c.dst .write r with
    | (s, some (a, x)) =>
      let below := parts.filterMap fun p => if r.va + p.1 < a / 256 * 256 then some (p.1, p.2.take (a / 256 * 256 - (r.va + p.1))) else none
      failCopy c 0x08 0 (BitVec.ofNat 64 (a / 256 * 256)) (raceF3 r.party .write x ph false) true r.sec
        (putBytes (partsAt c.dst r below) s)
    | (s, none) =>
      let l := partsAt c.dst r parts
      let c' := if selfOverlap s c then l.foldl (fun c x => keepOld (memByte s) c x.1 [x.2]) c else c
      wroteRun id (setCopy c' (putBytes l s))

/-! ### Retirement and completion (R267) -/

def copyRetirable (s : State) : Option Copy :=
  (activeCopies s).find? fun c => c.wrPos = copyTotal c ∧ c.wrOut = 0 ∧ c.rdOut = 0

/-- What the retirement of an operation passes on to the accesses that its ranges held up: of streams, of other copies, of collectives and
REPART passes of this core, of the outtake port's lines, of one-sided writes (R246, R254). -/
def passRangeId (id : Nat) (h : List Nat) (s : State) : State :=
  let s := Stream.all.foldl (fun s st => if (s.micro st).ranges.contains id then addHeld s (strParty s st) h else s) s
  let s := if s.job.ot.ranges.contains id then
      (addHeld s (strParty s .vx) h).onJob fun j => { j with ot := { j.ot with ranges := j.ot.ranges.filter (decide <| · ≠ id) } }
    else s
  let mine := s.core.ranges.filter fun r => r.id = id
  let meets (own : Nat) : Bool := decide (own ≠ id) && s.core.ranges.any fun r =>
    decide (r.id = own) && mine.any fun m => decide (m.lo < r.hi) && decide (r.lo < m.hi)
  let s := s.onCore fun k => { k with copies := k.copies.map fun x => if meets x.id then { x with held := unionNat x.held h } else x }
  s.onGrp fun g =>
    { g with
      colls := g.colls.map fun x => if x.core = s.coreNo ∧ meets x.rid = true then { x with held := unionNat x.held h } else x
      reps := g.reps.map fun x => if x.core = s.coreNo ∧ meets x.rid = true then { x with held := unionNat x.held h } else x
      rems := g.rems.map fun x => if x.core = s.coreNo ∧ x.ranges.contains id = true then { x with held := unionNat x.held h } else x }

def passRange (c : Copy) (s : State) : State := passRangeId c.id (unionNat [copyParty s c] c.held) s

/-- A CLAIM that was waiting when its job froze completes when its slot is filled (R353). -/
def claimFrozen (o : Nat) (s : State) : State :=
  let m := s.micro .mx
  if s.job.st = .frozen ∧ m.phase = 1 ∧ m.k = o ∧ (s.oslot o).st = .full then advance .mx (slotState o .held s) else s

def retireCopy (c : Copy) (s : State) : State :=
  let s := releaseCopy c (passRange c s)
  let s := setCopy { c with ph := .retired } s
  let s := match c.dst with
    | .oslot o =>
      let res := match c.fow with | some (.mma _ _ _ _ _ _ _ _ _ rls) => rls | _ => false
      let s := slotState o (if res then .reserved else .full) s
      claimFrozen o (s.setOslot o { s.oslot o with rel := unionNat [copyParty s c] c.held })
    | _ => s
  let s := match c.post with
    | some (va, pa) =>
      atomSend (s.cyc + 1) ⟨.copy c.id, .sempost, va, pa, 8, 1, 0, 0, false, true, copyParty s c, copyPhase s c,
        unionNat [copyParty s c] c.held, c.word, 0⟩ s
    | none => s
  if c.fow.isSome then s.postAt (s.cyc + 1) (.followOnJoin c.id) c.id
  else if c.post.isSome then s
  else s.postAt (s.cyc + 1) (.copyDone c.id)

/-- A retired copy whose post is acknowledged and whose follow-on has joined is complete. -/
def settleCopy (id : Nat) (s : State) : State :=
  match copyOf s id with
  | some c => if (c.fow.isNone || c.fjoin) && (c.post.isNone || c.acked) then finishCopy c 0 s else s
  | none => s

def retireDue : Ev → Option (State → State)
  | .copyDone id => some (settleCopy id)
  | .copyError id code cause f2 f3 => some fun s => match copyOf s id with
    | some c => failCopy c code cause f2 f3 (decide (code ≠ 0x13 ∨ cause = 0)) s.cyc s
    | none => s
  | .extEntry k id _ _ _ false => some fun s => s.onCore fun c =>
    { c with
      sb := c.sb.filter fun e => ¬(e.owner = some id ∧ e.core = k)
      foreign := c.foreign.filter fun x => ¬(x.1 = k ∧ x.2.1 = id) }
  | .graphCopyEnd g t st => some fun s => s.onGrip fun x => { x with copyEnds := x.copyEnds ++ [(g, t, st)] }
  | .copyQueue k full => some fun s => s.onGrip fun x =>
    { x with copyFull := (x.copyFull.filter (· ≠ k)) ++ if full then [k] else [] }
  | _ => none

/-- A copy retires; its token completes on the cycle after; an error from beyond the device, or at another core's banks, ends it; another
core's copy leaves this scoreboard; another core's copy queue is full, or is not any more (R132, R266 to R268, R335). -/
def execCopyRetire (s : State) : Host.Outcome State Fault Refusal :=
  dueElse s retireDue (fun f s => f s) fun s => match copyRetirable s with | some c => retireCopy c s | none => s

def execCopyPostAck (s : State) : Host.Outcome State Fault Refusal :=
  onDue s (fun | .copyPostAck id => some id | _ => none) fun id s =>
    match copyOf s id with
    | some c => settleCopy id (setCopy { c with acked := true } s)
    | none => s

/-! ### COPY and COPYX (R242, R243, R259 to R264) -/

/-- The fields of a descriptor, or nothing where it breaks R259 to R262 by itself. -/
structure CDesc where
  skind : Nat
  dkind : Nat
  sfmt : BitVec 4
  dfmt : BitVec 4
  esz : Nat
  desz : Nat
  tr : Bool
  fo : Bool
  pst : Bool
  src : W64
  dst : W64
  fow : BitVec 96
  post : W64
  lvls : List CLvl
  deriving DecidableEq, Repr

def descLvl (esz desz : Nat) (e : BitVec 128) : Option CLvl :=
  let n := (e.extractLsb' 96 32).toNat
  let ss := (e.extractLsb' 48 48).toInt
  let ds := (e.extractLsb' 0 48).toInt
  if n = 0 ∨ ss % esz ≠ 0 ∨ ds % desz ≠ 0 then none else some ⟨n, ss, ds⟩

/-- A named format at an end of a kind (R262). -/
def endFmtOk (kind : Nat) (f : BitVec 4) (w : Nat) : Bool :=
  let named := match Ty.ofCode f with | some t => decide (t.width = 8 * w) | none => decide (f = 0xF)
  named && match kind with
    | 1 => decide (f = 0xF)
    | 3 => decide (f = 0 ∨ f = 1 ∨ f = 9 ∨ f = 10)
    | _ => decide (f.toNat ≤ 8 ∨ f = 0xF)

def parseCopy (l : List Byte) (src dst : W64) : Option CDesc :=
  let c := field64 l 0
  let f (i n : Nat) : Nat := c.toNat / 2 ^ i % 2 ^ n
  let ez := f 33 2
  let dz := f 35 2
  let nl := f 30 3
  let skind := f 16 3
  let dkind := f 19 3
  let sfmt := c.extractLsb' 22 4
  let dfmt := c.extractLsb' 26 4
  let esz := 2 ^ ez
  let desz := 2 ^ dz
  let ent (i : Nat) : BitVec 128 := BitVec.ofNat 128 (fieldN l (48 + 16 * i) 16)
  let fo := c.getLsbD 38
  let pst := c.getLsbD 39
  let tr := c.getLsbD 37
  let fow := BitVec.ofNat 96 (fieldN l 24 12)
  let post := field64 l 40
  let rawEnd := (decide (skind ≠ 1) && decide (sfmt = 0xF)) || (decide (dkind ≠ 1) && decide (dfmt = 0xF))
  let addrBad (k : Nat) (a : W64) : Bool :=
    (decide (k = 1) && decide (a.toNat / 2 ^ 29 ≠ 0)) || (decide (k = 3) && decide (a.toNat / 2 ^ 6 ≠ 0))
  let bad := decide (c.toNat / 2 ^ 40 ≠ 0) || decide (f 0 16 ≠ 0) || decide (ez = 3) || decide (dz = 3) || decide (nl = 0) ||
    decide (2 < skind) || decide (3 < dkind) || decide (fieldN l 36 4 ≠ 0) || decide (fieldN l 160 32 ≠ 0) ||
    (!fo && decide (fow ≠ 0)) || (!pst && decide (post ≠ 0)) ||
    ((List.range 7).any fun i => decide (nl ≤ i) && decide (ent i ≠ 0)) ||
    !endFmtOk skind sfmt esz || !endFmtOk dkind dfmt desz || addrBad skind src || addrBad dkind dst ||
    (rawEnd && decide (esz ≠ desz)) || (decide (dkind = 3) && decide (dfmt = 10) && dst.getLsbD 0) ||
    (fo && decide (dkind ≠ 3)) || (tr && decide (nl < 2))
  if bad then none
  else match (List.range nl).mapM fun i => descLvl esz desz (ent i) with
    | some lvls =>
      let trBad := tr && (decide ((lvls.head?.map CLvl.ss) ≠ some (esz : Int)) ||
        decide (((lvls.drop 1).head?.map CLvl.ds) ≠ some (desz : Int)))
      if trBad then none else some ⟨skind, dkind, sfmt, dfmt, esz, desz, tr, fo, pst, src, dst, fow, post, lvls⟩
    | none => none

/-- An entry of the handle table by its fields (R242). -/
structure HEnt where
  ctx : Nat
  gen : Nat
  v : Bool
  wr : Bool
  rd : Bool
  kind : Nat
  len : Nat
  base : Nat
  deriving DecidableEq, Repr

def handleEnt (s : State) (i : Nat) : HEnt :=
  let e := SMap.get 0 s.dev.handles i
  let f (i n : Nat) : Nat := e.toNat / 2 ^ i % 2 ^ n
  ⟨f 144 16, f 128 16, e.getLsbD 118, e.getLsbD 117, e.getLsbD 116, f 112 4, f 64 48, f 0 64⟩

/-- The checks of R243 for a host context, in order: the cause of the first that fails. -/
def handleCause (s : State) (hctx i gen : Nat) (lo hi : Int) (write : Bool) (w : Nat) : Option Nat :=
  let e := handleEnt s i
  if !e.v then some 0
  else if gen ≠ e.gen then some 1
  else if lo < 0 ∨ (e.len : Int) < hi then some 2
  else if (if write then e.wr else e.rd) = false ∨ (e.kind = 4 ∧ (write = false ∨ w ≠ 4)) then some 3
  else if e.ctx ≠ hctx then some 4
  else none

/-- One end of a copy at its enqueue: translated, or checked against its range (R264). -/
def checkEnd (s : State) (d : CDesc) (src : Bool) (desc : W64) : Except Halt (State × End) :=
  let kind := if src then d.skind else d.dkind
  let a := (if src then d.src else d.dst).toNat
  let w := if src then d.esz else d.desz
  let lv := d.lvls.map fun l => (l.n, if src then l.ss else l.ds)
  let base : Nat := match kind with | 0 => a | 1 => a % 2 ^ 22 | 2 => a % 2 ^ 36 | _ => 0
  let (lo, hi) := boundRange base lv w
  match kind with
  | 0 =>
    if lo < 0 then stop s .sq 0x06 0 (BitVec.ofInt 64 lo)
    else do
      let (s, pages) ← needPages s .sq lo.toNat (hi - lo).toNat [if src then .r else .w]
      .ok (s, .dev a pages)
  | 1 => do
    let core := a / 2 ^ 22
    check (decide (Config.cores s.variant ≤ core)) s .sq 0x04
    check (decide (lo < 0) || decide ((2 ^ 22 : Int) < hi)) s .sq 0x07 0 (BitVec.ofInt 64 lo)
    .ok (s, .spad core base)
  | 2 =>
    let i := a / 2 ^ 36 % 2 ^ 12
    let gen := a / 2 ^ 48
    match handleCause s s.job.l.hctx i gen lo hi (!src) w with
    | some c => stop s .sq 0x15 c (BitVec.ofNat 64 (i + gen * 2 ^ 12))
    | none => .ok (s, .ext i gen base (handleEnt s i).base)
  | _ => do
    check (decide (d.dfmt = 10) && !Config.res16 s.variant) s .sq 0x04
    check (decide (lo < 0) || decide ((4096 * w : Int) < hi)) s .sq 0x07 0 desc
    .ok (s, .oslot a)

/-- The follow-on word of a descriptor, checked as a word is (R33, R152). -/
def checkFow (s : State) (d : CDesc) : Except Halt (Option Instr) :=
  if d.fo then
    match decodeFow d.fow with
    | .ok (.mma p td a b k ty pm pn pk r) => do
      check (absentTy s ty) s .sq 0x04
      .ok (some (.mma p td a b k ty pm pn pk r))
    | .error .illegal => stop s .sq 0x01
    | _ => stop s .sq 0x02
  else .ok none

/-- A token is bound afresh: its party leaves every held set of the core: of the job's parties, its copies, collectives, passes and remote
operations (R250, R269). -/
def bindToken (t : Nat) (s : State) : State :=
  let q := party s (8 + t)
  let out (l : List Nat) : List Nat := l.filter (· ≠ q)
  let s := s.onJob fun j =>
    { j with tok := rowSet j.tok t ⟨.busy, 0, []⟩, held := (j.held.map fun x => (x.1, out x.2)).filter fun x => x.2 ≠ [] }
  let s := s.onCore fun c => { c with copies := c.copies.map fun x => { x with held := out x.held } }
  s.onGrp fun g =>
    { g with
      colls := g.colls.map fun x => if x.core = s.coreNo then { x with held := out x.held } else x
      reps := g.reps.map fun x => if x.core = s.coreNo then { x with held := out x.held } else x
      rems := g.rems.map fun x => if x.core = s.coreNo then { x with held := out x.held } else x }

def tokBusy (s : State) (t : Nat) : Bool := decide ((row s.job.tok Tok.init t).st = .busy)

def enqueuedCopies (s : State) : Nat := (s.core.copies.filter fun c => c.ph ≠ .retired).length

/-- A command's end takes a share of its handle (R243). -/
def pinHandle (e : End) (s : State) : State :=
  match e with
  | .ext h _ _ _ => countHandle h true s
  | _ => s

/-- R264 whole: `ext` is COPYX. -/
def copyWord (ext : Bool) (p : Pred) (t : BitVec 4) (preg sreg dreg : BitVec 6) (s : State) :
    Host.Outcome State Fault Refusal :=
  sideWord p s fun s => do
    needRegs s [preg, sreg, dreg]
    let a := s.reg preg
    check (decide (a.toNat % 64 ≠ 0)) s .sq 0x12 0 a
    let (s, l) ← descRead s .sq a.toNat 192
    let src := if sreg = 0 then field64 l 8 else s.reg sreg
    let dst := if dreg = 0 then field64 l 16 else s.reg dreg
    match parseCopy l src dst with
    | none => stop s .sq 0x02 0 a
    | some d =>
      let n := (if d.skind = 2 then 1 else 0) + (if d.dkind = 2 then 1 else 0)
      check (decide (n ≠ if ext then 1 else 0)) s .sq 0x02 0 a
      let (s, e1) ← checkEnd s d true a
      let (s, e2) ← checkEnd s d false a
      let ends := (endPages e1 ++ endPages e2).eraseDups
      let more := if d.pst && (pieceAt ends d.post.toNat).isNone then 1 else 0
      check (decide (64 < ends.length + more)) s .sq 0x07 0 a
      let fow ← checkFow s d
      check (d.pst && decide (d.post.toNat % 8 ≠ 0)) s .sq 0x12 0 d.post
      let (s, post) ← (if d.pst then needPages s .sq d.post.toNat 8 [.r, .w] else .ok (s, []) : Except Halt (State × List Piece))
      let pages := (ends ++ post).eraseDups
      waitFor (!tokBusy s t.toNat) s .token
      waitFor (decide (enqueuedCopies s < 32)) s .other
      waitFor (pinRoom s pages) s .other
      let s := pinHandle e1 (pinHandle e2 (bindToken t.toNat (pinAll s pages)))
      let pa := (pieceAt post d.post.toNat).getD 0
      let c : Copy :=
        { id := s.core.copyNext + 1, jobId := s.job.id, own := true, token := t.toNat, word := wordRef s .sq, desc := a.toNat,
          src := e1, dst := e2, sfmt := d.sfmt, dfmt := d.dfmt, esz := d.esz, desz := d.desz, lvls := d.lvls, tr := d.tr,
          fow := fow, post := if d.pst then some (d.post.toNat, pa) else none, ph := .queued, rdPos := 0, wrPos := 0,
          rdOut := 0, wrOut := 0, stage := [], reads := 0, keep := [], held := unionNat (passes s (party s 0)) [atomParty s],
          phase := racePhase s, root := s.job.l.root, pins := pages, fjoin := false, acked := false }
      .ok (s.onCore fun k => { k with copies := k.copies ++ [c], copyNext := k.copyNext + 1 })

def execCopy (p : Pred) (t : BitVec 4) (preg sreg dreg : BitVec 6) (s : State) : Host.Outcome State Fault Refusal :=
  copyWord false p t preg sreg dreg s
def execCopyx (p : Pred) (t : BitVec 4) (preg sreg dreg : BitVec 6) (s : State) : Host.Outcome State Fault Refusal :=
  copyWord true p t preg sreg dreg s

/-! ### Tokens (R270) -/

/-- The join of a token: the stream holds what the operation passed on (R246). -/
def joinToken (t : Nat) (s : State) : State := addHeld s (strParty s .sq) (row s.job.tok Tok.init t).held

def execCwait (p : Pred) (d : BitVec 5) (t : BitVec 4) (s : State) : Host.Outcome State Fault Refusal :=
  sideWord p s fun s => do
    waitFor (!tokBusy s t.toNat) s .token
    .ok (later .sq 1 (.sreg d.toNat (row s.job.tok Tok.init t.toNat).status) (joinToken t.toNat s))

def execCtest (p : Pred) (fd : BitVec 3) (t : BitVec 4) (s : State) : Host.Outcome State Fault Refusal :=
  sideWord p s fun s =>
    let ok := !tokBusy s t.toNat
    .ok (later .sq 1 (.freg fd.toNat ok) (if ok then joinToken t.toNat s else s))

end Sys2Proof.Machine
end

