-- ==== Sys2Proof/Machine/Curve.lean ====
section
/-! DEFINITION. The keys of the space-filling curves (R193, R306, R307). -/
namespace Sys2Proof.Machine

/-- Interleave 21 bits of three values: bit 3m of `a`, 3m + 1 of `b`, 3m + 2 of `c`. -/
def interleave (a b c : Nat) : Nat :=
  (List.range 21).foldl (fun k m =>
    k + (if a.testBit m then 2 ^ (3 * m) else 0) + (if b.testBit m then 2 ^ (3 * m + 1) else 0) +
      (if c.testBit m then 2 ^ (3 * m + 2) else 0)) 0

def mortonKey (x y z : Nat) : Nat := interleave x y z

/-- One pass of R307 for `Q = 2^q`. -/
def hilbertPass (v : Nat × Nat × Nat) (q : Nat) : Nat × Nat × Nat :=
  let p := 2 ^ q - 1
  let (x0, x1, x2) := v
  let x0 := if x0.testBit q then x0 ^^^ p else x0
  let (x0, x1) := if x1.testBit q then (x0 ^^^ p, x1) else let t := (x0 ^^^ x1) &&& p; (x0 ^^^ t, x1 ^^^ t)
  let (x0, x2) := if x2.testBit q then (x0 ^^^ p, x2) else let t := (x0 ^^^ x2) &&& p; (x0 ^^^ t, x2 ^^^ t)
  (x0, x1, x2)

/-- The exponents 20 down to 1. -/
def passBits : List Nat := (List.range 20).map fun i => 20 - i

/-- The 63-bit Hilbert key (R307). DEDUCED, log 54: the rule's passes take (1, 0, 0) to key 1, while its check by hand says that they
leave the point unchanged and gives key 7; the model follows the passes, which the key units run bit for bit. -/
def hilbertKey (x y z : Nat) : Nat :=
  let (x0, x1, x2) := passBits.foldl hilbertPass (x, y, z)
  let x1 := x1 ^^^ x0
  let x2 := x2 ^^^ x1
  let t := passBits.foldl (fun t q => if x2.testBit q then t ^^^ (2 ^ q - 1) else t) 0
  interleave (x2 ^^^ t) (x1 ^^^ t) (x0 ^^^ t)

/-- A coordinate clamped to 21 bits (R193). -/
def clamp21 (n : Nat) : Nat := min n (2 ^ 21 - 1)

end Sys2Proof.Machine
end

