-- ==== Sys2Proof/Machine/Vector.lean ====
section
/-! DEFINITION. The vector engine's words over planes: arithmetic, bits, conversion, compares, masks, layout, reductions, conditional
streams, flags, keys, the window and the tile shapes (R157 to R166, R170 to R194). -/
namespace Sys2Proof.Machine

/-! ### Elementwise forms -/

def vx1 (p : Pred) (v : V1) (lat : Nat) (f : W32 → W32) (s : State) : Host.Outcome State Fault Refusal :=
  elemWord .vx p lat v.d v.x.ty [(v.a, v.x.ty)] v.x (fun g => plain (f (g 0))) s

def vx2 (p : Pred) (v : V2) (lat : Nat) (f : W32 → W32 → W32) (s : State) : Host.Outcome State Fault Refusal :=
  elemWord .vx p lat v.d v.x.ty [(v.a, v.x.ty), (v.b, v.x.ty)] v.x (fun g => plain (f (g 0) (g 1))) s

def vx3 (p : Pred) (v : V3) (lat : Nat) (f : W32 → W32 → W32 → W32) (s : State) : Host.Outcome State Fault Refusal :=
  elemWord .vx p lat v.d v.x.ty [(v.a, v.x.ty), (v.b, v.x.ty), (v.c, v.x.ty)] v.x
    (fun g => plain (f (g 0) (g 1) (g 2))) s

/-! ### Floating point (R174 to R176) -/

def execVadd (p : Pred) (v : V2) (s : State) := vx2 p v 3 (fAdd v.x.ty v.x.rnd v.x.sat) s
def execVsub (p : Pred) (v : V2) (s : State) := vx2 p v 3 (fSub v.x.ty v.x.rnd v.x.sat) s
def execVmul (p : Pred) (v : V2) (s : State) := vx2 p v 5 (fMul v.x.ty v.x.rnd v.x.sat) s
def execVfma (p : Pred) (v : V3) (s : State) := vx3 p v 5 (fFma v.x.ty v.x.rnd v.x.sat) s
def execVfms (p : Pred) (v : V3) (s : State) := vx3 p v 5 (fFms v.x.ty v.x.rnd v.x.sat) s
def execVfnma (p : Pred) (v : V3) (s : State) := vx3 p v 5 (fFnma v.x.ty v.x.rnd v.x.sat) s
def execVneg (p : Pred) (v : V1) (s : State) := vx1 p v 3 (fNeg v.x.ty) s
def execVabs (p : Pred) (v : V1) (s : State) := vx1 p v 3 (fAbs v.x.ty) s
def execVmin (p : Pred) (v : V2) (s : State) := vx2 p v 3 (fMin v.x.ty) s
def execVmax (p : Pred) (v : V2) (s : State) := vx2 p v 3 (fMax v.x.ty) s
def execVdiv (p : Pred) (v : V2) (s : State) := vx2 p v 16 (fDiv v.x.ty v.x.rnd v.x.sat) s
def execVsqrt (p : Pred) (v : V1) (s : State) := vx1 p v 16 (fSqrt v.x.ty v.x.rnd v.x.sat) s
def execVrcp (p : Pred) (v : V1) (s : State) := vx1 p v 8 (fRcp v.x.ty v.x.rnd v.x.sat) s
def execVrsq (p : Pred) (v : V1) (s : State) := vx1 p v 8 (fRsq v.x.ty v.x.rnd v.x.sat) s
def execVexp2 (p : Pred) (v : V1) (s : State) := vx1 p v 12 (fExp2 v.x.ty v.x.rnd v.x.sat) s
def execVlog2 (p : Pred) (v : V1) (s : State) := vx1 p v 12 (fLog2 v.x.ty v.x.rnd v.x.sat) s
def execVexp (p : Pred) (v : V1) (s : State) := vx1 p v 12 (fExp v.x.ty v.x.rnd v.x.sat) s
def execVtanh (p : Pred) (v : V1) (s : State) := vx1 p v 12 (fTanh v.x.ty v.x.rnd v.x.sat) s
def execVsigm (p : Pred) (v : V1) (s : State) := vx1 p v 12 (fSigm v.x.ty v.x.rnd v.x.sat) s

/-! ### Integers and bits (R177, R178) -/

def execViadd (p : Pred) (v : V2) (s : State) := vx2 p v 3 (iAdd v.x.ty v.x.sat) s
def execVisub (p : Pred) (v : V2) (s : State) := vx2 p v 3 (iSub v.x.ty v.x.sat) s
def execVimul (p : Pred) (v : V2) (s : State) := vx2 p v 5 (iMul v.x.ty v.x.sat) s
def execVimulh (p : Pred) (v : V2) (s : State) := vx2 p v 5 (iMulh v.x.ty) s
def execVimin (p : Pred) (v : V2) (s : State) := vx2 p v 3 (iMin v.x.ty) s
def execVimax (p : Pred) (v : V2) (s : State) := vx2 p v 3 (iMax v.x.ty) s
def execVand (p : Pred) (v : V2) (s : State) := vx2 p v 3 (bAnd v.x.ty) s
def execVor (p : Pred) (v : V2) (s : State) := vx2 p v 3 (bOr v.x.ty) s
def execVxor (p : Pred) (v : V2) (s : State) := vx2 p v 3 (bXor v.x.ty) s
def execVnot (p : Pred) (v : V1) (s : State) := vx1 p v 3 (bNot v.x.ty) s
def execVshl (p : Pred) (v : V2) (s : State) := vx2 p v 3 (bShl v.x.ty) s
def execVshr (p : Pred) (v : V2) (s : State) := vx2 p v 3 (bShr v.x.ty) s
def execVshra (p : Pred) (v : V2) (s : State) := vx2 p v 3 (bShra v.x.ty) s
def execVclz (p : Pred) (v : V1) (s : State) := vx1 p v 3 (bClz v.x.ty) s
def execVffs (p : Pred) (v : V1) (s : State) := vx1 p v 3 (bFfs v.x.ty) s
def execVpcnt (p : Pred) (v : V1) (s : State) := vx1 p v 3 (bPcnt v.x.ty) s

/-! ### Conversion (R179) -/

/-- The steps of a conversion: b is the source's step when the source is residue, else the destination's. -/
def execVcvt (p : Pred) (v : V1) (src : Ty) (b c : Option Opnd) (s : State) : Host.Outcome State Fault Refusal :=
  let dt := v.x.ty
  let steps := (b.toList ++ c.toList).map fun o => (o, Ty.f32)
  elemWord .vx p 4 v.d dt ((v.a, src) :: steps) v.x (fun g =>
    let s1 := if src.isRes then g 1 else 0
    let s2 := if src.isRes then g 2 else g 1
    convElem true src dt s1 s2 v.x.rnd v.x.sat (g 0)) s

/-! ### Compares, selects, masks (R180 to R182) -/

/-- A mask with the bits of these lanes. -/
def laneMask (l : List Nat) : BitVec 1024 := l.foldl (fun m i => m ||| (1#1024 <<< i)) 0

def execVcmp (p : Pred) (k : BitVec 3) (a b : Opnd) (x : Sfx) (cc : Cond) (s : State) : Host.Outcome State Fault Refusal :=
  word .vx p s fun s => do
    let us : List Use := [⟨a, x.ty, false⟩, ⟨b, x.ty, false⟩]
    let n := elemCount s us
    let uns := us.map fun u => (u, n)
    let s ← touchAll (planesOf s x.win us) s
    checkUses s .vx x.win uns
    let bs ← waitUses s .vx uns
    let (s, vs) := readUses .vx x.win x.rnd x.sat uns bs s
    let lanes := elemLanes us n
    let inside (l : Nat) : Bool := match refPlane us with
      | some (_, pl, _) => inShape (s.plane (physPlane s x.win pl)) l
      | none => true
    let set := (lanes.zipIdx.filter fun (l, e) =>
      cmpElem x.ty cc ((vs.getD 0 #[]).getD e 0) ((vs.getD 1 #[]).getD e 0) && inside l && maskBit s x.km l).map Prod.fst
    .ok (later .vx 3 (.kmask k.toNat (laneMask lanes) (laneMask set)) s)

def kReg (s : State) (k : BitVec 3) : BitVec 1024 := row s.job.vx.k 0 k.toNat

def execVsel (p : Pred) (v : V2) (k : BitVec 3) (s : State) : Host.Outcome State Fault Refusal :=
  elemWordL .vx p 3 v.d v.x.ty [(v.a, v.x.ty), (v.b, v.x.ty)] v.x
    (fun s l g => plain (if (kReg s k).getLsbD l then g 0 else g 1)) s

def maskWord (p : Pred) (kd : BitVec 3) (f : State → BitVec 1024) (s : State) : Host.Outcome State Fault Refusal :=
  word .vx p s fun s => .ok (later .vx 1 (.kmask kd.toNat (.allOnes 1024) (f s)) s)

def execKand (p : Pred) (kd ka kb : BitVec 3) (s : State) := maskWord p kd (fun s => kReg s ka &&& kReg s kb) s
def execKor (p : Pred) (kd ka kb : BitVec 3) (s : State) := maskWord p kd (fun s => kReg s ka ||| kReg s kb) s
def execKnot (p : Pred) (kd ka : BitVec 3) (s : State) := maskWord p kd (fun s => ~~~(kReg s ka)) s

/-! ### Layout (R183 to R186, R188) -/

def execVmov (p : Pred) (v : V1) (s : State) := vx1 p v 3 (fun a => bitsOut v.x.ty a.toNat) s

/-- An operand's element count as a plane. -/
def planeCnt (o : Opnd) : Nat := (o.planeCount).getD 1024

/-- A result of `n` elements, each taken from one of the source's. -/
def pick (n : Nat) (f : Nat → Nat) (vs : List (Array W32)) : List Conv :=
  (List.range n).map fun e => plain ((vs.getD 0 #[]).getD (f e) 0)

def execVrotr (p : Pred) (v : V2) (s : State) : Host.Outcome State Fault Refusal :=
  let n := planeCnt v.d
  wholeWord .vx p 2 v.d n [(v.a, planeCnt v.a)] v.x (fun s vs =>
    let r := (constVal s .vx v.b).toNat % 64
    pick n (fun e => e / 64 * 64 + (e % 64 + 64 - r) % 64) vs) s

def execVrotc (p : Pred) (v : V2) (s : State) : Host.Outcome State Fault Refusal :=
  let n := planeCnt v.d
  wholeWord .vx p 6 v.d n [(v.a, planeCnt v.a)] v.x (fun s vs =>
    let r := (constVal s .vx v.b).toNat % 16
    pick n (fun e => if n = 1024 then (e / 64 + 16 - r) % 16 * 64 + e % 64 else (e + 16 - r) % 16) vs) s

def execVbcr (p : Pred) (v : V1) (s : State) : Host.Outcome State Fault Refusal :=
  wholeWord .vx p 2 v.d 1024 [(v.a, 16)] v.x (fun _ vs => pick 1024 (fun e => e / 64) vs) s
def execVbcc (p : Pred) (v : V1) (s : State) : Host.Outcome State Fault Refusal :=
  wholeWord .vx p 6 v.d 1024 [(v.a, 64)] v.x (fun _ vs => pick 1024 (fun e => e % 64) vs) s

/-- d(i, 16q + j) := a(j, 16q + i). -/
def execVtrn16 (p : Pred) (v : V1) (s : State) : Host.Outcome State Fault Refusal :=
  wholeWord .vx p 8 v.d 1024 [(v.a, 1024)] v.x (fun _ vs =>
    pick 1024 (fun e => e % 16 * 64 + e % 64 / 16 * 16 + e / 64) vs) s

/-- VPERM: the index plane is read at its own width, 16 or 32 bits; spacing of 4 cycles (R54, R188). -/
def execVperm (p : Pred) (v : V2) (s : State) : Host.Outcome State Fault Refusal :=
  word .vx p s fun s => do
    check (absentTy s v.x.ty) s .vx 0x04
    let us : List Use := [⟨v.d, v.x.ty, true⟩, ⟨v.a, v.x.ty, false⟩]
    let ix : List Use := [⟨v.b, .i32, false⟩]
    let s ← touchAll (planesOf s v.x.win (us ++ ix)) s
    checkUses s .vx v.x.win (us.map fun u => (u, 1024))
    let q := (planesOf s v.x.win ix).headD 0
    let b := s.plane q
    check (!b.cfg) s .vx 0x05 0 (BitVec.ofNat 64 q)
    check (decide (planeWidth b = 8)) s .vx 0x05 1 (BitVec.ofNat 64 q)
    waitFor (match s.job.vx.perm with | some c => decide (c + Config.vpermSpacing ≤ s.job.cycle) | none => true) s .other
    let (s, vs) := readUses .vx v.x.win .rne false (us.map fun u => (u, 1024)) [] s
    let idx := planeRead b (planeWidth b) (List.range 1024)
    let a := vs.getD 0 #[]
    let out := (List.range 1024).map fun e => plain (a.getD ((idx.getD e 0).toNat % 1024) 0)
    let s := s.onJob fun j => { j with vx := { j.vx with perm := some j.cycle } }
    .ok (putResult .vx 16 v.d v.x.ty v.x.win .rne false v.x.km (List.range 1024) out s)

/-! ### Reductions (R187) -/

/-- The lanes of a whole operand that a reduction takes: a plane's in-shape lanes, every position of the others. -/
def wholeShape (s : State) (win : Bool) (o : Opnd) (l : Nat) : Bool :=
  match o with
  | .plane _ n _ => inShape (s.plane (physPlane s win n)) l
  | _ => true

def reduceWord (p : Pred) (v : V1) (op : RedOp) (lat n : Nat) (lanes : Nat → List Nat) (s : State) :
    Host.Outcome State Fault Refusal :=
  wholeWord .vx p lat v.d n [(v.a, 1024)] v.x (fun s vs =>
    (List.range n).map fun e =>
      let l := (lanes e).filter (wholeShape s v.x.win v.a)
      plain (reduce op v.x.ty v.x.rnd v.x.sat (l.map fun i => (vs.getD 0 #[]).getD i 0))) s

def execVredr (p : Pred) (v : V1) (op : RedOp) (s : State) : Host.Outcome State Fault Refusal :=
  reduceWord p v op 7 16 (fun i => (List.range 64).map fun j => 64 * i + j) s
def execVredc (p : Pred) (v : V1) (op : RedOp) (s : State) : Host.Outcome State Fault Refusal :=
  reduceWord p v op 11 64 (fun j => (List.range 16).map fun i => 64 * i + j) s

/-! ### Compress and expand (R189) -/

/-- The rows that a whole plane or a row slice covers. -/
def rowsOf (o : Opnd) : List Nat :=
  match o with
  | .plane .row _ ix => [ix.toNat]
  | _ => List.range 16

/-- The columns of row `i` that mask and shape select. -/
def selCols (s : State) (win : Bool) (o : Opnd) (k : BitVec 1024) (i : Nat) : List Nat :=
  (List.range 64).filter fun j => k.getLsbD (64 * i + j) && wholeShape s win o (64 * i + j)

def execVcmprs (p : Pred) (v : V1) (k : BitVec 3) (s : State) : Host.Outcome State Fault Refusal :=
  word .vx p s fun s => do
    check (absentTy s v.x.ty) s .vx 0x04
    let n := planeCnt v.d
    let us : List (Use × Nat) := [(⟨v.d, v.x.ty, true⟩, n), (⟨v.a, v.x.ty, false⟩, n)]
    let s ← touchAll (planesOf s v.x.win (us.map Prod.fst)) s
    checkUses s .vx v.x.win us
    let (s, vs) := readUses .vx v.x.win .rne false us [] s
    let a := vs.getD 0 #[]
    let sels := (rowsOf v.a).map (selCols s v.x.win v.a (kReg s k))
    let out := sels.zipIdx.flatMap fun (sel, r) =>
      (List.range 64).map fun t => plain (match sel[t]? with | some j => a.getD (64 * r + j) 0 | none => 0)
    let cnt := (sels.map List.length).foldl (· + ·) 0
    let s := putResult .vx 6 v.d v.x.ty v.x.win .rne false none (ownLanes v.d n) out s
    .ok (later .vx 8 (.wcnt (BitVec.ofNat 32 cnt)) s)

def execVexpnd (p : Pred) (v : V1) (k : BitVec 3) (s : State) : Host.Outcome State Fault Refusal :=
  let n := planeCnt v.d
  wholeWord .vx p 6 v.d n [(v.a, n)] v.x (fun s vs =>
    let a := vs.getD 0 #[]
    let sels := (rowsOf v.a).map (selCols s v.x.win v.a (kReg s k))
    sels.zipIdx.flatMap fun (sel, r) => (List.range 64).map fun j =>
      plain (if sel.contains j then a.getD (64 * r + sel.idxOf j) 0 else 0)) s

/-! ### Conditional streams (R190, R191) -/

/-- The elements of a plane operand that a mask and its shape select, by their place in the operand's order. -/
def selElems (s : State) (win : Bool) (o : Opnd) (k : BitVec 1024) : List (Nat × Nat) :=
  ((ownLanes o 1024).zipIdx).filter fun (l, _) => k.getLsbD l && wholeShape s win o l

def ceilDiv (a b : Nat) : Nat := (a + b - 1) / b

/-- The pieces, slot by slot, of `b` bytes from byte `u` after a head: slot offset, first byte, length. -/
def packParts (z u b : Nat) : List (Nat × Nat × Nat) :=
  if b = 0 then []
  else ((List.range (ceilDiv (u + b) z)).drop (u / z)).map fun i =>
    let lo := max u (i * z)
    let hi := min (u + b) ((i + 1) * z)
    (i, lo - i * z, hi - lo)

def execVpushc (p : Pred) (h : BitVec 4) (a : Opnd) (k : BitVec 3) (x : Sfx) (s : State) : Host.Outcome State Fault Refusal :=
  word .vx p s fun s => do
    check (absentTy s x.ty) s .vx 0x04
    let us : List (Use × Nat) := [(⟨a, x.ty, false⟩, planeCnt a)]
    let s ← touchAll (planesOf s x.win (us.map Prod.fst)) s
    checkUses s .vx x.win us
    let hn := h.toNat
    waitPub s hn
    let q := s.handle hn
    if !handleOn s hn || decide (q.prod ≠ 3) then badHandle s .vx hn
    let sel := selElems s x.win a (kReg s k)
    let w := x.ty.width / 8
    let z := slotSize q
    let b := sel.length * w
    let need := ceilDiv (q.u + b) z
    if q.depth < need ∨ q.u % w ≠ 0 then badHandle s .vx hn
    waitFor (decide (need ≤ q.depth - q.f)) s .slot
    let (s, vs) := readUses .vx x.win .rne false us [] s
    let v := vs.getD 0 #[]
    let bytes := elemsBytes w (sel.map fun e => v.getD e.2 0)
    let parts := (packParts z q.u b).map fun (i, o, n) =>
      let d := (bytes.drop (i * z + o - q.u)).take n
      if o = 0 then (slotAddr q q.wh i, fit z d) else (slotAddr q q.wh i + o, d)
    let pub := (q.u + b) / z - q.u / z
    let s := s.setHandle hn { s.handle hn with u := q.u + b }
    let s := if b = 0 then s else later .vx 6 (.slotW hn parts pub (wordRef s .vx)) s
    .ok (later .vx 8 (.wcnt (BitVec.ofNat 32 sel.length)) s)

def execVpopq (p : Pred) (d : Opnd) (h : BitVec 4) (k : BitVec 3) (x : Sfx) (s : State) : Host.Outcome State Fault Refusal :=
  word .vx p s fun s => do
    check (absentTy s x.ty) s .vx 0x04
    let us : List (Use × Nat) := [(⟨d, x.ty, true⟩, planeCnt d)]
    let s ← touchAll (planesOf s x.win (us.map Prod.fst)) s
    checkUses s .vx x.win us
    let hn := h.toNat
    waitPub s hn
    let q := s.handle hn
    if !handleOn s hn || decide (q.cons ≠ 3) then badHandle s .vx hn
    let sel := selElems s x.win d (kReg s k)
    let w := x.ty.width / 8
    let z := slotSize q
    let b := sel.length * w
    let need := ceilDiv (q.v + b) z
    if q.depth < need ∨ q.v % w ≠ 0 then badHandle s .vx hn
    waitFor (decide (need ≤ q.f)) s .slot
    let bs ← slotData s .vx ((packParts z q.v b).map fun (i, o, n) => (slotAddr q q.rh i + o, n))
    let s := acquireSlots need hn s
    let vals := bytesElems w bs.flatten
    let j := (q.v + b) / z
    let s := s.setHandle hn { s.handle hn with v := (q.v + b) % z }
    let s := if j = 0 then s else later .vx 1 (.advh hn j false) s
    match d with
    | .plane _ n _ => .ok (later .vx 6 (.lanes (physPlane s x.win n) ((sel.map Prod.fst).zip vals)) s)
    | _ => .ok s
where
  acquireSlots (n hn : Nat) (s : State) : State := (List.range n).foldl (fun s i => acquireSlot .vx hn i s) s

/-! ### Flags and keys (R192, R193) -/

def execVflag (p : Pred) (k : BitVec 3) (km : Option (BitVec 3)) (s : State) : Host.Outcome State Fault Refusal :=
  word .vx p s fun s => .ok (later .vx 8 (flagEff (kReg s k) (km.map (kReg s))) s)

/-- The lanes that a whole-plane result writes: those in shape. -/
def shapeLanes (x : Plane) (l : List (Nat × W32)) : List (Nat × W32) := l.filter fun e => inShape x e.1

def execVsfck (p : Pred) (v : V3) (hi : BitVec 5) (cv : Curve) (s : State) : Host.Outcome State Fault Refusal :=
  word .vx p s fun s => do
    let us : List Use := [⟨v.d, .n32, true⟩, ⟨v.a, .n32, false⟩, ⟨v.b, .n32, false⟩, ⟨v.c, .n32, false⟩]
    let pd := (planesOf s v.x.win [⟨v.d, .n32, true⟩]).headD 0
    check (decide (hi.toNat = pd)) s .vx 0x02
    let uns := us.map fun u => (u, 1024)
    let s ← touchAll (hi.toNat :: planesOf s v.x.win us) s
    checkUses s .vx v.x.win uns
    checkPlane s .vx hi.toNat 32
    let (s, vs) := readUses .vx v.x.win .rne false uns [] s
    let co (i e : Nat) : Nat := ((vs.getD i #[]).getD e 0).toNat
    let f := match cv with | .morton => mortonKey | .hilbert => hilbertKey
    let keys := (List.range 1024).map fun e => f (clamp21 (co 0 e)) (clamp21 (co 1 e)) (clamp21 (co 2 e))
    let lo := keys.zipIdx.map fun x => (x.2, BitVec.ofNat 32 x.1)
    let up := keys.zipIdx.map fun x => (x.2, BitVec.ofNat 32 (x.1 / 2 ^ 32))
    let qx := (List.range 1024).any fun e => (inShape (s.plane pd) e || inShape (s.plane hi.toNat) e) &&
      [0, 1, 2].any fun i => decide (2 ^ 21 ≤ co i e)
    let s := later .vx 6 (.lanes pd (shapeLanes (s.plane pd) lo)) s
    let s := later .vx 6 (.lanes hi.toNat (shapeLanes (s.plane hi.toNat) up)) s
    .ok (if qx then later .vx 6 (.sticky false true) s else s)

/-! ### Window and tile shapes (R162, R166) -/

def execWinset (p : Pred) (a : Opnd) (s : State) : Host.Outcome State Fault Refusal :=
  word .vx p s fun s => do
    let v := constVal s .vx a
    check (decide (15 < v.toNat)) s .vx 0x02
    .ok (later .vx 1 (.wset (v.setWidth 4)) s)

def execWinadv (p : Pred) (n : BitVec 4) (s : State) : Host.Outcome State Fault Refusal :=
  word .vx p s fun s => .ok (later .vx 1 (.wadv n) s)

/-- TCFG and TDROP: first touch, the discarding of what is on its way to the plane, the new shape on the next cycle. TDROP
needs a configured plane, TCFG alone does not (R159). -/
def shapeWord (p : Pred) (pl : BitVec 5) (win : Bool) (v : State → Option (BitVec 12)) (bad : State → Bool) (s : State) :
    Host.Outcome State Fault Refusal :=
  word .vx p s fun s => do
    check (bad s) s .vx 0x02
    let n := physPlane s win pl
    let s ← touchAll [n] s
    check ((v s).isNone && !(s.plane n).cfg) s .vx 0x05 0 (BitVec.ofNat 64 n)
    let s := s.onJob fun j => { j with dl := j.dl.filter fun e => effPlane e.eff ≠ some n }
    .ok (later .vx 1 (.shape n (v s)) s)

def execTcfg (p : Pred) (pl : BitVec 5) (win : Bool) (a : Opnd) (s : State) : Host.Outcome State Fault Refusal :=
  shapeWord p pl win (fun s => some ((constVal s .vx a).setWidth 12))
    (fun s => let v := constVal s .vx a; decide (v.toNat / 2 ^ 12 ≠ 0) || decide (v.extractLsb' 10 2 = 3)) s

def execTdrop (p : Pred) (pl : BitVec 5) (win : Bool) (s : State) : Host.Outcome State Fault Refusal :=
  shapeWord p pl win (fun _ => none) (fun _ => false) s

end Sys2Proof.Machine
end

