-- ==== Sys2Proof/Machine/Outtake.lean ====
section
/-! DEFINITION. The outtake stack: keep and undo forms, frames and management words, spills and fills (R195 to R210). -/
namespace Sys2Proof.Machine

def State.ot (s : State) : Ot := s.job.ot
def State.onOt (s : State) (f : Ot → Ot) : State := s.onJob fun j => { j with ot := f j.ot }

/-! ### The spill area (R197, R205, R207) -/

def otSizeBytes (s : State) : Nat := (s.ot.base.extractLsb' 52 12).toNat * 2 ^ 20
def otBase (s : State) : Nat := (s.ot.base.extractLsb' 12 40).toNat * 2 ^ 12

/-- The record on chip that spills next has room in the area. -/
def spillFits (s : State) : Bool :=
  match s.ot.recs with
  | r :: _ => decide (s.ot.sp + otBytes (otSize r.n) ≤ otSizeBytes s)
  | [] => false

def wordsBytes (l : List W32) : List Byte := l.flatMap fun x => leBytes 4 x.toNat

/-- The trailer of a spilled record. -/
def trailerBytes (r : OtRec) : List Byte :=
  leBytes 4 r.tag.toNat ++ leBytes 2 (otSize r.n) ++ leBytes 2 r.n ++ List.replicate 56 0

/-- A line of a spilled record: its data, then its trailer. -/
def recLine (r : OtRec) (k : Nat) : List Byte :=
  if k < 4 * otSize r.n then wordsBytes ((r.data.drop (16 * k)).take 16) else trailerBytes r

/-! ### Room and the newest record (R200, R203, R205, R206) -/

def busyOt (s : State) : Bool := s.ot.spill.isSome || s.ot.fill.isSome

/-- A forced spill: the word waits for it, or faults when the area has no room (R205). -/
def forceSpill {α : Type} (s : State) : Except Halt α :=
  if busyOt s then hold s .other
  else if spillFits s then hold (s.onOt fun o => { o with force := true }) .other
  else stop s .vx 0x0C (if otSizeBytes s = 0 then 0 else 1)

def makeRoom (size : Nat) (s : State) : Except Halt Unit := if otOcc s.ot + size ≤ 1024 then .ok () else forceSpill s

/-- The on-chip records whose spill has not completed. -/
def onChip (o : Ot) : List OtRec := match o.spill with | some sp => if sp.done.isSome then o.recs.tail else o.recs | none => o.recs

/-- The top record, which a fill on demand brings on chip first (R206). -/
def topRec (s : State) : Except Halt OtRec :=
  match (onChip s.ot).getLast? with
  | some r => do
    checkBad s .vx [.record s.ot.depth] (some 8)
    .ok r
  | none => hold (if busyOt s then s else s.onOt fun o => { o with want := true }) .other

def freeWords : Nat → State → State × List W32
  | 0, s => (s, [])
  | n + 1, s =>
    let (v, s) := s.draw
    let (s, l) := freeWords n s
    (s, v.setWidth 32 :: l)

/-- A push on the next cycle; the words of its entries that its elements do not fill are not defined (DESIGN CHOICE, log 22). -/
def otPushLater (cls sig n : Nat) (l : List W32) (s : State) : State :=
  let (s, pad) := freeWords (64 * otSize n - l.length) s
  later .vx 1 (.otPush cls sig n (l ++ pad)) s

/-! ### Keep forms (R199 to R201) -/

def planeSig (x : Plane) : Nat := (planeRows x - 1) * 64 + (planeCols x - 1)
def opndPlane (s : State) (win : Bool) (o : Opnd) : Plane :=
  match o with | .plane _ n _ => s.plane (physPlane s win n) | _ => Plane.init

/-- The elements of a keep or an undo form: lane of the reference operand, lane of the destination, values by source. -/
def formElems (d a : Opnd) (n : Nat) (vs : List (Array W32)) : List (Nat × Nat × (Nat → W32)) :=
  ((ownLanes a n).zip (ownLanes d n)).zipIdx.map fun ((l, m), e) => (l, m, fun i => (vs.getD i #[]).getD e 0)

def keepWord (form var lat : Nat) (p : Pred) (d a : Opnd) (b : Option (Opnd × Ty)) (dty aty : Ty) (win : Bool)
    (f : (Nat → W32) → Kept) (s : State) : Host.Outcome State Fault Refusal :=
  word .vx p s fun s => do
    let n := planeCnt a
    makeRoom (otSize n) s
    let us : List Use := ⟨d, dty, true⟩ :: ⟨a, aty, false⟩ :: (b.toList.map fun x => (⟨x.1, x.2, false⟩ : Use))
    let uns := us.map fun u => (u, n)
    let s ← touchAll (planesOf s win us) s
    checkUses s .vx win uns
    let bs ← waitUses s .vx uns
    let (s', vs) := readUses .vx win .rne false uns bs s
    let ref := opndPlane s win a
    let out := (formElems d a n vs).map fun (l, m, g) => if inShape ref l then (m, some (f g)) else (m, none)
    match out.findIdx? fun x => match x.2 with | some (.bad _) => true | _ => false with
    | some e =>
      let c := match (out[e]?).bind Prod.snd with | some (.bad c) => c | _ => 0
      stop s .vx 0x0D c (BitVec.ofNat 64 e)
    | none =>
      let recs := out.map fun x => match x.2 with | some (.ok _ r) => r | _ => 0
      let ys := out.filterMap fun x => match x.2 with | some (.ok y _) => some (x.1, y) | _ => none
      let s := otPushLater (8 * form + var) (planeSig ref) n recs s'
      match d with
      | .plane _ k _ =>
        let q := physPlane s win k
        .ok (later .vx lat (.lanes q (ys.filter fun y => inShape (s.plane q) y.1)) s)
      | _ => .ok s

def tyVar (t : Ty) : Nat := t.code.toNat

def execVmulk (p : Pred) (v : V2) (s : State) : Host.Outcome State Fault Refusal :=
  let t := v.x.ty
  keepWord 1 (tyVar t) 6 p v.d v.a (some (v.b, t)) t t v.x.win (fun g => keepMul t (g 0) (g 1)) s

def execVaddk (p : Pred) (v : V2) (s : State) : Host.Outcome State Fault Refusal :=
  let t := v.x.ty
  keepWord 2 (tyVar t) 4 p v.d v.a (some (v.b, t)) t t v.x.win (fun g => keepAdd t (g 0) (g 1)) s

def execVcvtk (p : Pred) (v : V1) (st : Option Opnd) (s : State) : Host.Outcome State Fault Refusal :=
  match st with
  | none => keepWord 3 0 5 p v.d v.a none .bf16 .f32 v.x.win (fun g => keepBf16 (g 0)) s
  | some b => keepWord 3 1 5 p v.d v.a (some (b, .f32)) .res8 .f32 v.x.win (fun g => keepRes8 (g 0) (g 1)) s

def execVshrk (p : Pred) (v : V2) (s : State) : Host.Outcome State Fault Refusal :=
  let t := v.x.ty
  keepWord 4 (tyVar t - 3) 4 p v.d v.a (some (v.b, t)) t t v.x.win (fun g => keepShr t (g 0) (g 1)) s

def execVlrelk (p : Pred) (v : V1) (sh : BitVec 5) (s : State) : Host.Outcome State Fault Refusal :=
  let t := v.x.ty
  keepWord 5 (tyVar t) 4 p v.d v.a none t t v.x.win (fun g => keepLrel t sh.toNat (g 0)) s

/-! ### Undo forms (R202 to R204) -/

def undoWord (form var lat : Nat) (p : Pred) (d a : Opnd) (b : Option (Opnd × Ty)) (dty aty : Ty) (win : Bool)
    (f : (Nat → W32) → W32 → Option W32) (s : State) : Host.Outcome State Fault Refusal :=
  word .vx p s fun s => do
    let n := planeCnt d
    let us : List Use := ⟨d, dty, true⟩ :: ⟨a, aty, false⟩ :: (b.toList.map fun x => (⟨x.1, x.2, false⟩ : Use))
    let uns := us.map fun u => (u, n)
    let s ← touchAll (planesOf s win us) s
    checkUses s .vx win uns
    let bs ← waitUses s .vx uns
    let (s', vs) := readUses .vx win .rne false uns bs s
    check (decide (s.ot.depth = 0)) s .vx 0x0B 0
    check s.ot.brk s .vx 0x0B 4
    let top ← topRec s
    let ref := opndPlane s win d
    let want := otTag (8 * form + var) (planeSig ref) s.ot.depth
    let tags : W64 := want ++ top.tag
    check (decide (otClass top ≠ 8 * form + var)) s .vx 0x0B 1 0 tags
    check (decide (top.tag.extractLsb' 16 10 ≠ want.extractLsb' 16 10)) s .vx 0x0B 2 0 tags
    check (decide (top.n ≠ n)) s .vx 0x0B 3 0 tags
    let data := top.data.toArray
    let out := (formElems d d n vs).zipIdx.map fun ((l, _, g), e) =>
      if inShape ref l then (l, some (f g (data.getD e 0))) else (l, none)
    match out.findIdx? fun x => match x.2 with | some none => true | _ => false with
    | some e => stop s .vx 0x0D 5 (BitVec.ofNat 64 e)
    | none =>
      let xs := out.filterMap fun x => match x.2 with | some (some y) => some (x.1, y) | _ => none
      let ncr := (formElems d d n vs).any fun (l, _, g) => inShape ref l && aty.isRes && resNonCanon aty (g 0)
      let s := later .vx 1 (.otPop (otSize top.n)) s'
      let s := if ncr then later .vx lat (.sticky true false) s else s
      match d with
      | .plane _ k _ => .ok (later .vx lat (.lanes (physPlane s win k) xs) s)
      | _ => .ok s

def execUnmulk (p : Pred) (v : V2) (s : State) : Host.Outcome State Fault Refusal :=
  let t := v.x.ty
  undoWord 1 (tyVar t) 18 p v.d v.a (some (v.b, t)) t t v.x.win (fun g r => undoMul t (g 0) (g 1) r) s

def execUnaddk (p : Pred) (v : V2) (s : State) : Host.Outcome State Fault Refusal :=
  let t := v.x.ty
  undoWord 2 (tyVar t) 4 p v.d v.a (some (v.b, t)) t t v.x.win (fun g r => undoAdd t (g 0) (g 1) r) s

def execUncvtk (p : Pred) (v : V1) (st : Option Opnd) (s : State) : Host.Outcome State Fault Refusal :=
  match st with
  | none => undoWord 3 0 4 p v.d v.a none .f32 .bf16 v.x.win (fun g r => undoBf16 (g 0) r) s
  | some b => undoWord 3 1 4 p v.d v.a (some (b, .f32)) .f32 .res8 v.x.win (fun g r => undoRes8 (g 0) (g 1) r) s

def execUnshrk (p : Pred) (v : V2) (s : State) : Host.Outcome State Fault Refusal :=
  let t := v.x.ty
  undoWord 4 (tyVar t - 3) 4 p v.d v.a (some (v.b, t)) t t v.x.win (fun g r => undoShr t (g 0) (g 1) r) s

def execUnlrelk (p : Pred) (v : V1) (sh : BitVec 5) (s : State) : Host.Outcome State Fault Refusal :=
  let t := v.x.ty
  undoWord 5 (tyVar t) 4 p v.d v.a none t t v.x.win (fun g r => undoLrel t sh.toNat (g 0) r) s

/-! ### Frames and management (R208) -/

def execOtmark (p : Pred) (s : State) : Host.Outcome State Fault Refusal :=
  word .vx p s fun s => do
    makeRoom 1 s
    .ok (otPushLater otMarker 0 16 [] s)

/-- Remove on-chip records from the top until one that was a marker is gone, or none is left; at most `n` of them. -/
def dropOnChip : Nat → Ot → Ot
  | 0, o => o
  | n + 1, o =>
    match o.recs.getLast? with
    | some r => if otClass r = otMarker then otRemove (otSize r.n) o else dropOnChip n (otRemove (otSize r.n) o)
    | none => o

/-- OTDROP keeps in its micro-state how many markers are to be left; a trailer that it must read is read as a fill reads it. -/
def execOtdrop (p : Pred) (s : State) : Host.Outcome State Fault Refusal :=
  word .vx p s fun s => do
    let m := s.micro .vx
    let s ← if m.phase = 0 then do
        check s.ot.brk s .vx 0x0B 4
        check (decide (s.ot.marks = 0)) s .vx 0x0B 5
        pure (s.setMicro .vx { m with phase := 14, k := s.ot.marks - 1 })
      else pure s
    let left := (s.micro .vx).k
    if s.ot.marks ≤ left ∨ s.ot.brk then .ok s
    else
      let s := s.onOt fun o => dropOnChip o.recs.length o
      if s.ot.marks ≤ left then .ok s
      else working .vx (s.micro .vx) (if busyOt s then s else s.onOt fun o => { o with want := true }) .other

/-- OTSPILL: a spill whose trailer is served on this cycle has completed. -/
def execOtspill (p : Pred) (n : BitVec 11) (s : State) : Host.Outcome State Fault Refusal :=
  word .vx p s fun s => do
    let m := s.micro .vx
    let s ← if m.phase = 0 then do
        check s.ot.brk s .vx 0x0B 4
        pure (s.setMicro .vx { m with phase := 15 })
      else pure s
    let left := ((onChip s.ot).map fun r => otSize r.n).foldl (· + ·) 0
    if left ≤ n.toNat then .ok s
    else match s.ot.spill with
      | some _ => working .vx (s.micro .vx) s .other
      | none => forceSpill s

def execOtdepth (p : Pred) (sel : DepthSel) (s : State) : Host.Outcome State Fault Refusal :=
  word .vx p s fun s => do
    check s.ot.brk s .vx 0x0B 4
    let v := match sel with | .recs => s.ot.depth | .ent => otOcc s.ot | .spl => s.ot.sp / 64
    .ok (later .vx 8 (.wcnt (BitVec.ofNat 32 v)) s)

/-! ### Spills and fills (R205, R206) -/

/-- A background spill starts, or the one that a word waits for. -/
def spillStartable (s : State) : Bool :=
  let o := s.ot
  (decide (s.job.st = .running) || decide (s.job.st = .frozen)) && !busyOt s && spillFits s &&
    (decide (o.hi < otOcc o) || (o.cont && decide (o.lo < otOcc o)) || o.force)

def execSpillStart (s : State) : Host.Outcome State Fault Refusal :=
  if spillStartable s then
    match s.ot.recs with
    | r :: _ =>
      let sp : OtSpill := ⟨s.nseq, otSize r.n, otBase s + s.ot.sp, 0, s.cyc + 1, none⟩
      .next ({ s with nseq := s.nseq + 1 }.onOt fun o => { o with spill := some sp, force := false, cont := false })
    | [] => .next s
  else .next s

def spillDone (s : State) : Bool := match s.ot.spill with | some sp => (sp.done.map (decide <| · ≤ s.cyc)).getD false | none => false

/-- OCC falls on the cycle after the trailer was served, which took the room in the area; another spill may follow at the end of that
cycle (R205, DEDUCED, log 23). -/
def execSpillComplete (s : State) : Host.Outcome State Fault Refusal :=
  if spillDone s then .next (s.onOt fun o => { o with recs := o.recs.tail, spill := none, cont := true }) else .next s

def fillStartable (s : State) : Bool :=
  let o := s.ot
  (decide (s.job.st = .running) || decide (s.job.st = .frozen)) && !busyOt s && !o.brk && decide (0 < o.sp) &&
    (decide (otOcc o < o.lo) || o.want)

/-- A fill starts with the request for the trailer of the newest spilled record; for OTDROP it goes no further. -/
def execFillStart (s : State) : Host.Outcome State Fault Refusal :=
  if fillStartable s then
    let drop := s.ot.want && decide ((s.micro .vx).phase = 14)
    let f : OtFill := ⟨s.nseq, drop, otBase s + s.ot.sp - 64, false, 0, s.cyc + 1, 0, 0, 0, [], 0⟩
    .next ({ s with nseq := s.nseq + 1 }.onOt fun o => { o with fill := some f, want := false })
  else .next s

/-- A line of the outtake port: an access of the vector stream in the core's own slots. OTBASE may be written while a spill with SP 0
is under way (R197): the lines that have not left then go by the pages of the new area, and to address 0 where none of them covers
the line (DESIGN CHOICE, log 56). -/
def otLine (s : State) (acc : Acc) (k : ReqKind) (va : Nat) (d : List Byte) : State :=
  let pa := (pieceAt s.job.otPages va).getD 0
  request (s.cyc + 1) ⟨.core s.coreNo, strParty s .vx, racePhase s, acc, k, pa, va, 64, d, wordRef s .vx, 0⟩ s

/-- A spill that completes is followed by another only where OCC then exceeds LO (R205). -/
def otRest (s : State) : State :=
  if s.ot.cont ∧ otOcc s.ot ≤ s.ot.lo then s.onOt fun o => { o with cont := false } else s

/-- A line of the outtake port that copies in flight cover is held up, and notes whose they are (R254). -/
def otStall (va : Nat) (s : State) : State :=
  let hit := s.core.ranges.filter fun r => decide (r.lo < va + 64) && decide (va < r.hi)
  s.onOt fun o => { o with ranges := unionNat o.ranges (hit.map DevRange.id) }

/-- The line that leaves on the next cycle, unless a copy in flight covers its bytes (R205, R206, R254). -/
def outtakeSend (s : State) : State :=
  match s.ot.spill, s.ot.fill with
  | some sp, _ =>
    let va := sp.va + 64 * sp.sent
    if sp.done.isSome || decide (4 * sp.n < sp.sent) || decide (s.cyc + 1 < sp.start) then s
    else if rangeBusy s none va 64 then otStall va s
    else match s.ot.recs with
      | r :: _ =>
        (otLine s .write (.otWr sp.id (decide (sp.sent = 4 * sp.n))) va (recLine r sp.sent)).onOt fun o =>
          { o with spill := some { sp with sent := sp.sent + 1 } }
      | [] => s
  | none, some f =>
    let va := if f.data then f.va - 256 * f.n + 64 * f.sent else f.va
    let all := if f.data then 4 * f.n else 1
    if decide (all ≤ f.sent) || decide (s.cyc + 1 < f.start) then s
    else if rangeBusy s none va 64 then otStall va s
    else
      (otLine s .read (if f.data then .otRd f.id f.sent else .otTrailer f.id) va []).onOt fun o =>
        { o with fill := some { f with sent := f.sent + 1 } }
  | none, none => s

/-- The trailer has returned (R206): a check that fails sets BRK; one that passes starts the data lines, or takes the record from
the area for OTDROP. -/
def execFillTrailerCheck (s : State) : Host.Outcome State Fault Refusal :=
  onDue s (fun | .fillTrailerCheck id => some id | _ => none) fun id s =>
    match s.ot.fill with
    | some f =>
      if f.id ≠ id then s
      else
        let d := (f.got.headD (0, [])).2
        let tag := leNat (d.take 4)
        let n := leNat ((d.drop 4).take 2)
        let cnt := leNat ((d.drop 6).take 2)
        let seq := (s.ot.depth - s.ot.recs.length) % 2 ^ 16
        let ok := decide (1 ≤ n) && decide (n ≤ 16) && [16, 64, 1024].contains cnt && decide (otSize cnt = n) &&
          ((d.drop 8).all (· = 0)) && decide (tag % 2 ^ 16 = seq)
        let s := if f.drop then s.onFlow fun x => { x with moved := true } else s
        if !ok then s.onOt fun o => { o with brk := true, fill := none }
        else if f.drop then
          s.onOt fun o =>
            { o with
              fill := none, sp := o.sp - otBytes n, depth := o.depth - 1
              marks := if tag / 2 ^ 26 = otMarker then o.marks - 1 else o.marks }
        else s.onOt fun o =>
          { o with fill := some { f with data := true, sent := 0, start := s.cyc + 1, tag := BitVec.ofNat 32 tag, n := n, cnt := cnt, got := [] } }
    | none => s

/-- The last data line has returned: the record is the oldest on chip. -/
def execFillComplete (s : State) : Host.Outcome State Fault Refusal :=
  onDue s (fun | .fillComplete id => some id | _ => none) fun id s =>
    match s.ot.fill with
    | some f =>
      if f.id ≠ id then s
      else
        let line (k : Nat) : List Byte := ((f.got.find? fun x => x.1 = k).map Prod.snd).getD []
        let bytes := (List.range (4 * f.n)).flatMap line
        s.onOt fun o =>
          { o with fill := none, sp := o.sp - otBytes f.n, recs := ⟨f.tag, f.cnt, bytesElems 4 bytes⟩ :: o.recs }
    | none => s

/-- What the service of a line of the outtake port does: a line of a spill is written, and its trailer completes it; a line of a fill
that is no longer under way does nothing. -/
def otServed (back : Nat) (k : ReqKind) (pa : Nat) (d : List Byte) (s : State) : State :=
  match k with
  | .otWr id last =>
    let s := putDev pa d s
    match s.ot.spill with
    | some sp =>
      if sp.id = id ∧ last then s.onOt fun o => { o with spill := some { sp with done := some (s.cyc + 1) }, sp := o.sp + otBytes sp.n } else s
    | none => s
  | .otTrailer id =>
    match s.ot.fill with
    | some f =>
      if f.id ≠ id then s
      else (s.onOt fun o => { o with fill := some { f with got := [(0, rdBytes s.dev.mem pa 64)] } }).postAt back (.fillTrailerCheck id)
    | none => s
  | .otRd id line =>
    match s.ot.fill with
    | some f =>
      if f.id ≠ id then s
      else
        let f := { f with got := f.got ++ [(line, rdBytes s.dev.mem pa 64)], back := max f.back back }
        let s := s.onOt fun o => { o with fill := some f }
        if f.got.length = 4 * f.n then s.postAt f.back (.fillComplete id) else s
    | none => s
  | _ => s

/-- A line of a spill is written unless a pop has cancelled the spill, though the trailer at another stack may have been served before
it (R205, DEDUCED, log 23); a line of a fill belongs to the fill under way. -/
def otLive (k : ReqKind) (s : State) : Bool :=
  match k with
  | .otWr id _ => !s.ot.cut.contains id
  | .otTrailer id => match s.ot.fill with | some f => decide (f.id = id) | none => false
  | .otRd id _ => match s.ot.fill with | some f => decide (f.id = id) | none => false
  | _ => true

end Sys2Proof.Machine
end

