-- ==== Sys2Proof/Machine/Stats.lean ====
section
/-! DEFINITION. The statistics buffer: updates, normalisation and softmax from its rows, and the moving of rows (R211 to R214). -/
namespace Sys2Proof.Machine

/-! ### Updates and uses of rows (R212, R213) -/

/-- The rows of a plane operand with the statistics rows that they feed or use: those of the shape, or the one of a slice. -/
def statRows (x : Plane) (o : Opnd) (sr : Nat) : List (Nat × Nat) :=
  match o with
  | .plane .row _ ix => [(ix.toNat, sr)]
  | _ => (List.range (planeRows x)).map fun i => (i, sr + i)

def statCheck (kinds : List Nat) (rows : List (Nat × Nat)) (s : State) : Except Halt Unit := do
  check (rows.any fun r => decide (4096 ≤ r.2)) s .vx 0x07
  match rows.find? fun r => !(kinds.contains (statRow s r.2).kind) with
  | some r => stop s .vx 0x11 0 (BitVec.ofNat 64 r.2)
  | none => checkBad s .vx (rows.map fun r => .stat r.2) (some 7)

/-- VSTAT and VLSE: KIND on the next cycle, the values on their landing. -/
def statWord (kind lat : Nat) (p : Pred) (a b : Opnd) (x : Sfx) (s : State) : Host.Outcome State Fault Refusal :=
  word .vx p s fun s => do
    let us : List Use := [⟨a, x.ty, false⟩]
    let s ← touchAll (planesOf s x.win us) s
    checkUses s .vx x.win (us.map fun u => (u, planeCnt a))
    let pl := opndPlane s x.win a
    let rows := statRows pl a (constVal s .vx b).toNat
    statCheck [0, kind] rows s
    let v := dense (0 : W32) 1024 pl.data
    let xs := rows.map fun (i, r) =>
      (r, ((List.range 64).filter fun j => inShape pl (64 * i + j) && maskBit s x.km (64 * i + j)).map fun j =>
        bitsOut x.ty (v.getD (64 * i + j) 0).toNat)
    .ok (later .vx lat (.stat kind x.ty xs) (later .vx 1 (.skind kind (rows.map Prod.snd)) s))

def execVstat (p : Pred) (a b : Opnd) (x : Sfx) (s : State) : Host.Outcome State Fault Refusal := statWord 1 12 p a b x s
def execVlse (p : Pred) (a b : Opnd) (x : Sfx) (s : State) : Host.Outcome State Fault Refusal := statWord 2 14 p a b x s

/-- VNORMS and VSOFTS: each element with the row that it uses, as the rows stand at issue. -/
def rowWord (kind lat : Nat) (p : Pred) (d a b : Opnd) (x : Sfx) (f : SRow → W32 → W32) (s : State) :
    Host.Outcome State Fault Refusal :=
  word .vx p s fun s => do
    let n := planeCnt d
    let us : List Use := [⟨d, x.ty, true⟩, ⟨a, x.ty, false⟩]
    let uns := us.map fun u => (u, n)
    let s ← touchAll (planesOf s x.win us) s
    checkUses s .vx x.win uns
    let sr := (constVal s .vx b).toNat
    let rows := statRows (opndPlane s x.win d) d sr
    statCheck [kind] rows s
    let (s, vs) := readUses .vx x.win x.rnd x.sat uns [] s
    let lanes := ownLanes d n
    let out := lanes.zipIdx.map fun (l, e) =>
      let r := match rows.find? fun r => decide (r.1 = l / 64) with | some r => r.2 | none => 0
      plain (f (statRow s r) ((vs.getD 0 #[]).getD e 0))
    .ok (putResult .vx lat d x.ty x.win x.rnd x.sat x.km lanes out s)

def execVnorms (p : Pred) (v : V3) (s : State) : Host.Outcome State Fault Refusal :=
  rowWord 1 14 p v.d v.a v.b v.x (fun r => normElem v.x.ty v.x.rnd v.x.sat r (constElem s .vx v.c)) s

def execVsofts (p : Pred) (v : V2) (s : State) : Host.Outcome State Fault Refusal :=
  rowWord 2 20 p v.d v.a v.b v.x (softElem v.x.ty v.x.rnd v.x.sat) s

/-! ### Device memory under a section's tensor parameters (R214, R216, R231, R232) -/

/-- The address of bytes of an entry of the section's block, checked for the permission. -/
def tensorAt (s : State) (st : Stream) (tp : BitVec 3) (o len : Nat) (write : Bool) : Except Halt (Nat × List Piece) :=
  match (s.eng st).cur.bind fun q => q.tp[tp.toNat]? with
  | some e =>
    if e.v && (if write then e.wr else e.rd) && decide (o + len ≤ e.len) then do
      checkStacks s st (e.base + o) len
      .ok (e.base + o, e.pages)
    else stop s st 0x07 0 (if e.v then BitVec.ofNat 64 (e.base + o) else 0)
  | none => stop s st 0x07

/-- A stream's accesses to device memory, one line a cycle from `leave` on (R216). -/
def streamLines (st : Stream) (acc : Acc) (k : ReqKind) (leave va : Nat) (pages : List Piece) (len : Nat) (d : List Byte) (s : State) :
    State :=
  (linePieces va len).zipIdx.foldl (fun s (l, i) =>
    request (leave + i) ⟨.core s.coreNo, strParty s st, racePhase s, acc, k, (pieceAt pages l.1).getD 0, l.1, l.2,
      (d.drop (l.1 - va)).take l.2, wordRef s st, curSec s st⟩ s) s

/-! ### Moving rows (R214) -/

def rowLandings (s : State) (sr n : Nat) : Bool :=
  s.job.dl.any fun e => match e.eff with
    | .stat _ _ l => l.any fun r => decide (sr ≤ r.1) && decide (r.1 < sr + n)
    | _ => false

def rowBytes (s : State) (sr n : Nat) : List Byte :=
  (List.range n).flatMap fun i => leBytes 16 (SMap.get 0 s.core.stat (sr + i)).toNat

/-- The first row and the count of a word, checked. -/
def rowRange (s : State) (a b : Opnd) : Except Halt (Nat × Nat) := do
  let sr := (constVal s .vx a).toNat
  let n := (constVal s .vx b).toNat
  check (decide (n = 0) || decide (4096 < n)) s .vx 0x02
  check (decide (4096 < sr + n)) s .vx 0x07
  .ok (sr, n)

/-- The accesses of SBLD or SBST: asked for once the rows are quiet, each with the cycle on which it is done. -/
def rowLines (acc : Acc) (k : ReqKind) (a b c : Opnd) (tp : BitVec 3) (s : State) : Except Halt (Nat × Nat × List SRead) := do
  let (sr, n) ← rowRange s a b
  let m := s.micro .vx
  if m.phase = 0 then
    let o := (constVal s .vx c).toNat
    check (decide (o % 16 ≠ 0)) s .vx 0x12 0 (BitVec.ofNat 64 o)
    let (va, pages) ← tensorAt s .vx tp o (16 * n) (accWrites acc)
    waitFor (!rowLandings s sr n) s .other
    waitRanges s .vx none va (16 * n)
    if accWrites acc then checkBad s .vx ((List.range n).map fun i => .stat (sr + i)) (some 7)
    let s := streamLines .vx acc k (s.cyc + 2) va pages (16 * n) (if accWrites acc then rowBytes s sr n else []) s
    working .vx { m with phase := 10, rds := (linePieces va (16 * n)).map fun l => ⟨l.1, l.2, some 0, []⟩ } s .other
  else if m.rds.all fun r => match r.grant with | some g => decide (g ≠ 0) && decide (g ≤ s.cyc) | none => false then
    .ok (sr, n, m.rds)
  else hold s .other

/-- SBLD (R214; counts and cycles DEDUCED, log 19). -/
def execSbld (p : Pred) (a b c : Opnd) (tp : BitVec 3) (s : State) : Host.Outcome State Fault Refusal :=
  word .vx p s fun s => do
    let (sr, n, rds) ← rowLines .read .sbRd a b c tp s
    let l := rds.flatMap SRead.data
    let rows := (List.range n).map fun i => (sr + i, BitVec.ofNat 128 (leNat ((l.drop (16 * i)).take 16)))
    check (rows.any fun r => decide (2 < r.2.toNat / 2 ^ 96)) s .vx 0x02 0 (BitVec.ofNat 64 ((rds.map SRead.addr).headD 0))
    .ok (mend (fun b => rows.any fun r => decide (b = .stat r.1))
      (rows.foldl (fun s r => s.onCore fun c => { c with stat := SMap.set 0 c.stat r.1 r.2 }) s))

def execSbst (p : Pred) (a b c : Opnd) (tp : BitVec 3) (s : State) : Host.Outcome State Fault Refusal :=
  word .vx p s fun s => do
    let (_, _, _) ← rowLines .write .sbWr a b c tp s
    .ok s

/-- A line of SBLD or SBST has been served: what it read and when the word may go on. -/
def rowServed (va done : Nat) (d : List Byte) (s : State) : State :=
  let m := s.micro .vx
  s.setMicro .vx { m with rds := m.rds.map fun r => if r.addr = va then { r with grant := some done, data := d } else r }

/-- SBCLR: 64 rows a cycle. -/
def execSbclr (p : Pred) (a b : Opnd) (s : State) : Host.Outcome State Fault Refusal :=
  word .vx p s fun s => do
    let (sr, n) ← rowRange s a b
    let m := s.micro .vx
    if m.phase = 0 then waitFor (!rowLandings s sr n) s .other
    let k := m.k
    let s := (List.range (min 64 (n - k))).foldl (fun s i => mend (fun b => decide (b = .stat (sr + k + i)))
      (s.onCore fun c => { c with stat := SMap.set 0 c.stat (sr + k + i) 0 })) s
    if n ≤ k + 64 then .ok s else working .vx { m with phase := 12, k := k + 64 } s .other

end Sys2Proof.Machine
end

