-- ==== Sys2Proof/Machine/Store.lean ====
section
/-! DEFINITION. The store engine's words (R215 to R223). -/
namespace Sys2Proof.Machine

/-! ### SDRAIN (R216) -/

def execSdrain (p : Pred) (v : V1) (s : State) : Host.Outcome State Fault Refusal :=
  elemWord .sx p 1 v.d v.x.ty [(v.a, v.x.ty)] v.x (fun g => plain (g 0)) s

/-- The .dev form: its sources are popped and its lines asked for at once; the word stays until the last has left the core. -/
def execSdrainDev (p : Pred) (a c : Opnd) (tp : BitVec 3) (x : Sfx) (s : State) : Host.Outcome State Fault Refusal :=
  word .sx p s fun s => do
    let m := s.micro .sx
    if m.phase = 13 then (if m.due ≤ s.cyc then .ok s else working .sx m s .other)
    else
      check (absentTy s x.ty) s .sx 0x04
      let us : List Use := [⟨a, x.ty, false⟩]
      let n := elemCount s us
      let uns := us.map fun u => (u, n)
      checkUses s .sx false uns
      let o := (constVal s .sx c).toNat
      let len := n * x.ty.width / 8
      check (decide (o % 64 ≠ 0)) s .sx 0x12 0 (BitVec.ofNat 64 o)
      let (va, pages) ← tensorAt s .sx tp o len true
      waitRanges s .sx none va len
      let bs ← waitUses s .sx uns
      let (s, vs) := readUses .sx false x.rnd x.sat uns bs s
      let d := elemsBytes (x.ty.width / 8) (vs.getD 0 #[]).toList
      let s := streamLines .sx .write .devWr (s.cyc + 2) va pages len d s
      working .sx { m with phase := 13, due := s.cyc + 1 + (linePieces va len).length, rds := [] } s .other

/-! ### SACC, norms and clipping (R217 to R219) -/

def execSacc (p : Pred) (v : V2) (s : State) : Host.Outcome State Fault Refusal :=
  elemWord .sx p 3 v.d v.x.ty [(v.a, v.x.ty), (v.b, v.x.ty)] v.x
    (fun g => plain (saccElem v.x.ty v.x.rnd v.x.sat (g 0) (g 1))) s

def execSnorm2 (p : Pred) (a : Opnd) (ty : Ty) (s : State) : Host.Outcome State Fault Refusal :=
  word .sx p s fun s => do
    let us : List Use := [⟨a, ty, false⟩]
    let uns := us.map fun u => (u, elemCount s us)
    checkUses s .sx false uns
    let bs ← waitUses s .sx uns
    let (s, vs) := readUses .sx false .rne false uns bs s
    .ok (later .sx 6 (.naccAdd ty (vs.getD 0 #[]).toList) s)

def sfxF32 : Sfx := ⟨.f32, .rne, false, false, none⟩

def execSnorm2Put (p : Pred) (d : Opnd) (s : State) : Host.Outcome State Fault Refusal :=
  elemWordL .sx p 6 d .f32 [] sfxF32 (fun s _ _ => plain s.job.nacc) s

def execSnorm2Clr (p : Pred) (s : State) : Host.Outcome State Fault Refusal :=
  word .sx p s fun s => .ok (later .sx 6 (.nacc 0) s)

def execSscale (p : Pred) (v : V3) (s : State) : Host.Outcome State Fault Refusal :=
  elemWord .sx p 16 v.d v.x.ty [(v.a, v.x.ty), (v.b, .f32), (v.c, .f32)] v.x
    (fun g => plain (sscaleElem v.x.ty v.x.rnd v.x.sat (g 0) (g 1) (g 2))) s

/-! ### OPTW and OPTSTEP (R220 to R223) -/

/-- The room that a port has for `k` more vectors. -/
def pushRoomN (s : State) (g k : Nat) : Bool := decide ((s.port g).buf.length + k ≤ 2)

/-- Push a whole result on its landing. -/
def pushLater (st : Stream) (lat g : Nat) (ty : Ty) (rnd : Rnd) (sat : Bool) (l : List W32) (s : State) : State :=
  let (s, id) := pushTake g ty rnd sat (wordRef s st) s
  later st lat (.push g id l []) s

/-- What an update makes of an element: the new weight and the new state, one or two values (R221). -/
def optElem (s : State) (x : Sfx) (adam wd : Bool) (n pb : Nat) (g : Nat → W32) : W32 × List W32 :=
  let h (i : Nat) : W32 := s.job.l.pool.getD (32 * pb + i) 0
  let t := (row s.core.step 0 n).toNat + 1
  if adam then
    let (m, v, w) := adamElem x.ty x.rnd x.sat wd (h 0) (h 1) (h 2) (h 3) (h 4) t (g 0) (g 1) (g 2) (g 3)
    (w, [m, v])
  else
    let (st, w) := sgdElem x.ty x.rnd x.sat wd (h 0) (h 1) (h 4) (g 0) (g 1) (g 2)
    (w, [st])

def execOptw (p : Pred) (v : V3) (adam wd : Bool) (n pb : BitVec 3) (s : State) : Host.Outcome State Fault Refusal :=
  word .sx p s fun s => do
    let x := v.x
    let gd := match v.d with | .port g => g | _ => 0
    let k := if adam then 2 else 1
    let us : List Use := [⟨v.d, x.ty, true⟩] ++ List.replicate k ⟨.port (gd + 1), .f32, true⟩ ++
      [⟨v.a, x.ty, false⟩, ⟨v.b, .f32, false⟩] ++ List.replicate k ⟨v.c, .f32, false⟩
    let cnt := elemCount s us
    let uns := us.map fun u => (u, cnt)
    checkUses s .sx false uns
    waitFor (pushRoomN s (gd + 1).toNat k) s .port
    let bs ← waitUses s .sx uns
    let (s', vs) := readUses .sx false x.rnd x.sat uns bs s
    let out := (List.range cnt).map fun e => optElem s x adam wd n.toNat pb.toNat fun i => (vs.getD i #[]).getD e 0
    let s' := pushLater .sx 16 gd.toNat x.ty x.rnd x.sat (out.map Prod.fst) s'
    .ok ((List.range k).foldl (fun s i =>
      pushLater .sx 16 (gd + 1).toNat .f32 x.rnd x.sat (out.map fun o => o.2.getD i 0) s) s')

def execOptstep (p : Pred) (n : BitVec 3) (s : State) : Host.Outcome State Fault Refusal :=
  word .sx p s fun s =>
    let v := (row s.core.step 0 n.toNat).toNat
    .ok (later .sx 1 (.ostep n.toNat (BitVec.ofNat 32 (min (v + 1) (2 ^ 32 - 1)))) s)

end Sys2Proof.Machine
end

