-- ==== Sys2Proof/Machine/Service.lean ====
section
/-! DEFINITION. The stacks and the atomic engines at work: the service of a request, loads coming back, deferred faults, refresh, the
atomic operations with their fills, watches and write-throughs (R13, R235, R239, R240, R250 to R253, R258, R271 to R276, R365, R402). -/
namespace Sys2Proof.Machine

/-- The race of a reducer or a fabric arrival is raised in the job of the second party, at the word of its sequencer; where that job is
not resident the Grip logs it (R253). -/
def outsideRace (q : Nat) (a : Acc) (va : Nat) (r : RaceAt) (s : State) : State :=
  let f : FaultRec := ⟨0x08, 0, wordRef s .sq, false, false, true, false, false, false, BitVec.ofNat 64 (va / 256 * 256),
    raceF3 q a r (racePhase s) false⟩
  if r.second / 32 = s.coreNo ∧ s.job.st ≠ .none then takeFault s f else s.emit (.raceLog f.f2 f.f3)

/-! ### Plain writes and their notices (R271) -/

/-- The notice of a plain write on its way to the home engine of its line. -/
def sendNotice (va pa : Nat) (s : State) : State :=
  let k := homeOf s.variant va
  s.postAt (s.cyc + Config.travel (Config.stackNode (stackOf s.variant va)) (Config.engineNode k)) (.plainWriteNotice k (pa / 64))

/-- Bytes of one line are written, and the notice leaves. -/
def plainWrite (va pa : Nat) (d : List Byte) (s : State) : State :=
  sendNotice va pa (putDev pa d s)

/-- A write of any length through pinned pages, line by line. -/
def plainWriteAll (pages : List Piece) (va : Nat) (d : List Byte) (s : State) : State :=
  (linePieces va d.length).foldl (fun s l =>
    match pieceAt pages l.1 with
    | some pa => plainWrite l.1 pa ((d.drop (l.1 - va)).take l.2) s
    | none => s) s

/-! ### Requests of the streams (R235, R240, R253) -/

/-- The cycle on which what a stack sends on the present cycle is back: at once, or after the access time (DEDUCED, log 47). -/
def backAt (s : State) (r : DevReq) (read : Bool) : Nat :=
  s.cyc + (if read then Config.stackAccess else 0) + ownerTravel r.owner (stackOf s.variant r.va)

/-- The stamp test of a request at its service, with the parties held now. -/
def reqStamp (r : DevReq) (s : State) : State × Option RaceAt :=
  devStamp s r.party (racePhase s) (fun p => holds s r.party p (heldOf s r.party)) r.acc r.pa r.len

/-- The record of a race of a request: deferred but where the word still stands at its stream; `op` of a line that no word made (DEDUCED, log 15). -/
def reqRace (s : State) (r : DevReq) (x : RaceAt) (deferred op : Bool) : FaultRec :=
  ⟨0x08, 0, r.word, false, false, op, false, false, deferred, BitVec.ofNat 64 (r.va / 256 * 256),
    raceF3 r.party r.acc x (racePhase s) false⟩

/-- The record of bad data in device memory (R365). -/
def badRead (r : DevReq) (x : Nat) (deferred op : Bool) (s : State) : FaultRec :=
  ⟨0x13, 0, r.word, false, false, op, false, false, deferred, BitVec.ofNat 64 (r.va + (x - r.pa)),
    BitVec.ofNat 64 (16 + stackOf s.variant r.va)⟩

/-- A request of a stream: tested, and performed when it passes; a race is on its way to the core. -/
def serveStream (r : DevReq) (deferred op : Bool) (f : State → State) (s : State) : State :=
  match (if accWrites r.acc then none else badDev s r.pa r.len), reqStamp r s with
  | some x, _ => s.postAt (backAt s r true) (.deferredFaultReport (badRead r x deferred op s))
  | none, (s, none) => f s
  | none, (s, some x) => s.postAt (backAt s r false) (.deferredFaultReport (reqRace s r x deferred op))

/-- A sequence number of an engine that has not been overtaken applies its line (R271). -/
def applyWt (k n : Nat) (r : DevReq) (s : State) : State :=
  let a := row s.atoms Atom.init k
  let line := r.pa / 64
  if SMap.get 0 a.applied line < n then
    let s := putDev r.pa r.data s
    { s with atoms := rowSet s.atoms k { a with applied := SMap.set 0 a.applied line n } }
  else s

/-- What the service of a write-through ends (R274, R275). -/
def ackWt (r : DevReq) (ack : AckTo) (s : State) : State :=
  let there := s.cyc + Config.travelStack (Config.coreNode s.coreNo) (stackOf s.variant r.va)
  match ack with
  | .amo va n => releaseHeld (s.onSeq fun q => { q with amoOut := q.amoOut.erase (va, n) })
  | .post va => s.postAt there (.sempostAck (.post va))
  | .copy id => s.postAt there (.copyPostAck id)
  | .grip q pk => s.postAt s.cyc (.sempostAck (.grip q pk))
  | .reel _ _ => s
  | .peer core va => s.postAt (s.cyc + Config.travelStack (Config.coreNode core) (stackOf s.variant r.va)) (.sempostAck (.peer core va))
  | .none => s

/-- The stamp test in a stack's slot of an atomic that its word does not wait for: an AMO without ACQ, a SEMPOST (R251, R253). -/
def wtStamp (r : DevReq) (src : AtomSrc) (held : List Nat) (s : State) : State × Option RaceAt :=
  match src with
  | .grip _ _ | .reel _ _ => outsideAccess r.party held false .awrite r.pa r.len s
  | .synric _ => outsideAccess r.party held true .awrite r.pa r.len s
  | .core => devStamp s r.party (racePhase s) (fun p => holds s r.party p held) .awrite r.pa r.len
  | .copy _ | .peer _ _ => devStamp s r.party r.phase (fun p => holds s r.party p held) .awrite r.pa r.len

/-- Such an atomic has raced: it is not written, its engine is told to drop the line, and the race is taken where R253 says. -/
def wtRace (k : Nat) (r : DevReq) (src : AtomSrc) (x : RaceAt) (s : State) : State :=
  let back := s.cyc + ownerTravel r.owner (stackOf s.variant r.va)
  let f2 : W64 := BitVec.ofNat 64 (r.va / 256 * 256)
  let f3 := raceF3 r.party .awrite x (match src with | .core => racePhase s | _ => r.phase) false
  let f (deferred op : Bool) : FaultRec := ⟨0x08, 0, r.word, false, false, op, false, false, deferred, f2, f3⟩
  let drop := s.cyc + Config.travel (Config.stackNode (stackOf s.variant r.va)) (Config.engineNode k)
  let s := s.postAt drop (.plainWriteNotice k (r.pa / 64))
  match src with
  | .core => s.postAt back (.deferredFaultReport (f true false))
  | .copy id => (match copyOf s id with | some c => failCopy c 0x08 0 f2 f3 true s.cyc s | none => s)
  | .synric _ => outsideRace r.party .awrite r.va x s
  | .peer core _ => s.emit (.peerFault core (f true false))
  | .grip _ _ | .reel _ _ => s

/-- The party of an operation that this core's job has forked, whose race its own fault reports (R253). -/
def engineParty (s : State) (p : Nat) : Bool := decide (p / 32 = s.coreNo) && decide (8 ≤ p % 32) && decide (p % 32 < 24)

/-- A line of a unit's access has been served; with the last the unit goes on, when what it has read is back (R239, R244). Of an access
of the reducers, which write a block at a time, nothing is written after a race, and all once a line has been written (R297). -/
def serveUnit (r : DevReq) (id : Nat) (s : State) : State :=
  match s.dev.ops.find? fun x => x.id = id with
  | none => s
  | some op =>
    let w := accWrites r.acc
    let eng := engineParty s op.party
    let (s, race) := if eng then devStamp s op.party (racePhase s) (fun p => decide (p = op.party) || op.held.contains p) r.acc r.pa r.len
      else outsideAccess op.party op.held op.raced r.acc r.pa r.len s
    let begun := w && decide (r.owner = .reducer) && !op.got.isEmpty
    let does := w && ((race.isNone && (!op.bad || decide (r.owner ≠ .reducer))) || begun)
    let s := match race with | some x => (if eng then s else outsideRace op.party r.acc r.va x s) | none => s
    let s := if does then plainWrite r.va r.pa r.data s else s
    let bad := if w then none else badDev s r.pa r.len
    let op' := { op with
      left := op.left - 1, bad := op.bad || race.isSome || bad.isSome,
      fault := match op.fault, race, bad with
        | some f, _, _ => some f
        | none, some x, _ => some (0x08, BitVec.ofNat 64 (r.va / 256 * 256), raceF3 op.party r.acc x (racePhase s) false)
        | none, none, some x => some (0x13, BitVec.ofNat 64 (r.va + (x - r.pa)), BitVec.ofNat 64 (16 + stackOf s.variant r.va))
        | none, none, none => none
      got := if w then (if does then op.got ++ [(r.va, [])] else op.got) else op.got ++ [(r.va, rdBytes s.dev.mem r.pa r.len)] }
    let s := s.onDev fun d => { d with ops := d.ops.map fun x => if x.id = id then op' else x }
    if op'.left = 0 then s.postAt (backAt s r (!w)) op.next else s

/-- A request of another core: tested in the phase and with the held set that it bears, its race told to that core, what it reads sent
back (R248, R251, R253) (DESIGN CHOICE, log 1). -/
def servePeer (r : DevReq) (held : List Nat) (s : State) : State :=
  let core := r.party / 32
  match devStamp s r.party r.phase (fun p => decide (p = r.party) || held.contains p) r.acc r.pa r.len with
  | (s, some x) => s.emit (.peerFault core ⟨0x08, 0, r.word, false, false, false, false, false, true,
      BitVec.ofNat 64 (r.va / 256 * 256), raceF3 r.party r.acc x r.phase false⟩)
  | (s, none) =>
    if accWrites r.acc then plainWrite r.va r.pa r.data s else s.emit (.peerData core r.va (rdBytes s.dev.mem r.pa r.len))

/-- What the service of a request does (R13, R205, R206, R214, R216, R235, R266, R271) (DESIGN CHOICE, log 49). -/
def serveReq (r : DevReq) (s : State) : State :=
  match r.kind with
  | .ld reg width sign =>
    serveStream r true false (fun s =>
      let v := extendLow (8 * 2 ^ width.toNat) sign (leNat (rdBytes s.dev.mem r.pa r.len))
      s.postAt (backAt s r true) (.loadReturn ⟨reg, v, r.sec⟩)) s
  | .st =>
    let s := s.onSeq fun q => { q with stOut := q.stOut - 1 }
    serveStream r true false (fun s => plainWrite r.va r.pa r.data s) s
  | .fetch =>
    let line : ScLine := ⟨r.pa / 64, rdBytes s.dev.mem (r.pa / 64 * 64) 64, [], (badDev s (r.pa / 64 * 64) 64).isSome⟩
    (s.onCore fun c => { c with scArr := c.scArr ++ [line] }).postAt (backAt s r true)
      (.streamCacheFill (r.pa / 64))
  | .walk st va acc => s.postAt (backAt s r true) (.translationWalk st va acc)
  | .desc st =>
    let back (d : List Byte) (f : Option FaultRec) (s : State) : State := s.postAt (backAt s r true) (.descReturn st r.va r.len d f)
    (match badDev s r.pa r.len, reqStamp r s with
     | some x, _ => back [] (some (badRead r x false false s)) s
     | none, (s, some x) => back [] (some (reqRace s r x false false)) s
     | none, (s, none) => back (rdBytes s.dev.mem r.pa r.len) none s)
  | .late =>
    let s := (outsideAccess r.party [] false r.acc r.pa r.len s).1
    if accWrites r.acc then plainWrite r.va r.pa r.data s else s
  | .copyRd id pos => copyRead r id pos s
  | .copyWr id parts =>
    if id = 0 ∨ (copyOf s id).isSome = true then sendNotice r.va r.pa (copyWrite r id parts s) else s
  | .atomFill k id =>
    let back := s.cyc + Config.stackAccess + Config.travelStack (Config.engineNode k) (stackOf s.variant r.va)
    s.postAt back (.atomicFillReturn k id (lineNow s k (r.pa / 64)))
  | .atomWt k n ack none => ackWt r ack (applyWt k n r s)
  | .atomWt k n ack (some (src, held)) =>
    (match wtStamp r src held s with
     | (s, none) => ackWt r ack (applyWt k n r s)
     | (s, some x) => wtRace k r src x (match ack with | .copy _ => s | ack => ackWt r ack s))
  | .unit id => serveUnit r id s
  | .peer held => servePeer r held s
  | .otWr _ _ =>
    if otLive r.kind s then serveStream r true true (fun s => sendNotice r.va r.pa (otServed 0 r.kind r.pa r.data s)) s else s
  | .otTrailer _ | .otRd _ _ =>
    if otLive r.kind s then serveStream r true true (fun s => otServed (backAt s r true) r.kind r.pa [] s) s else s
  | .devWr => serveStream r true false (fun s => plainWrite r.va r.pa r.data s) s
  | .sbRd => serveStream r false false (fun s => rowServed r.va (backAt s r true) (rdBytes s.dev.mem r.pa r.len) s) s
  | .sbWr => serveStream r false false (fun s => rowServed r.va s.cyc [] (plainWrite r.va r.pa r.data s)) s
where
  /-- A line as the stack knows it and the writes that are on their way to it from an engine. -/
  lineNow (s : State) (k line : Nat) : List Byte :=
    let wt (x : DevReq) : Option (Nat × List Byte) :=
      match x.kind with
      | .atomWt k' n _ _ => if k' = k ∧ x.pa / 64 = line then some (n, x.data) else none
      | _ => none
    let pend := (s.dev.reqs.filterMap fun x => wt x.2) ++
      s.agenda.filterMap fun e => match e.ev with | .stackSlotService x => wt x | _ => none
    let best := pend.foldl (fun (b : Option (Nat × List Byte)) x =>
      match b with | some y => if y.1 < x.1 then some x else some y | none => some x) none
    match best with | some x => x.2 | none => rdBytes s.dev.mem (64 * line) 64

/-- A stack controller serves a request in its owner's slot. -/
def execStackSlotService (s : State) : Host.Outcome State Fault Refusal :=
  onDue s (fun | .stackSlotService r => some r | _ => none) serveReq

/-- Refresh is slot 47 of the even calendar cycles: no other owner holds that slot, and it touches no state a program sees. -/
def execRefresh (s : State) : Host.Outcome State Fault Refusal := .next s

/-- The data of an LD reaches its register on this cycle (R235). -/
def loadBack (r : LoadRet) (s : State) : State :=
  let mine (o : LdOut) : Bool := decide (o.reg = r.reg.toNat) && !o.amo && decide (o.iss = r.iss)
  match s.job.seq.ldOut.find? mine with
  | some o =>
    let s := s.onSeq fun q => { q with ldOut := q.ldOut.erase o }
    landReturn r.iss (.sreg r.reg.toNat r.val) (fun q => q.setS r.reg.toNat r.val) s
  | none => s

/-- A piece of a descriptor is back for the word that asked for it (R232, R233). -/
def descBack (st : Stream) (va len : Nat) (d : List Byte) (f : Option FaultRec) (s : State) : State :=
  let m := s.micro st
  s.setMicro st { m with descs := m.descs.map fun x => if x.va = va ∧ x.len = len then ⟨va, len, some d, f⟩ else x }

/-- A read of the sequencer comes back: of an LD, or of a descriptor. -/
def execLoadReturn (s : State) : Host.Outcome State Fault Refusal :=
  onDue s (fun
    | .loadReturn r => some (loadBack r)
    | .descReturn st va len d f => some (descBack st va len d f)
    | _ => none) fun f s => f s

/-- A fault that a stack has found reaches the core (R253): of a line of the outtake port it names the first unissued word of the
vector stream. -/
def execDeferredFaultReport (s : State) : Host.Outcome State Fault Refusal :=
  onDue s (fun | .deferredFaultReport f => some f | _ => none) fun f s =>
    takeFault s (if f.op && decide (f.word.st = .vx) then { f with word := wordRef s .vx } else f)

/-! ### The atomic engines (R250, R271 to R276) -/

def atomAt (s : State) (k : Nat) : Atom := row s.atoms Atom.init k
def onAtom (k : Nat) (f : Atom → Atom) (s : State) : State := { s with atoms := rowSet s.atoms k (f (atomAt s k)) }

/-- The ring position of a requester, and its number within the position (R272). -/
def ringPos (s : State) (r : AtomReq) : Nat × Nat :=
  match r.src with
  | .core => let n := Config.coreNode s.coreNo; (n.x % 4 + 4 * (n.y % 2), s.coreNo)
  | .copy _ => (8, s.coreNo)
  | .grip _ _ | .reel _ _ => (9, 0)
  | .synric p => (9, p + 1)
  | .peer k true => (8, k)
  | .peer k false => let n := Config.coreNode k; (n.x % 4 + 4 * (n.y % 2), k)

/-- The arrivals of a cycle in their order. -/
def ringSort (s : State) (ptr : Nat) (l : List AtomReq) : List AtomReq :=
  (List.range 10).flatMap fun i =>
    let here := l.filter fun r => (ringPos s r).1 = (ptr + i) % 10
    (sortBy (fun a b => decide (a.1 ≤ b.1)) (here.map fun r => ((ringPos s r).2, r))).map Prod.snd

/-- Requests that arrive on cycle `a` join the queues. -/
def atomArrive (a : Nat) (s : State) : State :=
  (List.range 16).foldl (fun s k =>
    let x := atomAt s k
    if x.arr.any fun r => r.1 ≤ a then
      let now := (x.arr.filter fun r => r.1 ≤ a).map Prod.snd
      onAtom k (fun x => { x with arr := x.arr.filter fun r => ¬ r.1 ≤ a, queue := x.queue ++ ringSort s x.ptr now }) s
    else s) s

/-! Release sets (R250) -/

def relPhase (s : State) (r : AtomReq) : Nat := match r.src with | .core => racePhase s | _ => r.phase
def atomReleases (r : AtomReq) : Bool := match r.kind with | .amo _ => true | .sempost => true | _ => false

def relSet (a : Atom) (line : Nat) : List Nat := ((a.rels.find? fun x => x.line = line).map RelSet.parties).getD []

/-- Room for a release: the line has a set, or fewer than 4,096 are held, or one of another phase gives way. -/
def relRoom (s : State) (a : Atom) (r : AtomReq) : Bool :=
  !atomReleases r || (a.rels.any fun x => x.line = r.pa / 64) || decide (a.rels.length < 4096) ||
    a.rels.any fun x => x.phase ≠ relPhase s r

def addRel (s : State) (r : AtomReq) (a : Atom) : Atom :=
  let line := r.pa / 64
  let ph := relPhase s r
  let own := unionNat (unionNat r.held [r.party]) (if r.party % 32 < 26 then [r.party / 32 * 32 + 24] else [])
  match a.rels.find? fun x => x.line = line with
  | some x =>
    let x' : RelSet := if x.phase = ph then { x with parties := unionNat x.parties own } else ⟨line, ph, own⟩
    { a with rels := a.rels.map fun y => if y.line = line then x' else y }
  | none =>
    let rels := if a.rels.length < 4096 then a.rels
      else match a.rels.find? fun y => y.phase ≠ ph with | some y => a.rels.erase y | none => a.rels
    { a with rels := rels ++ [⟨line, ph, own⟩] }

/-! One operation -/

/-- The new value of an AMO; operands of its width (R273). -/
def amoNew (op : AmoOp) (w : Nat) (old b c : Nat) : Nat :=
  let sg (n : Nat) : Int := asSigned w n
  match op with
  | .add => (old + b) % 2 ^ w
  | .min => if sg old ≤ sg b then old else b
  | .max => if sg old ≤ sg b then b else old
  | .minn => min old b
  | .maxn => max old b
  | .and => old &&& b
  | .or => old ||| b
  | .xor => old ^^^ b
  | .swap => b
  | .cas => if old = c then b else old

/-- What a request makes of the value it finds: the value to write, if it writes, and the value to return; none when a wait's
condition does not hold. -/
def atomEval (k : AtomKind) (w old : Nat) (b c : W64) : Option (Option Nat × W64) :=
  match k with
  | .amo op =>
    let sign := match op with | .min => true | .max => true | _ => false
    some (some (amoNew op w old (b.toNat % 2 ^ w) (c.toNat % 2 ^ w)), extendLow w sign old)
  | .sempost => some (some (min (old + b.toNat) (2 ^ 64 - 1)), 0)
  | .semwait =>
    if b.toNat ≤ old then some (if b = 0 then none else some (old - b.toNat), BitVec.ofNat 64 old) else none
  | .waitmem cc =>
    let v := condExtend cc w (BitVec.ofNat 64 old)
    if condHolds cc v (condExtend cc w b) then some (none, v) else none

def atomAcquires (r : AtomReq) : Bool := match r.kind with | .amo _ => r.acq | .sempost => false | _ => true

/-- An atomic that is tested at its engine: one that its word waits for, and one that only reads. Every other is tested by the stack, in
the slot of its write-through (DEDUCED, log 20). -/
def engineTests (r : AtomReq) (write : Bool) : Bool := !write || atomAcquires r

/-- The stamp test of an atomic access at its engine; one that acquires holds the release set of its line (DEDUCED, log 20). -/
def atomStamp (r : AtomReq) (rel : List Nat) (write : Bool) (s : State) : State × Option RaceAt :=
  let a : Acc := if write then .awrite else .aread
  let held := unionNat r.held (if atomAcquires r then rel else [])
  match r.src with
  | .grip _ _ | .reel _ _ => outsideAccess r.party held false a r.pa r.size s
  | .synric _ => outsideAccess r.party held true a r.pa r.size s
  | .core => devStamp s r.party (racePhase s) (fun p => holds s r.party p held) a r.pa r.size
  | .copy _ | .peer _ _ => devStamp s r.party r.phase (fun p => holds s r.party p held) a r.pa r.size

/-- A fault of an atomic of this core is taken at its word, deferred where that does not wait, or by its copy; it is not awaited any more
(R253, R354, R365). -/
def atomFault (k : Nat) (r : AtomReq) (code : Nat) (f2 f3 : W64) (s : State) : State :=
  let f (deferred : Bool) : FaultRec :=
    ⟨BitVec.ofNat 8 code, 0, r.word, false, false, false, false, false, deferred, f2, f3⟩
  let back := s.cyc + 2 + engineTravel s r.src k
  match r.src with
  | .core =>
    let s := releaseHeld (s.onSeq fun q => match r.kind with
      | .sempost => { q with postOut := q.postOut.erase r.va }
      | _ => { q with amoOut := q.amoOut.erase (r.va, r.size) })
    if atomAcquires r then s.postAt back (.atomicReturn ⟨.core, some r.reg, 0, [], true, r.iss, some (f false)⟩)
    else s.postAt back (.deferredFaultReport (f true))
  | .copy id => match copyOf s id with
    | some c => failCopy c code 0 f2 f3 true s.cyc s
    | none => s
  | .peer core _ => s.emit (.peerFault core (f (!atomAcquires r)))
  | _ => s

/-- Where the race of an atomic is taken (R253). -/
def atomRace (k : Nat) (r : AtomReq) (x : RaceAt) (write : Bool) (s : State) : State :=
  let a : Acc := if write then .awrite else .aread
  match r.src with
  | .synric _ => outsideRace r.party a r.va x s
  | _ => atomFault k r 0x08 (BitVec.ofNat 64 (r.va / 256 * 256)) (raceF3 r.party a x (relPhase s r) false) s

/-- Bad data at an operand of an atomic of a core or of a copy (R365). -/
def atomBad (r : AtomReq) (s : State) : Option Nat :=
  match r.src with
  | .core | .copy _ | .peer _ _ => badDev s r.pa r.size
  | _ => none

/-- The line leaves for its stack with the engine's number of its atomic write, and its watches are taken on the next cycle. -/
def writeThrough (k : Nat) (r : AtomReq) (d : List Byte) (s : State) : State :=
  let a := atomAt s k
  let line := r.pa / 64
  let n := SMap.get 0 a.seqs line + 1
  let ack : AckTo := match r.kind, r.src with
    | .amo _, .core => .amo r.va r.size
    | .sempost, .core => .post r.va
    | .sempost, .copy id => .copy id
    | .sempost, .grip q pk => .grip q pk
    | .semwait, .grip q pk => .grip q pk
    | .sempost, .peer core false => .peer core r.va
    | _, _ => .none
  let test := if engineTests r true then none else some (r.src, r.held)
  let req : DevReq := ⟨atomOwner s r.src, r.party, r.phase, .awrite, .atomWt k n ack test, 64 * line, r.va / 64 * 64, 64, d, r.word, 0⟩
  let s := onAtom k (fun a => { a with seqs := SMap.set 0 a.seqs line n }) s
  let s := arriveAt (s.cyc + Config.travelStack (Config.engineNode k) (stackOf s.variant r.va)) req s
  if s.agenda.any fun e => e.at_ = s.cyc + 1 ∧ e.ev = .watchEvaluation k line then s
  else if (atomAt s k).watches.any fun w => w.pa / 64 = line then s.postAt (s.cyc + 1) (.watchEvaluation k line) else s

/-- The answer on its way back (R274): of a post only to the Grip for a reel, which takes the way of the request (R402) (DEDUCED, log 35). -/
def atomAnswer (k : Nat) (r : AtomReq) (v : W64) (acq : List Nat) (s : State) : State :=
  let ret : AtomRet := ⟨r.src, some r.reg, v, acq, atomAcquires r, r.iss, none⟩
  match r.kind, r.src with
  | .sempost, .reel g n => s.postAt (s.cyc + engineTravel s r.src k) (.sempostAck (.reel g n))
  | .sempost, _ => s
  | _, _ => s.postAt (s.cyc + 2 + engineTravel s r.src k) (.atomicReturn ret)

/-- An operation on a line at its engine: the line after it, and whether it has been performed; a wait that does not hold is not. -/
def atomOp (k : Nat) (r : AtomReq) (d : List Byte) (s : State) : State × List Byte × Bool :=
  let o := r.pa % 64
  let old := leNat ((d.drop o).take r.size)
  let rel := relSet (atomAt s k) (r.pa / 64)
  match atomBad r s, atomEval r.kind (8 * r.size) old r.b r.c with
  | some x, _ =>
    (atomFault k r 0x13 (BitVec.ofNat 64 (r.va + (x - r.pa))) (BitVec.ofNat 64 (16 + stackOf s.variant r.va)) s, d, true)
  | none, none =>
    match atomStamp r rel false s with
    | (s, some x) => (atomRace k r x false s, d, true)
    | (s, none) => (s, d, false)
  | none, some (new, v) =>
    match (if engineTests r new.isSome then atomStamp r rel new.isSome s else (s, none)) with
    | (s, some x) => (atomRace k r x new.isSome s, d, true)
    | (s, none) =>
      let s := if atomReleases r then onAtom k (addRel s r) s else s
      let s := atomAnswer k r v (if atomAcquires r then relSet (atomAt s k) (r.pa / 64) else []) s
      match new with
      | none => (s, d, true)
      | some x =>
        let d' := d.take o ++ leBytes r.size x ++ d.drop (o + r.size)
        (writeThrough k r d' s, d', true)

/-! The store and its fills (R271) -/

/-- A line becomes the most recently used of the store's 64. -/
def storePut (line : Nat) (d : List Byte) (a : Atom) : Atom :=
  { a with store := (⟨line, d, [], false⟩ :: a.store.filter fun x => x.line ≠ line).take 64 }

/-- A new value of a line, where the store or a fill that may still be used holds it. -/
def storeSet (line : Nat) (d : List Byte) (a : Atom) : Atom :=
  { a with
    store := a.store.map fun x => if x.line = line then { x with data := d } else x
    fills := a.fills.map fun f => if f.line = line ∧ f.live ∧ f.data.isSome then { f with data := some d } else f }

/-- A request is served: the pointer moves on, and a wait that does not hold leaves its watch. -/
def serveAtom (k : Nat) (r : AtomReq) (d : List Byte) (s : State) : State × List Byte :=
  let s := onAtom k (fun a => { a with ptr := (a.ptr + 1) % 10 }) s
  let (s, d', done) := atomOp k r d s
  (if done then s else onAtom k (fun a => { a with watches := a.watches ++ [r] }) s, d')

/-- The engine that can take a request on this cycle. -/
def atomReady (s : State) : Option Nat :=
  (List.range 16).find? fun k =>
    let a := atomAt s k
    match a.queue with
    | r :: _ => decide (a.next ≤ s.cyc) && relRoom s a r
    | [] => false

/-- An engine takes the request at the head of its queue: parked, a hit, or a miss that sends for its line. -/
def atomTake (k : Nat) (s : State) : State :=
  let a := atomAt s k
  match a.queue with
  | [] => s
  | r :: rest =>
    let line := r.pa / 64
    let s := onAtom k (fun a => { a with queue := rest, next := s.cyc + 1 }) s
    match a.fills.find? fun f => f.line = line ∧ f.live with
    | some f => onAtom k (fun a => { a with fills := a.fills.map fun g => if g.id = f.id then { g with reqs := g.reqs ++ [r] } else g }) s
    | none =>
      match a.store.find? fun x => x.line = line with
      | some x =>
        let s := onAtom k (storePut line x.data) s
        let (s, d) := serveAtom k r x.data s
        onAtom k (storeSet line d) s
      | none =>
        let req : DevReq := ⟨atomOwner s r.src, r.party, r.phase, .aread, .atomFill k a.nfill, 64 * line, r.va / 64 * 64, 64, [], r.word, 0⟩
        let s := onAtom k (fun a => { a with fills := a.fills ++ [⟨a.nfill, line, none, [r], true⟩], nfill := a.nfill + 1 }) s
        arriveAt (s.cyc + Config.travelStack (Config.engineNode k) (stackOf s.variant r.va)) req s

/-- The engine takes one request; or a request of another core leaves that core on this cycle (R271, R272, DESIGN CHOICE, log 1). -/
def execAtomicRequestService (s : State) : Host.Outcome State Fault Refusal :=
  dueElse s (fun | .atomAsk r => some r | _ => none) (fun r s => atomSend s.cyc r s)
    fun s => match atomReady s with | some k => atomTake k s | none => s

/-- A fill is back, or the next of its parked requests is due: one is served a cycle. -/
def execAtomicFillReturn (s : State) : Host.Outcome State Fault Refusal :=
  onDue s (fun | .atomicFillReturn k id d => some (k, id, d) | _ => none) fun (k, id, d0) s =>
    match (atomAt s k).fills.find? fun f => f.id = id with
    | none => s
    | some f =>
      let d := f.data.getD d0
      let s := if f.data.isNone && f.live then onAtom k (storePut f.line d) s else s
      match f.reqs with
      | [] => onAtom k (fun a => { a with fills := a.fills.filter fun g => g.id ≠ id }) s
      | r :: rest =>
        if !relRoom s (atomAt s k) r then
          let s := onAtom k (fun a => { a with fills := a.fills.map fun g => if g.id = id then { g with data := some d } else g }) s
          s.postAt (s.cyc + 1) (.atomicFillReturn k id [])
        else
          let (s, d') := serveAtom k r d s
          let s := if f.live then onAtom k (storeSet f.line d') s else s
          if rest.isEmpty then onAtom k (fun a => { a with fills := a.fills.filter fun g => g.id ≠ id }) s
          else
            let s := onAtom k (fun a =>
              { a with fills := a.fills.map fun g => if g.id = id then { g with data := some d', reqs := rest } else g }) s
            s.postAt (s.cyc + 1) (.atomicFillReturn k id [])

/-- The notice of a plain write drops the line; a fill on its way, or being served, goes to the requests parked on it and no later. -/
def execPlainWriteNotice (s : State) : Host.Outcome State Fault Refusal :=
  onDue s (fun | .plainWriteNotice k line => some (k, line) | _ => none) fun (k, line) s =>
    onAtom k (fun a =>
      { a with
        store := a.store.filter fun x => x.line ≠ line
        fills := a.fills.map fun f => if f.line = line then { f with live := false } else f }) s

/-- The watches of a line in the order of their creation, each on the value that those before it have left (R276). -/
def execWatchEvaluation (s : State) : Host.Outcome State Fault Refusal :=
  onDue s (fun | .watchEvaluation k line => some (k, line) | _ => none) fun (k, line) s =>
    let a := atomAt s k
    let d0 := match a.store.find? fun x => x.line = line with | some x => x.data | none => serveReq.lineNow s k line
    let (s, d) := (a.watches.filter fun w => w.pa / 64 = line).foldl (fun (acc : State × List Byte) w =>
      let (s, d', done) := atomOp k w acc.2 acc.1
      (if done then onAtom k (fun a => { a with watches := a.watches.erase w }) s else s, d')) (s, d0)
    onAtom k (storeSet line d) s

/-- The answer of an atomic (R274): a value for its register, and for a word that waits its acquire and its end. -/
def execAtomicReturn (s : State) : Host.Outcome State Fault Refusal :=
  onDue s (fun | .atomicReturn r => some r | _ => none) fun r s =>
    match r.src with
    | .core =>
      let reg := match r.reg with | some d => d.toNat | none => 0
      let mine (o : LdOut) : Bool := o.amo && decide (o.reg = reg) && decide (o.iss = r.iss)
      let s := match s.job.seq.ldOut.find? mine with
        | some o => s.onSeq fun q => { q with ldOut := q.ldOut.erase o }
        | none => s
      match r.fault with
      | some f => takeFault s f
      | none =>
        let s := landReturn r.iss (.sreg reg r.val) (fun q => q.setS reg r.val) s
        if r.hold then advance .sq (addHeld s (party s 0) r.acq) else s
    | .grip q pk => s.onGrip fun g => { g with acks := g.acks ++ [.answer q pk] }
    | .peer core eng => s.emit (.atomReply core eng r.val r.acq)
    | _ => s

/-- A post has been served: the waits of its core for it end, or the packet of the Grip is told (R275, R320). -/
def execSempostAck (s : State) : Host.Outcome State Fault Refusal :=
  onDue s (fun | .sempostAck d => some d | _ => none) fun d s =>
    match d with
    | .post va => releaseHeld (s.onSeq fun q => { q with postOut := q.postOut.erase va })
    | .grip q pk => s.onGrip fun g => { g with acks := g.acks ++ [.served q pk] }
    | .reel g n => s.onGrip fun x => { x with acks := x.acks ++ [.post g n] }
    | .peer core va => s.emit (.postAck core va)
    | _ => s

end Sys2Proof.Machine
end

