-- ==== Sys2Proof/Machine/Gang.lean ====
section
/-! DEFINITION. The completion of phase changes and the dissemination rounds of a gang; what a packet's header must be, and the packets
that leave (R278, R282, R383, R385). -/
namespace Sys2Proof.Machine

/-! ### Packets (R383) -/

/-- A packet of this device as it leaves; routes are not the spec's, so the port named is 0 (DESIGN CHOICE, log 30). -/
def sendPacket (ty vc : Nat) (dst : Nat) (gid : Nat) (body data : List Byte) (s : State) : State :=
  let n := (data.length + 31) / 32
  s.emit (.packet 0 ⟨BitVec.ofNat 8 ty, BitVec.ofNat 8 vc, s.node, BitVec.ofNat 16 dst, BitVec.ofNat 16 n, BitVec.ofNat 64 gid,
    fit 16 body, fit (32 * n) data⟩)

/-- The bytes of BODY that a type uses: write, signal, reduce; the others use none. -/
def bodyUsed (ty i : Nat) : Bool :=
  if ty = 1 then decide (i < 9)
  else if ty = 2 then decide (i < 9) || decide (12 ≤ i)
  else if ty = 3 then decide (i < 11) || decide (12 ≤ i)
  else false

/-- A header with a reserved TYPE, or a field that is not zero and must be. -/
def badPacket (k : SynPkt) (ty : Nat) : Bool :=
  decide (k.ty.toNat ≠ ty) || decide (128 < k.nflit.toNat) || k.ctl.toNat / 8 != 0 ||
    (k.ctl.getLsbD 2 && decide (ty ≠ 3)) || (decide (ty ≠ 1 ∧ ty ≠ 3 ∧ ty ≠ 5) && decide (k.nflit ≠ 0)) ||
    (k.body.zipIdx.any fun x => !bodyUsed ty x.2 && decide (x.1 ≠ 0)) ||
    (decide (ty = 3) && (k.body.getD 10 0).toNat / 64 != 0) || (decide (ty = 1 ∨ ty = 2) && (k.body.getD 8 0).toNat / 16 != 0)

/-- A packet is discarded and counted, and reaches no job. -/
def discardPacket (s : State) : State := s.onPlat fun p => { p with discarded := p.discarded + 1 }

/-- What an arrival does with a packet whose header holds. -/
def withPacket (k : SynPkt) (ty : Nat) (f : State → State) (s : State) : State := if badPacket k ty then discardPacket s else f s

/-! ### Phase changes (R278, R282) -/

/-- The change reaches an instance: that of this core's job, or another of this device. -/
def finishDom (lvl inst : Nat) (s : State) : State :=
  if domInst s lvl = inst then completeDom lvl s
  else
    match findDom s lvl inst with
    | some d => putDom { d with count := d.count + 1, arrived := [], held := [], closing := false, round := 0, start := 0 } s
    | none => s

/-- The next dissemination round starts: round i, from 0, sends a packet on VC 3 to the rank 2^i further, and lasts Λ + 8 cycles
(R282, R382). -/
def startRound (d : Dom) (s : State) : State :=
  let n := d.nodes.length
  let r := d.nodes.findIdx (· = s.node.toNat)
  let at_ := s.cyc + d.lam + 8
  let s := sendPacket 4 3 ((d.nodes[(r + 2 ^ d.round) % n]?).getD 0) d.inst [] [] (putDom { d with round := d.round + 1, start := at_ } s)
  s.postAt at_ (.phaseChangeComplete 4 d.inst)

/-- The gang's node of this device, whose members here have all arrived: a round has ended when its cycles are over and its packet has
come; the last ends the change. -/
def gangRound (d : Dom) (s : State) : State :=
  if d.round = 0 then startRound d s
  else
    match d.remote.find? fun x => x.1 + 1 = d.round ∧ x.2 ≤ s.cyc with
    | some x =>
      let d := { d with remote := d.remote.erase x }
      if clog2 d.nodes.length ≤ d.round then finishDom 4 d.inst (putDom d s) else startRound d s
    | none => s

/-- The instance that an event of another core's job names, as this device sees it. -/
def domAt (s : State) (lvl inst : Nat) : Dom := (findDom s lvl inst).getD (Dom.init lvl inst)

/-- What changes a domain besides this core's own words: its completion falls due; a job of another core joins or leaves it, or arrives
(DESIGN CHOICE, log 1). -/
inductive DomEv where
  | due (lvl inst : Nat)
  | member (core task lvl inst : Nat) (join : Bool)
  | arrive (core task lvl inst : Nat) (held : List Nat)

def domEv : Ev → Option DomEv
  | .phaseChangeComplete lvl inst => some (.due lvl inst)
  | .domMember c t lvl inst j => some (.member c t lvl inst j)
  | .domArrive c t lvl inst h => some (.arrive c t lvl inst h)
  | _ => none

/-- A phase change completes on the cycle that the last arrival has fixed, unless a job has joined since (R279, R282). -/
def domDue (lvl inst : Nat) (s : State) : State :=
  match findDom s lvl inst with
  | none => s
  | some d =>
    if !d.closing || decide (s.cyc < d.start) then s
    else if lvl = 4 ∧ 1 < d.nodes.length then gangRound d s
    else finishDom lvl inst s

def execPhaseChangeComplete (s : State) : Host.Outcome State Fault Refusal :=
  onDue s domEv fun e s =>
    match e with
    | .due lvl inst => domDue lvl inst s
    | .member c t lvl inst true => addMember (domAt s lvl inst) (memberKey c t) s
    | .member c t lvl inst false => dropMember lvl (domAt s lvl inst) (memberKey c t) s
    | .arrive c t lvl inst held =>
      let d := domAt s lvl inst
      if d.members.contains (memberKey c t) then
        closeDom lvl { d with arrived := unionNat d.arrived [memberKey c t], held := unionNat d.held held } s
      else s

/-- A barrier packet: its sender's rank says for which round it stands (R282) (DEDUCED, log 38). -/
def execBarrierPacketArrival (s : State) : Host.Outcome State Fault Refusal :=
  onDue s (fun | .barrierPacketArrival k => some k | _ => none) fun k s =>
    withPacket k 4 (fun s =>
      match findDom s 4 k.gid.toNat with
      | none => s
      | some d =>
        let n := d.nodes.length
        let r := d.nodes.findIdx (· = s.node.toNat)
        let q := d.nodes.findIdx (· = k.src.toNat)
        match (List.range (clog2 n)).find? fun j => (q + 2 ^ j) % n = r with
        | some j => (putDom { d with remote := d.remote ++ [(j, s.cyc + 8)] } s).postAt (s.cyc + 8) (.phaseChangeComplete 4 d.inst)
        | none => s) s

end Sys2Proof.Machine
end

