-- ==== Sys2Proof/Machine/Collect.lean ====
section
/-! DEFINITION. Collectives: records, schedules, the working image, intervals, completion and abort; COLL, COLLQ; one-sided writes and
signals with the packets that carry them (R285 to R303, R383, R384). -/
namespace Sys2Proof.Machine

/-! ### Records (R287 to R289) -/

/-- A level entry. -/
def nestLvl (e : BitVec 128) : Option NLvl :=
  let n := (e.extractLsb' 112 16).toNat
  let px := (e.extractLsb' 110 2).toNat
  if n = 0 ∨ px = 3 ∨ e.getLsbD 108 = true then none
  else some ⟨n, px, e.getLsbD 109, (e.extractLsb' 96 12).toNat, (e.extractLsb' 48 48).toInt, (e.extractLsb' 0 48).toInt⟩

def collTy (code : Nat) : Option Ty :=
  if code = 0 ∨ code = 1 ∨ code = 2 ∨ code = 5 ∨ code = 8 then Ty.ofCode (BitVec.ofNat 4 code) else none

/-- A record by itself: nothing where it breaks R287 to R289 whatever the group is. -/
def parseColl (l : List Byte) : Option CollRec :=
  let c := fieldN l 0 8
  let f (i n : Nat) : Nat := c / 2 ^ i % 2 ^ n
  let op := f 3 4
  let nl := f 11 3
  let red := f 14 2
  let alg := f 16 2
  let root := f 20 12
  let src := fieldN l 16 8
  let src2 := fieldN l 24 8
  let dst := fieldN l 32 8
  let count := fieldN l 40 8
  let comp := fieldN l 48 8
  let blk := fieldN l 56 8
  let ent (i : Nat) : BitVec 128 := BitVec.ofNat 128 (fieldN l (64 + 16 * i) 16)
  let bad := decide (c / 2 ^ 32 ≠ 0) || decide (c % 8 ≠ 0) || decide (4 < op) ||
    (decide (op = 3 ∨ op = 4) && decide (red ≠ 3)) || (decide (op = 1 ∨ op = 2) && decide (red = 3)) ||
    decide (alg = 3) || (decide (alg ≠ 0) && decide (op ≠ 1)) || (decide (root ≠ 0) && decide (op ≠ 4)) ||
    (if op = 0 then decide (nl = 0 ∨ nl = 7) else decide (nl ≠ 0) || decide (blk ≠ 0)) ||
    decide (src % 256 ≠ 0) || decide (src2 % 256 ≠ 0) || decide (dst % 256 ≠ 0) || decide (comp % 64 ≠ 0) ||
    decide (count = 0) || decide (2 ^ 40 < count) || decide (fieldN l 160 96 ≠ 0) ||
    ((List.range 6).any fun i => decide (nl ≤ i) && decide (ent i ≠ 0))
  match (if bad then none else collTy (f 7 4)), (List.range nl).mapM fun i => nestLvl (ent i) with
  | some dt, some lvls => some ⟨fieldN l 8 8, src, src2, dst, count, comp, blk, root, f 18 2, alg, red, dt, op, lvls⟩
  | _, _ => none

/-- The largest k with 2^k at or below p. -/
def floorLog (p : Nat) : Nat := Nat.log2 p

/-- What a record asks of its group (R288). -/
def collFits (r : CollRec) (p : Nat) : Bool :=
  let pow := decide (p = 2 ^ floorLog p)
  (pow || decide (r.op ≠ 2 ∧ r.op ≠ 3)) && (decide (r.op ≠ 2) || decide (r.count % p = 0)) && decide (r.root < p)

def collWidth (r : CollRec) : Nat := r.dt.width / 8

/-- The algorithm code of R292, of R296 for an explicit nest. -/
def collAlg (r : CollRec) (p : Nat) : Nat :=
  if r.op = 0 then 15
  else if p = 1 then 0
  else match r.op with
    | 1 => if r.alg = 1 then 1 else if r.alg = 2 then 2 else if r.count * collWidth r < 65536 then 1 else 2
    | 2 => 3
    | 3 => 1
    | _ => 4

/-- Elements of a chunk (R292). -/
def chunkLen : Nat := 2 ^ 20

def collChunks (r : CollRec) : Nat := if r.op = 0 then 1 else (r.count + chunkLen - 1) / chunkLen

/-- Whether a pre-step and a post-step run (R293). -/
def collPre (r : CollRec) (p : Nat) : Bool := decide (r.op = 1) && decide (p ≠ 2 ^ floorLog p)

/-- COLLQ's value (R296). -/
def collQuery (r : CollRec) (p : Nat) : W64 :=
  BitVec.ofNat 64 (collChunks r * 2 ^ 32 + (if collPre r p then 2 ^ 12 else 0) + floorLog p * 2 ^ 4 + collAlg r p)

/-- Elements of the output (R287). -/
def collOut (r : CollRec) (p : Nat) : Nat := match r.op with | 2 => r.count / p | 3 => r.count * p | _ => r.count

/-! ### Schedules (R289, R292, R293) -/

/-- Elements of a rank-indexed segment of a chunk of `n` elements that starts at element `base`: for OP 2 the blocks of the ranks,
for OP 3 the ranks' own copies side by side, else equal shares. -/
def segBound (r : CollRec) (p n base a : Nat) : Nat :=
  match r.op with
  | 2 => min n (a * (r.count / p) - base)
  | 3 => a * n
  | _ => a * n / 2 ^ floorLog p

/-- A transfer of `n` image elements from element `o` on, 4 bytes each. -/
def xferOf (itv peer : Nat) (send : Bool) (o n : Nat) (comb : Bool) : Xfer := ⟨itv, peer, send, 4 * o, 4 * o, 4 * n, comb⟩

def xferPair (itv peer so sn ro rn : Nat) (comb : Bool) : List Xfer :=
  (if sn = 0 then [] else [xferOf itv peer true so sn comb]) ++ if rn = 0 then [] else [xferOf itv peer false ro rn comb]

/-- Recursive halving: interval `i0 + j - 1` of step j pairs bit k - j (R293). -/
def halving (r : CollRec) (p n base rank i0 : Nat) : List Xfer :=
  let k := floorLog p
  (List.range k).flatMap fun j =>
    let b := k - 1 - j
    let q := rank ^^^ 2 ^ b
    let lo (x : Nat) : Nat := segBound r p n base (x / 2 ^ b * 2 ^ b)
    let hi (x : Nat) : Nat := segBound r p n base (x / 2 ^ b * 2 ^ b + 2 ^ b)
    xferPair (i0 + j) q (lo q) (hi q - lo q) (lo rank) (hi rank - lo rank) true

/-- Recursive doubling of segments, without arithmetic: step j pairs bit j - 1. -/
def gathering (r : CollRec) (p n base rank i0 : Nat) : List Xfer :=
  (List.range (floorLog p)).flatMap fun j =>
    let q := rank ^^^ 2 ^ j
    let lo (x : Nat) : Nat := segBound r p n base (x / 2 ^ j * 2 ^ j)
    let hi (x : Nat) : Nat := segBound r p n base (x / 2 ^ j * 2 ^ j + 2 ^ j)
    xferPair (i0 + j) q (lo rank) (hi rank - lo rank) (lo q) (hi q - lo q) false

/-- Recursive doubling of the whole image. -/
def doubling (p n rank i0 : Nat) : List Xfer :=
  (List.range (floorLog p)).flatMap fun j => xferPair (i0 + j) (rank ^^^ 2 ^ j) 0 n 0 n true

/-- The pre-step or the post-step: ranks at or above 2^k send to those below, or receive from them. -/
def edgeStep (p n rank itv : Nat) (pre : Bool) : List Xfer :=
  let m := 2 ^ floorLog p
  let whole (peer : Nat) (send : Bool) : List Xfer := [xferOf itv peer send 0 n pre]
  if m ≤ rank then whole (rank - m) pre
  else if rank + m < p then whole (rank + m) (!pre)
  else []

/-- OP 1: the steps, between a pre-step and a post-step where p is no power of two. -/
def allReduce (r : CollRec) (p n rank : Nat) : List Xfer :=
  let k := floorLog p
  let pre := collPre r p
  let i0 := if pre then 1 else 0
  let inner := if 2 ^ k ≤ rank then []
    else if collAlg r p = 2 then halving r p n 0 rank i0 ++ gathering r p n 0 rank (i0 + k)
    else doubling p n rank i0
  let last := i0 + (if collAlg r p = 2 then 2 * k else k)
  (if pre then edgeStep p n rank 0 true else []) ++ inner ++ if pre then edgeStep p n rank last false else []

/-- OP 4: the binomial tree. -/
def binomial (r : CollRec) (p n rank : Nat) : List Xfer :=
  let rho := (rank + p - r.root) % p
  (List.range (clog2 p)).flatMap fun j =>
    if rho < 2 ^ j then (if rho + 2 ^ j < p then [xferOf j ((rho + 2 ^ j + r.root) % p) true 0 n false] else [])
    else if rho < 2 ^ (j + 1) then [xferOf j ((rho - 2 ^ j + r.root) % p) false 0 n false]
    else []

/-- Intervals of a chunk. -/
def collItvs (r : CollRec) (p : Nat) : Nat :=
  let k := floorLog p
  if p = 1 then 0
  else match r.op with
    | 1 => (if collPre r p then 2 else 0) + (if collAlg r p = 2 then 2 * k else k)
    | 4 => clog2 p
    | _ => k

def collSched (r : CollRec) (p rank n base : Nat) : List Xfer :=
  if p = 1 then []
  else match r.op with
    | 1 => allReduce r p n rank
    | 2 => halving r p n base rank 0
    | 3 => gathering r p n base rank 0
    | _ => binomial r p n rank

/-- A position of an explicit nest by its indices, level 0 first. -/
def nestIndex : List NLvl → Nat → List Nat
  | [], _ => []
  | l :: ls, i => i % l.n :: nestIndex ls (i / l.n)

/-- The peer of a position: the levels' expressions from the highest down (R289). -/
def nestPeer (p rank : Nat) (lvls : List NLvl) (ix : List Nat) : Nat :=
  (lvls.zip ix).foldr (fun x q =>
    match x.1.pexp with
    | 1 => q ^^^ (x.1.c * x.2)
    | 2 => (q + x.1.c * x.2) % p
    | _ => q) rank

/-- An explicit nest: for each position, the send it makes, if it makes one, and whether an interval ends there. -/
def nestWalk (r : CollRec) (p rank : Nat) : List (Option (Nat × Int × Int) × Bool) :=
  (List.range (r.lvls.foldl (fun n l => n * l.n) 1)).map fun i =>
    let ix := nestIndex r.lvls i
    let q := nestPeer p rank r.lvls ix
    let off (f : NLvl → Int) : Int := (r.lvls.zip ix).foldl (fun a x => a + x.2 * f x.1) 0
    let ends := (List.range r.lvls.length).any fun l =>
      ((r.lvls[l]?).map NLvl.sync).getD false && ((r.lvls.zip ix).take l).all fun x => x.2 + 1 = x.1.n
    (if q < p ∧ q ≠ rank then some (q, off NLvl.ls, off NLvl.rs) else none, ends)

/-- The nest's transfers by interval, the number of intervals, and whether every one stays inside the images, of 4 bytes an element. -/
def nestSched (r : CollRec) (p rank : Nat) : List Xfer × Nat × Bool :=
  let step (a : List Xfer × Nat × Bool × Bool) (x : Option (Nat × Int × Int) × Bool) : List Xfer × Nat × Bool × Bool :=
    let (l, itv, ok, _) := a
    let (l, ok) := match x.1 with
      | some (q, o, ro) =>
        let inside (o : Int) : Bool := decide (0 ≤ o) && decide (o + r.blk ≤ 4 * (r.count : Int))
        (l ++ [⟨itv, q, true, o.toNat, ro.toNat, r.blk, true⟩], ok && inside o && inside ro)
      | none => (l, ok)
    (l, if x.2 then itv + 1 else itv, ok, x.2)
  let (l, itv, ok, closed) := (nestWalk r p rank).foldl step ([], 0, true, true)
  (l, if closed then itv else itv + 1, ok)

/-! ### Elements (R290, R291) -/

/-- An input element as the image holds it. -/
def imageIn (t : Ty) (x : W32) : W32 :=
  match t with
  | .f32 => x
  | t => if t.isFloat then rne32 (fval t x) else x

/-- An image element as the output holds it. -/
def imageOut (t : Ty) (x : W32) : W32 :=
  match t with
  | .f32 => x
  | t => if t.isFloat then fout t .rne false (f32v x) else x

/-- The combination of two image elements, that of the lower rank first. -/
def redElem (red : Nat) (t : Ty) (x y : W32) : W32 :=
  let ft : Bool := t.isFloat
  match red with
  | 0 => if ft then fAdd .f32 .rne false x y else iAdd t false x y
  | 1 => if ft then fMax .f32 x y else iMax t x y
  | 2 => if ft then fMin .f32 x y else iMin t x y
  | _ => y

/-! ### The reducers' accesses -/

def collParty (core : Nat) : Nat := core * 32 + 25

/-- The reducers ask for lines in their own slots (R239, R294); the event goes on with the operation. -/
def reducerAsk (core : Nat) (held : List Nat) (a : Acc) (l : List LineAcc) (next : Ev) (s : State) : State :=
  unitAsk (s.cyc + 1) .reducer a (collParty core) 0 held true l next s

/-- A range of the core's copy ranges that another operation entered earlier holds up (R254). -/
def earlierRange (s : State) (rid va len : Nat) : Bool :=
  (s.core.ranges.takeWhile fun r => r.id ≠ rid).any fun r => decide (r.lo < va + len) && decide (va < r.hi)

/-- The end of an operation's ranges, pins and party at the join of its token (R230, R246, R254, R269). -/
def endOperation (rid root job tok party : Nat) (pages : List Piece) (status : W64) (held : List Nat) (s : State) : State :=
  let h := unionNat [party] held
  let s := passRangeId rid h s
  let s := (onePer pages).foldl (fun s p => unpinOne root p s) s
  let s := s.onCore fun k => { k with ranges := k.ranges.filter fun r => r.id ≠ rid }
  completeToken job tok status h s

/-! ### A collective's acts (R290, R292, R297, R298) -/

def collOf (s : State) (gid num : Nat) : Option Coll := s.grp.colls.find? fun c => c.gid = gid ∧ c.num = num

def setColl (c : Coll) (s : State) : State :=
  s.onGrp fun g => { g with colls := g.colls.map fun x => if x.gid = c.gid ∧ x.num = c.num then c else x }

/-- The reducers' next act comes when the spec does not say (R303, DESIGN CHOICE, log 32). -/
def againColl (c : Coll) (s : State) : State :=
  s.postAt (s.cyc + 1 + Config.reducerCycles s.nseq) (.reductionIntervalClose c.gid c.num)

def chunkBase (c : Coll) : Nat := chunkLen * c.chunk
def chunkCount (c : Coll) : Nat := if c.op = 0 then c.count else min chunkLen (c.count - chunkBase c)

/-- A member tells the others of a stop that it has found (R298, R315) (DESIGN CHOICE, log 57). -/
def tellAbort (gid num cause : Nat) (s : State) : State := s.emit (.groupAbort gid num cause)

/-- The end: its record is written next, once no access of the reducers is out. -/
def endColl (c : Coll) (status : W64) (s : State) : State :=
  let s := setColl { c with fin := some status } s
  if c.busy ∨ (s.agenda.any fun e => e.ev = .collectiveComplete c.gid c.num) = true then s
  else s.postAt (s.cyc + 1) (.collectiveComplete c.gid c.num)

def abortStatus (cause : Nat) : W64 := BitVec.ofNat 64 (0x13 + cause * 256)

/-- A stop of another member's making. -/
def stopColl (c : Coll) (cause : Nat) (s : State) : State := if c.fin.isSome then s else endColl c (abortStatus cause) s

/-- A stop that this member has found. -/
def abortColl (c : Coll) (cause : Nat) (s : State) : State :=
  if c.fin.isSome then s else endColl c (abortStatus cause) (tellAbort c.gid c.num cause s)

/-- Where a chunk's input from an address stands, and its bytes. -/
def chunkAt (c : Coll) (base : Nat) : Nat × Nat := (base + c.dt.width / 8 * chunkBase c, c.dt.width / 8 * chunkCount c)

/-- The lines of a chunk's inputs. -/
def fillLines (c : Coll) : List LineAcc :=
  let l (b : Nat) : List LineAcc := lineAccs c.pages (chunkAt c b).1 (chunkAt c b).2 []
  l c.src ++ if c.src2 = 0 then [] else l c.src2

/-- The image of a chunk is filled from SRC, with SRC2 first where there is one (R287, R289, R293) (DEDUCED, log 37). -/
def fillColl (c : Coll) (x : UnitOp) : Coll :=
  let n := chunkCount c
  let elems (b : Nat) : List W32 := (bytesElems (c.dt.width / 8) (x.bytes (chunkAt c b).1 (chunkAt c b).2)).map (imageIn c.dt)
  let red := if c.red = 3 then 0 else c.red
  let v := if c.src2 = 0 then elems c.src else ((elems c.src).zip (elems c.src2)).map fun e => redElem red c.dt e.1 e.2
  let o := if c.op = 3 then c.rank * n else 0
  let sched := if c.op = 0 then c.sched else collSched c.rcd c.ranks c.rank n (chunkBase c)
  { c with stage := 1, itv := 0, sched := sched, image := sparseFrom 0 o v }

/-- The 32 bits of an image from a byte on. -/
def imageAt (m : SMap W32) (b : Nat) : W32 :=
  let x := (SMap.get 0 m (b / 4)).toNat
  if b % 4 = 0 then BitVec.ofNat 32 x
  else BitVec.ofNat 32 (x / 2 ^ (8 * (b % 4)) + (SMap.get 0 m (b / 4 + 1)).toNat * 2 ^ (32 - 8 * (b % 4)))

/-- Elements that a transfer's packets carry. -/
def xferElems (x : Xfer) : Nat := (x.len + 3) / 4

/-- The packets of a transfer, at most 128 flits of 8 elements each (R383, R384). -/
def sendXfer (c : Coll) (x : Xfer) (s : State) : State :=
  (List.range ((xferElems x + 1023) / 1024)).foldl (fun s i =>
    let n := min 1024 (xferElems x - 1024 * i)
    let d := (List.range n).map fun j => imageAt c.image (x.off + 4 * (1024 * i + j))
    let body := leBytes 4 c.num ++ leBytes 3 c.chunk ++ leBytes 1 x.itv ++ leBytes 2 c.rank ++
      leBytes 1 (c.dt.code.toNat + 16 * c.red) ++ leBytes 1 0 ++ leBytes 4 (x.roff / 4 + 1024 * i)
    sendPacket 3 c.vc ((c.nodes[x.peer]?).getD 0) c.gid body (elemsBytes 4 d) s) s

def sendItv (c : Coll) (s : State) : State :=
  (c.sched.filter fun x => x.itv = c.itv ∧ x.send = true).foldl (fun s x => sendXfer c x s) s

/-- The arrivals of the present interval. -/
def itvArrivals (c : Coll) : List RedPkt :=
  c.arrivals.filter fun a => a.chunk = c.chunk % 2 ^ 24 ∧ a.step = c.itv

/-- Whether the interval closes: as many elements have come as are awaited; of a nest, as many as are sent (R290). -/
def itvDone (c : Coll) : Bool :=
  let mine := c.sched.filter fun x => x.itv = c.itv ∧ x.send = decide (c.op = 0)
  decide ((mine.map xferElems).foldl (· + ·) 0 ≤ ((itvArrivals c).map fun a => a.data.length).foldl (· + ·) 0)

/-- One arrival applied to the image. -/
def applyArrival (c : Coll) (a : RedPkt) (m : SMap W32) : SMap W32 :=
  let comb := !a.comb && (decide (c.op = 0) ||
    c.sched.any fun x => x.itv = c.itv ∧ x.send = false ∧ x.peer = a.sender ∧ x.comb = true)
  a.data.zipIdx.foldl (fun m e =>
    let i := a.off + e.2
    let x := SMap.get 0 m i
    let v := if !comb then e.1
      else if c.op ≠ 0 ∧ a.sender < c.rank then redElem c.red c.dt e.1 x else redElem c.red c.dt x e.1
    SMap.set 0 m i v) m

/-- The elements at the receiver that a transfer covers only in part, or at bytes that are not those of elements: the spec applies
arrivals element by element and does not say what becomes of them (R289, R290) (DESIGN CHOICE, log 31). -/
def partElems (x : Xfer) : List Nat :=
  if x.len = 0 then []
  else if x.off % 4 = 0 ∧ x.roff % 4 = 0 then (if x.len % 4 = 0 then [] else [(x.roff + x.len) / 4])
  else (List.range ((x.roff + x.len - 1) / 4 - x.roff / 4 + 1)).map (x.roff / 4 + ·)

/-- Such elements of this rank's image in the present interval of a nest; the senders' transfers are those of the same nest. -/
def itvParts (c : Coll) : List Nat :=
  let whole (i : Int) : Bool := decide (i % 4 = 0)
  if c.op ≠ 0 ∨ (whole c.rcd.blk && c.rcd.lvls.all fun l => whole l.ls && whole l.rs) = true then []
  else ((List.range c.ranks).flatMap fun r =>
    ((nestSched c.rcd c.ranks r).1.filter fun x => x.itv = c.itv ∧ x.peer = c.rank).flatMap partElems).eraseDups

/-- The interval's arrivals in ascending order of sender, those of one sender in their order (R290). -/
def closeItv (c : Coll) (s : State) : State × Coll :=
  let now := itvArrivals c
  let image := ((List.range c.ranks).flatMap fun r => now.filter fun a => a.sender = r).foldl (fun m a => applyArrival c a m) c.image
  let parts := itvParts c
  let (s, free) := freeWords parts.length s
  let image := (parts.zip free).foldl (fun m x => SMap.set 0 m x.1 x.2) image
  (s, { c with image := image, arrivals := c.arrivals.filter fun a => !now.contains a, itv := c.itv + 1 })

/-- The output elements of a chunk, by their place in the output. -/
def chunkOut (c : Coll) : List (Nat × W32) :=
  let n := chunkCount c
  let b := chunkBase c
  let val (i : Nat) : W32 := imageOut c.dt (SMap.get 0 c.image i)
  match c.op with
  | 2 =>
    let k := c.count / c.ranks
    ((List.range n).filter fun i => c.rank * k ≤ b + i ∧ b + i < (c.rank + 1) * k).map fun i => (b + i - c.rank * k, val i)
  | 3 => (List.range (c.ranks * n)).map fun i => (i / n * c.count + b + i % n, val i)
  | _ => (List.range n).map fun i => (b + i, val i)

/-- The final gather of a chunk: its output joins what waits for its block. An element of zero is an entry like any other. -/
def gatherChunk (c : Coll) : Coll :=
  { c with
    stage := 2
    outp := (chunkOut c).foldl (fun m e => (m.filter fun x => x.1 < e.1) ++ [e] ++ m.filter fun x => e.1 < x.1) c.outp }

/-- Output elements of a block of 256 bytes. -/
def perBlock (c : Coll) : Nat := 256 / (c.dt.width / 8)

/-- The lowest block of the output of which every element is final (R297). -/
def wholeBlock (c : Coll) : Option Nat :=
  let per := perBlock c
  let total := collOut c.rcd c.ranks
  ((c.outp.map fun e => e.1 / per).eraseDups).find? fun b =>
    decide ((c.outp.filter fun e => e.1 / per = b).length = min per (total - b * per))

/-- The lines of a block of the output. -/
def blockLines (c : Coll) (b : Nat) : List LineAcc :=
  let d := elemsBytes (c.dt.width / 8) ((c.outp.filter fun e => e.1 / perBlock c = b).map Prod.snd)
  lineAccs c.pages (c.dst + 256 * b) d.length d

/-- An access of the reducers for a collective, which goes on with its next act. -/
def collAsk (c : Coll) (a : Acc) (l : List LineAcc) (s : State) : State :=
  let c := { c with busy := true }
  reducerAsk c.core c.held a l (.reductionIntervalClose c.gid c.num) (setColl c s)

/-- The writing of the output: its whole blocks in ascending order, then the next chunk, or the end (R297). -/
def outputColl (c : Coll) (s : State) : State :=
  match wholeBlock c with
  | some b => collAsk c .write (blockLines c b) s
  | none =>
    let c := { c with chunk := c.chunk + 1, stage := 0, image := [] }
    if c.chunk < c.chunks then againColl c (setColl c s) else endColl c 0 s

/-- Ranges of another operation, entered before, that overlap what the collective accesses (R254). -/
def collHeld (c : Coll) (s : State) : Bool :=
  let w := c.dt.width / 8
  earlierRange s c.rid c.src (w * c.count) || (decide (c.src2 ≠ 0) && earlierRange s c.rid c.src2 (w * c.count)) ||
    earlierRange s c.rid c.dst (w * collOut c.rcd c.ranks)

/-- The intervals go on: the next is sent, or the chunk's output is gathered. -/
def nextItv (c : Coll) (s : State) : State :=
  if c.itv < c.itvs then againColl c (sendItv c (setColl c s)) else outputColl (gatherChunk c) s

/-- What the reducers asked for has been served: a chunk's image is filled, or a block of the output is final (R297). -/
def servedColl (c : Coll) (x : UnitOp) (s : State) : State :=
  let c := { c with busy := false }
  if c.stage = 2 then
    let c := match wholeBlock c with
      | some b => if x.got.isEmpty then c else
          { c with outp := c.outp.filter fun e => e.1 / perBlock c ≠ b, blocks := c.blocks ++ [b] }
      | none => c
    match c.fin with
    | some st => endColl c st s
    | none => if x.bad then abortColl c 4 s else outputColl c (setColl c s)
  else match c.fin with
    | some st => endColl c st s
    | none => if x.bad then abortColl c 4 s else nextItv (fillColl c x) s

/-- The next act of a collective. -/
def actColl (c : Coll) (s : State) : State :=
  match unitTake (.reductionIntervalClose c.gid c.num) s with
  | (some x, s) => servedColl c x s
  | (none, s) =>
    if c.fin.isSome || c.busy then s
    else if c.stage = 0 then (if collHeld c s then againColl c s else collAsk c .read (fillLines c) s)
    else if c.stage = 1 ∧ c.itv < c.itvs ∧ itvDone c = true then
      let (s, c) := closeItv c s
      nextItv c s
    else againColl c s

/-- An interval closes; the filling of the image and the writing of a chunk are acts of the same kind. -/
def execReductionIntervalClose (s : State) : Host.Outcome State Fault Refusal :=
  onDue s (fun | .reductionIntervalClose g n => some (g, n) | _ => none) fun (g, n) s =>
    match collOf s g n with
    | some c => actColl c s
    | none => s

/-- The completion record (R297). -/
def collRecord (c : Coll) (status : W64) : List Byte :=
  let cause := status.toNat / 256
  let nb := (collOut c.rcd c.ranks * (c.dt.width / 8) + 255) / 256
  let bits := (List.range ((nb + 7) / 8)).map fun i =>
    BitVec.ofNat 8 (((List.range 8).filter fun j => c.blocks.contains (8 * i + j)).foldl (fun n j => n + 2 ^ j) 0)
  leBytes 4 (if status = 0 then 0 else 1) ++ leBytes 4 cause ++ leBytes 8 c.query.toNat ++ leBytes 8 nb ++ leBytes 40 0 ++ bits

/-- The reducers write the record; on the cycle after it is served the token completes. -/
def completeColl (c : Coll) (s : State) : State :=
  let st := c.fin.getD 0
  match unitTake (.collectiveComplete c.gid c.num) s with
  | (some x, s) =>
    let s := s.onGrp fun g => { g with colls := g.colls.erase c }
    endOperation c.rid c.root c.jobId c.token (collParty c.core) c.pages (if x.bad ∧ st = 0 then abortStatus 4 else st) c.held s
  | (none, s) =>
    if c.wrote ∨ c.busy ∨ c.fin = none then s
    else
      let d := collRecord c st
      reducerAsk c.core c.held .write (lineAccs c.pages c.comp d.length d) (.collectiveComplete c.gid c.num) (setColl { c with wrote := true } s)

/-- An operation of a group that another core of this device issues, or that ends there; a collective or a pass takes the next number
(R294, R295) (DESIGN CHOICE, log 1). -/
def otherCoreOp (gid core kind : Nat) (enter : Bool) (s : State) : State :=
  if enter then
    let n := ((s.grp.seqs.find? fun x => x.1 = gid).map Prod.snd).getD 0
    s.onGrp fun g => { g with
      foreign := g.foreign ++ [(gid, core, kind)]
      seqs := if kind < 2 then (gid, n + 1) :: g.seqs.filter fun x => x.1 ≠ gid else g.seqs }
  else s.onGrp fun g => { g with foreign := g.foreign.erase (gid, core, kind) }

def execCollectiveComplete (s : State) : Host.Outcome State Fault Refusal :=
  onDue s (fun | .collectiveComplete g n => some (Sum.inl (g, n)) | .groupOp g c k e => some (Sum.inr (g, c, k, e)) | _ => none) fun e s =>
    match e with
    | .inl (g, n) => (match collOf s g n with | some c => completeColl c s | none => s)
    | .inr (g, c, k, e) => otherCoreOp g c k e s

/-- What the members of a collective compare (R295): OP, DT, RED, ALG, NL, ROOT, COUNT, BLK and the level entries. -/
def collKey (r : CollRec) : List Nat :=
  [0, r.op, r.dt.code.toNat, r.red, r.alg, r.lvls.length, r.root, r.count, r.blk] ++
    r.lvls.flatMap fun l => [l.n, l.pexp, if l.sync then 1 else 0, l.c, (l.ls % 2 ^ 48).toNat, (l.rs % 2 ^ 48).toNat]

/-- The records of other members that came before this device's operation. -/
def recsOf (gid num : Nat) (s : State) : List (List Nat) := (s.grp.recs.filter fun x => x.1 = gid ∧ x.2.1 = num).map fun x => x.2.2
def dropRecs (gid num : Nat) (s : State) : State := s.onGrp fun g => { g with recs := g.recs.filter fun x => ¬(x.1 = gid ∧ x.2.1 = num) }

/-- The true interval of a packet, of which it bears the low 8 bits: a sender's packets come in order (R290, R302). -/
def trueStep (low : Nat) (l : List RedPkt) (r : RedPkt) : RedPkt :=
  let m := (l.filter fun x => x.gid = r.gid ∧ x.seqNo = r.seqNo ∧ x.sender = r.sender ∧ x.chunk = r.chunk).foldl (fun m x => max m x.step) low
  { r with step := m + (r.step + 256 - m % 256) % 256 }

/-- A reduce packet waits for its interval; one of another DT or RED shows that the records differ (R295, R384). -/
def execReducePacketArrival (s : State) : Host.Outcome State Fault Refusal :=
  onDue s (fun | .reducePacketArrival k r => some (k, r) | _ => none) fun (k, r) s =>
    withPacket k 3 (fun s =>
      match collOf s r.gid r.seqNo with
      | some c =>
        let low := if r.chunk = c.chunk % 2 ^ 24 then c.itv else 0
        if r.kind = c.dt.code.toNat + 16 * c.red then setColl { c with arrivals := c.arrivals ++ [trueStep low c.arrivals r] } s
        else abortColl c 3 s
      | none => s.onGrp fun g => { g with early := g.early ++ [trueStep 0 g.early r] }) s

/-! ### COLL and COLLQ (R294 to R296) -/

def cap1 (s : State) (i : Nat) : Bool := (Config.cap s.variant s.stepping 1).getLsbD i

/-- The table of a group operation: one identity once only (R285), this device listed. -/
def ownTable (s : State) (va : Nat) : Except Halt (State × PgTable × Nat) := do
  let (s, t) ← groupTable s .sq va
  check (decide (t.nodes.eraseDups.length ≠ t.nodes.length)) s .sq 0x02 0 (BitVec.ofNat 64 va)
  .ok (s, t, t.nodes.findIdx (· = s.node.toNat))

/-- Operations of a group in flight that another core has issued (R295). -/
def foreignGroup (s : State) (gid : Nat) : Bool :=
  (s.grp.foreign.any fun x => x.1 = gid ∧ x.2.1 ≠ s.coreNo) ||
  (s.grp.colls.any fun c => c.gid = gid ∧ c.core ≠ s.coreNo) || (s.grp.reps.any fun c => c.gid = gid ∧ c.core ≠ s.coreNo) ||
    s.grp.rems.any fun c => c.gid = gid ∧ c.core ≠ s.coreNo

/-- The pages of several ranges, each with its permission. -/
def needAll (s : State) : List (Nat × Nat × Perm) → Except Halt (State × List Piece)
  | [] => .ok (s, [])
  | (va, len, p) :: l => do
    let (s, a) ← needPages s .sq va len [p]
    let (s, b) ← needAll s l
    .ok (s, (a ++ b).eraseDups)

/-- What COLL and COLLQ check alike. -/
def collChecks (preg : BitVec 6) (s : State) : Except Halt (State × CollRec × PgTable × Nat × List Piece) := do
  needRegs s [preg]
  let a := s.reg preg
  check (decide (a.toNat % 64 ≠ 0)) s .sq 0x12 0 a
  let (s, l) ← descRead s .sq a.toNat 256
  match parseColl l with
  | none => stop s .sq 0x02 0 a
  | some r =>
    let (s, t, rank) ← ownTable s r.group
    let p := t.nodes.length
    check (!collFits r p) s .sq 0x02 0 a
    check (decide (p ≤ rank)) s .sq 0x07 0 (BitVec.ofNat 64 r.group)
    check (absentTy s r.dt || !cap1 s 4) s .sq 0x04
    let w := collWidth r
    let nb := (collOut r p * w + 255) / 256
    let (s, pages) ← needAll s [(r.src, w * r.count, .r), (r.src2, if r.src2 = 0 then 0 else w * r.count, .r),
      (r.dst, w * collOut r p, .w), (r.comp, 64 + (nb + 7) / 8, .w)]
    check (decide (4096 < pages.length)) s .sq 0x07 0 a
    checkRoute s p
    check (foreignGroup s t.gid) s .sq 0x16 4 4
    .ok (s, r, t, rank, pages)

/-- Collectives and passes of this device that are active. -/
def activeGroupOps (s : State) : Nat :=
  s.grp.colls.length + s.grp.reps.length + (s.grp.foreign.filter fun x => x.2.2 < 2).length

/-- The next number of a group's sequence (R295). -/
def takeNumber (gid : Nat) (s : State) : Nat × State :=
  let n := ((s.grp.seqs.find? fun x => x.1 = gid).map Prod.snd).getD 0
  (n, s.onGrp fun g => { g with seqs := (gid, n + 1) :: g.seqs.filter fun x => x.1 ≠ gid })

/-- Ranges enter the core's copy ranges under one number (R254). -/
def enterRanges (rid : Nat) (l : List (Nat × Nat)) (s : State) : State :=
  s.onCore fun k => { k with
    ranges := k.ranges ++ (l.filter fun x => x.2 ≠ 0).map fun x => ⟨rid, collParty s.coreNo, x.1, x.1 + x.2⟩
    copyNext := k.copyNext + 1 }

/-- The hand-over of a collective to the reducers. -/
def startColl (tok : Nat) (r : CollRec) (t : PgTable) (rank : Nat) (pages : List Piece) (s : State) : State :=
  let p := t.nodes.length
  let w := collWidth r
  let rid := s.core.copyNext + 1
  let (num, s) := takeNumber t.gid (bindToken tok (pinAll s pages))
  let s := enterRanges rid [(r.src, w * r.count), (r.src2, if r.src2 = 0 then 0 else w * r.count), (r.dst, w * collOut r p)] s
  let nest := nestSched r p rank
  let mine (x : RedPkt) : Bool := decide (x.gid = t.gid) && decide (x.seqNo = num)
  let early := s.grp.early.filter mine
  let c : Coll :=
    { rcd := r, gid := t.gid, num := num, rid := rid, core := s.coreNo, jobId := s.job.id, token := tok, root := s.job.l.root, ranks := p,
      rank := rank, nodes := t.nodes, op := r.op, red := r.red, dt := r.dt, vc := r.vc, count := r.count,
      query := collQuery r p, src := r.src, src2 := r.src2, dst := r.dst, comp := r.comp, pages := pages,
      sched := if r.op = 0 then nest.1 else [], itvs := if r.op = 0 then nest.2.1 else collItvs r p, chunks := collChunks r,
      chunk := 0, itv := 0, stage := 0, image := [], arrivals := early, blocks := [], outp := [],
      held := passes s (party s 0), fin := none, wrote := false, busy := false }
  let differs := (recsOf t.gid num s).any (· ≠ collKey r) || early.any fun x => x.kind ≠ r.dt.code.toNat + 16 * r.red
  let s := (dropRecs t.gid num s).onGrp fun g => { g with colls := g.colls ++ [c], early := g.early.filter fun x => !mine x }
  let s := s.emit (.groupRecord t.gid num (collKey r))
  if (decide (r.op = 0) && !nest.2.2) || differs then abortColl c 3 s else againColl c s

def execColl (p : Pred) (t : BitVec 4) (preg : BitVec 6) (s : State) : Host.Outcome State Fault Refusal :=
  sideWord p s fun s => do
    let (s, r, tab, rank, pages) ← collChecks preg s
    waitFor (!tokBusy s t.toNat) s .token
    waitFor (decide (activeGroupOps s < 8)) s .other
    waitFor (pinRoom s pages) s .other
    .ok (startColl t.toNat r tab rank pages s)

def execCollq (p : Pred) (d : BitVec 5) (preg : BitVec 6) (s : State) : Host.Outcome State Fault Refusal :=
  sideWord p s fun s => do
    let (s, r, tab, _, _) ← collChecks preg s
    .ok (later .sq 1 (.sreg d.toNat (collQuery r tab.nodes.length)) s)

/-! ### WRREM and SIGREM (R299 to R301) -/

/-- The fields of a descriptor of 32 bytes. -/
structure RemDesc where
  group : Nat
  src : Nat
  doff : Nat
  len : Nat
  rank : Nat
  bix : Nat
  vc : Nat
  deriving DecidableEq, Repr

def parseRem (sig : Bool) (l : List Byte) : Option RemDesc :=
  let b := fieldN l 30 1
  let r : RemDesc := ⟨fieldN l 0 8, fieldN l 8 8, fieldN l 16 8, fieldN l 24 4, fieldN l 28 2, b % 16, b / 16 % 4⟩
  let bad := decide (b / 64 ≠ 0) || decide (fieldN l 31 1 ≠ 0) || decide (r.len = 0) ||
    (if sig then decide (r.src ≠ 0) || decide (r.doff % 8 ≠ 0) else decide (2 ^ 26 < r.len))
  if bad then none else some r

/-- The checks of both words (R300). -/
def remChecks (sig : Bool) (preg : BitVec 6) (s : State) : Except Halt (State × RemDesc × PgTable × List Piece) := do
  needRegs s [preg]
  let a := s.reg preg
  check (decide (a.toNat % 32 ≠ 0)) s .sq 0x12 0 a
  let (s, l) ← descRead s .sq a.toNat 32
  match parseRem sig l with
  | none => stop s .sq 0x02 0 a
  | some r =>
    let (s, t, rank) ← ownTable s r.group
    check (decide (t.nodes.length ≤ r.rank) || decide (r.rank = rank)) s .sq 0x02 0 a
    check (decide (t.nodes.length ≤ rank)) s .sq 0x07 0 (BitVec.ofNat 64 r.group)
    let (s, pages) ← needAll s [(r.src, if sig then 0 else r.len, .r)]
    checkRoute s t.nodes.length
    check (foreignGroup s t.gid) s .sq 0x16 4 4
    .ok (s, r, t, pages)

def remBody (off bix inc : Nat) : List Byte := leBytes 8 off ++ leBytes 1 bix ++ leBytes 3 0 ++ leBytes 4 inc

/-- What a one-sided word hands over. -/
def remoteOf (s : State) (tok : Option Nat) (r : RemDesc) (t : PgTable) (left : Nat) (pages : List Piece) : Remote :=
  ⟨s.grp.remNext, t.gid, s.coreNo, s.job.id, tok, left, false, if tok.isSome then passes s (party s 0) else [], s.job.l.root, pages,
    wordRef s .sq, r.src, r.len, r.doff, r.bix, r.vc, (t.nodes[r.rank]?).getD 0, false, []⟩

def addRemote (m : Remote) (s : State) : State := s.onGrp fun g => { g with rems := g.rems ++ [m], remNext := g.remNext + 1 }
def setRemote (m : Remote) (s : State) : State := s.onGrp fun g => { g with rems := g.rems.map fun x => if x.id = m.id then m else x }

/-- A signal is sent once every earlier WRREM to its rank on its channel has been (R301). -/
def signalFree (s : State) (m : Remote) : Bool :=
  !((s.grp.rems.takeWhile fun x => x.id ≠ m.id).any fun x => x.token.isSome && !x.sent && decide (x.dst = m.dst) && decide (x.vc = m.vc))

def sendSignals (s : State) : State :=
  s.grp.rems.foldl (fun s m =>
    if m.token = none ∧ m.sent = false ∧ signalFree s m = true then
      sendPacket 2 m.vc m.dst m.gid (remBody m.off m.bix m.len) [] (setRemote { m with sent := true } s)
    else s) s

/-- A WRREM's source has been read: its bytes leave in address order, at most 4,096 a packet. A race or bad data there is one of an engine
operation: it stops, its token is ERR, and its job takes the fault at the word (R253, R365). -/
def wrremSend (m : Remote) (x : UnitOp) (s : State) : State :=
  let tok := m.token.getD 0
  match x.fault with
  | some (code, f2, f3) =>
    let s := s.onGrp fun g => { g with rems := g.rems.filter fun y => y.id ≠ m.id }
    let s := (onePer m.pages).foldl (fun s p => unpinOne m.root p s) s
    let s := completeToken m.jobId tok (BitVec.ofNat 64 code) (unionNat [m.core * 32 + 8 + tok] m.held) s
    let s := if m.jobId = s.job.id then
        takeFault s ⟨BitVec.ofNat 8 code, 0, m.word, false, false, true, false, false, false, f2, f3⟩ else s
    sendSignals s
  | none =>
    let d := x.bytes m.src m.len
    let s := (List.range ((m.len + 4095) / 4096)).foldl (fun s i =>
      sendPacket 1 m.vc m.dst m.gid (remBody (m.off + 4096 * i) m.bix 0) ((d.drop (4096 * i)).take 4096) s) s
    sendSignals (setRemote { m with sent := true } s)

/-- The next act of a WRREM: its source is read in the slots of its core's copy engine, as its agent (DESIGN CHOICE, log 33), once no copy
in flight covers a byte of it (R254). -/
def wrremAct (id : Nat) (s : State) : State :=
  match s.grp.rems.find? fun m => m.id = id with
  | none => s
  | some m =>
    match unitTake (.wrremSource id) s with
    | (some x, s) => wrremSend m x s
    | (none, s) =>
      let hit := s.core.ranges.filter fun r => decide (r.lo < m.src + m.len) && decide (m.src < r.hi)
      if hit.isEmpty then
        unitAsk (s.cyc + 1) (.copyEng m.core) .read (m.core * 32 + 8 + m.token.getD 0) 0 m.held false (lineAccs m.pages m.src m.len [])
          (.wrremSource id) s
      else (setRemote { m with ranges := unionNat m.ranges (hit.map DevRange.id) } s).postAt (s.cyc + 1) (.wrremSource id)

/-- The hand-over of a WRREM. -/
def startWrrem (tok : Nat) (r : RemDesc) (t : PgTable) (pages : List Piece) (s : State) : State :=
  let s := bindToken tok (pinAll s pages)
  let m := remoteOf s (some tok) r t ((r.len + 4095) / 4096) pages
  (addRemote m s).postAt (s.cyc + 1) (.wrremSource m.id)

def execWrrem (p : Pred) (t : BitVec 4) (preg : BitVec 6) (s : State) : Host.Outcome State Fault Refusal :=
  sideWord p s fun s => do
    let (s, r, tab, pages) ← remChecks false preg s
    waitFor (!tokBusy s t.toNat) s .token
    waitFor (pinRoom s pages) s .other
    .ok (startWrrem t.toNat r tab pages s)

def execSigrem (p : Pred) (preg : BitVec 6) (s : State) : Host.Outcome State Fault Refusal :=
  sideWord p s fun s => do
    let (s, r, tab, _) ← remChecks true preg s
    waitFor (storeRoom s) s .other
    let s := addRemote (remoteOf s none r tab 1 []) s
    .ok (sendSignals (s.onSeq fun q => { q with remOut := q.remOut + 1 }))

/-- An acknowledgement of the moves of a pass (R314). -/
def repAck (id : Nat) (s : State) : State :=
  match s.grp.reps.find? fun c => c.ack = id ∧ c.left ≠ 0 with
  | none => s
  | some c =>
    let s := s.onGrp fun g => { g with reps := g.reps.map fun x => if x.gid = c.gid ∧ x.num = c.num then { x with left := x.left - 1 } else x }
    if c.left = 1 then s.postAt (s.cyc + 1) (.repartComplete c.gid c.num) else s

/-- An acknowledgement: the last completes the token, or ends the signal's count (R300), or lets a pass write its record. -/
def takeAck (id : Nat) (ok : Bool) (s : State) : State :=
  match s.grp.rems.find? fun m => m.id = id with
  | none => repAck id s
  | some m =>
    let m' := { m with left := m.left - 1, bad := m.bad || !ok }
    if m'.left = 0 then
      let s := s.onGrp fun g => { g with rems := g.rems.filter fun x => x.id ≠ id }
      match m.token with
      | some t =>
        let s := (onePer m.pages).foldl (fun s p => unpinOne m.root p s) s
        completeToken m.jobId t (if m'.bad then 0x0107 else 0) (unionNat [m.core * 32 + 8 + t] m.held) s
      | none => onJobOf m.jobId (fun j => { j with seq := { j.seq with remOut := j.seq.remOut - 1 } }) s
    else setRemote m' s

/-- An acknowledgement arrives; or a WRREM of this core goes on. -/
def execAckPacketArrival (s : State) : Host.Outcome State Fault Refusal :=
  onDue s (fun | .ackPacketArrival k id ok => some (Sum.inl (k, id, ok)) | .wrremSource id => some (Sum.inr id) | _ => none) fun e s =>
    match e with
    | .inl (k, id, ok) => withPacket k 6 (takeAck id ok) s
    | .inr id => wrremAct id s

/-- The place in this core's resident job that a packet of a group names, where the binding admits it (R299, R300). -/
def bindingPlace (s : State) (gid bix off len : Nat) : Option (Nat × List Piece) :=
  let b := s.binding bix
  if s.job.st ≠ .none ∧ (s.job.l.gang.map fun g => g.1) = some gid ∧ b.v = true ∧ b.wr = true ∧
      off + len ≤ b.len then some (b.base + off, b.pages) else none

/-- The first packet of a WRREM: its whole range is checked against the binding (R300). -/
def wrremCheck (k : SynPkt) (id doff len : Nat) (s : State) : State :=
  s.onGrp fun g => { g with wrs := g.wrs ++ [⟨k.src.toNat, id, len, bindingPlace s k.gid.toNat (k.body.getD 8 0).toNat doff len⟩] }

/-- A packet of a WRREM: its bytes go as fabric arrivals to where its check has put them, in the port's slots (R239, R300); of one whose
check has failed nothing is written. -/
def wrremWrite (k : SynPkt) (id doff : Nat) (s : State) : State :=
  match s.grp.wrs.find? fun w => w.src = k.src.toNat ∧ w.id = id with
  | none => s.emit (.wrAck k false)
  | some w =>
    let left := w.left - k.data.length
    let rest (l : List WrIn) : List WrIn := if left = 0 then l.erase w else l.map fun x => if x = w then { w with left := left } else x
    let s := s.onGrp fun g => { g with wrs := rest g.wrs }
    match w.place with
    | none => s.emit (.wrAck k false)
    | some (va, pages) =>
      unitAsk s.cyc (.port 0) .write 26 0 [] true (lineAccs pages (va + (leNat (k.body.take 8) - doff)) k.data.length k.data) (.writeServed k) s

/-- A write packet: the binding's check with the first of its WRREM, the bytes, and, once they are served, the acknowledgement (R300).
What the event says beside the packet, which WRREM it is of, that WRREM's offset and length and whether it is its first, the spec gives
the packet no field for (DESIGN CHOICE, log 33). -/
def execWritePacketArrival (s : State) : Host.Outcome State Fault Refusal :=
  onDue s (fun | .writePacketArrival k id f o n => some (Sum.inl (k, id, f, o, n)) | .writeServed k => some (Sum.inr k) | _ => none) fun e s =>
    match e with
    | .inl (k, id, first, doff, len) =>
      withPacket k 1 (fun s => wrremWrite k id doff (if first then wrremCheck k id doff len s else s)) s
    | .inr k =>
      match unitTake (.writeServed k) s with
      | (some x, s) => s.emit (.wrAck k (!x.bad))
      | (none, s) => s

/-- An earlier write from the same device on the same channel that has not been served. -/
def writesBefore (s : State) (k : SynPkt) : Bool :=
  s.dev.ops.any fun x => match x.next with
    | .writeServed w => decide (w.src = k.src) && decide (w.ctl.toNat % 4 = k.ctl.toNat % 4)
    | _ => false

/-- A signal: its increment goes to the semaphore's home engine, after the writes before it, releasing a set with the fabric arrivals (R301). -/
def execSignalPacketArrival (s : State) : Host.Outcome State Fault Refusal :=
  onDue s (fun | .signalPacketArrival k => some k | _ => none) fun k s =>
    withPacket k 2 (fun s =>
      let off := leNat (k.body.take 8)
      if writesBefore s k then s.postAt (s.cyc + 1) (.signalPacketArrival k)
      else match bindingPlace s k.gid.toNat (k.body.getD 8 0).toNat off 8 with
      | none => s.emit (.wrAck k false)
      | some (va, pages) =>
        let pa := (pieceAt pages va).getD 0
        let inc := BitVec.ofNat 64 (leNat ((k.body.drop 12).take 4))
        (atomSend s.cyc ⟨.synric 0, .sempost, va, pa, 8, inc, 0, 0, false, true, 26, racePhase s, [26], wordRef s .sq, 0⟩ s).emit
          (.wrAck k true)) s

end Sys2Proof.Machine
end

