-- ==== Sys2Proof/Machine/Repart.lean ====
section
/-! DEFINITION. REPART: its record, the keys, the rounds of histograms, the dealing of room, the move and the completion (R304 to R316). -/
namespace Sys2Proof.Machine

/-! ### The record (R304, R305) -/

structure RepRec where
  ctrl : W64
  group : Nat
  src : Nat
  nsrc : Nat
  rbuf : Nat
  rcap : Nat
  rhave : Nat
  comp : Nat
  reta : Nat
  retcap : Nat
  lo : List W32
  cell : List W32
  prev : Nat
  deriving DecidableEq, Repr

def repBits (c : W64) (i n : Nat) : Nat := c.toNat / 2 ^ i % 2 ^ n
/-- Bytes of an element. -/
def repSize (c : W64) : Nat := 8 * repBits c 40 8
def repMode (c : W64) : Bool := c.getLsbD 12
def repKsrc (c : W64) : Nat := repBits c 14 2
def repVc (c : W64) : Nat := repBits c 10 2

/-- A finite FP32 value, and one that is positive as well. -/
def finite32 (x : W32) : Bool := (f32v x).isFin
def posFinite (x : W32) : Bool := match f32v x with | .num q _ => decide (0 < q) | _ => false

def rangesMeet (a b : Nat × Nat) : Bool := decide (a.2 ≠ 0) && decide (b.2 ≠ 0) && overlaps a.1 a.2 b.1 b.2

/-- A record at an address, or nothing where it breaks R304 or R305. -/
def parseRep (a : Nat) (l : List Byte) : Option RepRec :=
  let c := field64 l 0
  let w32 (o : Nat) : W32 := BitVec.ofNat 32 (fieldN l o 4)
  let r : RepRec := ⟨c, fieldN l 8 8, fieldN l 16 8, fieldN l 24 4, fieldN l 32 8, fieldN l 40 4, fieldN l 44 4, fieldN l 48 8,
    fieldN l 56 8, fieldN l 64 4, [w32 72, w32 76, w32 80], [w32 84, w32 88, w32 92], fieldN l 96 8⟩
  let z := repSize c
  let xoff := repBits c 32 8
  let koff := repBits c 24 8
  let woff := repBits c 16 8
  let ks := repKsrc c
  let wt := c.getLsbD 13
  let noBox := fieldN l 72 24 = 0
  let src := (r.src, z * r.nsrc)
  let rb := (r.rbuf, z * r.rcap)
  let ra := (r.reta, z * r.retcap)
  let me := (a, 256)
  let meets := rangesMeet src rb || rangesMeet src ra || rangesMeet rb ra || rangesMeet src me || rangesMeet rb me || rangesMeet ra me
  let modeBad :=
    if repMode c then decide (ks ≠ 0) || wt || decide (xoff ≠ 0) || decide (koff ≠ 0) || decide (woff ≠ 0) || !noBox || decide (r.prev = 0)
    else decide (ks = 3) || decide (r.prev ≠ 0) || (if wt then decide (z < 4 * woff + 4) else decide (woff ≠ 0)) ||
      (if ks = 2 then decide (xoff ≠ 0) || !noBox || decide (z < 8 * koff + 8)
       else decide (koff ≠ 0) || decide (z < 4 * xoff + 12) || !r.lo.all finite32 || !r.cell.all posFinite)
  let bad := decide (repBits c 48 16 ≠ 0) || decide (repBits c 0 10 ≠ 0) || decide (z = 0) || decide (256 < z) ||
    decide (r.src % 8 ≠ 0) || decide (r.rbuf % 8 ≠ 0) || decide (r.reta % 8 ≠ 0) || decide (r.comp % 64 ≠ 0) ||
    decide (fieldN l 28 4 ≠ 0) || decide (fieldN l 68 4 ≠ 0) || decide (r.rcap < r.rhave) || decide (fieldN l 104 152 ≠ 0) ||
    meets || modeBad
  if bad then none else some r

/-! ### REPART (R313) -/

def repOf (s : State) (gid num : Nat) : Option Rep := s.grp.reps.find? fun c => c.gid = gid ∧ c.num = num

def setRep (c : Rep) (s : State) : State :=
  s.onGrp fun g => { g with reps := g.reps.map fun x => if x.gid = c.gid ∧ x.num = c.num then c else x }

/-- The next act of a pass comes when the spec does not say (R316) (DESIGN CHOICE, log 32). -/
def repAgain (ev : Ev) (s : State) : State := s.postAt (s.cyc + 1 + Config.repartCycles s.nseq) ev

/-- The end: its record is written next, once no access of its units is out. -/
def endRep (c : Rep) (status : W64) (s : State) : State :=
  let s := setRep { c with fin := some status } s
  if c.busy ∨ (s.agenda.any fun e => e.ev = .repartComplete c.gid c.num) = true then s
  else s.postAt (s.cyc + 1) (.repartComplete c.gid c.num)

/-- A stop of another member's making, and one that this member has found (R315). -/
def stopRep (c : Rep) (cause : Nat) (s : State) : State := if c.fin.isSome then s else endRep c (abortStatus cause) s
def abortRep (c : Rep) (cause : Nat) (s : State) : State :=
  if c.fin.isSome then s else endRep c (abortStatus cause) (tellAbort c.gid c.num cause s)

/-- What the members of a pass compare (R313): CTRL but for VC, ESZ among it, and the box. -/
def repKey (r : RepRec) : List Nat :=
  [1, (r.ctrl &&& ~~~0xC00).toNat] ++ r.lo.map BitVec.toNat ++ r.cell.map BitVec.toNat

/-- Every element of rank s for d, by the counts of a list, in order: the destinations of a finishing pass (R312). -/
def countedDests (counts : List Nat) : List Nat := counts.zipIdx.flatMap fun x => List.replicate x.1 x.2

def execRepart (p : Pred) (t : BitVec 4) (preg : BitVec 6) (s : State) : Host.Outcome State Fault Refusal :=
  sideWord p s fun s => do
    needRegs s [preg]
    let a := s.reg preg
    check (decide (a.toNat % 64 ≠ 0)) s .sq 0x12 0 a
    let (s, l) ← descRead s .sq a.toNat 256
    let (s, tab, rank) ← ownTable s (fieldN l 8 8)
    match parseRep a.toNat l with
    | none => stop s .sq 0x02 0 a
    | some r =>
      let n := tab.nodes.length
      let (s, counts) ← (if repMode r.ctrl then do
          let (s, l) ← descRead s .sq (r.prev + 64) (4 * n)
          let cs := (List.range n).map fun i => fieldN l (4 * i) 4
          check (decide (cs.foldl (· + ·) 0 ≠ r.nsrc)) s .sq 0x02 0 a
          pure (s, some cs)
        else pure (s, none) : Except Halt (State × Option (List Nat)))
      check (decide (n ≤ rank)) s .sq 0x07 0 (BitVec.ofNat 64 r.group)
      check (!cap1 s 5 || !cap1 s 4) s .sq 0x04
      let z := repSize r.ctrl
      let (s, pages) ← needAll s [(r.src, z * r.nsrc, .r), (r.prev, if repMode r.ctrl then 64 + 4 * n else 0, .r),
        (r.rbuf, z * r.rcap, .w), (r.reta, z * r.retcap, .w), (r.comp, 64 + 4 * n, .w)]
      check (decide (4096 < pages.length)) s .sq 0x07 0 a
      checkRoute s tab.nodes.length
      check (foreignGroup s tab.gid) s .sq 0x16 4 4
      waitFor (!tokBusy s t.toNat) s .token
      waitFor (decide (activeGroupOps s < 8)) s .other
      waitFor (pinRoom s pages) s .other
      let rid := s.core.copyNext + 1
      let (num, s) := takeNumber tab.gid (bindToken t.toNat (pinAll s pages))
      let s := enterRanges rid [(r.src, z * r.nsrc), (r.rbuf, z * r.rcap), (r.reta, z * r.retcap), (r.comp, 64 + 4 * n)] s
      let key := repKey r
      let c : Rep :=
        { gid := tab.gid, num := num, rid := rid, core := s.coreNo, jobId := s.job.id, token := t.toNat, root := s.job.l.root,
          ranks := n, rank := rank, nodes := tab.nodes, ctrl := r.ctrl, src := r.src, nsrc := r.nsrc, rbuf := r.rbuf, rcap := r.rcap,
          rhave := r.rhave, comp := r.comp, reta := r.reta, retcap := r.retcap, lo := r.lo, cell := r.cell, pages := pages, keys := [],
          clamps := 0, round := 0, bnd := [], total := 0, dests := counts.map countedDests, recv := 0,
          kept := List.replicate n 0, ovf := false, held := passes s (party s 0), fin := none, wrote := false, busy := false, ack := 0,
          left := 0, key := key }
      let differs := (recsOf c.gid num s).any (· ≠ key)
      let s := (dropRecs c.gid num s).onGrp fun g => { g with reps := g.reps ++ [c] }
      let s := s.emit (.groupRecord c.gid num key)
      .ok (if differs then abortRep c 3 s else repAgain (.keyRound c.gid c.num) s)

/-! ### Keys (R306, R307) -/

/-- A coordinate as a cell index, and whether it was clamped. -/
def cellIndex (x lo cell : W32) : Nat × Bool :=
  match f32v x, f32v lo, f32v cell with
  | .num a _, .num l _, .num c _ =>
    let q := ((a - l) / c).floor
    if q < 0 then (0, true) else if (2 ^ 21 - 1 : Int) < q then (2 ^ 21 - 1, true) else (q.toNat, false)
  | .inf neg, _, _ => (if neg then 0 else 2 ^ 21 - 1, true)
  | _, _, _ => (0, true)

/-- An element's key, its weight, and how many coordinates were clamped. -/
def elemKey (c : Rep) (e : List Byte) : Nat × Nat × Nat :=
  let w := if c.ctrl.getLsbD 13 then fieldN e (4 * repBits c.ctrl 16 8) 4 else 1
  if repKsrc c.ctrl = 2 then (fieldN e (8 * repBits c.ctrl 24 8) 8 % 2 ^ 63, w, 0)
  else
    let ix := (List.range 3).map fun a =>
      cellIndex (BitVec.ofNat 32 (fieldN e (4 * repBits c.ctrl 32 8 + 4 * a) 4)) (c.lo.getD a 0) (c.cell.getD a 0)
    let v (a : Nat) : Nat := (ix.getD a (0, false)).1
    let k := if repKsrc c.ctrl = 0 then mortonKey (v 0) (v 1) (v 2) else hilbertKey (v 0) (v 1) (v 2)
    (k, w, (ix.filter Prod.snd).length)

/-- The elements of a pass, in source order, as its units have read them. -/
def repElems (c : Rep) (x : UnitOp) : List (List Byte) :=
  let z := repSize c.ctrl
  let l := x.bytes c.src (z * c.nsrc)
  (List.range c.nsrc).map fun i => (l.drop (z * i)).take z

/-- An access of the units of a pass: of the key units, or of the reducers (R239, R309). -/
def repAsk (c : Rep) (o : Owner) (a : Acc) (l : List LineAcc) (next : Ev) (s : State) : State :=
  unitAsk (s.cyc + 1) o a (collParty c.core) 0 c.held true l next (setRep { c with busy := true } s)

/-- The lines of the source. -/
def repSource (c : Rep) : List LineAcc := lineAccs c.pages c.src (repSize c.ctrl * c.nsrc) []

/-! ### Rounds (R309) -/

/-- The key bits that a round leaves below its buckets. -/
def roundShift (i : Nat) : Nat := match i with | 0 => 51 | 1 => 39 | 2 => 27 | 3 => 15 | 4 => 3 | _ => 0

def addWeight (m : List (Nat × Nat)) (k w : Nat) : List (Nat × Nat) :=
  match m with
  | [] => [(k, w)]
  | (x, v) :: l => if k < x then (k, w) :: (x, v) :: l else if k = x then (x, v + w) :: l else (x, v) :: addWeight l k w

/-- This rank's histogram of a round: key prefixes with their weights, of the boundary buckets after the first round. -/
def roundHist (c : Rep) : List (Nat × Nat) :=
  let sh := 2 ^ roundShift c.round
  let inB (k : Nat) : Bool := decide (c.round = 0) || c.bnd.any fun b => b.1 = k / 2 ^ roundShift (c.round - 1)
  (c.keys.filter fun k => inB k.1).foldl (fun m k => addWeight m (k.1 / sh) k.2) []

/-- The sum of the ranks' histograms. -/
def sumHists (l : List (List (Nat × Nat))) : List (Nat × Nat) := l.flatten.foldl (fun m e => addWeight m e.1 e.2) []

/-- The bucket of boundary r among the children of its bucket so far, with the weight below it. -/
def findBucket (p r total : Nat) : List (Nat × Nat) → Nat → Nat × Nat
  | [], cum => (0, cum)
  | (k, w) :: l, cum => if r * total ≤ p * (cum + w) ∨ l = [] then (k, cum) else findBucket p r total l (cum + w)

/-- What this rank tells the others of its counts, and what it does when it is alone. -/
def publishCounts (c : Rep) (s : State) : State :=
  let d := c.dests.getD []
  let counts := (List.range c.ranks).map fun r => (d.filter fun x => x = r).length
  let s := s.emit (.repCounts c.gid c.num ⟨c.rank, counts, c.rcap - c.rhave, c.retcap, []⟩)
  if c.ranks = 1 then repAgain (.elementMove c.gid c.num []) s else s

/-- A histogram leaves for the other ranks; a rank that is alone goes on with its own. -/
def sendHist (c : Rep) (s : State) : State :=
  let s := s.emit (.repHist c.gid c.num c.round (roundHist c))
  if c.ranks = 1 then repAgain (.histogramReduction c.gid c.num []) s else s

/-- Ranges of another operation, entered before, that overlap what a pass accesses (R254). -/
def repHeld (c : Rep) (s : State) : Bool :=
  let z := repSize c.ctrl
  earlierRange s c.rid c.src (z * c.nsrc) || earlierRange s c.rid c.rbuf (z * c.rcap) || earlierRange s c.rid c.reta (z * c.retcap)

/-- The key units have read the elements: they are keyed, or the pass goes on with the counts that it was given (R309, R312). -/
def keyElems (c : Rep) (x : UnitOp) (s : State) : State :=
  let c := { c with busy := false }
  match c.fin with
  | some st => endRep c st s
  | none =>
    if x.bad then abortRep c 4 s
    else if c.dests.isSome then publishCounts c (setRep c s)
    else
      let ks := (repElems c x).map (elemKey c)
      let c := { c with keys := ks.map fun k => (k.1, k.2.1), clamps := (ks.map fun k => k.2.2).foldl (· + ·) 0 }
      sendHist c (setRep c s)

/-- The first round keys the elements; each round sends its histogram. A finishing pass has none (R312, R316). -/
def keyRound (c : Rep) (s : State) : State :=
  match unitTake (.keyRound c.gid c.num) s with
  | (some x, s) => keyElems c x s
  | (none, s) =>
    if c.fin.isSome || c.busy then s
    else if repHeld c s then repAgain (.keyRound c.gid c.num) s
    else if c.round ≠ 0 then sendHist c s
    else repAsk c .keyUnit .read (repSource c) (.keyRound c.gid c.num) s

def execKeyRound (s : State) : Host.Outcome State Fault Refusal :=
  onDue s (fun | .keyRound g n => some (g, n) | _ => none) fun (g, n) s =>
    match repOf s g n with
    | some c => keyRound c s
    | none => s

/-- The destinations once the boundary keys are known (R308, R309): an element of a boundary key by its exact prefix, the others by the
boundaries below them. -/
def splitDests (c : Rep) (hists : List (Nat × List (Nat × Nat))) : List Nat :=
  let p := c.ranks
  let before (k : Nat) : Nat := ((hists.filter fun h => h.1 < c.rank).map fun h =>
    ((h.2.find? fun e => e.1 = k).map Prod.snd).getD 0).foldl (· + ·) 0
  (c.keys.foldl (fun (acc : List Nat × List (Nat × Nat)) e =>
    match c.bnd.find? fun b => b.1 = e.1 with
    | some b =>
      let mine := ((acc.2.find? fun x => x.1 = e.1).map Prod.snd).getD 0
      (acc.1 ++ [min (p - 1) ((b.2 + before e.1 + mine) * p / c.total)], addWeight acc.2 e.1 e.2)
    | none => (acc.1 ++ [(c.bnd.filter fun b => b.1 < e.1).length], acc.2)) ([], [])).1

/-- The histograms of a round are summed: the boundary buckets, and after the last round the destinations. -/
def reduceHists (c : Rep) (others : List (Nat × List (Nat × Nat))) (s : State) : State :=
  if c.fin.isSome then s
  else
    let hists := (c.rank, roundHist c) :: others
    let all := sumHists (hists.map Prod.snd)
    let total := if c.round = 0 then (all.map Prod.snd).foldl (· + ·) 0 else c.total
    if 2 ^ 64 ≤ total then abortRep c 5 s
    else if total = 0 then
      let c := { c with dests := some (List.replicate c.nsrc c.rank) }
      publishCounts c (setRep c s)
    else
      let step := 2 ^ (roundShift (c.round - 1) - roundShift c.round)
      let bnd := (List.range (c.ranks - 1)).map fun i =>
        let old := c.bnd.getD i (0, 0)
        let kids := if c.round = 0 then all else all.filter fun e => e.1 / step = old.1
        findBucket c.ranks (i + 1) total kids (if c.round = 0 then 0 else old.2)
      let c := { c with total := total, bnd := bnd }
      if c.round < 5 then
        let c := { c with round := c.round + 1 }
        repAgain (.keyRound c.gid c.num) (setRep c s)
      else
        let c := { c with dests := some (splitDests c hists) }
        publishCounts c (setRep c s)

/-- The histograms of a round are all here (R308, R309; what other ranks send comes with the event, DESIGN CHOICE, log 42). -/
def execHistogramReduction (s : State) : Host.Outcome State Fault Refusal :=
  onDue s (fun | .histogramReduction g n o => some (g, n, o) | _ => none) fun (g, n, o) s =>
    match repOf s g n with
    | some c => reduceHists c o s
    | none => s

/-! ### The move (R310, R311) -/

/-- The first part of n(s, d) that the room of d admits, with the sources below s dealt first. -/
def dealt (tab : List RankCounts) (sr d : Nat) : Nat :=
  let n (x : Nat) : Nat := ((tab.find? fun t => t.rank = x).map fun t => t.counts.getD d 0).getD 0
  let room := ((tab.find? fun t => t.rank = d).map RankCounts.room).getD 0
  min (n sr) (room - ((List.range sr).map n).foldl (· + ·) 0)

def keptBy (tab : List RankCounts) (p : Nat) (t : RankCounts) : Nat :=
  ((List.range p).map fun d => t.counts.getD d 0 - dealt tab t.rank d).foldl (· + ·) 0

/-- The stages of a pass after its rounds: its source is read for the move, its elements are written, it has moved. -/
def reading : Nat := 6
def writing : Nat := 7
def moved : Nat := 8

/-- Every rank's counts, this rank's own first. -/
def countTab (c : Rep) (others : List RankCounts) : List RankCounts :=
  let ds := c.dests.getD []
  ⟨c.rank, (List.range c.ranks).map fun r => (ds.filter fun x => x = r).length, c.rcap - c.rhave, c.retcap, []⟩ :: others

/-- What a pass moves once its source is read: for each rank the bytes that are sent, those that are received in the order of their
sources, for each rank the elements retained (R310, R311). -/
structure RepMove where
  sent : Nat → List Byte
  got : List Byte
  kept : Nat → List (List Byte)

def moveOf (c : Rep) (others : List RankCounts) (x : UnitOp) : RepMove :=
  let z := repSize c.ctrl
  let tab := countTab c others
  let es := (repElems c x).zip (c.dests.getD [])
  let group (d : Nat) : List (List Byte) := (es.filter fun e => e.2 = d).map Prod.fst
  let sent (d : Nat) : List Byte := ((group d).take (dealt tab c.rank d)).flatten
  { sent := sent
    kept := fun d => (group d).drop (dealt tab c.rank d)
    got := (List.range c.ranks).flatMap fun sr =>
      if sr = c.rank then sent c.rank
      else ((others.find? fun t => t.rank = sr).map fun t => t.elems.take (z * dealt tab sr c.rank)).getD [] }

/-- The elements for other ranks leave, at most 4,096 bytes a packet; the acknowledgements are counted (R314). -/
def sendMoves (c : Rep) (others : List RankCounts) (m : RepMove) (s : State) : State × Nat :=
  let z := repSize c.ctrl
  let tab := countTab c others
  ((List.range c.ranks).filter fun d => d ≠ c.rank ∧ m.sent d ≠ []).foldl (fun acc d =>
    let b := m.sent d
    let o := z * ((List.range c.rank).map fun x => dealt tab x d).foldl (· + ·) 0
    let k := (b.length + 4095) / 4096
    ((List.range k).foldl (fun s i =>
      sendPacket 1 (repVc c.ctrl) ((c.nodes[d]?).getD 0) c.gid (leBytes 8 (o + 4096 * i)) ((b.drop (4096 * i)).take 4096) s) acc.1,
      acc.2 + k)) (s, 0)

/-- The source has been read: elements are sent, and those that are received and retained are written. -/
def startMove (c : Rep) (others : List RankCounts) (x : UnitOp) (s : State) : State :=
  let z := repSize c.ctrl
  let m := moveOf c others x
  let (s, left) := sendMoves c others m s
  let ret := (List.range c.ranks).flatMap fun d => (m.kept d).flatten
  let c := { c with
    round := writing, recv := m.got.length / z, kept := (List.range c.ranks).map fun d => (m.kept d).length
    ovf := (countTab c others).any fun t => decide (0 < keptBy (countTab c others) c.ranks t), ack := s.grp.remNext, left := left }
  let s := s.onGrp fun g => { g with remNext := g.remNext + 1 }
  repAsk c .reducer .write (lineAccs c.pages (c.rbuf + z * c.rhave) m.got.length m.got ++ lineAccs c.pages c.reta ret.length ret)
    (.elementMove c.gid c.num others) s

/-- What the move asked for has been served. -/
def movedPart (c : Rep) (others : List RankCounts) (x : UnitOp) (s : State) : State :=
  let c := { c with busy := false }
  match c.fin with
  | some st => endRep c st s
  | none =>
    if x.bad then abortRep c 4 s
    else if c.round = reading then startMove c others x s
    else repAgain (.repartComplete c.gid c.num) (setRep { c with round := moved } s)

def moveElements (c : Rep) (others : List RankCounts) (s : State) : State :=
  match unitTake (.elementMove c.gid c.num others) s with
  | (some x, s) => movedPart c others x s
  | (none, s) =>
    if c.fin.isSome ∨ c.busy ∨ c.dests = none ∨ reading ≤ c.round then s
    else if (countTab c others).any fun t => decide (t.retCap < keptBy (countTab c others) c.ranks t) then abortRep c 6 s
    else repAsk { c with round := reading } .keyUnit .read (repSource c) (.elementMove c.gid c.num others) s

/-- Elements move once every rank's counts are known; what the other ranks send here comes with their counts (DESIGN CHOICE, log 1). -/
def execElementMove (s : State) : Host.Outcome State Fault Refusal :=
  onDue s (fun | .elementMove g n o => some (g, n, o) | _ => none) fun (g, n, o) s =>
    match repOf s g n with
    | some c => moveElements c o s
    | none => s

/-! ### Completion (R314, R315) -/

def repRecord (c : Rep) (status : W64) : List Byte :=
  let aborted := decide (status ≠ 0)
  leBytes 4 (if aborted then 1 else if c.ovf then 2 else 0) ++ leBytes 4 (status.toNat / 256) ++ leBytes 4 (c.rhave + c.recv) ++
    leBytes 4 (c.kept.foldl (· + ·) 0) ++ leBytes 8 c.total ++ leBytes 4 c.clamps ++ leBytes 36 0 ++ c.kept.flatMap fun n => leBytes 4 n

/-- After a stop with cause 1, 2 or 4 the elements of RBUF from RHAVE on and the whole of RETA are undefined: free bytes stand there
(R315) (DESIGN CHOICE, log 57). -/
def spoilRep (c : Rep) (s : State) : State :=
  let z := repSize c.ctrl
  let free (va n : Nat) (s : State) : State :=
    let (s, l) := freeWords ((n + 3) / 4) s
    plainWriteAll c.pages va ((wordsBytes l).take n) s
  free c.reta (z * c.retcap) (free (c.rbuf + z * c.rhave) (z * (c.rcap - c.rhave)) s)

def undefinedAfter (st : W64) : Bool := decide (st = abortStatus 1) || decide (st = abortStatus 2) || decide (st = abortStatus 4)

/-- The record is written, and on the cycle after it is served the token completes: at the end of a pass that has moved and been
acknowledged, or of one that has stopped (R313, R314). -/
def completeRep (c : Rep) (s : State) : State :=
  let st := c.fin.getD 0
  match unitTake (.repartComplete c.gid c.num) s with
  | (some x, s) =>
    let s := if x.bad ∧ st = 0 then spoilRep c s else s
    let s := s.onGrp fun g => { g with reps := g.reps.erase c }
    endOperation c.rid c.root c.jobId c.token (collParty c.core) c.pages (if x.bad ∧ st = 0 then abortStatus 4 else st) c.held s
  | (none, s) =>
    if c.wrote ∨ c.busy then s
    else if c.fin.isSome ∨ (c.round = moved ∧ c.left = 0) then
      let s := if undefinedAfter st then spoilRep c s else s
      let d := repRecord c st
      unitAsk (s.cyc + 1) .reducer .write (collParty c.core) 0 c.held true (lineAccs c.pages c.comp d.length d) (.repartComplete c.gid c.num)
        (setRep { c with fin := some st, wrote := true } s)
    else s

def execRepartComplete (s : State) : Host.Outcome State Fault Refusal :=
  onDue s (fun | .repartComplete g n => some (g, n) | _ => none) fun (g, n) s =>
    match repOf s g n with
    | some c => completeRep c s
    | none => s

/-- A stop that another member, a link or the memory brings about (R298, R315). -/
def execRepartAbort (s : State) : Host.Outcome State Fault Refusal :=
  onDue s (fun | .repartAbort g n cause => some (g, n, cause) | _ => none) fun (g, n, cause) s =>
    match repOf s g n with
    | some c => stopRep c cause.toNat s
    | none => s

/-- Another member's record of a number: one that differs stops this device's operation with cause 3; one that comes first is kept
(R295, R298, R313). How the members compare the spec does not say (DESIGN CHOICE, log 57). -/
def memberRecord (gid num : Nat) (key : List Nat) (s : State) : State :=
  match collOf s gid num, repOf s gid num with
  | some c, _ => if collKey c.rcd = key then s else abortColl c 3 s
  | none, some c => if c.key = key then s else abortRep c 3 s
  | none, none => s.onGrp fun g => { g with recs := g.recs ++ [(gid, num, key)] }

/-- A stop that another member, a link or the memory brings about (R298), or another member's record. -/
def execCollectiveAbort (s : State) : Host.Outcome State Fault Refusal :=
  onDue s (fun | .collectiveAbort g n cause => some (Sum.inl (g, n, cause)) | .memberRecord g n k => some (Sum.inr (g, n, k)) | _ => none) fun e s =>
    match e with
    | .inl (g, n, cause) => (match collOf s g n with | some c => stopColl c cause.toNat s | none => s)
    | .inr (g, n, k) => memberRecord g n k s

end Sys2Proof.Machine
end

