-- ==== Sys2Proof/Machine/Grip.lean ====
section
/-! DEFINITION. The Grip's queues, packets, tasks and placement: what its other files build on (R317 to R331, R402, R403). -/
namespace Sys2Proof.Machine

/-! ### Views -/

def CoreQ.init : CoreQ := ⟨none, false, [], none, [], none, false, false, 0⟩
def coreQ (s : State) (c : Nat) : CoreQ := SMap.get CoreQ.init s.grip.cores c
def onCoreQ (c : Nat) (f : CoreQ → CoreQ) (s : State) : State :=
  s.onGrip fun g => { g with cores := SMap.set CoreQ.init g.cores c (f (SMap.get CoreQ.init g.cores c)) }

def queueAt (s : State) (q : Nat) : Queue := row s.grip.queues Queue.init q
def onQueue (q : Nat) (f : Queue → Queue) (s : State) : State :=
  s.onGrip fun g => { g with queues := rowSet g.queues q (f (row g.queues Queue.init q)) }
def slotAt (s : State) (n : Nat) : RSlot := row s.grip.slots RSlot.init n
def onSlot (n : Nat) (f : RSlot → RSlot) (s : State) : State :=
  s.onGrip fun g => { g with slots := rowSet g.slots n (f (row g.slots RSlot.init n)) }

/-- Fields of a descriptor (R317). -/
def qBits (w : W64) (i n : Nat) : Nat := w.toNat / 2 ^ i % 2 ^ n
def qClass (q : Queue) : Nat := qBits q.d0 62 2
def qWeight (q : Queue) : Nat := qBits q.d0 54 8
def qThresh (q : Queue) : Nat := qBits q.d0 32 22
def qSize (q : Queue) : Nat := 2 ^ qBits q.d0 28 4
def qOn (q : Queue) : Bool := q.d0.getLsbD 27

def taskOf (s : State) (id : Nat) : Option Task := s.grip.tasks.find? fun t => t.id = id
def setTask (t : Task) (s : State) : State :=
  s.onGrip fun g => { g with tasks := g.tasks.map fun x => if x.id = t.id then t else x }
def dropTask (id : Nat) (s : State) : State := s.onGrip fun g => { g with tasks := g.tasks.filter fun t => t.id ≠ id }

/-- The priority class of a task: that of its queue. -/
def taskClass (s : State) (t : Task) : Nat := qClass (queueAt s t.q)
def classOf (s : State) (id : Nat) : Nat := match taskOf s id with | some t => taskClass s t | none => 3

def graphOf (s : State) (id : Nat) : Option Graph := s.grip.graphs.find? fun g => g.id = id
def setGraph (x : Graph) (s : State) : State :=
  s.onGrip fun g => { g with graphs := g.graphs.map fun y => if y.id = x.id then x else y }

/-- The Grip's next act of a kind whose cycles the spec does not publish (R403) (DESIGN CHOICE, log 10). -/
def gripAt (s : State) : Nat := s.cyc + 1 + Config.gripCycles s.nseq

/-! ### The Grip's accesses (R228, R244, R253) -/

/-- The pages of a range in a context, or the code of the fault. -/
def gripPages (s : State) (root : Nat) (perms : List Perm) : Nat → Nat → Nat → Except Nat (List Piece)
  | 0, _, _ => .ok []
  | fuel + 1, va, stop =>
    if stop ≤ va then .ok []
    else if 2 ^ 52 ≤ va then .error 0x06
    else match walkTable s root va with
      | .error f => .error f.code
      | .ok e =>
        if perms.all (permOk e) then
          match gripPages s root perms fuel (e.va + e.size) stop with
          | .ok l => .ok ((e.va, e.pa, e.size) :: l)
          | .error c => .error c
        else .error 0x07

def gripRange (s : State) (root va len : Nat) (perms : List Perm) : Except Nat (List Piece) :=
  gripPages s root perms (pagesIn len) va (va + len)

/-- An access of the Grip, agent 31, by lines in its slots; it never raises a race (R239, R244). -/
def gripAsk (leave : Nat) (a : Acc) (l : List LineAcc) (next : Ev) (s : State) : State :=
  unitAsk leave .grip a 31 0 [] false l next s

/-- A request of the Grip to an atomic engine (R402). -/
def gripAtom (src : AtomSrc) (k : AtomKind) (va pa : Nat) (b : W64) (s : State) : State :=
  atomSend s.cyc ⟨src, k, va, pa, 8, b, 0, 0, true, true, 31, racePhase s, [31], wordRef s .sq, 0⟩ s

/-- Why a thread does not go on with the packet at its head: a check that fails, or what it has yet to read. -/
inductive GStop where
  | code (c : Nat)
  | read (va len : Nat)
  deriving DecidableEq, Repr

def coded {α : Type} (x : Except Nat α) : Except GStop α :=
  match x with | .ok a => .ok a | .error c => .error (.code c)

/-- A check of a packet. -/
def need (ok : Bool) (code : Nat) : Except GStop Unit := if ok then .ok () else .error (.code code)

/-- Bytes that a thread has read in its queue's context for the packet at the head. -/
def gripRead (s : State) (q va len : Nat) : Except GStop (List Byte) := do
  let _ ← coded (gripRange s (queueAt s q).root va len [.r])
  if len = 0 then .ok []
  else match (queueAt s q).got.find? fun x => x.1 = va ∧ x.2.length = len with
    | some x => .ok x.2
    | none => .error (.read va len)

/-- A thread asks for bytes of its packet. -/
def threadAsk (q va len : Nat) (s : State) : State :=
  match gripRange s (queueAt s q).root va len [.r] with
  | .ok pages => gripAsk s.cyc .read (lineAccs pages va len []) (.gripRead q) (onQueue q (fun x => { x with ask := some (va, len) }) s)
  | .error _ => s

/-- What a thread has asked for is back. -/
def threadRead (q : Nat) (s : State) : State :=
  match unitTake (.gripRead q) s, (queueAt s q).ask with
  | (some op, s), some (va, len) => onQueue q (fun x => { x with got := x.got ++ [(va, op.bytes va len)], ask := none }) s
  | (_, s), _ => s

/-! ### Queues (R318, R321, R322, R354) -/

/-- A queue stops: its thread takes no further packet, and its vector is raised (R322, R380). -/
def stopQueue (q code : Nat) (seq : W32) (s : State) : State :=
  (onQueue q (fun x => { x with stop := true, code := BitVec.ofNat 8 code, seq := seq }) s).emit (.msix q)

def packetOf (s : State) (q pk : Nat) : Option Pkt := (queueAt s q).pkts.find? fun p => p.id = pk
def setPacket (q : Nat) (p : Pkt) (s : State) : State :=
  onQueue q (fun x => { x with pkts := x.pkts.map fun y => if y.id = p.id then p else y }) s

/-- A share of a packet is done; after the last the packet completes (R320, R321). -/
def packetDone (q pk : Nat) (fault : Bool) (s : State) : State :=
  match packetOf s q pk with
  | some p =>
    let p := { p with left := p.left - 1, fault := p.fault || fault }
    let s := setPacket q p s
    if p.left = 0 then s.postAt (gripAt s) (.packetComplete q pk) else s
  | none => s

/-- A write of a packet that FENCE waits for is asked for (R257, R320). -/
def oweWrite (q : Nat) (s : State) : State := onQueue q (fun x => { x with owed := x.owed + 1 }) s

/-- A packet completes: it leaves its queue, and unless it completes with a fault its semaphore is posted (R321). -/
def execPacketComplete (s : State) : Host.Outcome State Fault Refusal :=
  onDue s (fun | .packetComplete q pk => some (q, pk) | _ => none) fun (q, pk) s =>
    match packetOf s q pk with
    | none => s
    | some p =>
      let s := onQueue q (fun x => { x with pkts := x.pkts.filter fun y => y.id ≠ pk }) s
      if p.csem = 0 ∨ p.fault = true then s
      else match walkTable s (queueAt s q).root p.csem with
        | .ok e => gripAtom (.grip q pk) .sempost p.csem (e.pa + (p.csem - e.va)) 1 (oweWrite q s)
        | .error _ => s

/-- The bytes of the packet at a queue's head, as its thread has read them. -/
def headBytes (s : State) (q : Nat) : Except GStop (List Byte) :=
  let d := queueAt s q
  gripRead s q (d.d1.toNat + 64 * (d.head % qSize d)) 64

/-- A context that waits for its core or in the job queue there, and one whose save is asked for (R361). -/
def CoreQ.areas (s : State) (c : CoreQ) : Nat :=
  c.saved.length + (c.q.filter fun id => (taskOf s id).any fun t => decide (t.st = .running)).length + if c.asked then 1 else 0

/-- Save areas in use (R361). -/
def areasUsed (s : State) : Nat := (s.grip.cores.map fun c => c.2.areas s).foldl (· + ·) 0

/-- A thread that may take a packet of its ring (R321). -/
def threadOpen (s : State) (q : Nat) : Bool :=
  let d := queueAt s q
  s.plat.ready && qOn d && !d.stop && !d.blocked && decide (d.head ≠ d.tail) && decide (d.next ≤ s.cyc) && d.ask.isNone

/-- A PREEMPT at the head of a queue waits for a save area (R361). -/
def areaWait (s : State) (q : Nat) : Bool :=
  threadOpen s q && decide (128 ≤ areasUsed s) && match headBytes s q with | .ok l => decide (fieldN l 0 1 = 7) | .error _ => false

/-- A thread whose packet is not read yet. -/
def headMissing (s : State) (q : Nat) : Bool :=
  threadOpen s q && match headBytes s q with | .error (.read _ _) => true | _ => false

/-- The queue whose thread takes its next packet on this cycle (R321, R361). -/
def packetReady (s : State) : Option Nat :=
  (List.range 32).find? fun q =>
    threadOpen s q && !areaWait s q &&
      match headBytes s q with
      | .ok l => !(l.getD 1 0).getLsbD 0 || (queueAt s q).pkts.isEmpty
      | .error (.code _) => true
      | .error (.read _ _) => false

/-- The bytes of a body that a TYPE assigns (R320). -/
def assigned (ty i : Nat) : Bool :=
  decide (i < 2) || (decide (4 ≤ i) && decide (i < 16)) ||
  match ty with
  | 1 => decide (16 ≤ i ∧ i < 32)
  | 2 => decide (16 ≤ i ∧ i < 20) || decide (24 ≤ i)
  | 3 => decide (16 ≤ i ∧ i < 33)
  | 4 => decide (16 ≤ i ∧ i < 32)
  | 5 => decide (16 ≤ i ∧ i < 20) || decide (24 ≤ i ∧ i < 40)
  | 6 => decide (16 ≤ i ∧ i < 20)
  | 7 => decide (16 ≤ i ∧ i < 18)
  | 8 => decide (16 ≤ i ∧ i < 40)
  | _ => false

/-- The checks of a packet's header (R319, R322). -/
def headFault (s : State) (q : Nat) (l : List Byte) : Option Nat :=
  let ty := fieldN l 0 1
  let csem := fieldN l 8 8
  if ty = 0 ∨ 9 < ty then some 0x01
  else if (fieldN l 1 1) / 2 ≠ 0 ∨ (l.zipIdx.any fun x => !assigned ty x.2 && decide (x.1 ≠ 0)) = true then some 0x02
  else if csem = 0 then none
  else if csem % 8 ≠ 0 then some 0x02
  else match gripRange s (queueAt s q).root csem 8 [.r, .w] with
    | .ok _ => none
    | .error c => some c

/-- The thread has taken a packet and takes its next no sooner than the firmware lets it. -/
def passHead (q : Nat) (s : State) : State :=
  onQueue q (fun x => { x with head := (x.head + 1) % qSize x, next := gripAt s, got := [], ask := none }) s

/-- A packet that fails a check stops its queue and has no effect; its head has passed it (DEDUCED, log 40). -/
def refusePacket (q : Nat) (l : List Byte) (code : Nat) (s : State) : State :=
  stopQueue q code (BitVec.ofNat 32 (fieldN l 4 4)) (passHead q s)

/-- A packet that is started, with what it awaits before it completes. -/
def acceptPacket (q : Nat) (l : List Byte) (left : Nat) (s : State) : State × Nat :=
  let id := (queueAt s q).nextId
  let p : Pkt := ⟨id, fieldN l 0 1, BitVec.ofNat 32 (fieldN l 4 4), fieldN l 8 8, left, false⟩
  let s := onQueue q (fun x => { x with pkts := x.pkts ++ [p], nextId := id + 1 }) (passHead q s)
  (if left = 0 then s.postAt (gripAt s) (.packetComplete q id) else s, id)

/-- The packet at the head of the ready queue, if it is of a type: its checks, then its body's. What the body has yet to read is asked
for, and it is taken again once that is back. -/
def startPacket (ty : Nat) (body : Nat → List Byte → State → Except GStop State) (s : State) : Host.Outcome State Fault Refusal :=
  match packetReady s with
  | none => .next s
  | some q =>
    match headBytes s q with
    | .error (.code c) => .next (if ty = 4 then refusePacket q (List.replicate 64 0) c s else s)
    | .error (.read _ _) => .next s
    | .ok l =>
      let t := fieldN l 0 1
      if t = ty ∨ (ty = 4 ∧ (t = 0 ∨ 9 < t)) then
        match headFault s q l with
        | some c => .next (refusePacket q l c s)
        | none => match body q l s with
          | .ok s => .next s
          | .error (.code c) => .next (refusePacket q l c s)
          | .error (.read va n) => .next (threadAsk q va n s)
      else .next s

/-- The instruction of the packet that is ready; a reserved TYPE, and a ring that does not translate, are found by that of TYPE 4. -/
def packetInstr (s : State) : Option Instr :=
  (packetReady s).map fun q =>
    match headBytes s q with
    | .error _ => .signal
    | .ok l => match fieldN l 0 1 with
      | 1 => .graph | 2 => .invoke | 3 => .wait | 5 => .loadslot | 6 => .evictslot | 7 => .preempt | 8 => .checkpoint
      | 9 => .fencePacket | _ => .signal

/-! ### Process groups of tasks (R285, R327) -/

/-- A table as the Grip reads it: GID and the node identities by rank. -/
def gripTable (s : State) (q va : Nat) : Except GStop (Nat × List Nat) := do
  need (decide (va % 64 = 0)) 0x02
  let h ← gripRead s q va 64
  let n := fieldN h 4 4
  need (decide (fieldN h 0 4 = 1) && decide (n ≠ 0 ∧ n ≤ 4096) && decide (fieldN h 8 8 ≠ 0) && (h.drop 16).all (· = 0)) 0x02
  let l ← gripRead s q (va + 64) (8 * n)
  need ((List.range n).all fun r => decide (fieldN l (8 * r + 2) 6 = 0)) 0x02
  .ok (fieldN h 8 8, (List.range n).map fun r => fieldN l (8 * r) 2)

/-- The highest latency of the trained ports (R385): routes are not the spec's. -/
def gangLambda (s : State) : Nat :=
  let lam (c : Nat) : Nat := match c with | 0 => 48 | 1 => 128 | 2 => 512 | _ => 2048
  ((s.plat.classes.toList.filterMap id).map lam).foldl max 48

/-! ### Placement (R326, R329, R330) -/

/-- The oldest task of a queue that has not been dispatched. -/
def oldestTask (s : State) (q : Nat) : Option Task := s.grip.tasks.find? fun t => t.q = q ∧ t.st = .waiting

/-- A task of a class served before a task's waits to be placed on a core: it has asked for it (R326) (DEDUCED, log 35). -/
def wantedBelow (s : State) (cls c : Nat) : Bool :=
  (List.range 32).any fun q => match oldestTask s q with | some u => decide (taskClass s u < cls) && u.want.contains c | none => false

/-- Whether a core can take a job of a task (R326): an entry of its job queue lacks, no job of a class served before the task's waits for
it, it is in no graph's core set. One with a saved job is free for a task of a lower class alone; a lent one for the task that it is lent
to (R329, R330). -/
def coreFree (s : State) (t : Task) (c : Nat) : Bool :=
  let x := coreQ s c
  let lent := match x.lent with
    | none => false
    | some (task, n) => !x.saved.isEmpty && if task then decide (n = t.id) else decide (n = t.q)
  !x.fenced && decide (x.q.length < 4) && !wantedBelow s (taskClass s t) c &&
    (lent || (x.graph.isNone && x.saved.all fun id => decide (taskClass s t < classOf s id)))

def clusterCores (s : State) (k : Nat) : List Nat := (List.range (Config.cores s.variant)).filter fun c => Config.coreCluster c = k

/-- The cores of a run of clusters, in ascending order (R332). -/
def runCores (s : State) (k n : Nat) : List Nat :=
  (List.range (Config.cores s.variant)).filter fun c => decide (k ≤ Config.coreCluster c ∧ Config.coreCluster c < k + n)

/-- The runs of clusters that a task may take, in order (R326). -/
def clusterRuns (s : State) (n : Nat) : List Nat :=
  (List.range (Config.clusters s.variant)).filter fun k =>
    decide (k + n ≤ Config.clusters s.variant) && (decide (8 < n) || decide (k / 8 = (k + n - 1) / 8))

/-- R326: the cores that a task takes, if it can be placed now. -/
def placeTask (s : State) (t : Task) : Option (List Nat) :=
  if t.ncore ≤ 8 then
    (List.range (Config.clusters s.variant)).findSome? fun k =>
      let l := (clusterCores s k).filter (coreFree s t)
      if t.ncore ≤ l.length then some (l.take t.ncore) else none
  else
    let n := t.ncore / 8
    (clusterRuns s n).findSome? fun k =>
      let l := runCores s k n
      if l.all (coreFree s t) then some l else none

/-- DOM of a task's jobs (R327), bits 0 to 4. -/
def taskLevels (t : Task) (cores : List Nat) : Nat :=
  let many (f : Nat → Nat) : Bool := decide (1 < (cores.map f).eraseDups.length)
  1 + (if 1 < cores.length then 2 else 0) + (if many Config.coreCluster then 4 else 0) +
    (if many (· / 64) then 8 else 0) + if t.gidTab.isSome then 16 else 0

/-- What the jobs of a task are launched with (R327). -/
def launchOf (s : State) (t : Task) (cores : List Nat) (j : Nat) (held : List Nat) (guards : List (Bool × W64)) (gm : GuardMode) :
    Launch :=
  let d := queueAt s t.q
  let o := (slotAt s t.slot).obj
  ⟨t.id, j, t.ncore, t.q, t.graph, t.slot, d.ctx, d.root, qClass d, t.xs, t.zs, (o.map Obj.pool).getD [], (o.map Obj.entry).getD 0,
    taskLevels t cores, t.gidTab, t.epoch, held, guards, gm, none⟩

/-- A task's jobs enter the job queues of its cores. -/
def placeJobs (t : Task) (cores : List Nat) (held : List Nat) (guards : Nat → List (Bool × W64)) (gm : GuardMode) (s : State) :
    State :=
  let s := setTask { t with st := .placed, cores := cores, rel := none } s
  cores.zipIdx.foldl (fun s x =>
    let l := launchOf s t cores x.2 held (guards x.2) gm
    let s := onCoreQ x.1 (fun k => { k with q := k.q ++ [t.id] }) s
    if x.1 = s.coreNo then s.onCore fun c => { c with jobq := c.jobq ++ [l] } else s.emit (.launch x.1 l)) s

/-- The dispatch count rises, and is the race epoch of the task or run (R249). -/
def nextEpoch (s : State) : Nat × State :=
  let n := s.grip.dispatch + 1
  (n.toNat, s.onGrip fun g => { g with dispatch := n })

end Sys2Proof.Machine
end

