-- ==== Sys2Proof/Machine/Sha.lean ====
section
/-! DEFINITION. SHA-256, which slates, measurements and the flash cache use (R336, R377, R389). -/
namespace Sys2Proof.Machine

/-- The least n with n^k above x, less one: an integer root. -/
def intRoot (k x : Nat) : Nat :=
  (List.range 64).foldl (fun r i => let t := r + 2 ^ (63 - i); if t ^ k ≤ x then t else r) 0

def firstPrimes : List Nat :=
  (List.range 312).filter fun n => decide (2 ≤ n) && (List.range n).all fun d => decide (d < 2) || decide (n % d ≠ 0)

/-- The first 32 bits of the fractional parts of the roots of the first primes. -/
def shaFrac (k p : Nat) : BitVec 32 := BitVec.ofNat 32 (intRoot k (p * 2 ^ (32 * k)) % 2 ^ 32)
def shaK : List (BitVec 32) := (firstPrimes.take 64).map (shaFrac 3)
def shaH0 : List (BitVec 32) := (firstPrimes.take 8).map (shaFrac 2)

def rotr (n : Nat) (x : BitVec 32) : BitVec 32 := x.rotateRight n

def beWord (l : List Byte) : BitVec 32 := BitVec.ofNat 32 (l.foldl (fun n b => n * 256 + b.toNat) 0)
def beBytes (n : Nat) (x : Nat) : List Byte := (List.range n).map fun i => BitVec.ofNat 8 (x / 2 ^ (8 * (n - 1 - i)))

def shaPad (l : List Byte) : List Byte :=
  let z := (119 - l.length % 64) % 64
  l ++ [0x80] ++ List.replicate z 0 ++ beBytes 8 (8 * l.length)

/-- The message schedule of a block. -/
def shaSched (b : List (BitVec 32)) : List (BitVec 32) :=
  (List.range 48).foldl (fun w i =>
    let x (j : Nat) : BitVec 32 := w.getD (i + 16 - j) 0
    let s0 := rotr 7 (x 15) ^^^ rotr 18 (x 15) ^^^ (x 15 >>> 3)
    let s1 := rotr 17 (x 2) ^^^ rotr 19 (x 2) ^^^ (x 2 >>> 10)
    w ++ [x 16 + s0 + x 7 + s1]) b

def shaRound (v : List (BitVec 32)) (kw : BitVec 32) : List (BitVec 32) :=
  match v with
  | [a, b, c, d, e, f, g, h] =>
    let s1 := rotr 6 e ^^^ rotr 11 e ^^^ rotr 25 e
    let t1 := h + s1 + ((e &&& f) ^^^ (~~~e &&& g)) + kw
    let s0 := rotr 2 a ^^^ rotr 13 a ^^^ rotr 22 a
    [t1 + (s0 + ((a &&& b) ^^^ (a &&& c) ^^^ (b &&& c))), a, b, c, d + t1, e, f, g]
  | v => v

def shaBlock (h : List (BitVec 32)) (b : List (BitVec 32)) : List (BitVec 32) :=
  let v := ((shaSched b).zip shaK).foldl (fun v x => shaRound v (x.1 + x.2)) h
  (h.zip v).map fun x => x.1 + x.2

/-- SHA-256 of a string of bytes, most significant byte first. -/
def sha256 (l : List Byte) : List Byte :=
  let p := shaPad l
  let blocks := (List.range (p.length / 64)).map fun i =>
    (List.range 16).map fun j => beWord ((p.drop (64 * i + 4 * j)).take 4)
  ((blocks.foldl shaBlock shaH0).map fun w => beBytes 4 w.toNat).flatten

end Sys2Proof.Machine
end

