-- ==== Sys2Proof/Machine/Graphs.lean ====
section
/-! DEFINITION. Graphs: their records, slates, the reel store, the start of a run, its tasks' launches and ends, the recorder, the end of
a run (R332 to R341, R346, R348, R394). -/
namespace Sys2Proof.Machine

/-! ### Graph records (R332 to R334) -/

structure GHead where
  ntask : Nat
  ncoreg : Nat
  ntens : Nat
  ttab : Nat
  xtab : Nat
  deriving DecidableEq, Repr

def parseGHead (s : State) (l : List Byte) : Option GHead :=
  let h : GHead := ⟨fieldN l 4 2, fieldN l 6 2, fieldN l 8 4, fieldN l 16 8, fieldN l 24 8⟩
  let nc := h.ncoreg
  let bad := decide (fieldN l 0 4 ≠ 1) || decide (h.ntask = 0 ∨ 4096 < h.ntask) || decide (65535 < h.ntens) ||
    decide (nc = 0 ∨ Config.cores s.variant < nc ∨ (8 < nc ∧ nc % 8 ≠ 0)) || decide (fieldN l 12 4 ≠ 0) ||
    decide (h.ttab % 64 ≠ 0) || decide (h.xtab % 32 ≠ 0) || decide (fieldN l 32 32 ≠ 0)
  if bad then none else some h

/-- A tensor's entry; its TYPE is a code of R26 or raw. -/
def parseGTens (h : GHead) (l : List Byte) : Option GTens :=
  let ty := fieldN l 16 1
  let loc := fieldN l 17 1
  let t : GTens := ⟨fieldN l 0 8, fieldN l 8 8, BitVec.ofNat 4 ty, decide (loc = 1), fieldN l 18 2⟩
  let bad := decide (15 < ty) || decide (10 < ty ∧ ty < 15) || decide (1 < loc) || decide (t.len = 0) || decide (fieldN l 20 12 ≠ 0) ||
    (if t.spad then decide (t.base ≠ 0) || decide (2 ^ 21 < t.len) || decide (h.ncoreg ≤ t.gcore)
     else decide (2 ^ 48 ≤ t.len) || decide (t.gcore ≠ 0))
  if bad then none else some t

/-- The width of a tensor's elements; a raw one's is 1 (R334). -/
def tensWidth (t : GTens) : Nat := match Ty.ofCode t.ty with | some y => y.width / 8 | none => 1

/-- A copy task's two ends must suit R262. -/
def copyTaskOk (a b : GTens) : Bool :=
  let f (t : GTens) : BitVec 4 := if t.spad then 0xF else t.ty
  let k (t : GTens) : Nat := if t.spad then 1 else 0
  let raw (t : GTens) : Bool := !t.spad && decide (t.ty = 0xF)
  endFmtOk (k a) (f a) (tensWidth a) && endFmtOk (k b) (f b) (tensWidth b) && (!(raw a || raw b) || decide (tensWidth a = tensWidth b))

/-- A task's entry, number `i`. -/
def parseGTask (h : GHead) (tens : List GTens) (i : Nat) (l : List Byte) : Option GTask :=
  let kind := fieldN l 0 1
  let np := fieldN l 1 1
  let preds := (List.range np).map fun j => fieldN l (16 + 2 * j) 2
  let xm := (List.range 16).map fun j => fieldN l (96 + 2 * j) 2
  let zs := (List.range 8).map fun j => field64 l (32 + 8 * j)
  let t : GTask := ⟨decide (kind = 1), preds, fieldN l 2 2, fieldN l 4 2, fieldN l 6 2, fieldN l 8 2, fieldN l 10 2, fieldN l 12 2,
    fieldN l 14 2, zs, xm⟩
  let predBad := decide (8 < np) || (preds.any fun x => decide (i ≤ x)) || decide (preds.eraseDups.length ≠ preds.length) ||
    ((List.range 8).any fun j => decide (np ≤ j) && decide (fieldN l (16 + 2 * j) 2 ≠ 0))
  let bad := decide (1 < kind) || predBad ||
    (if t.copy then decide (fieldN l 2 8 ≠ 0) || decide (fieldN l 32 96 ≠ 0) || decide (h.ncoreg ≤ t.ccore) ||
        (match tens[t.csrc]?, tens[t.cdst]? with | some a, some b => !copyTaskOk a b | _, _ => true)
     else decide (fieldN l 10 6 ≠ 0) || decide (256 ≤ t.slot) || decide (t.ncore = 0 ∨ h.ncoreg < t.ncore) ||
        (decide (t.cbase ≠ 0xFFFF) && decide (h.ncoreg < t.cbase + t.ncore)) ||
        xm.any fun x => decide (x ≠ 0xFFFF) && decide (h.ntens ≤ x))
  if bad then none else some t

/-- A record read and checked: its tables, its encoding's entries (R332 to R334, R336). -/
def readGraph (s : State) (q addr : Nat) : Except GStop (GHead × List GTask × List GTens × List Byte) := do
  need (decide (addr % 64 = 0)) 0x02
  let l ← gripRead s q addr 64
  match parseGHead s l with
  | none => .error (.code 0x02)
  | some h =>
    let tb ← gripRead s q h.ttab (128 * h.ntask)
    let xb ← gripRead s q h.xtab (32 * h.ntens)
    let ent (b : List Byte) (n i : Nat) : List Byte := (b.drop (n * i)).take n
    match (List.range h.ntens).mapM fun i => parseGTens h (ent xb 32 i) with
    | none => .error (.code 0x02)
    | some tens =>
      match (List.range h.ntask).mapM fun i => parseGTask h tens i (ent tb 128 i) with
      | none => .error (.code 0x02)
      | some tasks => .ok (h, tasks, tens, tb ++ (List.range h.ntens).flatMap fun i => leBytes 8 0 ++ (ent xb 32 i).drop 8)

/-- The canonical shape encoding (R336): P is 0 where no table is named. -/
def shapeEnc (h : GHead) (p : Nat) (tables : List Byte) : List Byte :=
  leBytes 2 h.ntask ++ leBytes 2 h.ncoreg ++ leBytes 4 h.ntens ++ leBytes 4 p ++ tables

def slateOf (enc : List Byte) : W64 := BitVec.ofNat 64 (((sha256 enc).take 8).foldl (fun n b => n * 256 + b.toNat) 0)

/-- The predecessors of a task as its encoding holds them. -/
def encPreds (enc : List Byte) (i : Nat) : List Nat :=
  let e := (enc.drop (12 + 128 * i)).take 128
  (List.range (fieldN e 1 1)).map fun j => fieldN e (16 + 2 * j) 2

/-! ### The reel store (R337, R338) -/

def setOf (s : State) (slate : W64) : Option ReelSet := s.grip.sets.find? fun x => x.slate = slate
def onSet (slate : W64) (f : ReelSet → ReelSet) (s : State) : State :=
  s.onGrip fun g => { g with sets := g.sets.map fun x => if x.slate = slate then f x else x }
def dropSet (slate : W64) (s : State) : State := s.onGrip fun g => { g with sets := g.sets.filter fun x => x.slate ≠ slate }

/-- A graph under the same slate records, replays, runs what a failed replay has left or, of a gang, awaits its decision; or the set is
being filed or cut (R337, R349, R350). -/
def slateBusy (s : State) (g : Graph) : Bool :=
  (s.grip.graphs.any fun x => decide (x.id ≠ g.id) && decide (x.slate = g.slate) &&
    (decide (x.mode = .record ∨ x.mode = .replay ∨ x.mode = .remainder) || (x.voted && x.decided.isNone))) ||
    match setOf s g.slate with | some x => x.inUse | none => false

/-- The cut that is replayed: the last made (R349). -/
def lastCut (x : ReelSet) : Nat := (x.cuts.map Cut.num).foldl max 0

/-- A set with a record that breaks R340's table. -/
def ReelSet.broken (x : ReelSet) : Bool := x.cuts.any fun c => c.reels.any fun r => r.recs.any fun w => (ReelRec.decode w).isNone

/-- A graph whose way is open is looked up: R337's table, for a gang the decision (R350). A broken set is a collision, and goes (R340). -/
def lookUp (g : Graph) (s : State) : State :=
  if g.mode ≠ .none then s
  else match g.gidTab, g.decided with
    | some _, none => s
    | some _, some (some c) => setGraph { g with mode := .replay, cut := c } s
    | some _, some none => setGraph { g with mode := .record } (dropSet g.slate s)
    | none, _ =>
      if slateBusy s g then s
      else match setOf s g.slate with
        | none => setGraph { g with mode := .record } s
        | some x =>
          if x.broken then setGraph { g with mode := .plain } (dropSet g.slate s)
          else if x.enc = g.enc then setGraph { g with mode := .replay, cut := lastCut x } s
          else setGraph { g with mode := .plain } s

/-! Blocks and pieces of the store (DESIGN CHOICE, log 43) -/

def storeBase (v : Config.Variant) : Nat := match v with | .b9 => 752 * 2 ^ 30 | .b9h => 376 * 2 ^ 30
def storeBlocks (v : Config.Variant) : Nat := match v with | .b9 => 65536 | .b9h => 32768

/-- Where the 8 bytes of a task's semaphore stand. -/
def semAt (v : Config.Variant) (x : ReelSet) (task : Nat) : Nat := storeBase v + 65536 * x.blocks.head?.getD 0 + 8 * task

/-- 4 KiB pieces of what a set holds beside its cuts: its semaphores, slate, encoding, allocation table, core set, guard failures (R338). -/
def fixedPieces (ntask enc ntens ncore : Nat) : Nat := (8 * ntask + 8 + enc + 4 * ntens + 2 * ncore + 4 + 4095) / 4096

/-- Blocks that a recording takes, with room for two cuts and their dailies. -/
def recBlocks (g : Graph) : Nat :=
  let recs := g.segs.map fun r => r.recs.length + 1
  let cut := (recs.map fun n => 4096 * ((n + 255) / 256) + 4 * n).foldl (· + ·) 0
  (4096 * fixedPieces g.tasks.length g.enc.length g.tens.length g.cores.length + 2 * cut + 65535) / 65536

/-- The first `n` blocks that nothing holds. -/
def takeFree (used : List Nat) : Nat → Nat → Nat → List Nat
  | 0, _, _ => []
  | _, _, 0 => []
  | fuel + 1, b, n + 1 => if used.contains b then takeFree used fuel (b + 1) (n + 1) else b :: takeFree used fuel (b + 1) n

def heldBlocks (s : State) : List Nat := s.grip.sets.flatMap ReelSet.blocks ++ s.grip.graphs.flatMap Graph.blocks

/-- A set that is not to be evicted: one that is filed or cut, or that a run uses. -/
def setUsed (s : State) (x : ReelSet) : Bool :=
  x.inUse || s.grip.graphs.any fun g => decide (g.slate = x.slate) && decide (g.mode = .replay ∨ g.mode = .remainder)

/-- Sets not in use give way, the least recently replayed first, until there is room for `n` blocks and, of a set to be filed, one more
set; whether there is (R338). -/
def evictFor (n sets : Nat) : Nat → State → State × Bool
  | 0, s => (s, false)
  | fuel + 1, s =>
    if (heldBlocks s).length + n ≤ storeBlocks s.variant ∧ s.grip.sets.length + sets ≤ 1024 then (s, true)
    else
      let free := s.grip.sets.filter fun x => !setUsed s x
      match free.foldl (fun (b : Option ReelSet) x => match b with
        | some y => if x.lastUse < y.lastUse then some x else some y
        | none => some x) none with
      | some x => evictFor n sets fuel (dropSet x.slate s)
      | none => (s, false)

def storeSpace (n sets : Nat) (s : State) : State × Bool := evictFor n sets (s.grip.sets.length + 1) s

/-- A recording takes the blocks that it needs, or is abandoned (R338). -/
def growRec (gid : Nat) (s : State) : State :=
  match graphOf s gid with
  | none => s
  | some g =>
    let n := recBlocks g - g.blocks.length
    if g.lost then s
    else match storeSpace n 0 s with
      | (s, true) => setGraph { g with blocks := g.blocks ++ takeFree (heldBlocks s) (storeBlocks s.variant) 0 n } s
      | (s, false) => setGraph { g with lost := true, blocks := [] } s

/-- The lines of a piece of a recording's room in the store; what they hold is the set itself (DESIGN CHOICE, log 43). -/
def pieceLines (v : Config.Variant) (blocks : List Nat) (i : Nat) : List LineAcc :=
  let pa := storeBase v + 65536 * blocks.getD (i / 16) 0 + 4096 * (i % 16)
  (List.range 64).map fun k => (pa + 64 * k, pa + 64 * k, 64, [])

/-- Pieces of 4 KiB leave the reel buffers of the cores for the store, in the Grip's slots: those that are full or, at the end, all (R339). -/
def sendPieces (gid : Nat) (all : Bool) (s : State) : State :=
  match graphOf s gid with
  | none => s
  | some g =>
    let due (r : Reel) : Nat := (r.recs.length - r.sent + if all then 255 else 0) / 256
    let n := (g.segs.map due).foldl (· + ·) 0
    if g.lost ∨ n = 0 then s
    else
      let at_ := fixedPieces g.tasks.length g.enc.length g.tens.length g.cores.length + g.pieces
      gripAsk s.cyc .write ((List.range n).flatMap fun i => pieceLines s.variant g.blocks (at_ + i)) (.reelStored g.slate)
        (setGraph { g with pieces := g.pieces + n, segs := g.segs.map fun r => { r with sent := min r.recs.length (r.sent + 256 * due r) } } s)

/-- A recording is closed and filed as cut 0, in place of a set of its slate, unless it does not fit (R338, R339). -/
def fileSet (g : Graph) (s : State) : State :=
  let close (r : Reel) : Reel := { r with recs := r.recs ++ [(ReelRec.fin (r.recs.length + 1)).encode] }
  let s := sendPieces g.id true (growRec g.id (setGraph { g with segs := g.segs.map close } s))
  match graphOf s g.id with
  | none => s
  | some g =>
    match (if g.lost then (s, false) else storeSpace 0 1 (dropSet g.slate s)) with
    | (s, true) =>
      let x : ReelSet := ⟨g.slate, g.enc, g.alloc, g.cores, [⟨0, g.segs⟩], 0, true, s.cyc, g.blocks, false⟩
      let fixed := fixedPieces g.tasks.length g.enc.length g.tens.length g.cores.length
      gripAsk s.cyc .write ((List.range fixed).flatMap (pieceLines s.variant g.blocks)) (.reelStored g.slate)
        (s.onGrip fun y => { y with sets := y.sets ++ [x] })
    | (s, false) => s

/-- What a recording has written stands in the store; with the last piece of it the set can be used (R337, R339). -/
def reelStored (slate : W64) (s : State) : State :=
  let s := (unitTake (.reelStored slate) s).2
  let more := s.dev.ops.any fun x => x.next = .reelStored slate
  onSet slate (fun x => { x with inUse := x.inUse && more }) s

/-! ### The start of a run (R335, R394) -/

/-- LOC 1 tensors in index order: the lowest offset of their core at or above 2 MiB that meets no earlier one. -/
def allocTens : List GTens → List (Nat × Nat × Nat) → Option (List (Option Nat))
  | [], _ => some []
  | t :: ts, used =>
    if t.spad then
      let mine := used.filter fun u => u.1 = t.gcore
      let cands := 2 ^ 21 :: mine.map fun u => (u.2.1 + u.2.2 + 255) / 256 * 256
      let fits (o : Nat) : Bool := decide (o + t.len ≤ 2 ^ 22) && mine.all fun u => decide (o + t.len ≤ u.2.1 ∨ u.2.1 + u.2.2 ≤ o)
      match (cands.filter fits).foldl (fun (b : Option Nat) o => match b with | some x => some (min x o) | none => some o) none with
      | some o => (allocTens ts (used ++ [(t.gcore, o, t.len)])).map fun l => some o :: l
      | none => none
    else (allocTens ts used).map fun l => none :: l

def clearStamps (m : SMap W32) (g n : Nat) : SMap W32 := m.filter fun e => ¬(g ≤ e.1 ∧ e.1 < g + n)

/-- The stamps of the graph's tensors are cleared before its first task (R394). -/
def clearTensor (g : Graph) (t : GTens) (o : Option Nat) (s : State) : State :=
  match o with
  | some off =>
    if g.cores[t.gcore]? = some s.coreNo then
      let (k, n) := granSpan 64 off t.len
      s.onCore fun c => { c with stamps := clearStamps c.stamps k n }
    else s
  | none =>
    g.pages.foldl (fun s p =>
      let lo := max t.base p.1
      let hi := min (t.base + t.len) (p.1 + p.2.2)
      let (k, n) := granSpan 256 (p.2.1 + (lo - p.1)) (hi - lo)
      s.onDev fun d => { d with stamps := clearStamps d.stamps k n }) s

def newStreamer (r : Reel) (at_ : Nat) : Streamer := ⟨r.core, r.copy, 0, at_, none, [], false⟩

/-- A graph takes its core set and starts, dynamic or replayed; a replay once the semaphores of its set are 0 (R335, R341). -/
def startRun (g : Graph) (cores : List Nat) (alloc : List (Option Nat)) (s : State) : State :=
  let (e, s) := nextEpoch s
  let set := if g.mode = .replay then setOf s g.slate else none
  let reels := match set with
    | some x => ((x.cuts.find? fun c => c.num = g.cut).map Cut.reels).getD []
    | none => cores.flatMap fun c => [⟨c, false, [], [], 0⟩, ⟨c, true, [], [], 0⟩]
  let g := { g with
    cores := cores, alloc := alloc, epoch := e, placed := true, segs := reels, sems := List.replicate g.tasks.length 0 }
  let s := setGraph g s
  let s := cores.foldl (fun s c => onCoreQ c (fun k => { k with graph := some g.id }) s) s
  let s := (g.tens.zip alloc).foldl (fun s x => clearTensor g x.1 x.2 s) s
  match set with
  | some x =>
    let pa := semAt s.variant x 0
    let d := List.replicate (8 * g.tasks.length) 0
    gripAsk s.cyc .write (lineAccs [(pa, pa, 65536)] pa d.length d) (.reelReady g.id) s
  | none => s

/-- The semaphores are 0: the streamers take their first records on the next cycle (R341). -/
def reelReady (gid : Nat) (s : State) : State :=
  let s := (unitTake (.reelReady gid) s).2
  match graphOf s gid with
  | some g => if g.mode = .replay then setGraph { g with heads := g.segs.map fun r => newStreamer r (s.cyc + 1) } s else s
  | none => s

/-! ### Launches (R327, R334, R335, R394) -/

def taskHeld (g : Graph) (t : GTask) : List Nat :=
  t.preds.foldl (fun l p => unionNat l ((g.held.find? fun x => x.1 = p).map Prod.snd |>.getD [])) []

/-- What x_i holds for a job of a task (R334). -/
def xValue (g : Graph) (n : Nat) : W64 :=
  if n = 0xFFFF then 0
  else match g.tens[n]?, (g.alloc[n]?).join with
    | some t, some o => BitVec.ofNat 64 (((g.cores[t.gcore]?).getD 0) * 2 ^ 22 + o)
    | some t, none => BitVec.ofNat 64 t.base
    | none, _ => 0

def putGSt (i : Nat) (st : GTaskSt) (g : Graph) : Graph := { g with st := g.st.set i st }

/-- The jobs of a graph's task are placed on their cores. -/
def placeGTask (gid i : Nat) (cores : List Nat) (guards : Nat → List (Bool × W64)) (s : State) : State :=
  match graphOf s gid with
  | none => s
  | some g =>
    match g.tasks[i]? with
    | none => s
    | some t =>
      let o := (slotAt s t.slot).obj
      let xs := t.xmap.map (xValue g)
      let xs := match o.bind Obj.xdata with | some x => xs.set x (BitVec.ofNat 64 ((o.map Obj.data).getD 0)) | none => xs
      let id := s.grip.taskNext
      let task : Task := ⟨id, g.q, g.pkt, t.slot, t.ncore, xs, t.zs, g.gidTab, 0, .placed, s.cyc, 0, cores, some (gid, i), g.epoch, none, [], []⟩
      let gm : GuardMode := match g.mode with | .replay => .replay | .record => .record | _ => .plain
      let s := setGraph (putGSt i .placed g) (s.onGrip fun x => { x with tasks := x.tasks ++ [task], taskNext := id + 1 })
      placeJobs task cores (taskHeld g t) guards gm s

/-- A copy task's end of a copy. -/
def gtensEnd (g : Graph) (n : Nat) : End :=
  match g.tens[n]?, (g.alloc[n]?).join with
  | some t, some o => .spad ((g.cores[t.gcore]?).getD 0) o
  | some t, none => .dev t.base g.pages
  | none, _ => .dev 0 []

/-- A copy task joins the copy queue of its core (R334, R335). -/
def placeGCopy (gid i : Nat) (s : State) : State :=
  match graphOf s gid with
  | none => s
  | some g =>
    match g.tasks[i]?, (g.tasks[i]?).bind (fun t => g.tens[t.csrc]?), (g.tasks[i]?).bind fun t => g.tens[t.cdst]? with
    | some t, some a, some b =>
      let n := min (a.len / tensWidth a) (b.len / tensWidth b)
      let core := (g.cores[t.ccore]?).getD 0
      let s := setGraph (putGSt i .launched g) s
      if n = 0 then s.onGrip fun x => { x with copyEnds := x.copyEnds ++ [(gid, i, 0)] }
      else if core = s.coreNo then
        let fmt (t : GTens) : BitVec 4 := if t.spad then 0xF else t.ty
        let e1 := gtensEnd g t.csrc
        let e2 := gtensEnd g t.cdst
        let c : Copy :=
          { id := s.core.copyNext + 1, jobId := gid, own := false, token := i, word := WordRef.zero, desc := g.addr, src := e1, dst := e2,
            sfmt := fmt a, dfmt := fmt b, esz := tensWidth a, desz := tensWidth b, lvls := [⟨n, tensWidth a, tensWidth b⟩], tr := false,
            fow := none, post := none, ph := .queued, rdPos := 0, wrPos := 0, rdOut := 0, wrOut := 0, stage := [], reads := 0,
            keep := [], held := [], phase := g.epoch, root := g.root, pins := [], fjoin := false, acked := false }
        s.onCore fun k => { k with copies := k.copies ++ [c], copyNext := k.copyNext + 1 }
      else s.emit (.graphCopy core gid i (t.csrc, t.cdst) (0, 0) n)
    | _, _, _ => s

/-! ### The recorder (R339) -/

def waitRecs (g : Graph) (i : Nat) (t : GTask) : List ReelRec :=
  t.preds.map fun p => .semwait i p (match g.tasks[p]? with | some x => if x.copy then 1 else x.ncore | none => 1)

/-- A segment is appended to a core's job reel or copy reel, by way of its reel buffer (R339). -/
def addSegment (gid core : Nat) (copy : Bool) (l : List ReelRec) (s : State) : State :=
  match graphOf s gid with
  | some g =>
    if g.mode = .record ∧ g.lost = false then
      let g := { g with
        segs := g.segs.map fun r => if r.core = core ∧ r.copy = copy then { r with recs := r.recs ++ l.map ReelRec.encode } else r }
      sendPieces gid false (growRec gid (setGraph g s))
    else s
  | none => s

def jobSegment (g : Graph) (i j : Nat) (guards : List (Bool × W64)) : List ReelRec :=
  match g.tasks[i]? with
  | some t => waitRecs g i t ++ [.launch i j] ++ (guards.zipIdx.map fun x => .guard i x.2 x.1.1 x.1.2) ++ [.sempost i i, .mark i]
  | none => []

def copySegment (g : Graph) (i : Nat) : List ReelRec :=
  match g.tasks[i]? with
  | some t => waitRecs g i t ++ [.copy i, .sempost i i, .mark i]
  | none => []

/-! ### Ends of tasks and of runs (R335, R339, R341, R355) -/

/-- A post of a reel leaves for the semaphore of its set (R341, R402). -/
def reelPost (gid sem : Nat) (s : State) : State :=
  match graphOf s gid with
  | none => s
  | some g => match setOf s g.slate with
    | none => s
    | some x =>
      let pa := semAt s.variant x sem
      gripAtom (.reel gid sem) .sempost pa pa 1 (setGraph { g with owed := g.owed + 1 } s)

/-- The Grip knows of a post that its semaphore has risen. -/
def reelPosted (gid sem : Nat) (s : State) : State :=
  match graphOf s gid with
  | some g => setGraph { g with owed := g.owed - 1, sems := g.sems.set sem (g.sems.getD sem 0 + 1) } s
  | none => s

/-- A job or a copy of a graph's task has ended on a core: what it ordered is kept for its successors, and posts that wait for it are
made. -/
def gjobEnded (gid i core : Nat) (parties : List Nat) (s : State) : State :=
  match graphOf s gid with
  | none => s
  | some g =>
    let old := ((g.held.find? fun x => x.1 = i).map Prod.snd).getD []
    let mine (p : Nat × Nat × Nat) : Bool := decide (p.2.1 = i) && decide (p.2.2 = core)
    (g.posts.filter mine).foldl (fun s p => reelPost gid p.1 s) (setGraph { g with
      held := (i, unionNat old parties) :: g.held.filter fun x => x.1 ≠ i
      doneJobs := g.doneJobs ++ [(i, core)]
      posts := g.posts.filter fun p => !mine p } s)

/-- The posts of tasks that have not been launched are not to come. -/
def dropPosts (g : Graph) : Graph := { g with posts := g.posts.filter fun p => g.st.getD p.2.1 .waiting ≠ .waiting }

/-- The tasks of a run that have been placed and not released leave the job queues, and wait again (R346, R355). -/
def withdraw (gid : Nat) (s : State) : State :=
  let gone (id : Nat) : Bool := s.grip.tasks.any fun t =>
    decide (t.id = id) && decide (t.st = .placed) && match t.graph with | some (x, _) => decide (x = gid) | none => false
  let cores := s.grip.cores.map fun c => (c.1, { c.2 with q := c.2.q.filter fun id => !gone id })
  let s := s.onCore fun c => { c with jobq := c.jobq.filter fun l => !gone l.task }
  let s := s.onGrip fun x => { x with cores := cores, tasks := x.tasks.filter fun t => !gone t.id }
  match graphOf s gid with
  | some g => setGraph (dropPosts { g with st := g.st.map fun x => if x = .placed then .waiting else x }) s
  | none => s

/-- A job or a copy of a task that ends with a fault fails its task and aborts the graph (R355). -/
def gtaskFailed (gid i : Nat) (s : State) : State :=
  match graphOf s gid with
  | some g => withdraw gid (setGraph { g with aborted := true, paused := false, fails := g.fails ++ [i] } s)
  | none => s

/-- A task of a graph is over. -/
def gtaskEnded (gid i : Nat) (s : State) : State :=
  match graphOf s gid with
  | some g => setGraph (putGSt i (if g.fails.contains i then .failed else .done) g) s
  | none => s

/-- No task of a run is under way, none is to come, and its posts have been made. -/
def runOver (g : Graph) : Bool :=
  g.placed && !(g.st.any fun x => decide (x = .launched ∨ x = .placed)) && decide (g.owed = 0) && g.posts.isEmpty &&
    (g.aborted || (g.st.all fun x => decide (x = .done)) && (decide (g.mode ≠ .replay) || (!g.heads.isEmpty && g.heads.all Streamer.fin)))

/-- The dailies are written beside the records of the cut (R348). -/
def writeDailies (g : Graph) (s : State) : State :=
  onSet g.slate (fun x => { x with
    lastUse := s.cyc
    cuts := x.cuts.map fun c => if c.num = g.cut then
      { c with reels := (c.reels.zip g.heads).map fun y => { y.1 with dailies := y.2.dailies } } else c }) s

/-! ### Tasks of all kinds -/

/-- The slot's last job has ended: an EVICTING slot becomes FREE, and its packets complete (R324). -/
def slotFreed (n : Nat) (s : State) : State :=
  let r := slotAt s n
  if r.st = .evicting ∧ r.jobs = 0 then
    let s := match r.obj with
      | some o => (onePer o.pages).foldl (fun s p => unpinOne o.root p s) s
      | none => s
    let s := onSlot n (fun _ => { RSlot.init with report := r.report }) s
    r.evq.foldl (fun s p => packetDone p.1 p.2 false s) s
  else s

def slotLeave (n : Nat) (s : State) : State := slotFreed n (onSlot n (fun r => { r with jobs := r.jobs - 1 }) s)

/-- A run is over: its cores, pins and allocations go, its packet completes; a recording is filed, a replay's cut is made next, and a set
whose health guard has failed goes (R335, R339, R346, R349, R355). -/
def finishRun (g : Graph) (s : State) : State :=
  let s := g.cores.foldl (fun s c => onCoreQ c (fun k => { k with graph := none }) s) s
  let s := g.pages.foldl (fun s p => unpinOne g.root p s) s
  let s := (g.tasks.zip g.st).foldl (fun s x => if x.1.copy ∨ x.2 = .done ∨ x.2 = .failed then s else slotLeave x.1.slot s) s
  let s := if g.aborted then s
    else match g.mode with
      | .record => fileSet g s
      | .replay =>
        let s := onSet g.slate (fun x => { x with inUse := true }) (writeDailies g s)
        s.postAt (gripAt s) (.cutMake g.slate g.cut)
      | .remainder => onSet g.slate (fun x => { x with lastUse := s.cyc }) s
      | _ => s
  let s := s.onGrip fun x => { x with
    graphs := x.graphs.filter fun y => y.id ≠ g.id, sets := x.sets.filter fun y => !(decide (y.slate = g.slate) && y.dropAfter) }
  packetDone g.q g.pkt (g.aborted || !g.fails.isEmpty) s

/-- A job of a task has ended on a core. The last ends the task: an INVOKE's share of its packet, or a graph's task. -/
def taskJobEnded (id core j : Nat) (fault : Bool) (parties : List Nat) (guards : List (Bool × W64)) (s : State) : State :=
  match taskOf s id with
  | none => s
  | some t =>
    let s := match t.graph with
      | some (g, i) =>
        let s := match graphOf s g with
          | some x => if fault then gtaskFailed g i s else addSegment g core false (jobSegment x i j guards) s
          | none => s
        gjobEnded g i core parties s
      | none => s
    let t := { t with ended := t.ended + 1 }
    let s := if fault then (match packetOf s t.q t.pkt with
      | some p => setPacket t.q { p with fault := true } s
      | none => s) else s
    if t.ended < t.ncore then setTask t s
    else
      let s := slotLeave t.slot (dropTask id s)
      match t.graph with
      | some (g, i) => gtaskEnded g i s
      | none => packetDone t.q t.pkt fault s

/-! ### What of a queue can be dispatched (R323, R326, R329, R335, R337) -/

/-- The cores on which a queue's task can be dispatched now; a graph's as a whole, a replay's on those of its set. -/
def dispatchCores (s : State) (t : Task) : Option (List Nat) :=
  match t.graph with
  | some (gid, _) =>
    match graphOf s gid with
    | some g =>
      match g.mode with
      | .none => none
      | .replay => (setOf s g.slate).bind fun x => if x.inUse = false ∧ x.cores.all (coreFree s t) = true then some x.cores else none
      | _ => placeTask s t
    | none => none
  | none => placeTask s t

/-- A saved job of a queue is its next task, ahead of every one that has not been dispatched; one of a graph is the graph's (R329, R330). -/
def savedAhead (s : State) (q : Nat) : Bool :=
  s.grip.cores.any fun c => c.2.saved.any fun id => (taskOf s id).any fun t => decide (t.q = q) && t.graph.isNone

/-- A task of a lower class waits for a core: it has asked for it, or could be placed on it now (R329) (DEDUCED, log 35). -/
def lowerWaits (s : State) (task core : Nat) : Bool :=
  (List.range 32).any fun q => match oldestTask s q with
    | some t => decide (taskClass s t < classOf s task) && (t.want.contains core || (dispatchCores s t).any fun l => l.contains core)
    | none => false

end Sys2Proof.Machine
end

