-- ==== Sys2Proof/Machine/Replay.lean ====
section
/-! DEFINITION. The floor scheduler's dispatch of a graph's tasks, the replay streamers, cuts, the agreement of a gang, guards that fail
(R335, R341, R345, R346, R348 to R350). -/
namespace Sys2Proof.Machine

/-! ### Dynamic dispatch (R335) -/

def isDynamic (g : Graph) : Bool := decide (g.mode = .plain ∨ g.mode = .record ∨ g.mode = .remainder)

/-- A core of a run can take a job of it now: none while a job of the run is saved there (R330). -/
def gcoreFree (s : State) (g : Graph) (c : Nat) : Bool :=
  let x := coreQ s c
  !x.fenced && decide (x.q.length < 4) && x.saved.isEmpty && decide (x.graph = some g.id)

/-- The physical cores that a task's jobs take now, if they can be placed. -/
def gtaskCores (s : State) (g : Graph) (t : GTask) : Option (List Nat) :=
  let run (b : Nat) : List Nat := (g.cores.drop b).take t.ncore
  if t.cbase = 0xFFFF then
    let idle (c : Nat) : Bool := gcoreFree s g c && (coreQ s c).q.isEmpty && (coreQ s c).run.isNone
    ((List.range (g.cores.length + 1 - t.ncore)).find? fun b => (run b).all idle).map run
  else if (run t.cbase).all (gcoreFree s g) then some (run t.cbase) else none

/-- Room in the copy queue of a core; another core says when its own is full (R266, R335) (DESIGN CHOICE, log 1). -/
def copyRoom (s : State) (core : Nat) : Bool :=
  if core = s.coreNo then decide (enqueuedCopies s < 32) else !s.grip.copyFull.contains core

def gtaskReady (s : State) (g : Graph) (i : Nat) : Bool :=
  match g.tasks[i]? with
  | some t =>
    decide (g.st[i]? = some .waiting) && (t.preds.all fun p => decide (g.st[p]? = some .done)) &&
      if t.copy then copyRoom s (g.cores.getD t.ccore 0) else (gtaskCores s g t).isSome
  | none => false

/-- The graph and the task that the floor scheduler dispatches on this cycle. -/
def floorReady (s : State) : Option (Nat × Nat) :=
  if s.cyc % 8 = 0 then
    s.grip.graphs.findSome? fun g =>
      if g.placed ∧ isDynamic g = true ∧ g.aborted = false ∧ g.floorAt ≠ s.cyc + 1 then
        ((List.range g.tasks.length).find? (gtaskReady s g)).map fun i => (g.id, i)
      else none
  else none

/-- The lowest-indexed ready task that can be placed is dispatched, one for a graph on a cycle. -/
def execFloorDispatch (s : State) : Host.Outcome State Fault Refusal :=
  match floorReady s with
  | none => .next s
  | some (gid, i) =>
    match graphOf s gid with
    | none => .next s
    | some g =>
      let s := setGraph { g with floorAt := s.cyc + 1 } s
      match g.tasks[i]? with
      | none => .next s
      | some t =>
        if t.copy then
          .next (placeGCopy gid i (addSegment gid ((g.cores[t.ccore]?).getD 0) true (copySegment g i) s))
        else match gtaskCores s g t with
          | some cores => .next (placeGTask gid i cores (fun _ => []) s)
          | none => .next s

/-! ### Replay (R341, R348) -/

/-- A streamer that is not stopped: the graph replays and is neither paused nor aborted. -/
def streams (g : Graph) : Bool := g.placed && decide (g.mode = .replay) && !g.paused && !g.aborted

/-- The record at a reel's head, if it has reached it. -/
def headRec (s : State) (g : Graph) (i : Nat) : Option (Streamer × ReelRec) :=
  match g.heads[i]?, (g.segs[i]?) with
  | some h, some r => if h.fin = false ∧ h.since ≤ s.cyc then ((r.recs[h.pos]?).bind ReelRec.decode).map fun x => (h, x) else none
  | _, _ => none

/-- The reels at whose head a LAUNCH of a task stands. -/
def launchHeads (s : State) (g : Graph) (task : Nat) : List Nat :=
  (List.range g.heads.length).filter fun i =>
    match headRec s g i with | some (_, .launch t _) => decide (t = task) | _ => false

/-- Whether the action of the record at a head can be done on this cycle. -/
def recReady (s : State) (g : Graph) (i : Nat) : Bool :=
  match headRec s g i with
  | none => false
  | some (_, .semwait _ sem v) => decide (v ≤ g.sems.getD sem 0)
  | some (_, .launch t _) =>
    match g.tasks[t]? with
    | some x =>
      let l := launchHeads s g t
      decide (l.length = x.ncore) && l.all fun k => match g.segs[k]? with | some r => gcoreFree s g r.core | none => false
    | none => false
  | some (h, .copy _) => copyRoom s h.core
  | some _ => true

/-- The next record that a streamer acts on in this cycle. -/
def reelNext (s : State) : Option (Graph × Nat × ReelRec) :=
  s.grip.graphs.findSome? fun g =>
    if streams g then
      ((List.range g.heads.length).find? (recReady s g)).bind fun i => (headRec s g i).map fun x => (g, i, x.2)
    else none

/-- The record at a head is done: its count is taken, and the next one reaches the head on the next cycle. -/
def advanceHead (i : Nat) (cyc : Nat) (count : Bool) (last : Option Nat) (g : Graph) : Graph :=
  match g.heads[i]? with
  | some h =>
    let n := if count then min (cyc - h.since) (2 ^ 32 - 1) else 0
    let h' := { h with
      pos := h.pos + 1, since := cyc + 1, dailies := h.dailies ++ [n]
      lastTask := match last with | some t => some t | none => h.lastTask }
    { g with heads := g.heads.set i h' }
  | none => g

/-- The meaning of a record: it acts when the record that is next is of its type. -/
def reelAct (mine : ReelRec → Bool) (f : Graph → Nat → ReelRec → State → State) (s : State) : Host.Outcome State Fault Refusal :=
  match reelNext s with
  | some (g, i, r) => if mine r then .next (f g i r s) else .next s
  | none => .next s

def execReelSemwait (s : State) : Host.Outcome State Fault Refusal :=
  reelAct (fun | .semwait _ _ _ => true | _ => false) (fun g i _ s => setGraph (advanceHead i s.cyc true none g) s) s

/-- The guard list of a LAUNCH: the GUARD records that follow it, up to the MARK. -/
def guardList : List ReelRec → List (Bool × W64)
  | .guard _ _ h v :: l => (h, v) :: guardList l
  | .mark _ :: _ => []
  | _ :: l => guardList l
  | [] => []

def execReelLaunch (s : State) : Host.Outcome State Fault Refusal :=
  reelAct (fun | .launch _ _ => true | _ => false) (fun g _ r s =>
    match r with
    | .launch t _ =>
      let l := launchHeads s g t
      let at_ (j : Nat) : Option Nat := l.find? fun k =>
        match headRec s g k with | some (_, .launch _ x) => decide (x = j) | _ => false
      let n := ((g.tasks[t]?).map GTask.ncore).getD 0
      let core (j : Nat) : Nat := ((at_ j).bind fun k => (g.segs[k]?).map Reel.core).getD 0
      let guards (j : Nat) : List (Bool × W64) :=
        match at_ j with
        | some k => (match g.segs[k]?, g.heads[k]? with
          | some x, some h => guardList ((x.recs.drop (h.pos + 1)).filterMap ReelRec.decode)
          | _, _ => [])
        | none => []
      let g' := l.foldl (fun g k => advanceHead k s.cyc true (some t) g) g
      placeGTask g.id t ((List.range n).map core) guards (setGraph g' s)
    | _ => s) s

def execReelCopy (s : State) : Host.Outcome State Fault Refusal :=
  reelAct (fun | .copy _ => true | _ => false) (fun g i r s =>
    match r with
    | .copy t => placeGCopy g.id t (setGraph (advanceHead i s.cyc true (some t) g) s)
    | _ => s) s

def execReelGuard (s : State) : Host.Outcome State Fault Refusal :=
  reelAct (fun | .guard _ _ _ _ => true | _ => false) (fun g i _ s => setGraph (advanceHead i s.cyc false none g) s) s

/-- The post is made when the reel's last job has ended or its last copy has retired, as a request to the semaphore's engine; the reel
goes on at once (R341, R402). -/
def execReelSempost (s : State) : Host.Outcome State Fault Refusal :=
  reelAct (fun | .sempost _ _ => true | _ => false) (fun g i r s =>
    match r, g.heads[i]? with
    | .sempost _ sem, some h =>
      let g := advanceHead i s.cyc false none g
      match h.lastTask with
      | some t =>
        if g.doneJobs.contains (t, h.core) then reelPost g.id sem (setGraph g s)
        else setGraph { g with posts := g.posts ++ [(sem, t, h.core)] } s
      | none => setGraph g s
    | _, _ => s) s

def execReelMark (s : State) : Host.Outcome State Fault Refusal :=
  reelAct (fun | .mark _ => true | _ => false) (fun g i _ s => setGraph (advanceHead i s.cyc false none g) s) s

def execReelEnd (s : State) : Host.Outcome State Fault Refusal :=
  reelAct (fun | .fin _ => true | _ => false) (fun g i _ s =>
    let g := advanceHead i s.cyc false none g
    setGraph { g with heads := (g.heads[i]?).elim g.heads fun h => g.heads.set i { h with fin := true } } s) s

/-- The instruction of the record that is next. -/
def reelInstr (s : State) : Option Instr :=
  (reelNext s).map fun x =>
    match x.2.2 with
    | .launch _ _ => .reelLaunch
    | .copy _ => .reelCopy
    | .semwait _ _ _ => .reelSemwait
    | .sempost _ _ => .reelSempost
    | .guard _ _ _ _ => .reelGuard
    | .mark _ => .reelMark
    | .fin _ => .reelEnd

/-! ### Cuts (R349) -/

/-- A reel's records in segments, each with its dailies and its task; what follows the last MARK is left over. -/
def segments : List (ReelRec × Nat) → List (ReelRec × Nat) → List (List (ReelRec × Nat)) × List (ReelRec × Nat)
  | acc, [] => ([], acc)
  | acc, x :: l =>
    match x.1 with
    | .mark _ => let r := segments [] l; ((acc ++ [x]) :: r.1, r.2)
    | _ => segments (acc ++ [x]) l

def segTask (seg : List (ReelRec × Nat)) : Nat := (seg.findSome? fun x => match x.1 with | .copy t => some t | _ => none).getD 0

/-- Whether `a` is an ancestor of `x` through the graph's edges; a predecessor has a lower index. -/
def ancestor (enc : List Byte) (a : Nat) : Nat → Nat → Bool
  | 0, _ => false
  | n + 1, x => (encPreds enc x).any fun p => decide (p = a) || ancestor enc a n p

/-- A late copy's segment moves to directly after the last segment of an ancestor before it, or to the start. -/
def hoist (enc : List Byte) (late : Nat → Bool) (l : List (List (ReelRec × Nat))) : List (List (ReelRec × Nat)) :=
  l.foldl (fun done seg =>
    let t := segTask seg
    if late t then
      let k := done.length - (done.reverse.findIdx fun s => ancestor enc (segTask s) 4096 t)
      done.take k ++ [seg] ++ done.drop k
    else done ++ [seg]) []

/-- Cut c + 1 out of the dailies of a replay of cut c. A gang makes it even when nothing moves (R349, R350). -/
def makeCut (x : ReelSet) (c : Nat) : ReelSet :=
  match x.cuts.find? fun k => k.num = c with
  | none => x
  | some k =>
    let counted (r : Reel) : List (ReelRec × Nat) := r.list.zip (r.dailies ++ List.replicate r.recs.length 0)
    let late (t : Nat) : Bool := k.reels.any fun r => (counted r).any fun e =>
      match e.1 with | .semwait _ s _ => decide (s = t) && decide (e.2 ≠ 0) | _ => false
    let mk (r : Reel) : Reel :=
      if r.copy then
        let (segs, rest) := segments [] (counted r)
        { r with recs := ((hoist x.enc late segs).flatten ++ rest).map fun e => e.1.encode, dailies := [] }
      else { r with dailies := [] }
    let reels := k.reels.map mk
    let changed := decide (reels.map Reel.recs ≠ k.reels.map Reel.recs)
    let gang := decide (fieldN x.enc 8 4 ≠ 0)
    if (changed || gang) && decide (c < 255) then
      { x with cuts := (x.cuts.filter fun y => y.num ≠ c + 1 ∧ c ≤ y.num) ++ [⟨c + 1, reels⟩] }
    else x

/-- A cut is made, or a recording stands in the store: the set is not in use any more. -/
def execCutMake (s : State) : Host.Outcome State Fault Refusal :=
  onDue s (fun
    | .cutMake slate c => some (onSet slate fun x => { makeCut x c with inUse := false })
    | .reelStored slate => some (reelStored slate)
    | _ => none) fun f s => f s

/-! ### Gangs (R350) -/

/-- What this device tells rank 0 of a graph. -/
def ownVote (s : State) (g : Graph) (gid rank : Nat) : GangVote :=
  match setOf s g.slate with
  | some x => let ok := decide (x.enc = g.enc) && !x.broken; ⟨gid, rank, g.slate, ok, if ok then x.cuts.map Cut.num else []⟩
  | none => ⟨gid, rank, g.slate, false, []⟩

def gangNodes (g : Graph) : List Nat := (g.gidTab.map Prod.snd).getD []

/-- A graph of a gang whose turn it is to be decided: no earlier one of its group awaits its decision, and nothing of its slate is under
way (R337, R350) (DESIGN CHOICE, log 41). -/
def voteDue (s : State) (g : Graph) : Bool :=
  match g.gidTab with
  | some (gid, _) => !g.voted && !slateBusy s g &&
      !(s.grip.graphs.any fun x => decide (x.id < g.id) && decide (x.gidTab.map Prod.fst = some gid) && x.decided.isNone)
  | none => false

/-- This device tells rank 0 of a gang what it holds under a graph's slate (R350) (DESIGN CHOICE, log 41). -/
def castVote (g : Graph) (s : State) : State :=
  let nodes := gangNodes g
  let gid := (g.gidTab.map Prod.fst).getD 0
  let r := nodes.findIdx (· = s.node.toNat)
  let v := ownVote s g gid r
  let s := setGraph { g with voted := true } s
  if r = 0 then s.onGrip fun x => { x with votes := (x.votes.filter fun y => ¬(y.gid = gid ∧ y.rank = 0)) ++ [v] }
  else sendPacket 5 3 (nodes.head?.getD 0) gid []
    (leBytes 2 0 ++ leBytes 2 r ++ leBytes 8 v.slate.toNat ++ leBytes 1 (if v.holds then 1 else 0) ++ v.cuts.flatMap (leBytes 1)) s

/-- The graph of a group whose votes have all come, where this device is rank 0. -/
def gangReady (s : State) : Option Graph :=
  s.grip.graphs.find? fun g =>
    match g.gidTab, g.decided with
    | some (gid, nodes), none =>
      g.voted && decide (nodes.head? = some s.node.toNat) &&
        (List.range nodes.length).all fun r => s.grip.votes.any fun v => decide (v.gid = gid ∧ v.rank = r)
    | _, _ => false

/-- The highest cut number that every member holds, where all hold a set under one slate with an equal encoding. -/
def decideCut (g : Graph) (votes : List GangVote) : Option Nat :=
  if votes.all fun v => v.slate = g.slate ∧ v.holds = true then
    let common := (((votes.head?).map GangVote.cuts).getD []).filter fun c => votes.all fun v => v.cuts.contains c
    common.foldl (fun b c => match b with | some x => some (max x c) | none => some c) none
  else none

def applyDecision (gid : Nat) (d : Option Nat) (s : State) : State :=
  match s.grip.graphs.find? fun g => g.gidTab.map Prod.fst = some gid ∧ g.voted = true ∧ g.decided = none with
  | some g => lookUp { g with decided := some d } (setGraph { g with decided := some d } s)
  | none => s

/-- Rank 0 publishes its decision to every member, over the management path (DESIGN CHOICE, log 41). -/
def execGangDecision (s : State) : Host.Outcome State Fault Refusal :=
  let s := match s.agenda with
    | e :: l => if e.ev = .gangDecision ∧ e.at_ ≤ s.cyc then { s with agenda := l } else s
    | [] => s
  match gangReady s with
  | none => .next s
  | some g =>
    let gid := (g.gidTab.map fun t => t.1).getD 0
    let votes := s.grip.votes.filter fun v => v.gid = gid
    let d := decideCut g votes
    let s := s.onGrip fun x => { x with votes := x.votes.filter fun v => v.gid ≠ gid }
    let body := match d with | some c => leBytes 2 1 ++ leBytes 2 c | none => leBytes 2 1 ++ leBytes 2 0xFFFF
    let s := (gangNodes g).tail.foldl (fun s n => sendPacket 5 3 n gid [] body s) s
    .next (applyDecision gid d s)

/-- A management packet: a vote for rank 0, a decision, or the withdrawal of a group, which stops its collectives (R298, R350, R382). -/
def execManagementPacketArrival (s : State) : Host.Outcome State Fault Refusal :=
  onDue s (fun | .managementPacketArrival k m => some (k, m) | _ => none) fun (k, m) s =>
    withPacket k 5 (fun s =>
      let gid := k.gid.toNat
      match m with
      | .cuts r slate holds cuts =>
        s.onGrip fun g => { g with votes := (g.votes.filter fun v => ¬(v.gid = gid ∧ v.rank = r)) ++ [⟨gid, r, slate, holds, cuts⟩] }
      | .decision c => applyDecision gid c s
      | .withdraw w =>
        let s := (s.grp.colls.filter fun c => c.gid = w).foldl (fun s c => abortColl c 2 s) s
        (s.grp.reps.filter fun c => c.gid = w).foldl (fun s c => abortRep c 2 s) s) s

/-! ### A guard that fails (R345, R346) -/

/-- The streamers stop, what has not been released is withdrawn, and the failed task with all that was not launched goes to the floor
scheduler. -/
def guardFailed (g : Graph) (task : Nat) (health : Bool) (s : State) : State :=
  let s := withdraw g.id s
  let s := match graphOf s g.id with
    | some g => setGraph (dropPosts { putGSt task .waiting g with mode := .remainder, heads := [] }) s
    | none => s
  onSet g.slate (fun x => { x with fails := x.fails + 1, dropAfter := x.dropAfter || health }) s

end Sys2Proof.Machine
end

