-- ==== Sys2Proof/Machine/Jobs.lean ====
section
/-! DEFINITION. Jobs: their release and end, check points, the watchdog, pre-emption with the save at a safe point, resumption, the
report of a freeze (R86, R87, R95, R102, R327 to R330, R345, R346, R353 to R364, DESIGN CHOICE, log 1). -/
namespace Sys2Proof.Machine

/-! ### Release (R86, R249, R278, R327) -/

/-- The instance of a level that a job of a core belongs to (R277). -/
def coreInst (core lvl gid : Nat) : Nat :=
  match lvl with | 1 => Config.coreCluster core | 2 => core / 64 | 4 => gid | _ => 0

/-- A task's job enters its domains; the first registration of a GID makes its instance. -/
def enrol (t : Task) (levels core : Nat) (s : State) : State :=
  let gid := (t.gidTab.map fun x => x.1).getD 0
  let s := match t.gidTab with
    | some (_, nodes) =>
      let s := if s.grp.regs.any fun r => r.2.1 = gid then s
        else putDom { Dom.init 4 gid with nodes := nodes, lam := gangLambda s } s
      s.onGrp fun g => { g with regs := g.regs ++ [(core, gid, t.id)] }
    | none => s
  [1, 2, 3, 4].foldl (fun s l =>
    let i := coreInst core l gid
    if levels.testBit l then addMember ((findDom s l i).getD (Dom.init l i)) (memberKey core t.id) s else s) s

/-- The task whose jobs are released on this cycle: the first at or after r + 96 whose calendar position is 0; none while one of its cores
is fenced or to be tested (R327, R366). -/
def taskRelease (s : State) : Option Task :=
  if s.cyc % 256 = 0 then
    s.grip.tasks.find? fun t => decide (t.st = .placed) && (match t.rel with | some r => decide (r + 96 ≤ s.cyc) | none => false) &&
      !(t.cores.any fun c => (coreQ s c).fenced)
  else none

/-- What every party of a job holds when it starts (R246). -/
def startHeld (s : State) (l : List Nat) : SMap (List Nat) :=
  (List.range 32).map fun a => (s.coreNo * 32 + a, (unionNat [27, 31] l).filter (· ≠ s.coreNo * 32 + a))

/-- Job cycle 0 of a job of this core. -/
def startJob (l : Launch) (s : State) : State :=
  let q : Seq := { Seq.init with
    x := Vector.ofFn fun i => l.xs.getD i.val 0
    z := Vector.ofFn fun i => l.zs.getD i.val 0
    pos := .header l.entry }
  { s with
    job := { Job.init with
      st := .running, id := s.grip.jobCount, ctx := s.grip.ctxCount, l := l, seq := q, levels := BitVec.ofNat 5 l.levels,
      held := startHeld s l.held }
    core := { s.core with walks := [], walked := [] } }

/-- A task is released: its job starts on this core, with the next job and context number (R86, R327; DESIGN CHOICE, log 11). -/
def execJobRelease (s : State) : Host.Outcome State Fault Refusal :=
  match taskRelease s with
  | none => .next s
  | some t =>
    let levels := taskLevels t t.cores
    .next (t.cores.foldl (fun s c =>
      let s := onCoreQ c (fun k => { k with run := some t.id, q := k.q.tail }) s
      let s := s.onGrip fun g => { g with jobCount := g.jobCount + 1, ctxCount := g.ctxCount + 1 }
      let s := enrol t levels c s
      if c = s.coreNo then
        match s.core.jobq with
        | l :: rest => startJob l (s.onCore fun k => { k with jobq := rest })
        | [] => s
      else s)
      (let s := setTask { t with st := .running } s
       match t.graph with
       | some (g, i) => (match graphOf s g with | some x => setGraph (putGSt i .launched x) s | none => s)
       | none => s))

/-! ### What a job holds on its core, and its end (R95, R164, R210, R234, R279) -/

/-- Requests that the core's sequencer waits on and that no job awaits any more. -/
def dropWatches (s : State) : State :=
  let keep (r : AtomReq) : Bool := !(decide (r.src = .core) && (match r.kind with | .semwait => true | .waitmem _ => true | _ => false))
  { s with
    atoms := s.atoms.map fun a =>
      { a with
        arr := a.arr.filter fun x => keep x.2
        queue := a.queue.filter keep
        watches := a.watches.filter keep
        fills := a.fills.map fun f => { f with reqs := f.reqs.filter keep } }
    agenda := s.agenda.filter fun e => match e.ev with | .atomicReturn r => decide (r.src ≠ .core) | _ => true }

/-- A job leaves an instance. -/
def leaveLevels (core task gid : Nat) (levels : Nat → Bool) (s : State) : State :=
  let s := [1, 2, 3, 4].foldl (fun s l =>
    if levels l then (match findDom s l (coreInst core l gid) with
      | some d => dropMember l d (memberKey core task) s
      | none => s) else s) s
  let s := s.onGrp fun g => { g with regs := g.regs.filter fun r => ¬(r.1 = core ∧ r.2.2 = task) }
  if s.grp.regs.any fun r => r.2.1 = gid then s
  else s.onGrp fun g => { g with doms := g.doms.filter fun d => ¬(d.lvl = 4 ∧ d.inst = gid) }

/-- The pages that a job holds, by the commands that hold them: its bindings, its spill area, its sections (R230). -/
def jobPins (j : Job) : List (List Piece) :=
  let sec (pages : List Piece) (tp : List TpEnt) : List Piece := pages ++ tp.flatMap TpEnt.pages
  j.bind.toList.map TpEnt.pages ++ [j.otPages] ++
    j.eng.toList.flatMap fun e => (e.q ++ e.cur.toList).map (fun q => sec q.pages q.tp) ++ e.ended.map fun x => sec x.pages x.tp

/-- What a port of a job that ends still holds is written: its vectors in their order, under the stamps of their granules (R128) (DEDUCED,
log 26). -/
def flushPort (s : State) (g : Nat) : State :=
  let p := s.port g
  if p.cfg && p.wr then
    p.buf.foldl (fun s v =>
      let as := (List.range (v.cnt - v.done)).map fun i => walkAddr p (v.pos + v.done + i)
      putConvs (eszBytes p) (runConvs s v as) (runStamp s .ax .write as (eszBytes p)).1) s
  else s

/-- What a job that ends has written to its ports and its slots and the banks have not taken is written (DEDUCED, log 26). -/
def flushWrites (s : State) : State :=
  let s := (List.range 8).foldl flushPort s
  s.core.writes.foldl (fun s w => w.parts.foldl (fun s p =>
    putSpad p.1 p.2 (spadStamp s (strParty s w.st) (streamHolds s w.st) .write p.1 p.2.length).1) s) s

/-- A request of a job that is over: what it writes is written, what it reads goes to nobody (R95) (DEDUCED, log 26). -/
def lateReq (r : DevReq) : DevReq :=
  match r.kind with
  | .ld _ _ _ | .st | .otWr _ _ | .otTrailer _ | .otRd _ _ | .devWr | .sbRd | .sbWr | .walk _ _ _ | .desc _ => { r with kind := .late }
  | _ => r

/-- An entry of the agenda that no job awaits any more goes; a request under service goes on by itself. -/
def lateDue (e : Due) : Option Due :=
  match e.ev with
  | .stackSlotService r => some { e with ev := .stackSlotService (lateReq r) }
  | .translationWalk _ _ _ | .deferredFaultReport _ | .loadReturn _ | .descReturn _ _ _ _ _ | .fillTrailerCheck _ | .fillComplete _
  | .sempostAck (.post _) => none
  | _ => some e

/-- The core after its job: planes and images go, with bad data among them, and all that the job's words had under way but what they have
asked to be written. -/
def clearJob (s : State) : State :=
  let j := s.job
  let gid := (j.l.gang.map Prod.fst).getD 0
  let s := leaveLevels s.coreNo j.l.task gid (fun l => j.levels.getLsbD l) ((jobPins j).foldl unpinAll s)
  let mine (p : Nat) : Bool := decide (p / 32 = s.coreNo) && decide (p % 32 < 25)
  let s := s.core.ldHeld.foldl (fun s x => request (max x.1 s.cyc) x.2 s) s
  let s := dropWatches (s.onCore fun c =>
    { c with
      planes := c.planes.map fun p => if p.owner = some j.ctx then Plane.init else p
      images := c.images.filter fun i => i.1 ≠ j.ctx
      walks := [], walked := [], writes := [], ldHeld := []
      arr := { c.arr with fq := [], fland := [], rls := [], reads := [] }
      sb := c.sb.filter fun e => e.owner.isSome
      ranges := c.ranges.filter fun r => !mine r.party })
  let s := s.onDev fun d => { d with reqs := d.reqs.map fun x => (x.1, lateReq x.2) }
  let s := mend (fun b => match b with
    | .ldm _ | .sreg _ | .record _ | .line _ _ _ => true
    | .lane p _ => decide ((s.plane p).owner = none)
    | _ => false) s
  { s with hold := none, job := Job.init, agenda := s.agenda.filterMap lateDue }

/-- A core's job is gone: a request for pre-emption of it has lapsed, and a task to which the core was lent gives it back (R328, R330). -/
def freeCore (core task : Nat) (s : State) : State :=
  let s := onCoreQ core (fun x =>
    { x with run := none, frozen := false, asked := false, lent := if x.lent = some (true, task) then none else x.lent }) s
  let mine := s.grip.asked.filter fun a => a.1 = core
  let s := s.onGrip fun g => { g with asked := g.asked.filter fun a => a.1 ≠ core }
  let s := { s with agenda := s.agenda.filter fun e => e.ev ≠ .preemptionRequest core }
  mine.foldl (fun s a => packetDone a.2.1 a.2.2 false s) s

/-- Whether every copy, collective, pass, one-sided write, atomic operation and SENDT that a job has forked has completed (R95, R354). -/
def opsDone (s : State) : Bool :=
  let id := s.job.id
  !(s.core.copies.any fun c => c.own && decide (c.jobId = id)) &&
    !(s.grp.colls.any fun c => decide (c.core = s.coreNo) && decide (c.jobId = id)) &&
    !(s.grp.reps.any fun c => decide (c.core = s.coreNo) && decide (c.jobId = id)) &&
    !(s.grp.rems.any fun c => decide (c.core = s.coreNo) && decide (c.jobId = id) && c.token.isSome) &&
    s.job.seq.postOut.isEmpty && s.job.seq.amoOut.isEmpty && decide (s.job.sendOut = 0)

/-- This core's job ends on this cycle: it has passed its last rendezvous or the driver has ended it, and what it forked is done (DEDUCED,
log 26). -/
def jobEndable (s : State) : Bool := decide (s.job.st = .ending) && opsDone s

/-- The parties of a job's core, the collectives' among them, with what they held: what its end orders (R246, R250). -/
def jobParties (s : State) : List Nat :=
  (s.job.held.map Prod.snd).foldl unionNat ((List.range 26).map fun a => s.coreNo * 32 + a)

def endJob (s : State) : State :=
  let j := s.job
  let ps := jobParties s
  taskJobEnded j.l.task s.coreNo j.l.jidx j.frec.isSome ps j.guards (freeCore s.coreNo j.l.task (clearJob (flushWrites s)))

/-- The index of a core's job in its task. -/
def jobIndex (s : State) (task core : Nat) : Nat := match taskOf s task with | some t => t.cores.findIdx (· = core) | none => 0

/-- The end of another core's job, as that core reports it with what its parties held. -/
def endPeer (core : Nat) (fault : Bool) (guards : List (Bool × W64)) (held : List Nat) (s : State) : State :=
  match (coreQ s core).run with
  | none => s
  | some id =>
    let j := jobIndex s id core
    let gid := (((taskOf s id).bind Task.gidTab).map Prod.fst).getD 0
    let s := leaveLevels core id gid (fun _ => true) s
    taskJobEnded id core j fault (unionNat held ((List.range 26).map fun a => core * 32 + a)) guards (freeCore core id s)

/-! ### The report of a freeze (R322, R341, R354) -/

/-- The queue of a frozen job stops with its fault, its record stands in BAR0 and goes to the driver, its graph's streamers pause (R380). -/
def reportFreeze (core : Nat) (f : FaultRec) (s : State) : State :=
  match (coreQ s core).run with
  | none => s
  | some id =>
    let s := onCoreQ core (fun x => { x with frozen := true, fcode := f.code }) s
    match taskOf s id with
    | none => s
    | some t =>
      let seq := ((packetOf s t.q t.pkt).map Pkt.seq).getD 0
      let w := (faultWords f).toList
      let s := ((stopQueue t.q f.code.toNat seq s).onGrip fun g => { g with records := SMap.set [] g.records t.q w }).emit (.faultRec t.q w)
      match t.graph with
      | some (g, _) => (match graphOf s g with | some x => setGraph { x with paused := true } s | none => s)
      | none => s

/-- This core's freeze is reported once, at the end of its cycle. -/
def freezeReport (s : State) : State :=
  match s.job.frec with
  | some f => if s.job.st = .frozen ∧ (coreQ s s.coreNo).frozen = false then reportFreeze s.coreNo f s else s
  | none => s

/-- A job ends on this core, or another core reports the end or the freeze of its own (DESIGN CHOICE, log 1). -/
def execJobEnd (s : State) : Host.Outcome State Fault Refusal :=
  dueElse s (fun
    | .jobEnd c fault gs held => some (endPeer c fault gs held)
    | .jobFrozen c f => some (reportFreeze c f)
    | _ => none) (fun f s => f s) fun s => if jobEndable s then endJob s else s

/-! ### Check points (R344 to R346) -/

/-- The kind of the first guard that differs from the recorded list, if one does. -/
def guardsDiffer : List (Bool × W64) → List (Bool × W64) → Option Bool
  | [], [] => none
  | a :: _, [] => some a.1
  | [], b :: _ => some b.1
  | a :: l, b :: m => if a = b then guardsDiffer l m else some (a.1 || b.1)

/-- The jobs of a task whose guards failed are stopped, with no effect, and the graph goes on dynamically. -/
def stopTask (t : Task) (health : Bool) (s : State) : State :=
  let gid := (t.gidTab.map Prod.fst).getD 0
  let s := t.cores.foldl (fun s c =>
    if c = s.coreNo then freeCore c t.id (clearJob s)
    else (freeCore c t.id (leaveLevels c t.id gid (fun _ => true) s)).emit (.orders c true)) s
  let s := dropTask t.id s
  match t.graph with
  | some (g, i) => (match graphOf s g with | some x => guardFailed x i health s | none => s)
  | none => s

/-- A job has reached its check point. A failure of a one-job task stops it at once; jobs of one task wait for each other. -/
def arriveCheck (id j : Nat) (bad : Option Bool) (s : State) : State :=
  match taskOf s id with
  | none => s
  | some t =>
    if t.ncore = 1 then (match bad with | some h => stopTask t h s | none => s)
    else setTask { t with checks := (j, bad) :: t.checks.filter fun x => x.1 ≠ j } s

/-- A task of several jobs, on this core or on others, all of which have arrived at their check points. -/
def checkComplete (s : State) : Option Task := s.grip.tasks.find? fun t => decide (1 < t.ncore) && decide (t.checks.length = t.ncore)

/-- All jobs of a task pass their check points, and go on with the next cycle. -/
def checksPassed (t : Task) (s : State) : State :=
  let s := (setTask { t with checks := [] } s).emit (.checked t.id)
  if s.job.check = .waiting ∧ s.job.l.task = t.id then
    (s.onJob fun j => { j with check := .passed }).onFlow fun f => { f with moved := true }
  else s

/-- The test of this core's guards: a replay's alone can fail. -/
def ownGuards (s : State) : Option Bool :=
  if s.job.l.gmode = .replay then guardsDiffer s.job.guards s.job.l.guards else none

/-- This core's job reaches its check point, another core's does, or the last has: then all proceed on the next cycle, or none does. -/
def execCheckPoint (s : State) : Host.Outcome State Fault Refusal :=
  dueElse s (fun | .checkArrive id j bad => some (arriveCheck id j bad) | _ => none) (fun f s => f s) fun s =>
    match checkComplete s with
    | some t =>
      (match t.checks.findSome? Prod.snd with
       | some h => stopTask t h s
       | none => checksPassed t s)
    | none =>
      if s.job.st = .running ∧ s.job.check = .before then
        let bad := ownGuards s
        if s.job.l.njobs = 1 then
          match bad with
          | none => { s.onJob fun j => { j with check := .passed } with todo := .stream .sq :: s.todo }
          | some _ => arriveCheck s.job.l.task s.job.l.jidx bad s
        else stalled .sq .rdv (arriveCheck s.job.l.task s.job.l.jidx bad (s.onJob fun j => { j with check := .waiting }))
      else s

/-! ### The watchdog (R363, R364) -/

/-- The watchdog's cause of a stall (R364; the last DESIGN CHOICE, log 46). -/
def waitCause (w : Wait) : Nat :=
  match w with | .port => 0 | .slot => 1 | .token => 2 | .watch => 3 | .barw => 4 | .claim => 5 | .rdv => 6 | .other => 5

/-- The lowest stream that is stalled when the count of cycles without an issue reaches 2^24. -/
def watchdogDue (s : State) : Option (Stream × Wait) :=
  let f := s.job.flow
  if s.job.st = .running ∧ s.hold = none ∧ f.moved = false ∧ 2 ^ 24 ≤ f.wdog + 1 then
    Stream.all.findSome? fun st => (row f.stall none st.idx).map fun w => (st, w)
  else none

def execWatchdogExpiry (s : State) : Host.Outcome State Fault Refusal :=
  match watchdogDue s with
  | none => .next s
  | some (st, w) => .next (takeFault (if w = .watch then dropWatches s else s) (faultAt s st 0x17 (waitCause w)))

/-! ### Pre-emption (R102, R328, R329, R358 to R362) -/

/-- A request is raised, unless one is pending for the core. -/
def askPreempt (core : Nat) (s : State) : State :=
  if (coreQ s core).asked then s
  else (onCoreQ core (fun x => { x with asked := true }) s).postAt (gripAt s) (.preemptionRequest core)

/-- A request reaches a core. A frozen job keeps it for the time after a resumption; one for a job that is ending lapses. -/
def execPreemptionRequest (s : State) : Host.Outcome State Fault Refusal :=
  onDue s (fun | .preemptionRequest c => some c | _ => none) fun c s =>
    match (coreQ s c).run with
    | none => freeCore c 0 s
    | some _ =>
      if c ≠ s.coreNo then s.emit (.preempt c)
      else match s.job.st with
        | .running | .frozen => s.onJob fun j => { j with preempt := match j.preempt with | some n => some n | none => some s.cyc }
        | _ => s

/-- The live-map entries of the five sections of a safe point, ORed; an entry is found under its header's address, in whichever object of
the job's table it lies (R358, R371). -/
def liveEntry (s : State) : List Byte :=
  let live := s.grip.slots.toList.flatMap fun r => match r.obj with
    | some o => if o.root = s.job.l.root then o.live else []
    | none => []
  let es := s.job.flow.words.toList.filterMap fun w => (live.find? fun e => e.1 = w.hdr.toNat).map Prod.snd
  es.foldl (fun a b => (a.zip b).map fun x => x.1 ||| x.2) (List.replicate 40 0)

structure LiveMap where
  sm : Nat
  fm : Nat
  bm : Nat
  vm : Nat
  am : Nat
  om : Nat
  hm : Nat
  deriving DecidableEq, Repr

def liveMap (l : List Byte) : LiveMap :=
  ⟨fieldN l 8 4, fieldN l 12 1, fieldN l 13 1, fieldN l 16 4, fieldN l 20 4, fieldN l 24 8, fieldN l 32 2⟩

/-- Whether a tile or a slot is live: the odd member of a pair goes by its even one. -/
def livePair (m : Nat) (pair : Nat → Bool) (i : Nat) : Bool :=
  if i % 2 = 1 ∧ pair (i - 1) = true then m.testBit (i - 1) else m.testBit i

/-- A read port refetches from where its next pop stands (R137). -/
def refetch (p : Port) : Port :=
  if p.wr then p else { p with fpos := (p.buf.head?.map PVec.pos).getD p.fpos, buf := [] }

/-- The context as it is saved: a member of a class that the live map omits takes the state in which it resumes, and the loop buffers are
not part of it (R169, R359) (DEDUCED, log 17). -/
def savedJob (m : LiveMap) (j : Job) : Job :=
  let fpPair (i : Nat) : Bool := decide ((row j.mx.a Tile.init i).mode = .fp)
  let slotPair (i : Nat) : Bool := (row j.mx.o OSlot.init (i + 1)).pair
  { j with
    preempt := none
    eng := j.eng.map fun e => { e with lbuf := [], lbr := none }
    seq := { j.seq with
      s := Vector.ofFn fun i => if m.sm.testBit i.val then row j.seq.s 0 i.val else 0
      f := Vector.ofFn fun i => decide (i.val = 0) || (m.fm.testBit i.val && row j.seq.f false i.val)
      b := Vector.ofFn fun i => if m.bm.testBit i.val then row j.seq.b BReg.init i.val else BReg.init }
    mx := { j.mx with
      a := Vector.ofFn fun i => if livePair m.am fpPair i.val then row j.mx.a Tile.init i.val else Tile.init
      o := Vector.ofFn fun i => if livePair m.om slotPair i.val then row j.mx.o OSlot.init i.val else OSlot.init }
    h := Vector.ofFn fun i => if m.hm.testBit i.val then row j.h Handle.zero i.val else Handle.zero
    g := j.g.map refetch }

/-- The bytes of the slots of the live handles. -/
def handleSlots (s : State) (m : LiveMap) : List (Nat × List Byte) :=
  ((List.range 16).filter fun i => m.hm.testBit i && (s.handle i).init).map fun i =>
    let h := s.handle i
    (h.base, rdBytes s.core.spad h.base (h.depth * 64 * 2 ^ h.sz))

/-- What the device waits for at the safe point before it saves: ports, what writes this core's scratchpad or operand memory, follow-ons,
spills and fills (R156, R360); and requests whose answers the job awaits (DEDUCED, log 26). -/
def saveReady (s : State) : Bool :=
  let here (c : Copy) : Bool := match c.dst with | .spad k _ => decide (k = s.coreNo) | .oslot _ => true | _ => false
  let done (c : Copy) : Bool := decide (c.ph = .retired) && (c.fow.isNone || c.fjoin)
  let arriving (e : Due) : Bool := match e.ev with | .sendtArrival m => decide (m.dstCore = s.coreNo) | _ => false
  let q := s.job.seq
  decide (s.job.st = .saving) && ((List.range 8).all fun g => let p := s.port g; !p.cfg || !p.wr || p.buf.isEmpty) &&
    !(s.core.copies.any fun c => here c && !done c) && !(s.core.sb.any SbEnt.wr) && !(s.agenda.any arriving) &&
    s.core.arr.fq.isEmpty && s.core.arr.fland.isEmpty && s.job.ot.spill.isNone && s.job.ot.fill.isNone &&
    q.ldOut.isEmpty && q.postOut.isEmpty && q.amoOut.isEmpty && decide (q.stOut = 0)

/-- A core's job is saved: it waits for its core, which a graph lends to the task that asked. -/
def corePreempted (core task : Nat) (s : State) : State :=
  let from_ := (s.grip.asked.find? fun a => a.1 = core).map fun a => a.2.1
  let s := onCoreQ core (fun x =>
    { x with
      saved := x.saved ++ [task]
      lent := match x.lent with
        | some l => some l
        | none => if x.graph.isSome then from_.map fun q => (false, q) else none }) s
  freeCore core task s

def saveJob (s : State) : State :=
  let m := liveMap (liveEntry s)
  let x : Saved := ⟨savedJob m s.job, handleSlots s m, s.core.stat, s.core.step⟩
  let c := s.job.ctx
  let task := s.job.l.task
  let s := s.onCore fun k =>
    { k with
      saved := k.saved ++ [x]
      walks := [], walked := []
      planes := Vector.ofFn fun i =>
        let p := row k.planes Plane.init i.val
        if p.owner = some c ∧ m.vm.testBit i.val = false then Plane.init else p
      images := k.images.filter fun i => decide (i.1 ≠ c) || m.vm.testBit i.2.1 }
  corePreempted s.coreNo task { s with job := Job.init }

def execSafePointSave (s : State) : Host.Outcome State Fault Refusal :=
  dueElse s (fun | .safePointSave c => some c | _ => none) (fun c s =>
    match (coreQ s c).run with
    | some t => if c = s.coreNo then s else corePreempted c t s
    | none => s) fun s => if saveReady s then saveJob s else s

/-! ### Resumption (R329, R354, R357, R359) -/

/-- The task to which a core is lent has not ended, or is yet to be dispatched. -/
def lentBusy (s : State) (x : CoreQ) : Bool :=
  match x.lent with
  | some (true, t) => (taskOf s t).isSome
  | some (false, q) => (oldestTask s q).isSome
  | none => false

/-- A saved job whose core is free for it enters the job queue. -/
def placeResumption (core : Nat) (s : State) : State :=
  let x := coreQ s core
  match x.saved with
  | t :: rest =>
    if x.q.length < 4 ∧ x.fenced = false ∧ lowerWaits s t core = false ∧ lentBusy s x = false then
      let s := onCoreQ core (fun k => { k with saved := rest, q := k.q ++ [t], lent := none }) s
      if core = s.coreNo then
        match s.core.saved.find? fun j => j.job.l.task = t with
        | some j => s.onCore fun k => { k with jobq := k.jobq ++ [{ j.job.l with resume := some j.job.id }] }
        | none => s
      else s
    else s
  | [] => s

/-- A resumption of another core that stands at the head is ordered there. -/
def orderResumption (core : Nat) (s : State) : State :=
  let x := coreQ s core
  match x.q with
  | t :: rest =>
    if core ≠ s.coreNo ∧ x.run = none ∧ (taskOf s t).any (fun y => decide (y.st = .running)) = true then
      (onCoreQ core (fun k => { k with run := some t, q := rest }) s).emit (.orders core false)
    else s
  | [] => s

/-- The saved context that is released on this cycle: at the calendar position of its next job cycle (R357). -/
def savedDue (s : State) : Option Saved :=
  match s.core.jobq, (coreQ s s.coreNo).run with
  | l :: _, none =>
    if (coreQ s s.coreNo).fenced then none else l.resume.bind fun id => s.core.saved.find? fun x => x.job.id = id ∧ x.job.calpos = s.cyc % 256
  | _, _ => none

/-- A frozen job that the driver resumes is released on this cycle. -/
def frozenDue (s : State) : Bool :=
  decide (s.job.st = .frozen) && s.job.l.resume.isSome && decide (s.job.calpos = s.cyc % 256) && !(coreQ s s.coreNo).fenced

/-- The saved context comes back: statistics and counters, the slots of live handles as the Grip writes them, the job. -/
def restoreJob (x : Saved) (s : State) : State :=
  let s := s.onCore fun c => { c with saved := c.saved.filter fun y => y.job.id ≠ x.job.id, jobq := c.jobq.tail, stat := x.stat, step := x.step }
  let s := onCoreQ s.coreNo (fun k => { k with run := some x.job.l.task, q := k.q.tail }) s
  let s := x.slots.foldl (fun s w => putSpad w.1 w.2 (gripSpad .write w.1 w.2.length s)) { s with job := x.job }
  let s := (List.range 32).foldl (fun s a => addHeld s (party s a) [31]) s
  resumeJob (s.onJob fun j => { j with l := { j.l with resume := none } })

/-- Whether a job's last rendezvous has completed. -/
def pastLast (j : Job) : Bool :=
  j.flow.flags.toList.all Prod.snd && j.flow.rdvReached.toList.all fun n => decide (n = j.flow.rdvDone)

/-- A frozen job goes on; one that has passed its last rendezvous goes on to its end. -/
def resumeFrozen (s : State) : State :=
  let t := resumeJob (s.onJob fun j => { j with l := { j.l with resume := none } })
  if pastLast s.job then t.onJob fun j => { j with st := .ending } else t

def resumable (s : State) : Bool := frozenDue s || (savedDue s).isSome

def execJobResumption (s : State) : Host.Outcome State Fault Refusal :=
  if frozenDue s then
    .next (resumeFrozen (onCoreQ s.coreNo (fun k => { k with frozen := false }) s))
  else match savedDue s with
    | some x => .next (restoreJob x s)
    | none => .next s

end Sys2Proof.Machine
end

