-- ==== Sys2Proof/Machine/Packets.lean ====
section
/-! DEFINITION. The packets of the queues (R319 to R322, R325, R332 to R337, R350, R372, R390), but for the load itself. -/
namespace Sys2Proof.Machine

/-- A semaphore's address as a packet names it: its physical place. -/
def semPlace (s : State) (q va : Nat) (perms : List Perm) : Except GStop Nat := do
  need (decide (va % 8 = 0)) 0x02
  let pages ← coded (gripRange s (queueAt s q).root va 8 perms)
  .ok ((pieceAt pages va).getD 0)

/-- The object of a slot that may be launched under a version (R325). -/
def launchable (s : State) (slot ver : Nat) : Option Obj :=
  let r := slotAt s slot
  if r.st = .resident ∧ r.ver.toNat = ver then
    r.obj.bind fun o => if o.defdeal ∧ s.dev.deal ≠ 0 then none else some o
  else none

/-! ### INVOKE (R320, R321, R325, R372) -/

/-- The registers of an INVOKE: those that it supplies, with which x registers it supplies. -/
def invokeRegs (s : State) (q : Nat) (l : List Byte) : Except GStop (List W64 × List W64 × (Nat → Bool)) :=
  let args := fieldN l 24 8
  let inl := (List.range 3).map fun i => field64 l (40 + 8 * i)
  if args = 0 then
    .ok (inl ++ List.replicate 13 0, List.replicate 8 0, fun i => (inl[i]?).getD 0 ≠ 0)
  else do
    need (inl.all (· = 0)) 0x02
    need (decide (args % 8 = 0)) 0x02
    let b ← gripRead s q args 200
    let m := field64 b 0
    need (decide (m.toNat / 2 ^ 24 = 0)) 0x02
    let xs := (List.range 16).map fun i => if m.getLsbD i then field64 b (8 + 8 * i) else 0
    let zs := (List.range 8).map fun i => if m.getLsbD (16 + i) then field64 b (136 + 8 * i) else 0
    .ok (xs, zs, fun i => m.getLsbD i)

/-- The process group that a packet names. -/
def packetTable (s : State) (q va : Nat) : Except GStop (Option (Nat × List Nat)) :=
  if va = 0 then .ok none else (gripTable s q va).map some

def takeSlot (n : Nat) (s : State) : State := onSlot n (fun r => { r with jobs := r.jobs + 1 }) s

def addTask (t : Nat → Task) (s : State) : State :=
  s.onGrip fun g => { g with tasks := g.tasks ++ [t g.taskNext], taskNext := g.taskNext + 1 }

def invoke (q : Nat) (l : List Byte) (s : State) : Except GStop State := do
  let slot := fieldN l 16 2
  need (decide (slot < 256)) 0x02
  let (xs, zs, given) ← invokeRegs s q l
  let tab ← packetTable s q (fieldN l 32 8)
  match launchable s slot (fieldN l 18 2) with
  | none => .error (.code 0x11)
  | some o => do
    need (match o.xdata with | some x => !given x | none => true) 0x02
    let xs := match o.xdata with | some x => xs.set x (BitVec.ofNat 64 o.data) | none => xs
    let (s, pk) := acceptPacket q l 1 s
    let t (id : Nat) : Task := ⟨id, q, pk, slot, o.ncore, xs, zs, tab, 0, .waiting, s.cyc, 0, [], none, 0, none, [], []⟩
    .ok (takeSlot slot (addTask t s))

def execInvoke (s : State) : Host.Outcome State Fault Refusal := startPacket 2 invoke s

/-! ### WAIT and SIGNAL (R258, R275, R276) -/

def waitPacket (q : Nat) (l : List Byte) (s : State) : Except GStop State := do
  let va := fieldN l 16 8
  let mode := fieldN l 32 1
  need (decide (mode ≤ 1)) 0x02
  let pa ← semPlace s q va (if mode = 0 then [.r, .w] else [.r])
  let (s, pk) := acceptPacket q l 1 s
  let v := field64 l 24
  let s := onQueue q (fun x => { x with blocked := true }) (if mode = 0 ∧ v ≠ 0 then oweWrite q s else s)
  .ok (gripAtom (.grip q pk) (if mode = 0 then .semwait else .waitmem .gen) va pa v s)

def execWait (s : State) : Host.Outcome State Fault Refusal := startPacket 3 waitPacket s

def signalPacket (q : Nat) (l : List Byte) (s : State) : Except GStop State := do
  let va := fieldN l 16 8
  need (decide (field64 l 24 ≠ 0)) 0x02
  let pa ← semPlace s q va [.r, .w]
  let (s, pk) := acceptPacket q l 1 s
  .ok (gripAtom (.grip q pk) .sempost va pa (field64 l 24) (oweWrite q s))

def execSignal (s : State) : Host.Outcome State Fault Refusal := startPacket 4 signalPacket s

/-- A WAIT is answered: its thread goes on, and the packet is done. A write of a packet has been served: a SIGNAL is done. -/
def gripAcked (a : GripAck) (s : State) : State :=
  let ty (q pk : Nat) : Nat := ((packetOf s q pk).map Pkt.ty).getD 0
  match a with
  | .answer q pk =>
    if ty q pk = 3 then packetDone q pk false (onQueue q (fun x => { x with blocked := false, next := gripAt s }) s) else s
  | .served q pk =>
    let s := onQueue q (fun x => { x with owed := x.owed - 1 }) s
    if ty q pk = 4 then packetDone q pk false s else s
  | .post g n => reelPosted g n s

/-! ### Slots (R324, R325) -/

/-- The image of a slot that is being loaded. -/
def imageOnly (img len root ctx : Nat) : Obj := ⟨img, len, root, ctx, 0, [], 0, none, 1, false, [], [], [], [], [], []⟩

/-- The image is read whole, where it translates, and then the load goes on. -/
def loadslot (q : Nat) (l : List Byte) (s : State) : Except GStop State := do
  let n := fieldN l 16 2
  need (decide (n < 256)) 0x02
  need (decide ((slotAt s n).st = .free)) 0x11
  let d := queueAt s q
  let (s, pk) := acceptPacket q l 1 s
  let o := imageOnly (fieldN l 24 8) (fieldN l 32 8) d.root d.ctx
  let s := onSlot n (fun r => { r with st := .loading, ver := BitVec.ofNat 16 (fieldN l 18 2), obj := some o }) s
  let lines := match gripRange s d.root (fieldN l 24 8) (fieldN l 32 8) [.r] with
    | .ok pages => lineAccs pages (fieldN l 24 8) (fieldN l 32 8) []
    | .error _ => []
  .ok (gripAsk (gripAt s) .read lines (.slotLoadComplete n q pk) s)

def execLoadslot (s : State) : Host.Outcome State Fault Refusal := startPacket 5 loadslot s

def evictslot (q : Nat) (l : List Byte) (s : State) : Except GStop State := do
  let n := fieldN l 16 2
  need (decide (n < 256)) 0x02
  let r := slotAt s n
  need (decide (r.st = .resident) && decide (r.ver.toNat = fieldN l 18 2)) 0x11
  let (s, pk) := acceptPacket q l 1 s
  .ok (slotFreed n (onSlot n (fun r => { r with st := .evicting, evq := r.evq ++ [(q, pk)] }) s))

def execEvictslot (s : State) : Host.Outcome State Fault Refusal := startPacket 6 evictslot s

/-! ### PREEMPT, CHECKPOINT, FENCE (R320, R328, R361, R390) -/

def preemptPacket (q : Nat) (l : List Byte) (s : State) : Except GStop State := do
  let c := fieldN l 16 2
  need (decide (c < Config.cores s.variant)) 0x04
  match (coreQ s c).run with
  | none => .ok (acceptPacket q l 0 s).1
  | some _ =>
    let (s, pk) := acceptPacket q l 1 s
    .ok (askPreempt c (s.onGrip fun g => { g with asked := g.asked ++ [(c, q, pk)] }))

def execPreempt (s : State) : Host.Outcome State Fault Refusal := startPacket 7 preemptPacket s

/-- The lines of the range are read, each whole; the packet's handle is counted until it is over (R243, R390). -/
def checkpointPacket (q : Nat) (l : List Byte) (s : State) : Except GStop State := do
  let h := fieldN l 16 8
  let va := fieldN l 24 8
  let len := fieldN l 32 8
  let i := h % 2 ^ 12
  need (decide (h < 2 ^ 28)) 0x02
  let pages ← coded (gripRange s (queueAt s q).root va len [.r])
  need (handleCause s (queueAt s q).ctx i (h / 2 ^ 12 % 2 ^ 16) 0 len true 64).isNone 0x15
  let (s, pk) := acceptPacket q l 1 s
  .ok (gripAsk s.cyc .read (lineAccs pages va len []) (.checkpointRead q pk h (handleEnt s i).base va len) (countHandle i true s))

/-- The lines go to the host at the handle's BASE; the last is accepted after the host link's time (DESIGN CHOICE, log 36). -/
def checkpointRead (q pk h base va len : Nat) (s : State) : State :=
  let i := h % 2 ^ 12
  match unitTake (.checkpointRead q pk h base va len) s with
  | (some op, s) =>
    let s := (linePieces va len).foldl (fun s x =>
      s.emit (.extWrite i (h / 2 ^ 12 % 2 ^ 16) (base + (x.1 - va)) (op.bytes x.1 x.2))) s
    (countHandle i false s).postAt (s.cyc + 1 + Config.hostCycles s.nseq) (.packetComplete q pk)
  | (none, s) => s

def execCheckpoint (s : State) : Host.Outcome State Fault Refusal :=
  dueThen s (fun | .checkpointRead q pk h b va len => some (checkpointRead q pk h b va len) | _ => none) (startPacket 8 checkpointPacket)

def execFencePacket (s : State) : Host.Outcome State Fault Refusal :=
  startPacket 9 (fun q l s => .ok (acceptPacket q l 1 s).1) s

/-- A store that a job left under way is still to be served. -/
def lateOut (s : State) : Bool :=
  let late (r : DevReq) : Bool := decide (r.kind = .late) && accWrites r.acc
  (s.dev.reqs.any fun r => late r.2) || s.agenda.any fun e => match e.ev with | .stackSlotService r => late r | _ => false

/-- FENCE packets before which no packet of their queue is left, nor a write of one (R257, R320). -/
def fencesDone (s : State) : List (Nat × Nat) :=
  if lateOut s then []
  else (List.range 32).filterMap fun q =>
    match (queueAt s q).pkts with
    | p :: _ => if p.ty = 9 ∧ p.left = 1 ∧ (queueAt s q).owed = 0 then some (q, p.id) else none
    | [] => none

/-! ### GRAPH (R332 to R337, R350) -/

/-- The pages of the tensors in device memory. -/
def tensPages (s : State) (root : Nat) (tens : List GTens) : Except Nat (List Piece) :=
  (tens.filter fun t => !t.spad).foldlM (fun (l : List Piece) t =>
    match gripRange s root t.base t.len [.r, .w] with
    | .ok p => .ok (l ++ p)
    | .error c => .error c) []

def graphPacket (q : Nat) (l : List Byte) (s : State) : Except GStop State := do
  let d := queueAt s q
  let tab ← packetTable s q (fieldN l 24 8)
  let (h, tasks, tens, tables) ← readGraph s q (fieldN l 16 8)
  let pages ← (coded (tensPages s d.root tens)).map onePer
  need (tasks.all fun t => t.copy || (launchable s t.slot t.sver).isSome) 0x11
  let (s, pk) := acceptPacket q l 1 s
  let s := pages.foldl (fun s p => pinOne d.root p s) s
  let s := (tasks.filter fun t => !t.copy).foldl (fun s t => takeSlot t.slot s) s
  let enc := shapeEnc h ((tab.map fun x => x.2.length).getD 0) tables
  let id := s.grip.graphNext
  let g : Graph :=
    { id := id, q := q, pkt := pk, root := d.root, ctx := d.ctx, addr := fieldN l 16 8, gidTab := tab, ncoreg := h.ncoreg, cores := [],
      tasks := tasks, tens := tens, enc := enc, slate := slateOf enc, alloc := [], st := tasks.map fun _ => .waiting, doneJobs := [],
      mode := .none, cut := 0, segs := [], heads := [], sems := [], posts := [], paused := false, aborted := false, placed := false,
      decided := none, epoch := 0, held := [], fails := [], floorAt := 0, pages := pages, owed := 0,
      blocks := [], pieces := 0, lost := false, voted := false }
  let s := s.onGrip fun x => { x with graphs := x.graphs ++ [g], graphNext := id + 1 }
  let whole (n : Nat) : Task :=
    ⟨n, q, pk, 0, h.ncoreg, [], [], tab, 0, .waiting, s.cyc, 0, [], some (id, wholeGraph), 0, none, [], []⟩
  .ok (lookUp g (addTask whole s))

/-- A graph is started; or the semaphores of a replay are 0. -/
def execGraph (s : State) : Host.Outcome State Fault Refusal :=
  dueThen s (fun | .reelReady g => some (reelReady g) | _ => none) (startPacket 1 graphPacket)

/-! ### Dispatch (R323, R331, R335, R341) -/

/-- The next task of a queue with the cores on which it can be dispatched now (R323, R329, R331, R361). -/
def queueReady (s : State) (q : Nat) : Option (Task × List Nat) :=
  if s.dev.dealPend.isSome || areaWait s q || savedAhead s q then none
  else (oldestTask s q).bind fun t => (dispatchCores s t).map fun c => (t, c)

/-- A core that waited for the next task of this task's queue is lent to it, or to nobody; a core lent to it that it does not take is lent
to nobody (R330). -/
def claimLent (t : Task) (cores : List Nat) (s : State) : State :=
  let mine (l : Option (Bool × Nat)) : Bool := decide (l = some (false, t.q) ∨ l = some (true, t.id))
  s.onGrip fun g =>
    { g with cores := g.cores.map fun c =>
        if mine c.2.lent then (c.1, { c.2 with lent := if cores.contains c.1 ∧ c.2.saved ≠ [] then some (true, t.id) else none })
        else c }

/-- A graph leaves without a run: an allocation does not fit (R335). -/
def dropGraph (g : Graph) (s : State) : State :=
  let seq := ((packetOf s g.q g.pkt).map Pkt.seq).getD 0
  finishRun { g with aborted := true } (stopQueue g.q 0x07 seq s)

/-- A task is dispatched to its cores. -/
def dispatchTask (t : Task) (cores : List Nat) (s : State) : State :=
  let s := claimLent t cores s
  match t.graph with
  | some (gid, _) =>
    let s := dropTask t.id s
    (match graphOf s gid with
     | none => s
     | some g =>
       if g.mode = .replay then
         match setOf s g.slate with
         | some x => startRun g cores x.alloc s
         | none => s
       else match allocTens g.tens [] with
         | some alloc => startRun g cores alloc s
         | none => dropGraph g s)
  | none =>
    let (e, s) := nextEpoch s
    placeJobs { t with epoch := e } cores [] (fun _ => []) .plain s

/-- The first of the queues of a class, from one on in ascending number, that is ready. -/
def nextReady (s : State) (cls start : Nat) : Option (Nat × Task × List Nat) :=
  (List.range 32).findSome? fun i =>
    let q := (start + i) % 32
    if qClass (queueAt s q) = cls then (queueReady s q).map fun x => (q, x) else none

/-- The queue, its task and the deficit left that a decision in a class serves. -/
def deficitRound (s : State) (cls : Nat) : Option (Nat × Task × List Nat × Nat) :=
  let holder := (s.grip.turn[cls]?).join
  let kept := holder.bind fun q => (queueReady s q).bind fun x =>
    if x.1.ncore ≤ (queueAt s q).deficit ∧ qClass (queueAt s q) = cls then some (q, x.1, x.2, (queueAt s q).deficit - x.1.ncore) else none
  match kept with
  | some x => some x
  | none =>
    let start := (match holder with | some q => q | none => (s.grip.last[cls]?).getD 31) + 1
    (nextReady s cls start).map fun x =>
      let w := qWeight (queueAt s x.1)
      let d := (queueAt s x.1).deficit + w
      (x.1, x.2.1, x.2.2, if w < x.2.1.ncore then 0 else d - x.2.1.ncore)

/-- The decision of this cycle, if a queue is ready. -/
def decision (s : State) : Option (Nat × Nat × Task × List Nat × Nat) :=
  if s.cyc % 8 = 0 ∧ s.grip.decAt ≠ s.cyc + 1 then [0, 1, 2, 3].findSome? fun c => (deficitRound s c).map fun x => (c, x) else none

def execDispatchDecision (s : State) : Host.Outcome State Fault Refusal :=
  match decision s with
  | none => .next s
  | some (cls, q, t, cores, left) =>
    let s := onQueue q (fun x => { x with deficit := left }) s
    let s := s.onGrip fun g => { g with decAt := s.cyc + 1, turn := rowSet g.turn cls (some q), last := rowSet g.last cls q }
    .next (dispatchTask t cores s)

/-- A queue that is not ready loses its deficit and the turn. -/
def dropUnready (s : State) : State :=
  let lost (q : Nat) : Bool := (queueReady s q).isNone
  let s' := (List.range 32).foldl (fun x q =>
    if (queueAt s q).deficit ≠ 0 ∧ lost q = true then onQueue q (fun y => { y with deficit := 0 }) x else x) s
  s'.onGrip fun g => { g with turn := g.turn.map fun t => match t with | some q => if lost q then none else some q | none => none }

/-- A deal that the driver asked for is installed where no job is resident (R241, R331, R389). -/
def dealReady (s : State) : Bool := s.dev.dealPend.isSome && s.grip.cores.all fun c => c.2.run.isNone

/-- A deal is installed and measured (R241, R331; DEDUCED, log 28). -/
def execDealInstall (s : State) : Host.Outcome State Fault Refusal :=
  match s.dev.dealPend with
  | some d =>
    if dealReady s then
      let s := s.onDev fun x => { x with deal := d, dealPend := none }
      .next (s.onPlat fun p => { p with mr := rowSet p.mr 3 (sha256 ((row p.mr [] 3) ++ sha256 (leBytes 4 d.toNat))) })
    else .next s
  | none => .next s

/-! ### Pre-emption by threshold (R328, R361) -/

/-- Whether the job on a core would yield to a task: of a higher class, not frozen, with no request pending. -/
def yields (s : State) (t : Task) (c : Nat) : Bool :=
  let x := coreQ s c
  let above (id : Nat) : Bool := decide (taskClass s t < classOf s id)
  !coreFree s t c && !x.fenced && !x.frozen && !x.asked && x.q.all above && x.saved.all above && !wantedBelow s (taskClass s t) c &&
    match x.run with | some r => above r && (x.lent.isNone || decide (x.lent = some (true, t.id))) | none => false

/-- A candidate's rank: the class of its job, then its number; the highest is taken first. -/
def yieldKey (s : State) (c : Nat) : Nat := 256 * (match (coreQ s c).run with | some r => classOf s r | none => 0) + c

/-- The cores of a group that a task must be given, highest rank first, so that `n` are free. -/
def yieldSet (s : State) (t : Task) (group : List Nat) (n : Nat) : Option (List Nat) :=
  let free := (group.filter (coreFree s t)).length
  let cand := sortBy (fun a b => decide (b.1 ≤ a.1)) ((group.filter (yields s t)).map fun c => (yieldKey s c, c))
  if n ≤ free + cand.length then some ((cand.take (n - free)).map Prod.snd) else none

/-- Of two lists of ranks from the highest down, whether the second is the higher where they first differ. -/
def ranksAbove : List Nat → List Nat → Bool
  | a :: l, b :: m => if a = b then ranksAbove l m else decide (a < b)
  | _, _ => false

/-- The better of two sets: the smaller; of equal ones that with the higher ranks. -/
def betterSet (s : State) (a b : List Nat) : List Nat :=
  if a.length < b.length then a
  else if b.length < a.length then b
  else if ranksAbove (a.map (yieldKey s)) (b.map (yieldKey s)) then b else a

/-- The groups of cores of which one must be free for a task, with how many of it: a replay's set is the recorded one (R326, R337). -/
def taskGroups (s : State) (t : Task) : List (List Nat) :=
  let placed := if t.ncore ≤ 8 then (List.range (Config.clusters s.variant)).map (clusterCores s)
    else (clusterRuns s (t.ncore / 8)).map fun k => runCores s k (t.ncore / 8)
  match t.graph.bind fun g => graphOf s g.1 with
  | none => placed
  | some g => match g.mode with
    | .none => []
    | .replay => (((setOf s g.slate).filter fun x => !x.inUse).map ReelSet.cores).toList
    | _ => placed

/-- The fewest cores that let a task be placed. -/
def fewest (s : State) (t : Task) : Option (List Nat) :=
  ((taskGroups s t).filterMap fun g => yieldSet s t g t.ncore).foldl (fun (b : Option (List Nat)) x => match b with
    | some y => some (betterSet s y x)
    | none => some x) none

/-- A queue's oldest task that has waited beyond the queue's threshold, with the cores to ask for (DEDUCED, log 35). -/
def thresholdDue (s : State) : Option (Task × List Nat) :=
  (List.range 32).findSome? fun q =>
    let th := qThresh (queueAt s q)
    (oldestTask s q).bind fun t =>
      let again := decide (t.rel = none) || !(s.grip.cores.any fun c => c.2.asked)
      if th ≠ 0 ∧ 256 * th < s.cyc - t.since ∧ again = true ∧ (dispatchCores s t).isNone = true ∧ s.dev.dealPend = none ∧ savedAhead s q = false then
        (fewest s t).bind fun l => if l = [] ∨ 128 < areasUsed s + l.length then none else some (t, l)
      else none

def execPthreshExpiry (s : State) : Host.Outcome State Fault Refusal :=
  match thresholdDue s with
  | none => .next s
  | some (t, l) =>
    .next (l.foldl (fun s c => askPreempt c
      (onCoreQ c (fun x => { x with lent := if x.graph.isSome then some (true, t.id) else x.lent }) s))
      (setTask { t with rel := some s.cyc, want := l } s))

end Sys2Proof.Machine
end

