-- ==== Sys2Proof/Machine/Load.lean ====
section
/-! DEFINITION. The load of an object into its slot: the header and its tables, symbols and their precedence, relocations, live maps, the
portable form and the flash store (R41, R64, R324, R358, R368 to R377). -/
namespace Sys2Proof.Machine

/-! ### The image (R368) -/

/-- Why a load fails: STATUS of the report, none where the spec gives no value; the failing entry; the queue's code (R373). -/
structure LoadFail where
  status : Option Nat
  index : Nat
  code : Nat
  deriving DecidableEq, Repr

def bad {α : Type} (status index : Nat) : Except LoadFail α := .error ⟨some status, index, 0x02⟩
def loadNeed (ok : Bool) (status index : Nat) : Except LoadFail Unit := if ok then .ok () else bad status index

/-- An image in the memory of a context. -/
structure Image where
  root : Nat
  base : Nat
  len : Nat
  pages : List Piece
  deriving DecidableEq, Repr

def imgBytes (s : State) (m : Image) (off n : Nat) : List Byte := fit n (if off + n ≤ m.len then pieceBytes s m.pages (m.base + off) n else [])

structure Sect where
  ty : Nat
  off : Nat
  size : Nat
  deriving DecidableEq, Repr

structure Head where
  ndeiq : Bool
  defdeal : Bool
  latver : Nat
  ncore : Nat
  xdata : Option Nat
  slot : Option Nat
  entry : Nat
  nsym : Nat
  symtab : Nat
  nrel : Nat
  reltab : Nat
  strtab : Nat
  secs : List Sect
  deriving DecidableEq, Repr

def Head.sect (h : Head) (ty : Nat) : Option Sect := h.secs.find? fun x => x.ty = ty

def ncoreOk (v : Config.Variant) (n : Nat) : Bool := decide (1 ≤ n ∧ n ≤ 8) || decide (8 < n ∧ n % 8 = 0 ∧ n ≤ Config.cores v)

/-- The alignment of a section (R41). -/
def sectAlign (ty : Nat) : Nat := if ty ≤ 5 then 64 else if ty = 6 then 4 else 8

/-- The header and the section table, in that order (R373, check 1). -/
def readHead (s : State) (m : Image) : Except LoadFail Head := do
  loadNeed (decide (64 ≤ m.len)) 1 0
  let b := imgBytes s m 0 64
  let f := fieldN b
  let flags := f 6 1
  let nsect := f 14 2
  let sectab := f 24 8
  let nd := flags.testBit 0
  let xd := f 10 1
  let sl := f 12 2
  let ent (i : Nat) : List Byte := imgBytes s m (sectab + 24 * i) 24
  let secs := (List.range nsect).map fun i => (⟨fieldN (ent i) 0 1, fieldN (ent i) 8 8, fieldN (ent i) 16 8⟩ : Sect)
  let h : Head :=
    ⟨nd, flags.testBit 1, f 7 1, f 8 2, if xd = 0xFF then none else some xd, if sl = 0xFFFF then none else some sl, f 16 4, f 20 4, f 32 8,
      f 40 4, f 48 8, f 56 8, secs⟩
  loadNeed (decide (f 0 4 = 0x314F5842) && decide (f 4 2 = 1) && decide (flags / 4 = 0) && (!nd || decide (h.latver = 0)) &&
    ncoreOk s.variant h.ncore && decide (xd ≤ 15 ∨ xd = 0xFF) && decide (f 11 1 = 0) && decide (sl ≤ 255 ∨ sl = 0xFFFF) &&
    decide (1 ≤ nsect ∧ nsect ≤ 10) && decide (f 44 4 = 0) &&
    [sectab, h.symtab, h.reltab, h.strtab].all (fun o => decide (o % 8 = 0)) && decide (sectab + 24 * nsect ≤ m.len) &&
    decide (h.symtab + 24 * h.nsym ≤ m.len) && decide (h.reltab + 16 * h.nrel ≤ m.len) && decide (h.strtab ≤ m.len)) 1 0
  match (List.range nsect).find? (fun i =>
      let x := (secs[i]?).getD ⟨9, 0, 0⟩
      decide (8 < x.ty) || decide (fieldN (ent i) 1 7 ≠ 0) || decide (m.len < x.off + x.size) ||
        decide ((m.base + x.off) % sectAlign x.ty ≠ 0) || (secs.take i).any (fun y => decide (y.ty = x.ty)) ||
        (decide (x.ty = 6) && decide (1024 < x.size ∨ x.size % 4 ≠ 0)) ||
        (if nd then decide (x.ty ≠ 5 ∧ x.ty ≠ 8) else decide (x.ty = 8))) with
  | some i => bad 1 i
  | none => do
    let ranges := ([(0, 64), (sectab, 24 * nsect), (h.symtab, 24 * h.nsym), (h.reltab, 16 * h.nrel)] ++
      secs.map fun x => (x.off, x.size)).filter fun r => r.2 ≠ 0
    let apart := (List.range ranges.length).all fun i => (List.range i).all fun j =>
      let a := (ranges[i]?).getD (0, 0)
      let c := (ranges[j]?).getD (0, 0)
      !overlaps a.1 a.2 c.1 c.2
    let entryOk := if nd then (h.sect 8).isSome else
      match h.sect 0 with | some t => decide (4 * h.entry + 8 ≤ t.size) | none => false
    loadNeed (apart && entryOk && decide ((h.sect 5).isSome = h.xdata.isSome)) 1 0
    .ok h

/-! ### Symbols (R369, R370) -/

structure Sym where
  name : List Byte
  bind : Nat
  header : Bool
  sec : Nat
  val : Nat
  size : Nat
  deriving DecidableEq, Repr

/-- A name of the string table, up to its zero byte. -/
def readName (s : State) (m : Image) : Nat → Nat → Option (List Byte)
  | 0, _ => none
  | n + 1, off =>
    if m.len ≤ off then none
    else match imgBytes s m off 1 with
      | [0] => some []
      | [c] => (readName s m n (off + 1)).map fun l => c :: l
      | _ => none

def readSym (s : State) (m : Image) (h : Head) (i : Nat) : Option Sym :=
  let b := imgBytes s m (h.symtab + 24 * i) 24
  let x : Sym := ⟨[], fieldN b 4 1, decide (fieldN b 5 1 = 1), fieldN b 6 1, fieldN b 8 8, fieldN b 16 8⟩
  let sizeOk := match h.secs[x.sec]? with
    | some t => decide (x.val + x.size ≤ t.size) && (!x.header || decide (t.ty ≤ 4))
    | none => false
  if 3 < x.bind ∨ 1 < fieldN b 5 1 ∨ fieldN b 7 1 ≠ 0 then none
  else if (if x.bind = 3 then decide (x.sec ≠ 0) else !sizeOk) then none
  else (readName s m (m.len - (h.strtab + fieldN b 0 4)) (h.strtab + fieldN b 0 4)).map fun n => { x with name := n }

/-- A definition that stands: its slot, whether it is weak, its address and size. -/
structure Defn where
  slot : Nat
  weak : Bool
  at_ : Nat
  size : Nat
  deriving DecidableEq, Repr

/-- The resident objects of a context, with their slots. -/
def residents (s : State) (ctx : Nat) : List (Nat × Obj) :=
  (List.range 256).filterMap fun i =>
    let r := slotAt s i
    if r.st = .resident then r.obj.bind fun o => if o.ctx = ctx then some (i, o) else none else none

def defsOf (s : State) (ctx : Nat) (name : List Byte) : List Defn :=
  (residents s ctx).flatMap fun x => (x.2.exports.filter fun e => e.name = name).map fun e => ⟨x.1, e.weak, e.at_, e.size⟩

/-- The definition that prevails: the global of the lowest slot, else the weak one of the lowest slot. -/
def prevails (l : List Defn) : Option Defn :=
  let low (l : List Defn) : Option Defn := l.foldl (fun b d => match b with
    | some x => if d.slot < x.slot then some d else some x
    | none => some d) none
  match low (l.filter fun d => !d.weak) with
  | some d => some d
  | none => low l

def bodyOf (s : State) (root at_ size : Nat) : List Byte :=
  match gripRange s root at_ size [] with
  | .ok pages => pieceBytes s pages at_ size
  | .error _ => []

/-- The object's own definitions of a name. -/
def ownDefs (m : Image) (h : Head) (slot : Nat) (syms : List Sym) (name : List Byte) : List Defn :=
  (syms.filter fun x => (x.bind = 1 ∨ x.bind = 2) ∧ x.name = name).map fun x =>
    ⟨slot, decide (x.bind = 2), m.base + ((h.secs[x.sec]?).map Sect.off).getD 0 + x.val, x.size⟩

/-- Rules 1 to 4 of R370 for one of the object's definitions: a conflict, or whether it is a decision that the report lists. -/
def judge (s : State) (m : Image) (h : Head) (slot ctx : Nat) (syms : List Sym) (x : Sym) : Option Bool :=
  let mine := ownDefs m h slot syms x.name
  let others := defsOf s ctx x.name
  let body (d : Defn) : List Byte := bodyOf s m.root d.at_ d.size
  let gl := (mine ++ others).filter fun d => !d.weak
  let clash : Bool := gl.any fun a => gl.any fun b => decide (a.size ≠ b.size) || decide (body a ≠ body b)
  let mineWins : Bool := match prevails (mine ++ others) with | some d => decide (d.slot = slot) | none => false
  let imported : Bool := (residents s ctx).any fun o => o.2.imports.contains x.name
  if clash || (mineWins && imported) then none
  else if x.bind = 1 then some (decide (1 < gl.length))
  else some (gl.isEmpty && decide (1 < (mine ++ others).length))

/-! ### Relocations (R371) -/

/-- Majors of the words of format S (R43, R46). -/
def formatS (maj min : Nat) : Bool :=
  decide (maj ≤ 0x0A ∧ maj ≠ 0x07) || [0x21, 0x22, 0x24, 0x25, 0x26, 0x2C].contains maj || (decide (maj = 0x28) && [1, 3, 4].contains min)

/-- What a relocation writes: an address and bytes, or nothing where it is not valid. -/
def relocate (s : State) (m : Image) (h : Head) (addr : Nat → Option (Nat × Bool × Option Nat)) (i : Nat) : Option (Nat × List Byte) :=
  let b := imgBytes s m (h.reltab + 16 * i) 16
  let off := fieldN b 0 4
  let ty := fieldN b 5 1
  let a := (BitVec.ofNat 32 (fieldN b 12 4)).toInt
  match h.secs[fieldN b 4 1]?, addr (fieldN b 8 4) with
  | some sec, some (sv, header, secTy) =>
    let place := m.base + sec.off + off
    let w : BitVec 96 := BitVec.ofNat 96 (leNat (imgBytes s m (sec.off + off) 12))
    let word := decide (sec.ty ≤ 4) && decide (off % 4 = 0) && decide (off + 12 ≤ sec.size)
    let v : Int := (sv : Int) + a
    let out (n : Nat) (x : Int) : Option (Nat × List Byte) := some (place, leBytes n (x % (2 ^ (8 * n) : Nat)).toNat)
    if fieldN b 6 2 ≠ 0 then none
    else match ty with
      | 0 => if sec.ty = 5 ∧ place % 8 = 0 ∧ off + 8 ≤ sec.size then out 8 v else none
      | 1 => if word ∧ wMajor w = 0x07 then out 8 v else none
      | 2 =>
        let d : Int := ((m.base + ((h.sect 5).map Sect.off).getD 0 : Nat) : Int)
        let x := v - d
        let named : Bool := match h.xdata with | some k => decide ((fld w 68 6).toNat = 32 + k) | none => false
        if word ∧ formatS (wMajor w).toNat (wMinor w).toNat ∧ named ∧ secTy = some 5 ∧ -2 ^ 55 ≤ x ∧ x < 2 ^ 55 then out 7 x else none
      | 3 =>
        let kind : Bool := match decode .sq w with | .ok (.prep _ _ _) => true | .ok (.issue _ _ _ _) => true | _ => false
        let x := v / 4 - ((place / 4 : Nat) : Int)
        if word ∧ kind ∧ header ∧ v % 4 = 0 ∧ -2 ^ 39 ≤ x ∧ x < 2 ^ 39 then out 5 x else none
      | _ => none
  | _, _ => none

/-! ### Live maps (R358) -/

/-- The offsets at which sections stand in a text section; what is no header between them is padding. -/
def sectionStarts (s : State) (m : Image) (t : Sect) : Nat → Nat → List Nat
  | 0, _ => []
  | n + 1, pos =>
    if t.size < pos + 8 then []
    else
      let hd := BitVec.ofNat 64 (leNat (imgBytes s m (t.off + pos) 8))
      if hd.extractLsb' 60 4 = 1 then pos :: sectionStarts s m t n (pos + 8 + 12 * hdrLen hd) else sectionStarts s m t n (pos + 4)

/-- An entry of the live map by its header's address; one of a section without LMAP contributes nothing. -/
def readLive (s : State) (m : Image) (h : Head) (i : Nat) : Option (Option (Nat × List Byte)) :=
  match h.sect 7 with
  | none => none
  | some l =>
    let b := imgBytes s m (l.off + 40 * i) 40
    let zero (o n : Nat) : Bool := decide (fieldN b o n = 0)
    let ok := zero 5 3 && zero 14 2 && zero 34 6 && !(fieldN b 8 4).testBit 0 && !(fieldN b 12 1).testBit 0 && decide (fieldN b 4 1 ≤ 4)
    match h.sect (fieldN b 4 1) with
    | none => none
    | some t =>
      let off := 4 * fieldN b 0 4
      if ok && (sectionStarts s m t (t.size / 4 + 1) 0).contains off then
        let hd := BitVec.ofNat 64 (leNat (imgBytes s m (t.off + off) 8))
        some (if hdrLmap hd then some (m.base + t.off + off, b) else none)
      else none

/-! ### The load of a native object (R324, R373) -/

/-- What a load that passes yields: the object, the bytes to patch, the decisions with the first of them. -/
structure Loaded where
  obj : Obj
  patches : List (Nat × List Byte)
  decisions : Nat
  first : Nat
  deriving DecidableEq, Repr

def sectPerms (ty : Nat) : List Perm := if ty ≤ 4 then [.x, .r] else if ty = 5 then [.r, .w] else [.r]

/-- The index of the first entry of a table that a reading refuses; else the readings. -/
def readTable {α : Type} (n status : Nat) (f : Nat → Option α) : Except LoadFail (List α) :=
  (List.range n).mapM fun i => match f i with | some x => .ok x | none => bad status i

/-- Pages of the image, translated for what its parts need. -/
def imagePages (s : State) (root base len : Nat) (perms : List Perm) : Except LoadFail (List Piece) :=
  match gripRange s root base len perms with
  | .ok p => .ok p
  | .error c => .error ⟨none, 0, c⟩

def loadNative (slot : Nat) (m : Image) (ctx : Nat) (s : State) : Except LoadFail Loaded := do
  let h ← readHead s m
  let secPages ← h.secs.mapM fun x => imagePages s m.root (m.base + x.off) x.size (sectPerms x.ty)
  loadNeed (decide (h.latver = 1)) 2 0
  loadNeed (match h.slot with | some n => decide (n = slot) | none => true) 3 0
  let syms ← readTable h.nsym 1 (readSym s m h)
  let judged ← (syms.zipIdx.filter fun x => x.1.bind = 1 ∨ x.1.bind = 2).mapM fun x =>
    match judge s m h slot ctx syms x.1 with
    | some d => (.ok (d, x.2) : Except LoadFail (Bool × Nat))
    | none => bad 4 x.2
  let decided := (judged.filter Prod.fst).map Prod.snd
  let place (x : Sym) : Nat × Bool × Option Nat :=
    (m.base + ((h.secs[x.sec]?).map Sect.off).getD 0 + x.val, x.header, (h.secs[x.sec]?).map Sect.ty)
  let addrs ← syms.zipIdx.mapM fun x =>
    if x.1.bind = 3 then
      match prevails (ownDefs m h slot syms x.1.name ++ defsOf s ctx x.1.name) with
      | some d =>
        let own := syms.find? fun y => (y.bind = 1 ∨ y.bind = 2) ∧ y.name = x.1.name ∧ (place y).1 = d.at_
        (.ok (d.at_, x.1.header, if d.slot = slot then own.bind fun y => (place y).2.2 else none) : Except LoadFail (Nat × Bool × Option Nat))
      | none => bad 5 x.2
    else .ok (place x.1)
  let patches ← readTable h.nrel 6 (relocate s m h fun i => addrs[i]?)
  let nlive := ((h.sect 7).map fun l => l.size / 40).getD 0
  loadNeed (decide ((((h.sect 7).map Sect.size).getD 0) % 40 = 0)) 7 nlive
  let live ← readTable nlive 7 (readLive s m h)
  let texts := h.secs.filter fun x => x.ty ≤ 4
  let pool := match h.sect 6 with
    | some p => (List.range (min 256 (p.size / 4))).map fun i => BitVec.ofNat 32 (leNat (imgBytes s m (p.off + 4 * i) 4))
    | none => []
  let held := (h.secs.zip secPages).filter fun x => x.1.ty ≤ 6
  let exports := (syms.filter fun x => x.bind = 1 ∨ x.bind = 2).map fun x => (⟨x.name, decide (x.bind = 2), (place x).1, x.size⟩ : Export)
  .ok
    { obj :=
        { img := m.base, len := m.len, root := m.root, ctx := ctx
          entry := BitVec.ofNat 64 (m.base + ((h.sect 0).map Sect.off).getD 0 + 4 * h.entry)
          texts := texts.map fun t => (m.base + t.off, t.size)
          data := m.base + ((h.sect 5).map Sect.off).getD 0, xdata := h.xdata, ncore := h.ncore, defdeal := h.defdeal, pool := pool
          live := live.filterMap id, exports := exports, imports := (syms.filter fun x => x.bind = 3).map Sym.name
          pages := held.flatMap Prod.snd, hash := [] }
      patches := patches, decisions := decided.length, first := decided.head?.getD 0 }

/-! ### The portable form (R374, R375) -/

/-- Operand count of an operation. -/
def ndeiqOpnds (op : Nat) : Option Nat :=
  match op with
  | 0x0001 => some 0 | 0x0002 => some 0 | 0x0003 => some 1 | 0x0010 => some 2 | 0x0011 => some 2 | 0x0012 => some 2 | 0x0013 => some 3
  | 0x0014 => some 1 | 0x0015 => some 1 | 0x0016 => some 1 | 0x0017 => some 1 | _ => none

/-- A record of the list, with the operations of the records before it. -/
def ndeiqOk (ops : List Nat) (i : Nat) (b : List Byte) : Bool :=
  let op := fieldN b 0 2
  let ty := fieldN b 2 1
  let n := ty / 16
  let d (j : Nat) : Nat := fieldN b (4 + 2 * j) 2
  let attr := fieldN b 10 6
  decide (ndeiqOpnds op = some n) && (Ty.ofCode (BitVec.ofNat 4 ty)).isSome && decide (fieldN b 3 1 = 0) &&
    (List.range 3).all (fun j =>
      if j < n then decide (1 ≤ d j) && decide (d j ≤ i) && decide (ops[i - d j]? ≠ some 0x0003) else decide (d j = 0)) &&
    (decide (op ≠ 0x0014) || decide (1 ≤ attr % 16 ∧ attr % 16 ≤ 8))

/-- The records of a portable object; more than 16 x registers fail it. -/
def checkNdeiq (s : State) (m : Image) (h : Head) : Except LoadFail Unit := do
  let t := (h.sect 8).getD ⟨8, 0, 0⟩
  let n := t.size / 16
  let recs (i : Nat) : List Byte := imgBytes s m (t.off + 16 * i) 16
  let ops := (List.range n).map fun i => fieldN (recs i) 0 2
  loadNeed (decide (t.size % 16 = 0)) 1 n
  match (List.range n).find? fun i => !ndeiqOk ops i (recs i) with
  | some i => bad 1 i
  | none => loadNeed (decide ((ops.filter fun o => o = 1 ∨ o = 3).length ≤ if h.xdata.isSome then 15 else 16)) 1 n

/-! ### The flash store (R377) -/

def flashBlocks : Nat := 16384
/-- How often a block of the flash store has been erased (R377; DESIGN CHOICE, log 29). -/
def eraseCount (s : State) (b : Nat) : Nat := SMap.get 0 s.plat.erases b
def occupied (s : State) : List Nat := s.plat.flash.flatMap FlashEnt.blocks

/-- An entry leaves the store: its blocks are erased. -/
def flashDrop (e : FlashEnt) (s : State) : State :=
  s.onPlat fun p =>
    { p with
      flash := p.flash.filter (· ≠ e)
      erases := e.blocks.foldl (fun m b => SMap.set 0 m b (SMap.get 0 m b + 1)) p.erases }

/-- The entry that gives way: of those that hold a block of the least erase count, the least recently used. -/
def flashVictim (s : State) : Option FlashEnt :=
  let least := (occupied s).foldl (fun (b : Option Nat) k => match b with
    | some x => some (min x (eraseCount s k))
    | none => some (eraseCount s k)) none
  s.plat.flash.find? fun e => e.blocks.any fun k => some (eraseCount s k) = least

def flashRoom (n : Nat) : Nat → State → State
  | 0, s => s
  | fuel + 1, s =>
    if (occupied s).length + n ≤ flashBlocks then s
    else match flashVictim s with
      | some e => flashRoom n fuel (flashDrop e s)
      | none => s

def freeBlocks (s : State) : List Nat :=
  let used := occupied s
  let free := (List.range flashBlocks).filter fun b => !used.contains b
  sortBy (fun a b => decide (eraseCount s a ≤ eraseCount s b)) free

/-- A translation is filed, unless it is larger than the store. -/
def flashPut (key : List Byte) (data : List Byte) (s : State) : State :=
  if 2 ^ 36 < data.length then s
  else
    let n := (data.length + 2 ^ 22 - 1) / 2 ^ 22
    let s := flashRoom n (s.plat.flash.length + 1) s
    let e : FlashEnt := ⟨key, s.stepping, 1, s.plat.tsvn, data, sha256 data, (freeBlocks s).take n⟩
    s.onPlat fun p => { p with flash := p.flash ++ [e] }

/-- The native form of a portable image: from the store on the B9, else translated; on the B9-H it goes to the host as well. -/
def translated (image : List Byte) (s : State) : State × List Byte :=
  let key := sha256 image
  let fresh := Config.ndeiqNative image s.stepping 1
  if Config.flash s.variant then
    match s.plat.flash.find? fun e => e.key = key ∧ e.stepping = s.stepping ∧ e.latver = 1 with
    | some e =>
      if e.sum = sha256 e.data ∧ e.tsvn = s.plat.tsvn then
        (s.onPlat fun p => { p with flash := p.flash.filter (· ≠ e) ++ [e] }, e.data)
      else (flashPut key fresh (flashDrop e s), fresh)
    | none => (flashPut key fresh s, fresh)
  else (s.emit (.translation key fresh (Config.flashTag (key ++ fresh))), fresh)

/-! ### SLOT_LOAD_COMPLETE -/

/-- The lines to write for bytes of an image or of patches. -/
def writeLines (s : State) (root : Nat) (l : List (Nat × List Byte)) : List LineAcc :=
  l.flatMap fun p => match gripRange s root p.1 p.2.length [] with
    | .ok pages => lineAccs pages p.1 p.2.length p.2
    | .error _ => []

/-- Lines of this core's stream cache and loop buffers that hold bytes of the object's text go (R371). -/
def dropText (root : Nat) (texts : List (Nat × Nat)) (s : State) : State :=
  texts.foldl (fun s t =>
    let pages := match gripRange s root t.1 t.2 [] with | .ok l => l | .error _ => []
    let hit (line : Nat) : Bool := pages.any fun p =>
      let lo := max t.1 p.1
      let hi := min (t.1 + t.2) (p.1 + p.2.2)
      overlaps (line * 64) 64 (p.2.1 + (lo - p.1)) (hi - lo)
    let s := s.onCore fun c =>
      { c with
        sc := (c.sc.map fun r => (r.1, r.2.filter fun l => !hit l.line)).filter fun r => !r.2.isEmpty
        scArr := c.scArr.filter fun l => !hit l.line }
    s.onJob fun j => { j with eng := j.eng.map fun e => match e.lbr with
      | some (a, h) => if overlaps t.1 t.2 a.toNat (8 + 12 * hdrLen h) then { e with lbr := none } else e
      | none => e }) s

def reportWords (status index decisions first : W64) : List W64 := [status, index, decisions, first, 0, 0, 0, 0]

/-- A load that fails leaves its slot FREE and stops its queue; its report stands (R324, R373). -/
def failLoad (n q pk : Nat) (e : LoadFail) (s : State) : State :=
  let (free, s') := s.draw
  let (status, s) := match e.status with | some v => (BitVec.ofNat 64 v, s) | none => (free, s')
  let s := onSlot n (fun _ => { RSlot.init with report := reportWords status (BitVec.ofNat 64 e.index) 0 0 }) s
  let seq := ((packetOf s q pk).map Pkt.seq).getD 0
  packetDone q pk true (stopQueue q e.code seq s)

/-- A native image in place is loaded: what it makes known stands, and its patches are written. -/
def loadImage (n q pk : Nat) (o : Obj) (s : State) : State :=
  match (do
    let pages ← imagePages s o.root o.img o.len [.r]
    loadNative n ⟨o.root, o.img, o.len, pages⟩ o.ctx s : Except LoadFail Loaded) with
  | .error e => failLoad n q pk e s
  | .ok x =>
    gripAsk s.cyc .write (writeLines s o.root x.patches) (.slotWritten n q pk)
      (onSlot n (fun r => { r with
        obj := some x.obj, report := reportWords 0 0 (BitVec.ofNat 64 x.decisions) (BitVec.ofNat 64 x.first) }) s)

/-- The image of a slot has been read: a native one is loaded in place; a portable one is checked and translated, and its native form is
laid where the translator lays it. -/
def startLoad (n q pk : Nat) (o : Obj) (s : State) : State :=
  match (do
    let pages ← imagePages s o.root o.img o.len [.r]
    let m : Image := ⟨o.root, o.img, o.len, pages⟩
    let h ← readHead s m
    if h.ndeiq then
      loadNeed (match h.slot with | some k => decide (k = n) | none => true) 3 0
      checkNdeiq s m h
      let (s, data) := translated (imgBytes s m 0 m.len) s
      let base := Config.ndeiqBase o.root o.img
      let _ ← imagePages s o.root base data.length []
      .ok (some (s, base, data))
    else .ok none : Except LoadFail (Option (State × Nat × List Byte))) with
  | .error e => failLoad n q pk e s
  | .ok none => loadImage n q pk o s
  | .ok (some (s, base, data)) =>
    gripAsk s.cyc .write (writeLines s o.root [(base, data)]) (.slotTranslated n q pk)
      (onSlot n (fun r => { r with obj := some { o with img := base, len := data.length } }) s)

/-- A load ends: the slot is RESIDENT, with its object's pages held (R324). -/
def endLoad (n q pk : Nat) (o : Obj) (s : State) : State :=
  let s := (onePer o.pages).foldl (fun s p => pinOne o.root p s) (dropText o.root o.texts s)
  packetDone q pk false (onSlot n (fun r => { r with st := .resident }) s)

/-- The stages of a load, each once the lines of the one before have been served (R324, R373). -/
def loadStage : Ev → Option (Nat × (Nat → Nat → Obj → State → State) × Nat × Nat)
  | .slotLoadComplete n q pk => some (n, startLoad n, q, pk)
  | .slotTranslated n q pk => some (n, loadImage n, q, pk)
  | .slotWritten n q pk => some (n, endLoad n, q, pk)
  | _ => none

def execSlotLoadComplete (s : State) : Host.Outcome State Fault Refusal :=
  onDue s (fun e => (loadStage e).map fun x => (e, x)) fun (e, n, f, q, pk) s =>
    let s := (unitTake e s).2
    match (slotAt s n).obj with
    | some o => f q pk o s
    | none => s

end Sys2Proof.Machine
end

