-- ==== Sys2Proof/Machine/HostLink.lean ====
section
/-! DEFINITION. What the host does to the device: doorbells, the commands of the mailbox, CXL.mem (R230, R242, R243, R317, R318, R331,
R354, R373, R380, R381, R388, R389, DESIGN CHOICE, log 12). -/
namespace Sys2Proof.Machine

/-! ### Device status (R380) -/

/-- The 64 bytes of BAR0 at 0. -/
def deviceStatus (s : State) : List Byte :=
  leBytes 1 (if s.plat.ready then 1 else 0) ++ List.replicate 7 0 ++ leBytes 4 s.dev.deal.toNat ++ List.replicate 4 0 ++
    leBytes 8 (healthWord s).toNat ++ leBytes 4 s.plat.power ++ leBytes 2 s.plat.temp ++ leBytes 2 s.plat.budget ++ List.replicate 32 0

/-- A command of the mailbox, which the firmware takes; it completes when its status is written, 0 for one that is done. -/
def command (f : State → State × Bool) (s : State) : State :=
  if s.plat.fw then
    let (s, ok) := f s
    s.emit (.mailbox (if ok then 0 else 1) [])
  else s

/-! ### Queues (R317, R318, R321, R322) -/

/-- A doorbell's tail of the ring. -/
def ringTail (q t : Nat) (s : State) : State :=
  if q < 32 then onQueue q (fun x => { x with tail := t % qSize x, next := max x.next (gripAt s) }) s else s

/-- A doorbell: the thread acts on it in its own time, which takes reads of the ring and of what its packets name (R318, R403) (DESIGN
CHOICE, log 27). -/
def execDoorbellWrite (s : State) : Host.Outcome State Fault Refusal :=
  onDue s (fun | .doorbellWrite q t => some (ringTail q t) | .gripRead q => some (threadRead q) | _ => none) fun f s => f s

/-- The code that a descriptor's check sets, if it fails. -/
def descFault (s : State) (d0 d1 : W64) (root : Nat) : Option Byte :=
  let rs := qBits d0 28 4
  let size := 64 * 2 ^ rs
  if qBits d0 54 8 = 0 ∨ rs < 6 ∨ qBits d0 0 27 ≠ 0 ∨ d1.toNat % size ≠ 0 ∨ 2 ^ 52 ≤ d1.toNat then some 0x02
  else match gripRange s root d1.toNat size [.r] with
    | .ok _ => none
    | .error _ => some 0x06

/-- A queue's descriptors: checked when EN goes from 0 to 1, from which on the ring is taken from its first packet. -/
def writeDesc (q : Nat) (d0 d1 : W64) (ctx root : Nat) (s : State) : State × Bool :=
  let old := queueAt s q
  let set (d0 : W64) (x : Queue) : Queue := { x with d0 := d0, d1 := d1, ctx := ctx, root := root }
  if d0.getLsbD 27 && !qOn old then
    match descFault s d0 d1 root with
    | some c => (onQueue q (fun x => { set (d0 &&& ~~~(1#64 <<< 27)) x with code := c }) s, false)
    | none => (onQueue q (fun x => { set d0 x with head := 0, tail := 0, got := [], ask := none }) s, true)
  else (onQueue q (set d0) s, true)

def execQueueDescriptorWrite (s : State) : Host.Outcome State Fault Refusal :=
  onDue s (fun | .queueDescriptorWrite q d0 d1 c r => some (q, d0, d1, c, r) | _ => none) fun (q, d0, d1, c, r) s =>
    command (fun s => if q < 32 then writeDesc q d0 d1 c r s else (s, false)) s

def execQueueStopClear (s : State) : Host.Outcome State Fault Refusal :=
  onDue s (fun | .queueStopClear q => some q | _ => none) fun q s =>
    command (fun s => (onQueue q (fun x => { x with stop := false }) s, decide (q < 32))) s

/-! ### Handles and pages (R230, R242, R243) -/

/-- Bits of an entry that are reserved, and its generation, which only a revocation raises. -/
def handleMask : BitVec 256 := (0 : BitVec 96) ++ 0xFFFF#16 ++ 0#16 ++ 0#9 ++ 0x7F#7 ++ BitVec.allOnes 112
def genField (e : BitVec 256) : BitVec 16 := e.extractLsb' 128 16
def withGen (e : BitVec 256) (g : BitVec 16) : BitVec 256 := e &&& handleMask ||| (g.setWidth 256 <<< 128)

def writeHandle (i : Nat) (e : BitVec 256) (revoke : Bool) (s : State) : State × Bool :=
  let old := SMap.get 0 s.dev.handles i
  if 4096 ≤ i then (s, false)
  else if revoke then
    (s.onDev fun d =>
      { d with handles := SMap.set 0 d.handles i (withGen old (genField old + 1)), revoked := d.revoked ++ [i] }, true)
  else if 4 < (e.extractLsb' 112 4).toNat ∨ e &&& ~~~(handleMask ||| (0xFFFF#256 <<< 128)) ≠ 0 then (s, false)
  else (s.onDev fun d => { d with handles := SMap.set 0 d.handles i (withGen e (genField old)) }, true)

/-- An entry is written, or revoked: its generation rises at once. -/
def execHandleTableWrite (s : State) : Host.Outcome State Fault Refusal :=
  onDue s (fun | .handleTableWrite i e r => some (i, e, r) | _ => none) fun (i, e, r) s =>
    if r ∧ i < 4096 then (if s.plat.fw then (writeHandle i e r s).1 else s) else command (writeHandle i e r) s

/-- A handle that is revoked and that no command holds any more. -/
def revocationDone (s : State) : Option Nat := s.dev.revoked.find? fun i => SMap.get 0 s.dev.hcount i = 0

def execHandleRevocationComplete (s : State) : Host.Outcome State Fault Refusal :=
  match revocationDone s with
  | some i => .next ((s.onDev fun d => { d with revoked := d.revoked.erase i }).emit (.mailbox 0 []))
  | none => .next s

/-- A page under invalidation whose old entry nothing holds. -/
def invalidationDone (s : State) : Option (Nat × Nat × Nat) :=
  s.dev.inval.find? fun x => !(s.core.pins.any fun p => p.root = x.1 ∧ p.va = x.2.1 ∧ p.pa = x.2.2 ∧ p.count ≠ 0)

/-- New translations use the table as it stands from now on; the invalidation is complete when the old entry's count is zero. -/
def invalidate (root va : Nat) (s : State) : State :=
  let hit (r a n : Nat) : Bool := decide (r = root) && decide (a ≤ va) && decide (va < a + n)
  let old := (s.core.pins.filter fun p => hit p.root p.va p.size ∧ p.count ≠ 0).map fun p => (p.root, p.va, p.pa)
  let s := s.onCore fun c => { c with tlb := c.tlb.filter fun e => !hit e.root e.va e.size }
  if old = [] then s.emit (.mailbox 0 []) else s.onDev fun d => { d with inval := d.inval ++ old }

def execPageInvalidation (s : State) : Host.Outcome State Fault Refusal :=
  dueElse s (fun | .pageInvalidation r va => some (r, va) | _ => none) (fun x s => if s.plat.fw then invalidate x.1 x.2 s else s) fun s =>
    match invalidationDone s with
    | some x => (s.onDev fun d => { d with inval := d.inval.erase x }).emit (.mailbox 0 [])
    | none => s

/-! ### Deals, frozen jobs, reports (R331, R354, R373) -/

def execDealRequest (s : State) : Host.Outcome State Fault Refusal :=
  onDue s (fun | .dealRequest d => some d | _ => none) fun d s =>
    command (fun s => (s.onDev fun x => { x with dealPend := some d }, true)) s

/-- The driver ends a frozen job: it goes once its operations have retired. -/
def execJobEndOrder (s : State) : Host.Outcome State Fault Refusal :=
  onDue s (fun | .jobEndOrder c => some c | _ => none) fun c s =>
    command (fun s =>
      if (coreQ s c).frozen = false then (s, false)
      else if c ≠ s.coreNo then (s.emit (.orders c true), true)
      else if s.job.st = .frozen then (s.onJob fun j => { j with st := .ending }, true)
      else (s, false)) s

/-- The job that a core runs is one of a graph's own; a lent core's is not (R330, R341). -/
def jobOfGraph (s : State) (c : CoreQ) (gid : Nat) : Bool :=
  (c.run.bind (taskOf s)).any fun t => decide (t.graph.map Prod.fst = some gid)

/-- The queue of a job that is resumed goes on, and its graph unless another of its jobs is frozen (R341, R354). -/
def resumeQueue (core : Nat) (s : State) : State :=
  match (coreQ s core).run.bind (taskOf s) with
  | none => s
  | some t =>
    let s := onQueue t.q (fun x => { x with stop := false, code := 0, seq := 0 }) s
    match t.graph.bind fun g => graphOf s g.1 with
    | some g =>
      setGraph { g with paused := s.grip.cores.any fun c => decide (c.1 ≠ core) && c.2.frozen && jobOfGraph s c.2 g.id } s
    | none => s

/-- The driver resumes a frozen job, which only a TRAP permits. -/
def execJobResumeOrder (s : State) : Host.Outcome State Fault Refusal :=
  onDue s (fun | .jobResumeOrder c => some c | _ => none) fun c s =>
    command (fun s =>
      if (coreQ s c).frozen = false ∨ (coreQ s c).fcode ≠ 0x14 then (s, false)
      else if c ≠ s.coreNo then ((onCoreQ c (fun x => { x with frozen := false }) (resumeQueue c s)).emit (.orders c false), true)
      else if s.job.st = .frozen then (resumeQueue c (s.onJob fun j => { j with l := { j.l with resume := some j.id } }), true)
      else (s, false)) s

def execLoadReportRead (s : State) : Host.Outcome State Fault Refusal :=
  onDue s (fun | .loadReportRead n => some n | _ => none) fun n s =>
    if s.plat.fw ∧ n < 256 then s.emit (.mailbox 0 (fit 64 ((slotAt s n).report.flatMap fun w => leBytes 8 w.toNat))) else s

/-! ### Security versions and attestation (R388, R389) -/

/-- The fuse counter rises to the version of the running image; nothing lowers it. -/
def execSvnCommit (s : State) : Host.Outcome State Fault Refusal :=
  onDue s (fun | .svnCommit => some () | _ => none) fun _ s =>
    command (fun s => (s.onPlat fun p => { p with fuse := max p.fuse p.svn }, true)) s

/-- A signed report, whose index is spent before it is released; when all are spent, signing fails. -/
def execSpdmRequest (s : State) : Host.Outcome State Fault Refusal :=
  onDue s (fun | .spdmRequest n => some n | _ => none) fun nonce s =>
    if s.plat.fw = false then s
    else if 2 ^ 20 ≤ s.plat.att then s.emit (.mailbox 1 [])
    else
      let body := nonce ++ s.plat.mr.toList.flatten ++ leBytes 8 s.plat.fuse ++ leBytes 4 s.plat.att
      (s.onPlat fun p => { p with att := p.att + 1 }).emit (.spdm (body ++ Config.signature body))

/-! ### CXL.mem (R380, R381) -/

/-- Lines of a range of physical memory, in the slots that the host link shares with the Grip (R239). -/
def hostAccess (write : Bool) (pa : Nat) (d : List Byte) (s : State) : State :=
  let lines := (linePieces pa d.length).map fun l => (l.1, l.1, l.2, if write then (d.drop (l.1 - pa)).take l.2 else [])
  unitAsk s.cyc .grip (if write then .write else .read) 27 0 [] false lines (.hostServed write pa d.length) s

/-- The last line of a host access has been served: what it has read goes to the host. -/
def hostServed (write : Bool) (pa len : Nat) (s : State) : State :=
  match unitTake (.hostServed write pa len) s with
  | (some op, s) => if write then s else s.emit (.cxlData (op.bytes pa len))
  | (none, s) => s

/-- A host access to the window: it stamps as the host link and never raises; beyond ALLOCGIB GiB nothing decodes (DESIGN CHOICE, log 44). -/
def execHostCxlAccess (s : State) : Host.Outcome State Fault Refusal :=
  match s.agenda with
  | e :: l =>
    match e.ev with
    | .hostCxlAccess w pa d =>
      if s.cyc < e.at_ then .next s
      else if Config.allocBytes s.variant < pa + d.length then .fault .undecoded
      else .next (hostAccess w pa d { s with agenda := l })
    | .hostServed w pa n => .next (if s.cyc < e.at_ then s else hostServed w pa n { s with agenda := l })
    | _ => .next s
  | [] => .next s

end Sys2Proof.Machine
end

