-- ==== Sys2Proof/Machine/Streams.lean ====
section
/-! DEFINITION. The events of a job's streams: headers, section starts and retirements, landings, the completion of a rendezvous,
fills, prefetches and walks, and the end of a hold (R11, R13, R19, R55, R56, R78, R90 to R94, R163, R229, R401). -/
namespace Sys2Proof.Machine

/-- Whether something of the running job lands on the present job cycle. -/
def jobLands (s : State) : Bool :=
  decide (s.job.st = .running) && s.hold.isNone && s.job.dl.any fun e => decide (e.land ≤ s.job.cycle)

/-- The landings of a cycle: those of the array's follow-ons, which no freeze holds back; then the job's, with what R401 asks before
them: planes of the entries that wait to be restored are restored, with their holds, in ascending number. -/
def execDelayLineLanding (s : State) : Host.Outcome State Fault Refusal :=
  let s := if arrayDue s then landArray s else s
  if jobLands s then
    let ps := (dueEntries s.job.cycle s.job.dl).filterMap fun e => effPlane e.eff
    let mine := (List.range 32).filter fun p => ps.contains p && s.core.images.any fun i => i.1 = s.job.ctx ∧ i.2.1 = p
    let (s', n) := mine.foldl (fun a p => let (x, k) := firstTouch p a.1; (x, a.2 + k)) (s, 0)
    if n = 0 then .next (landAll s') else .next { s' with hold := some (s.cyc + 64 * n), todo := .landings :: s'.todo }
  else .next s

/-- R56, R163: a hold is over. -/
def execFirstTouchHoldEnd (s : State) : Host.Outcome State Fault Refusal :=
  match s.hold with
  | some t => if t ≤ s.cyc then .next { s with hold := none } else .next s
  | none => .next s

/-- A fault at a header: the record marks it, and its word offset is 0 (R18, R352). -/
def headerFault (s : State) (code cause : Nat) (f2 f3 : W64) : State :=
  takeFault s { faultAt s .sq code cause f2 f3 with hdrF := true }

/-- The sequencer reaches a header (R11, R14, R18, R19, R91). A section of no words is taken as one whose last word has issued. -/
def execSequencerHeader (s : State) : Host.Outcome State Fault Refusal :=
  match s.job.seq.pos with
  | .header a =>
    let got : Except Halt (State × W64) :=
      match s.job.seq.buf with
      | some (h, _) => .ok (s, h)
      | none => do
        let (s, l) ← sqFetch s a.toNat 8
        .ok (s, BitVec.ofNat 64 (leNat l))
    match got with
    | .error (.wait s w) => .next (stalled .sq w s)
    | .error (.trap s r) => .next (takeFault s { r with hdrF := true })
    | .ok (s, h) =>
      match hdrFault .sq h with
      | some c => .next (headerFault s c 0 0 0)
      | none =>
        match hdrTargets s .sq h with
        | .error (i, t) => .next (headerFault s 0x0F 0 (BitVec.ofNat 64 i) (BitVec.ofInt 64 t))
        | .ok tgt =>
          let s := waitOver .sq s
          if targetsMet s tgt then
            .next (addHeld (s.onSeq fun q => { q with pos := .run a h 0 }) (strParty s .sq) (targetHeld s tgt))
          else .next (stalled .sq .other (s.onSeq fun q => { q with pos := .wait a h tgt }))
  | .wait a h tgt =>
    if targetsMet s tgt then
      .next (issuedWord .sq
        (addHeld (s.onSeq fun q => { q with pos := .run a h 0 }) (strParty s .sq) (targetHeld s tgt)))
    else .next (stalled .sq .other s)
  | _ => .next s

def engs : List Stream := [.ax, .mx, .vx, .sx]

/-- Whether an engine may start the section at the head of its queue (R91). -/
def startable (s : State) (st : Stream) : Option QEnt :=
  let e := s.eng st
  match e.cur, e.q with
  | none, q :: _ =>
    let rdvLast := e.ended.any fun x => hdrRdve x.hdr
    if jobCycle s = true ∧ q.enter ≤ s.job.cycle ∧ rdvLast = false ∧ atRdv s st = false ∧ targetsMet s q.tgt ∧ (st = .mx → s.plat.used < s.plat.budget) then
      some q else none
  | _, _ => none

/-- A section starts: it leaves the queue, its pending masks land before its first word issues and after what the words before it wrote,
and what its ISSUE and the sections it waited for held is held (R84, R91, R142, R169, R246) (DEDUCED, log 17). -/
def execSectionStart (s : State) : Host.Outcome State Fault Refusal :=
  match engs.findSome? fun st => (startable s st).map fun q => (st, q) with
  | none => .next s
  | some (st, q) =>
    let s := addHeld s (strParty s st) (unionNat q.held (targetHeld s q.tgt))
    let s := q.pend.foldl (fun s x => s.onJob fun j =>
      { j with dl := j.dl ++ [⟨j.cycle + 1, st, 0, j.cycle, .mset x.1 x.2.1 (pendMask x.2.2)⟩] }) s
    let len := hdrLen q.hdr
    let s := s.onEng st fun e =>
      let same := hdrLbr q.hdr && decide (e.lbr.map Prod.fst = some q.addr)
      { e with
        q := e.q.tail, cur := if len = 0 then none else some q, idx := 0, frames := [],
        ended := if len = 0 then e.ended ++ [⟨q.num, q.hdr, ⟨st, q.addr, 0⟩, q.pages, q.tp⟩] else e.ended,
        lbuf := if same then e.lbuf else [],
        lbr := if hdrLbr q.hdr then some (q.addr, q.hdr) else none }
    .next (s.onFlow fun f => { f with moved := true, stall := rowSet f.stall st.idx none })

/-- A line of a section's SDRAIN .dev that has not been served (R216). -/
def linesOut (s : State) (st : Stream) (num : Nat) : Bool :=
  let mine (r : DevReq) : Bool := decide (r.kind = .devWr) && decide (r.word.st = st) && decide (r.sec = num)
  (s.dev.reqs.any fun x => mine x.2) || s.agenda.any fun e => match e.ev with | .stackSlotService r => mine r | _ => false

/-- Whether all that the words of a section made has landed and been accepted (R90). -/
def settled (s : State) (st : Stream) (num : Nat) : Bool :=
  !linesOut s st num && !(s.job.dl.any fun e => decide (e.st = st) && decide (e.sec = num)) &&
    !(s.core.writes.any fun w => decide (w.st = st) && decide (w.sec = num))

def retirable (s : State) (st : Stream) : Option Ended :=
  match (s.eng st).ended with
  | x :: _ => if jobCycle s = true ∧ settled s st x.num = true then some x else none
  | [] => none

/-- A section retires: the count that waits look at rises, its pins go, and RDVE is the engine's rendezvous (R90, R93, R232). -/
def execSectionRetire (s : State) : Host.Outcome State Fault Refusal :=
  match engs.findSome? fun st => (retirable s st).map fun x => (st, x) with
  | none => .next s
  | some (st, x) =>
    let s := s.onEng st fun e => { e with ended := e.ended.tail }
    let n := row s.job.flow.retired 0 st.idx + 1
    let h := passes s (strParty s st)
    let s := s.onFlow fun f =>
      let old := row f.retHeld [] st.idx
      let same := match old.getLast? with | some y => decide (y.2 = h) | none => false
      { f with
        retired := rowSet f.retired st.idx n
        retHeld := if same then f.retHeld else rowSet f.retHeld st.idx (old ++ [(n, h)]) }
    let s := unpinAll s (x.pages ++ x.tp.flatMap TpEnt.pages)
    .next (if hdrRdve x.hdr then reachRdv st (hdrSafe x.hdr) (hdrJend x.hdr) x.word s else s)

/-- Every stream stands at the same rendezvous, which is not complete; a safe one waits for the write ports as well (R94, R137). -/
def rdvReady (s : State) : Bool :=
  let f := s.job.flow
  let n := f.rdvDone + 1
  let drained := !(f.flags.toList.all Prod.fst) ||
    (List.range 8).all fun g => let p := s.port g; !p.cfg || !p.wr || p.buf.isEmpty
  decide (s.job.st = .running) && s.hold.isNone && drained && Stream.all.all fun st => decide (cnt5 f.rdvReached st = n)

/-- The level of a phase counter that is odd at the job's end: the domain levels that the job belongs to (R279, R284). -/
def oddPhase (s : State) : Option Nat :=
  (List.range 5).find? fun l => s.job.levels.getLsbD l && decide (phaseOf s l % 2 = 1)

/-- A rendezvous completes (R94, R95, R102): each stream holds what every other held; it may be the job's end, a fault, or a safe
point at which a request for pre-emption is taken. -/
def execRendezvousComplete (s : State) : Host.Outcome State Fault Refusal :=
  if rdvReady s then
    let all := Stream.all.foldl (fun l st => unionNat l (passes s (strParty s st))) []
    let s := Stream.all.foldl (fun s st => addHeld s (strParty s st) all) s
    let s := s.onFlow fun f => { f with rdvDone := f.rdvDone + 1, moved := true }
    let fl := s.job.flow.flags.toList
    let jend := fl.map Prod.snd
    if jend.all id then
      match oddPhase s with
      | some l =>
        .next (takeFault s { faultAt s .sq 0x16 3 (BitVec.ofNat 64 l) with word := row s.job.flow.words WordRef.zero 0 })
      | none => .next (s.onJob fun j => { j with st := .ending, preempt := none })
    else if jend.any id then
      match Stream.all.find? fun st => (row s.job.flow.flags (false, false) st.idx).2 = false with
      | some st => .next (takeFault s { faultAt s st 0x0A 0 with word := row s.job.flow.words WordRef.zero st.idx })
      | none => .next s
    else if fl.all Prod.fst then
      match s.job.preempt with
      | some n =>
        if n ≤ s.cyc then .next (s.onJob fun j => { j with st := .saving, frozeAt := s.cyc, calpos := (s.cyc + 1) % 256 })
        else .next s
      | none => .next s
    else .next s
  else .next s

/-- A line comes back from its stack (R13). -/
def execStreamCacheFill (s : State) : Host.Outcome State Fault Refusal :=
  onDue s (fun | .streamCacheFill line => some line | _ => none) fun line s =>
    match s.core.scArr.find? fun l => l.line = line with
    | some l => scTouch l (s.onCore fun c =>
        { c with scFill := c.scFill.filter (· ≠ line), scArr := c.scArr.filter fun x => x.line ≠ line })
    | none => s.onCore fun c => { c with scFill := c.scFill.filter (· ≠ line) }

/-- The branch-target register whose prefetch is ready on this cycle (R78). -/
def prefetchDue (s : State) : Option Nat :=
  if s.job.st = .running ∧ s.hold = none then (List.range 8).find? fun i => (prefetchStep i s).2 else none

/-- A branch-target register's buffer is full: header and first words, or a translation that its header will fault on (R77, R78). -/
def execPrefetchReady (s : State) : Host.Outcome State Fault Refusal :=
  match prefetchDue s with
  | none => .next s
  | some i =>
    match prefetchTry s i with
    | (s, some v) => .next (s.onSeq fun q => q.setB i { q.bReg i with ready := true, buf := v })
    | (s, none) => .next s

/-- A read of a walk is back. It goes on to the next table; after its last read the leaf enters the translation cache and is kept for
the word that waits, or the fault waits for it (R229, R230). -/
def execTranslationWalk (s : State) : Host.Outcome State Fault Refusal :=
  onDue s (fun | .translationWalk st va acc => some (⟨st, va, acc⟩ : Walk) | _ => none) fun w s =>
    match s.core.walks.find? fun x => x.walk = w with
    | none => s
    | some x =>
      let s := s.onCore fun c => { c with walks := c.walks.filter fun y => y.walk ≠ w }
      match walkNext s x with
      | some y => walkRead (s.cyc + 1) y s
      | none =>
        let s := s.onCore fun c => { c with walked := w :: c.walked.filter (· ≠ w) }
        match walkTable s s.job.l.root w.va with
        | .ok e => let m := s.micro w.st; (tlbTouch e s).setMicro w.st { m with leaves := e :: m.leaves }
        | .error _ => s

end Sys2Proof.Machine
end

