-- ==== Sys2Proof/Machine/Matrix.lean ====
section
/-! DEFINITION. The matrix engine's words and the follow-on queue (R138 to R155). -/
namespace Sys2Proof.Machine

def badSlot {α : Type} (s : State) (n : Nat) : Except Halt α := stop s .mx 0x11 0 (BitVec.ofNat 64 n)

/-! ### CLAIM and RELEASE (R139, R140) -/

/-- A CLAIM that waits is a request that has left the core (R353). It makes its checks on every cycle of its wait (DESIGN CHOICE, log 51). -/
def execClaim (p : Pred) (o : BitVec 6) (s : State) : Host.Outcome State Fault Refusal :=
  word .mx p s fun s => do
    let x := s.oslot o.toNat
    if x.pair then badSlot s o.toNat
    if x.st = .held then badSlot s o.toNat
    waitFor (decide (x.st = .full)) (s.setMicro .mx { s.micro .mx with phase := 1, k := o.toNat }) .claim
    .ok (later .mx 1 (.claim o.toNat) s)

/-- The parts of a follow-on: tile, slots, terms, type, masks, RLS (R152). -/
structure Fow where
  d : Nat
  a : Nat
  b : Nat
  k : Nat
  ty : Ty
  pm : BitVec 2
  pn : BitVec 2
  pk : BitVec 2
  rls : Bool
  deriving DecidableEq, Repr

def fowOf : Instr → Option Fow
  | .mma _ d a b k ty pm pn pk rls => some ⟨d.toNat, a.toNat, b.toNat, k.toNat + 1, ty, pm, pn, pk, rls⟩
  | _ => none

/-- A slot that the array still reads, or that a queued follow-on is to read (R140, R145, R153). -/
def slotRead (s : State) (o : Nat) : Bool :=
  (s.core.arr.reads.any fun r => decide (r.1 = o) && decide (s.core.arr.t ≤ r.2)) ||
    s.core.arr.fq.any fun x => match fowOf x.word with | some f => decide (f.a = o) || decide (f.b = o) | none => false

def execRelease (p : Pred) (o : BitVec 6) (s : State) : Host.Outcome State Fault Refusal :=
  word .mx p s fun s => do
    let x := s.oslot o.toNat
    if x.st ≠ .held ∨ x.pair = true then badSlot s o.toNat
    waitFor (!slotRead s o.toNat) s .other
    .ok (later .mx 1 (.release o.toNat) s)

/-! ### MMA (R144 to R146) -/

/-- The state checks of an MMA in the order of R155, with the states a slot may be in: what is named by the fault. -/
def mmaBad (s : State) (ok : Nat → OState → Bool) (d a b : Nat) (ty : Ty) : Option Nat :=
  let x := s.oslot a
  let y := s.oslot b
  if ok a x.st = false then some a
  else if ok b y.st = false then some b
  else if x.tag ≠ ty.code ∨ x.pair = true then some a
  else if y.tag ≠ ty.code ∨ y.pair = true then some b
  else if (s.tile d).mode ≠ tileMode ty then some d
  else none

/-- An operand slot or a tile that is read holds bad data: its health bit (R365). -/
def badCell (s : State) (l : List BadAt) : Option Nat :=
  (l.find? fun b => s.plat.bad.contains b).map fun b => match b with | .tile _ => 4 | _ => 3

def checkCells (s : State) (l : List BadAt) : Except Halt Unit :=
  match badCell s l with
  | some bit => stop s .mx 0x13 0 0 (BitVec.ofNat 64 bit)
  | none => .ok ()

/-- What an MMA reads. -/
def mmaCells (d a b : Nat) (ty : Ty) : List BadAt :=
  [.oslot a, .oslot b, .tile d] ++ (if ty = .res16 then [.oslot (a + 1), .oslot (b + 1)] else []) ++
    if ty.isRes then [] else [.tile (d + 1)]

/-- The array takes an MMA of `k` terms: until when it is held, and what lands (R145, R146). -/
def arrayTake (a b k : Nat) (ty : Ty) (s : State) : State :=
  let g := mmaCycles ty k
  s.onCore fun c =>
    let t := c.arr.t
    let old := c.arr.reads.filter fun r => t ≤ r.2
    { c with arr := { c.arr with free := t + g, reads := old ++ [(a, t + g - 1), (b, t + g - 1)] } }

/-- The array takes a word on this cycle: it is free, and no follow-on waits (R146, R153). -/
def arrayIdle (s : State) : Bool := decide (s.core.arr.free ≤ s.core.arr.t) && s.core.arr.fq.isEmpty

def mmaEff (s : State) (d a b k : Nat) (ty : Ty) (pm pn pk : BitVec 2) : MmaEff :=
  let m := s.job.mx
  ⟨d, ty, k, (s.oslot a).data, (s.oslot b).data, row m.pm 0 pm.toNat, row m.pn 0 pn.toNat, row m.pk 0 pk.toNat⟩

/-- An MMA makes its state checks whenever it is presented, also while the array is busy (DESIGN CHOICE, log 51). -/
def execMma (p : Pred) (d : BitVec 5) (a b k : BitVec 6) (ty : Ty) (pm pn pk : BitVec 2) (_rls : Bool) (s : State) :
    Host.Outcome State Fault Refusal :=
  word .mx p s fun s => do
    check (absentTy s ty) s .mx 0x04
    let n := k.toNat + 1
    match mmaBad s (fun _ st => decide (st = .held)) d.toNat a.toNat b.toNat ty with
    | some i => badSlot s i
    | none =>
      waitFor (arrayIdle s) s .other
      checkCells s (mmaCells d.toNat a.toNat b.toNat ty)
      let e := mmaEff s d.toNat a.toNat b.toNat n ty pm pn pk
      let s := addHeld s (strParty s .mx) (unionNat (s.oslot a.toNat).rel (s.oslot b.toNat).rel)
      .ok (arrayTake a.toNat b.toNat n ty (later .mx (mmaCycles ty n + 12) (.mma e) s))

/-! ### MZERO (R147) -/

/-- The tiles an MMA adds to. -/
def mmaTiles (e : MmaEff) : List Nat := if e.ty.isRes then [e.d] else [e.d, e.d + 1]

/-- An MMA in the array, of MX or a follow-on, has not landed on one of these tiles. -/
def mmaFlying (s : State) (ts : List Nat) : Bool :=
  let hit (e : MmaEff) : Bool := (mmaTiles e).any ts.contains
  (s.job.dl.any fun x => match x.eff with | .mma e => hit e | _ => false) || s.core.arr.fland.any fun x => hit x.2

def execMzero (p : Pred) (d : BitVec 5) (ty : Ty) (s : State) : Host.Outcome State Fault Refusal :=
  word .mx p s fun s => do
    check (absentTy s ty) s .mx 0x04
    let ts := if ty.isRes then [d.toNat] else [d.toNat, d.toNat + 1]
    waitFor (!mmaFlying s ts) s .other
    .ok (later .mx 1 (.mzero ts (tileMode ty)) s)

/-! ### MDRAIN (R149, R150) -/

def drainBad (s : State) (t : Nat) (ty : Ty) (wrap : Bool) : Except Halt Unit :=
  let x := s.tile t
  let f2 : W64 := BitVec.ofNat 64 t
  let past (w16 : Bool) : Bool := decide (safeBound w16 < x.kc) && !wrap
  match x.mode with
  | .none => stop s .mx 0x11 0 f2
  | .fp => check (decide (t % 2 = 1) || decide (ty = .i32)) s .mx 0x11 0 f2
  | .w8 => check (past false) s .mx 0x0E 0 f2 (BitVec.ofNat 64 x.kc)
  | .w16 => check (past true) s .mx 0x0E 0 f2 (BitVec.ofNat 64 x.kc)

def execMdrain (p : Pred) (d : Opnd) (a : BitVec 5) (ty : Ty) (rnd : Rnd) (sat : Bool) (band : BitVec 2) (wrap : Bool)
    (s : State) : Host.Outcome State Fault Refusal :=
  word .mx p s fun s => do
    let t := a.toNat
    drainBad s t ty wrap
    let us : List (Use × Nat) := [(⟨d, ty, true⟩, 1024)]
    checkUses s .mx false us
    let _ ← waitUses s .mx us
    checkCells s ([.tile t] ++ if (s.tile t).mode = .fp then [.tile (t + 1)] else [])
    let out := (drainBand s.job.mx t band.toNat ty rnd sat).map plain
    let lat := if (s.tile t).mode = .fp then 4 else 7
    .ok (putResult .mx lat d ty false rnd sat none (List.range 1024) out s)

/-! ### Masks and scales (R142, R143, R148) -/

def maskValue (pat : Bool) (v : W64) : W64 := if pat then v else pendMask v.toNat

def setMaskWord (k : MaskKind) (p : Pred) (i : BitVec 2) (a : Opnd) (pat : Bool) (s : State) : Host.Outcome State Fault Refusal :=
  word .mx p s fun s => .ok (later .mx 1 (.mset k i.toNat (maskValue pat (constVal s .mx a))) s)

def execMsetm (p : Pred) (i : BitVec 2) (a : Opnd) (pat : Bool) (s : State) := setMaskWord .pm p i a pat s
def execMsetn (p : Pred) (i : BitVec 2) (a : Opnd) (pat : Bool) (s : State) := setMaskWord .pn p i a pat s
def execMsetk (p : Pred) (i : BitVec 2) (a : Opnd) (pat : Bool) (s : State) := setMaskWord .pk p i a pat s

def execMscale (p : Pred) (a : Opnd) (col : Bool) (s : State) : Host.Outcome State Fault Refusal :=
  word .mx p s fun s => do
    let us : List (Use × Nat) := [(⟨a, .f32, false⟩, 64)]
    checkUses s .mx false us
    let bs ← waitUses s .mx us
    let (s, vs) := readUses .mx false .rne false us bs s
    .ok (later .mx 1 (.mscale col ((vs.getD 0 #[]).toList)) s)

/-! ### MSTAT (R151) -/

/-- The k count of a tile; a pair's is kept on its even tile (R141). -/
def kcount (s : State) (t : Nat) : Nat :=
  let x := s.tile t
  match x.mode with
  | .none => 0
  | .fp => (s.tile (t / 2 * 2)).kc
  | _ => x.kc

def execMstat (p : Pred) (sel : StatSel) (a : BitVec 5) (s : State) : Host.Outcome State Fault Refusal :=
  word .mx p s fun s =>
    let m := s.job.mx
    match sel with
    | .st =>
      let v := (if m.ncr then 1 else 0) + (if m.qx then 2 else 0)
      .ok (later .mx 8 (.wcntMx (BitVec.ofNat 32 v)) (later .mx 1 .statClr s))
    | .kc => .ok (later .mx 8 (.wcntMx (BitVec.ofNat 32 (kcount s a.toNat))) s)
    | .md => .ok (later .mx 8 (.wcntMx (BitVec.ofNat 32 (modeCode (s.tile a.toNat).mode))) s)

/-! ### Follow-on words (R152, R153, R268) -/

def copySlot (c : Copy) : Nat := match c.dst with | .oslot o => o | _ => 64

/-- A follow-on's state check fails: its copy's token completes with the error, and the job freezes at the COPY. -/
def failFollow (c : Copy) (code f2 f3 : Nat) (s : State) : State :=
  let o := copySlot c
  let s := if (s.oslot o).st = .held then s else slotState o .empty s
  let s := finishCopy c (BitVec.ofNat 64 code) s
  if s.job.id = c.jobId then
    takeFault s ⟨BitVec.ofNat 8 code, 0, c.word, false, false, true, false, false, false, BitVec.ofNat 64 f2, BitVec.ofNat 64 f3⟩
  else s

/-- A copy's follow-on joins the queue of 4, and is checked as it does; while the queue is full the copy's completion is held. -/
def joinFollow (id : Nat) (s : State) : State :=
  match copyOf s id with
  | none => s
  | some c =>
    match c.fow.bind fowOf, c.fow with
    | some f, some w =>
      let ok (o : Nat) (st : OState) : Bool :=
        decide (st = .full ∨ st = .held) || (decide (st = .reserved) && decide (o = copySlot c))
      if 4 ≤ s.core.arr.fq.length then s.postAt (s.cyc + 1) (.followOnJoin id) id
      else match mmaBad s ok f.d f.a f.b f.ty, badCell s (mmaCells f.d f.a f.b f.ty) with
      | some i, _ => failFollow c 0x11 i 0 s
      | none, some bit => failFollow c 0x13 0 bit s
      | none, none =>
        let s := s.onCore fun k => { k with arr := { k.arr with fq := k.arr.fq ++ [⟨id, w, c.word, copySlot c⟩] } }
        settleCopy id (setCopy { c with fjoin := true } s)
    | _, _ => s

def execFollowOnJoin (s : State) : Host.Outcome State Fault Refusal :=
  onDue s (fun | .followOnJoin id => some id | _ => none) joinFollow

/-- The follow-on that enters the array on this cycle. -/
def followReady (s : State) : Option (FollowOn × Fow) :=
  match s.core.arr.fq with
  | x :: _ => if s.core.arr.free ≤ s.core.arr.t then (fowOf x.word).map fun f => (x, f) else none
  | [] => none

/-- The head follow-on enters the array with the masks as they stand (R152, R153). -/
def execFollowOnEnter (s : State) : Host.Outcome State Fault Refusal :=
  match followReady s with
  | none => .next s
  | some (x, f) =>
    let e := mmaEff s f.d f.a f.b f.k f.ty f.pm f.pn f.pk
    let g := mmaCycles f.ty f.k
    let s := arrayTake f.a f.b f.k f.ty s
    .next (s.onCore fun c =>
      { c with arr := { c.arr with
          fq := c.arr.fq.tail, fland := c.arr.fland ++ [(c.arr.t + g + 12, e)]
          rls := if f.rls then c.arr.rls ++ [(x.slot, c.arr.t + g)] else c.arr.rls } })

end Sys2Proof.Machine
end

