-- ==== Sys2Proof/Machine/Platform.lean ====
section
/-! DEFINITION. The platform: reset and bring-up, links and their classes, self-test and the fencing of units, the matrix budget and the
thermal limits (R364 to R367, R385 to R393). -/
namespace Sys2Proof.Machine

/-! ### Reset and bring-up (R226, R338, R377, R387, R389, R393) -/

/-- What comes from outside the device, and is not lost with its state. -/
def fromOutside : Ev → Bool
  | .doorbellWrite _ _ | .queueDescriptorWrite _ _ _ _ _ | .queueStopClear _ | .handleTableWrite _ _ _ | .pageInvalidation _ _
  | .dealRequest _ | .jobEndOrder _ | .jobResumeOrder _ | .loadReportRead _ | .svnCommit | .nodeIdentityAssign _ | .spdmRequest _
  | .hostCxlAccess _ _ _ | .writePacketArrival _ _ _ _ _ | .signalPacketArrival _ | .reducePacketArrival _ _ | .barrierPacketArrival _
  | .managementPacketArrival _ _ | .ackPacketArrival _ _ _ | .flitRetransmit _ | .portRetrain _ _ | .selfTestStart _ _
  | .selfTestComplete _ _ | .matrixBudgetUpdate _ | .thermalThrottle _ | .thermalTrip | .deviceReset _ => true
  | _ => false

/-- Device reset: every state as at reset, but for the fuses, the protected counter, the flash store and the contents of memory. The
device cycle count starts again; what is to come from outside keeps its distance (DESIGN CHOICE, log 39). -/
def resetDevice (s : State) : State :=
  let r := State.reset
  { r with
    variant := s.variant, stepping := s.stepping, coreNo := s.coreNo, fresh := s.fresh, nseq := s.nseq
    agenda := (s.agenda.filter fun e => fromOutside e.ev).map fun e => { e with at_ := e.at_ - s.cyc }
    dev := { r.dev with mem := s.dev.mem }
    plat := { r.plat with
      fuse := s.plat.fuse, att := s.plat.att, flash := s.plat.flash, erases := s.plat.erases, tsvn := s.plat.tsvn, power := s.plat.power
      temp := s.plat.temp }
    out := s.out ++ [.reset] }

/-- A measurement register takes in an image. -/
def measure (m image : List Byte) : List Byte := sha256 (m ++ sha256 image)

/-- The ROM's part of bring-up: the firmware is verified and measured, and the flash store is purged under a newer translator. A
refused image leaves READY at 0, with an error code that the spec does not give (DESIGN CHOICE, log 50). -/
def bootDevice (b : BootIn) (s : State) : State :=
  let s := s.onPlat fun p => { p with mr := rowSet p.mr 0 (measure (row p.mr [] 0) b.rom) }
  if Config.signatureOk b.image b.sig && decide (s.plat.fuse ≤ b.svn) then
    s.onPlat fun p =>
      { p with
        fw := true, svn := b.svn, classes := Vector.ofFn fun i => (b.classes[i.val]?).join
        mr := rowSet (rowSet p.mr 1 (measure (row p.mr [] 1) b.image)) 2 (measure (row p.mr [] 2) b.translator)
        flash := if p.tsvn < b.tsvn then [] else p.flash
        tsvn := b.tsvn }
  else
    let (v, s) := s.draw
    s.onPlat fun p => { p with bootErr := v.setWidth 8 }

def execDeviceReset (s : State) : Host.Outcome State Fault Refusal :=
  onDue s (fun | .deviceReset b => some b | _ => none) fun b s => bootDevice b (resetDevice s)

/-- The node identity: the ports train to their classes, those beyond class 3 are refused, and bring-up is complete. -/
def execNodeIdentityAssign (s : State) : Host.Outcome State Fault Refusal :=
  onDue s (fun | .nodeIdentityAssign n => some n | _ => none) fun n s =>
    command (fun s =>
      let dead := (List.range (Config.ports s.variant)).filter fun i => (row s.plat.classes none i).isNone
      let mask : W64 := BitVec.ofNat 64 ((dead.map fun i => 2 ^ (40 + i)).foldl (· + ·) 0)
      ({ s with node := n, plat := { s.plat with ready := true, fenced := s.plat.fenced ||| mask } }, true)) s

/-! ### Links (R298, R365, R366, R385, R386) -/

def isArrival : Ev → Bool
  | .writePacketArrival _ _ _ _ _ | .signalPacketArrival _ | .reducePacketArrival _ _ | .barrierPacketArrival _ | .managementPacketArrival _ _
  | .ackPacketArrival _ _ _ => true
  | _ => false

/-- The latency of a port's class. -/
def portLambda (s : State) (p : Nat) : Nat := match row s.plat.classes none p with | some 1 => 128 | some 2 => 512 | some 3 => 2048 | _ => 48

/-- A flit is sent again: the packet that comes next is 2Λ + 16 cycles late. -/
def execFlitRetransmit (s : State) : Host.Outcome State Fault Refusal :=
  onDue s (fun | .flitRetransmit p => some p | _ => none) fun p s =>
    match s.agenda.find? fun e => isArrival e.ev with
    | some e => { s with agenda := insDue { e with at_ := e.at_ + 2 * portLambda s p + 16 } (s.agenda.erase e) }
    | none => s

/-- A unit is fenced: its health bit is cleared until device reset. -/
def fence (bit : Nat) (s : State) : State := s.onPlat fun p => { p with fenced := p.fenced ||| BitVec.ofNat 64 (2 ^ bit) }

/-- A port is lost: what goes between ranks stops with cause 1 (R298; routes are not the spec's, DESIGN CHOICE, log 30). -/
def losePort (p : Nat) (s : State) : State :=
  let s := fence (40 + p) s
  let s := (s.grp.colls.filter fun c => decide (1 < c.ranks)).foldl (fun s c => abortColl c 1 s) s
  (s.grp.reps.filter fun c => decide (1 < c.ranks)).foldl (fun s c => abortRep c 1 s) s

/-- A port that lost lock has retrained, with its traffic held meanwhile, or has failed to. -/
def execPortRetrain (s : State) : Host.Outcome State Fault Refusal :=
  onDue s (fun | .portRetrain p ok => some (p, ok) | _ => none) fun (p, ok) s =>
    if ok ∨ Config.ports s.variant ≤ p then s else losePort p s

/-! ### Self-test (R366, R367) -/

/-- After an error, which has left bad data where it could not be corrected, a unit is to be tested: a unit of this core once no job runs
there. Until then, and until it has passed, nothing is placed or released on the core. -/
def execSelfTestStart (s : State) : Host.Outcome State Fault Refusal :=
  onDue s (fun | .selfTestStart u bad => some (u, bad) | _ => none) fun (u, bad) s =>
    let s := s.onPlat fun p => { p with bad := p.bad ++ bad, testing := (u, none) :: p.testing.filter fun x => x.1 ≠ u }
    if u < 10 then onCoreQ s.coreNo (fun k => { k with fenced := true }) s else s

/-- Whether a unit's test has started. -/
def testRuns (s : State) (u : Nat) : Bool := s.plat.testing.any fun x => decide (x.1 = u) && x.2.isSome

/-- A test starts on the first cycle on which it may, a frozen job counting as none; while one of this core waits for that, the Grip asks
for the core (R366). -/
def testTick (s : State) : State :=
  if s.plat.testing.isEmpty then s
  else
    let idle := decide (s.job.st = .none ∨ s.job.st = .frozen)
    let go (x : Nat × Option Nat) : Nat × Option Nat := if x.2.isNone ∧ (10 ≤ x.1 ∨ idle = true) then (x.1, some s.cyc) else x
    let s := s.onPlat fun p => { p with testing := p.testing.map go }
    if (s.plat.testing.any fun x => decide (x.1 < 10) && x.2.isNone) && (coreQ s s.coreNo).run.isSome then askPreempt s.coreNo s else s

/-- The tasks that have been placed on a core and not released wait again: a fenced core runs no job (R366) (DEDUCED, log 35). -/
def unplace (core : Nat) (s : State) : State :=
  let hit (t : Task) : Bool := decide (t.st = .placed) && t.cores.contains core
  let s := s.grip.graphs.foldl (fun s g =>
    if s.grip.tasks.any fun t => hit t && decide (t.graph.map Prod.fst = some g.id) then withdraw g.id s else s) s
  let gone (id : Nat) : Bool := s.grip.tasks.any fun t => decide (t.id = id) && hit t
  let s := s.onCore fun c => { c with jobq := c.jobq.filter fun l => !gone l.task }
  s.onGrip fun g => { g with
    cores := g.cores.map fun c => (c.1, { c.2 with q := c.2.q.filter fun id => !gone id })
    tasks := g.tasks.map fun t => if hit t then { t with st := .waiting, cores := [], rel := none } else t }

/-- A test ends: an error that was transient leaves the unit in use; one that was not fences it. The end of a test comes after its
start. -/
def execSelfTestComplete (s : State) : Host.Outcome State Fault Refusal :=
  onDue s (fun | .selfTestComplete u ok => some (u, ok) | _ => none) fun (u, ok) s =>
    if testRuns s u then
      let s := s.onPlat fun p => { p with testing := p.testing.filter fun x => x.1 ≠ u }
      if !ok then (if 40 ≤ u ∧ u < 52 then losePort (u - 40) s else if u < 10 then unplace s.coreNo (fence u s) else fence u s)
      else if u < 10 ∧ (s.plat.testing.any fun x => x.1 < 10) = false ∧ s.plat.fenced &&& 1023 = 0 then
        onCoreQ s.coreNo (fun k => { k with fenced := false }) s
      else s
    else if s.plat.testing.any fun x => x.1 = u then s.postAt (s.cyc + 1) (.selfTestComplete u ok)
    else s

/-! ### Power and temperature (R391, R392) -/

/-- The budget that the cap asks for; it comes into force at calendar position 0. -/
def execMatrixBudgetUpdate (s : State) : Host.Outcome State Fault Refusal :=
  onDue s (fun | .matrixBudgetUpdate b => some b | _ => none) fun b s => s.onPlat fun p => { p with budgetNext := min b 256 }

/-- A die temperature in tenths of a degree: at 105 °C the budget goes to 0 until it is below 100 °C. -/
def execThermalThrottle (s : State) : Host.Outcome State Fault Refusal :=
  onDue s (fun | .thermalThrottle t => some t | _ => none) fun t s =>
    s.onPlat fun p =>
      { p with temp := t, throttled := if 1050 ≤ t then true else if t < 1000 then false else p.throttled }

/-- At 115 °C the hardware resets the device. -/
def execThermalTrip (s : State) : Host.Outcome State Fault Refusal :=
  onDue s (fun | .thermalTrip => some () | _ => none) fun _ s => resetDevice s

/-- Array cycles are counted in each calendar period, and the budget changes at its position 0. -/
def budgetTick (s : State) : State :=
  s.onPlat fun p =>
    let busy := if s.core.arr.t < s.core.arr.free ∧ arrayRuns s = true then 1 else 0
    if (s.cyc + 1) % 256 = 0 then { p with used := 0, budget := if p.throttled then 0 else p.budgetNext }
    else { p with used := p.used + busy }

end Sys2Proof.Machine
end

