-- ==== Sys2Proof/Machine/Scalar.lean ====
section
/-! DEFINITION. The sequencer's scalar group: integer arithmetic, logic, shifts, counts, selects, compares, predicates and the
reading of the wide flags (R70 to R76). -/
namespace Sys2Proof.Machine

def regReg (p : Pred) (d : BitVec 5) (lat : Nat) (a b : BitVec 6) (f : W64 → W64 → W64) (s : State) :
    Host.Outcome State Fault Refusal :=
  scalarWord p d lat [a, b] (fun s => f (s.reg a) (s.reg b)) s

def regImm (p : Pred) (d : BitVec 5) (a : BitVec 6) (imm : BitVec 56) (f : W64 → W64 → W64) (s : State) :
    Host.Outcome State Fault Refusal :=
  scalarWord p d 1 [a] (fun s => f (s.reg a) (sx64 56 imm)) s

def regOne (p : Pred) (d : BitVec 5) (a : BitVec 6) (f : W64 → W64) (s : State) : Host.Outcome State Fault Refusal :=
  scalarWord p d 1 [a] (fun s => f (s.reg a)) s

/-! ### The functions of R71 to R73 -/

def shiftAmt (b : W64) : Nat := (b.extractLsb' 0 6).toNat
def aluMulh (a b : W64) : W64 := BitVec.ofInt 64 (a.toInt * b.toInt / 2 ^ 64)
def aluMulhn (a b : W64) : W64 := BitVec.ofNat 64 (a.toNat * b.toNat / 2 ^ 64)
def aluDiv (a b : W64) : W64 := if b = 0 then .allOnes 64 else BitVec.ofInt 64 (Int.tdiv a.toInt b.toInt)
def aluRem (a b : W64) : W64 := if b = 0 then a else BitVec.ofInt 64 (Int.tmod a.toInt b.toInt)
def aluDivn (a b : W64) : W64 := if b = 0 then .allOnes 64 else BitVec.ofNat 64 (a.toNat / b.toNat)
def aluRemn (a b : W64) : W64 := if b = 0 then a else BitVec.ofNat 64 (a.toNat % b.toNat)
def aluMin (a b : W64) : W64 := if a.sle b then a else b
def aluMax (a b : W64) : W64 := if a.sle b then b else a
def aluMinn (a b : W64) : W64 := if a.ule b then a else b
def aluMaxn (a b : W64) : W64 := if a.ule b then b else a
def aluBrev (a : W64) : W64 := a.reverse

/-! ### The words -/

def execAdd (p : Pred) (d : BitVec 5) (a b : BitVec 6) (s : State) := regReg p d 1 a b (· + ·) s
def execSub (p : Pred) (d : BitVec 5) (a b : BitVec 6) (s : State) := regReg p d 1 a b (· - ·) s
def execAddi (p : Pred) (d : BitVec 5) (a : BitVec 6) (imm : BitVec 56) (s : State) := regImm p d a imm (· + ·) s
def execLea (p : Pred) (d : BitVec 5) (a b : BitVec 6) (sh : BitVec 6) (imm : BitVec 56) (s : State) :=
  regReg p d 1 a b (fun x y => x + (y <<< sh.toNat) + sx64 56 imm) s
def execMul (p : Pred) (d : BitVec 5) (a b : BitVec 6) (s : State) := regReg p d 3 a b (· * ·) s
def execMulh (p : Pred) (d : BitVec 5) (a b : BitVec 6) (s : State) := regReg p d 3 a b aluMulh s
def execMulhn (p : Pred) (d : BitVec 5) (a b : BitVec 6) (s : State) := regReg p d 3 a b aluMulhn s
def execDiv (p : Pred) (d : BitVec 5) (a b : BitVec 6) (s : State) := regReg p d 18 a b aluDiv s
def execDivn (p : Pred) (d : BitVec 5) (a b : BitVec 6) (s : State) := regReg p d 18 a b aluDivn s
def execRem (p : Pred) (d : BitVec 5) (a b : BitVec 6) (s : State) := regReg p d 18 a b aluRem s
def execRemn (p : Pred) (d : BitVec 5) (a b : BitVec 6) (s : State) := regReg p d 18 a b aluRemn s
def execAnd (p : Pred) (d : BitVec 5) (a b : BitVec 6) (s : State) := regReg p d 1 a b (· &&& ·) s
def execOr (p : Pred) (d : BitVec 5) (a b : BitVec 6) (s : State) := regReg p d 1 a b (· ||| ·) s
def execXor (p : Pred) (d : BitVec 5) (a b : BitVec 6) (s : State) := regReg p d 1 a b (· ^^^ ·) s
def execAndn (p : Pred) (d : BitVec 5) (a b : BitVec 6) (s : State) := regReg p d 1 a b (fun x y => x &&& ~~~y) s
def execAndi (p : Pred) (d : BitVec 5) (a : BitVec 6) (imm : BitVec 56) (s : State) := regImm p d a imm (· &&& ·) s
def execOri (p : Pred) (d : BitVec 5) (a : BitVec 6) (imm : BitVec 56) (s : State) := regImm p d a imm (· ||| ·) s
def execXori (p : Pred) (d : BitVec 5) (a : BitVec 6) (imm : BitVec 56) (s : State) := regImm p d a imm (· ^^^ ·) s
def execShl (p : Pred) (d : BitVec 5) (a b : BitVec 6) (s : State) := regReg p d 1 a b (fun x y => x <<< shiftAmt y) s
def execShr (p : Pred) (d : BitVec 5) (a b : BitVec 6) (s : State) := regReg p d 1 a b (fun x y => x >>> shiftAmt y) s
def execShra (p : Pred) (d : BitVec 5) (a b : BitVec 6) (s : State) :=
  regReg p d 1 a b (fun x y => x.sshiftRight (shiftAmt y)) s
def execRotl (p : Pred) (d : BitVec 5) (a b : BitVec 6) (s : State) :=
  regReg p d 1 a b (fun x y => x.rotateLeft (shiftAmt y)) s
def execMin (p : Pred) (d : BitVec 5) (a b : BitVec 6) (s : State) := regReg p d 1 a b aluMin s
def execMax (p : Pred) (d : BitVec 5) (a b : BitVec 6) (s : State) := regReg p d 1 a b aluMax s
def execMinn (p : Pred) (d : BitVec 5) (a b : BitVec 6) (s : State) := regReg p d 1 a b aluMinn s
def execMaxn (p : Pred) (d : BitVec 5) (a b : BitVec 6) (s : State) := regReg p d 1 a b aluMaxn s
def execClz (p : Pred) (d : BitVec 5) (a : BitVec 6) (s : State) := regOne p d a (fun x => BitVec.ofNat 64 (clzN 64 x.toNat)) s
def execFfs (p : Pred) (d : BitVec 5) (a : BitVec 6) (s : State) := regOne p d a (fun x => BitVec.ofNat 64 (ffsN 64 x.toNat)) s
def execPopc (p : Pred) (d : BitVec 5) (a : BitVec 6) (s : State) := regOne p d a (fun x => BitVec.ofNat 64 (popN 64 x.toNat)) s
def execBrev (p : Pred) (d : BitVec 5) (a : BitVec 6) (s : State) := regOne p d a aluBrev s
def execSext (p : Pred) (d : BitVec 5) (a : BitVec 6) (w : ExtW) (s : State) :=
  regOne p d a (fun x => extendLow w.bits true x.toNat) s
def execZext (p : Pred) (d : BitVec 5) (a : BitVec 6) (w : ExtW) (s : State) :=
  regOne p d a (fun x => extendLow w.bits false x.toNat) s
def execSel (p : Pred) (d : BitVec 5) (a b : BitVec 6) (neg : Bool) (f : BitVec 3) (s : State) :=
  scalarWord p d 1 [a, b] (fun s => if xor (s.job.seq.fReg f.toNat) neg then s.reg a else s.reg b) s
def execLdi (p : Pred) (d : BitVec 5) (imm : W64) (s : State) := scalarWord p d 1 [] (fun _ => imm) s

def execCmp (p : Pred) (fd : BitVec 3) (a b : BitVec 6) (cc : Cond) (s : State) :=
  predWord p fd [a, b] (fun s => condHolds cc (s.reg a) (s.reg b)) s
def execCmpi (p : Pred) (fd : BitVec 3) (a : BitVec 6) (imm : BitVec 56) (cc : Cond) (s : State) :=
  predWord p fd [a] (fun s => condHolds cc (s.reg a) (sx64 56 imm)) s
def execPand (p : Pred) (fd fa fb : BitVec 3) (s : State) :=
  predWord p fd [] (fun s => s.job.seq.fReg fa.toNat && s.job.seq.fReg fb.toNat) s
def execPor (p : Pred) (fd fa fb : BitVec 3) (s : State) :=
  predWord p fd [] (fun s => s.job.seq.fReg fa.toNat || s.job.seq.fReg fb.toNat) s
def execPxor (p : Pred) (fd fa fb : BitVec 3) (s : State) :=
  predWord p fd [] (fun s => xor (s.job.seq.fReg fa.toNat) (s.job.seq.fReg fb.toNat)) s
def execPnot (p : Pred) (fd fa : BitVec 3) (s : State) := predWord p fd [] (fun s => !s.job.seq.fReg fa.toNat) s
def execFtest (p : Pred) (fd : BitVec 3) (w : BitVec 2) (s : State) :=
  predWord p fd [] (fun s => wideFlag s.job.seq w.toNat != 0) s
def execFcount (p : Pred) (d : BitVec 5) (w : BitVec 2) (s : State) :=
  scalarWord p d 1 [] (fun s => wideFlag s.job.seq w.toNat) s

end Sys2Proof.Machine
end

