-- ==== Sys2Proof/Machine/Special.lean ====
section
/-! DEFINITION. Capability words, control registers and process-group tables as the sequencer reads and writes them (R3 to R6, R67 to
R69, R161, R197, R198, R222, R277 to R279, R285, R286). -/
namespace Sys2Proof.Machine

def execCaprd (p : Pred) (d : BitVec 5) (a : BitVec 6) (imm : BitVec 56) (s : State) : Host.Outcome State Fault Refusal :=
  scalarWord p d 1 [a] (fun s => Config.cap s.variant s.stepping (addr64 s a imm)) s

/-- TSHAPE of a physical plane as the running job sees it: TCFG alone changes WIDTH, COLS and ROWS (R161, R162). -/
def tshape (s : State) (n : Nat) : W64 :=
  let x := s.plane n
  if x.owner = some s.job.ctx then
    (if x.cfg then 2 ^ 15 else 0) + (if x.dirty then 2 ^ 14 else 0) + x.shape.setWidth 64
  else 0

/-- CORE (R69). -/
def coreWord (s : State) : W64 :=
  let n := Config.coreNode s.coreNo
  BitVec.ofNat 64 (s.coreNo * 2 ^ 16 + Config.coreCluster s.coreNo * 2 ^ 12 + n.die * 2 ^ 8 + n.y * 2 ^ 4 + n.x)

/-- A control register by its number (R67). -/
def csrRead (s : State) (n : Nat) : W64 :=
  let j := s.job
  if n ≤ 0x007 then Config.cap s.variant s.stepping n
  else if n = 0x010 then j.levels.setWidth 64
  else if 0x018 ≤ n ∧ n ≤ 0x01C then
    if isMember s (n - 0x018) then BitVec.ofNat 64 (phaseOf s (n - 0x018)) else 0
  else if n = 0x020 then j.vx.wbase.setWidth 64
  else if 0x040 ≤ n ∧ n ≤ 0x05F then tshape s (n - 0x040)
  else if 0x060 ≤ n ∧ n ≤ 0x06F then row j.bfmt 0 (n - 0x060)
  else if n = 0x070 then j.ot.base
  else if n = 0x071 then BitVec.ofNat 64 j.ot.hi
  else if n = 0x072 then BitVec.ofNat 64 j.ot.lo
  else if 0x078 ≤ n ∧ n ≤ 0x07F then (row s.core.step 0 (n - 0x078)).setWidth 64
  else if n = 0x080 then 1
  else if n = 0x081 then coreWord s
  else if n = 0x082 then BitVec.ofNat 64 j.id
  else if n = 0x083 then BitVec.ofNat 64 j.cycle
  else if 0x090 ≤ n ∧ n ≤ 0x093 then row j.freg 0 (n - 0x090)
  else 0

def execCsrrd (p : Pred) (d : BitVec 5) (num : BitVec 12) (s : State) : Host.Outcome State Fault Refusal :=
  word .sq p s fun s => .ok (later .sq 1 (.sreg d.toNat (csrRead s num.toNat)) s)

/-- A write to a read-only control register (R67, R68). -/
def execCsrwr (p : Pred) (_num : BitVec 12) (_a : BitVec 6) (s : State) : Host.Outcome State Fault Refusal :=
  sideWord p s fun s => stop s .sq 0x07

/-- A serialising write: it waits until every section issued before it has retired (R68). -/
def csrWrite (p : Pred) (a : BitVec 6) (f : W64 → State → Except Halt State) (s : State) : Host.Outcome State Fault Refusal :=
  sideWord p s fun s => do
    needRegs s [a]
    waitFor ([Stream.ax, .mx, .vx, .sx].all fun e => cnt5 s.job.flow.issued e = cnt5 s.job.flow.retired e) s .other
    f (s.reg a) s

/-- DOM: every check first, then the levels in order (R277, R279). -/
def writeDom (v : W64) (s : State) : Except Halt State := do
  let new : BitVec 5 := v.extractLsb' 0 5
  let old := s.job.levels
  check (!v.getLsbD 0 || decide (v.extractLsb' 5 59 ≠ 0)) s .sq 0x02
  check (new.getLsbD 4 && s.job.l.gang.isNone) s .sq 0x07
  match [1, 2, 3, 4].find? fun l => old.getLsbD l && !new.getLsbD l && decide (phaseOf s l % 2 = 1) with
  | some l => stop s .sq 0x16 2 (BitVec.ofNat 64 l)
  | none =>
    let change (s : State) (l : Nat) : State :=
      if new.getLsbD l && !old.getLsbD l then joinDom l s
      else if old.getLsbD l && !new.getLsbD l then leaveDom l s
      else s
    .ok (withPhase (fun s => [1, 2, 3, 4].foldl change (s.onJob fun j => { j with levels := new })) s)

def execDomWrite (p : Pred) (a : BitVec 6) (s : State) : Host.Outcome State Fault Refusal := csrWrite p a writeDom s

/-- OTBASE (R197). -/
def writeOtbase (v : W64) (s : State) : Except Halt State := do
  let size := (v.extractLsb' 52 12).toNat * 2 ^ 20
  let base := (v.extractLsb' 12 40).toNat * 2 ^ 12
  check (decide (v.extractLsb' 0 12 ≠ 0) || decide (2 ^ 52 < base + size)) s .sq 0x02
  check (decide (0 < s.job.ot.sp)) s .sq 0x0B 6
  let (s, pages) ← (if size = 0 then .ok (s, []) else needPages s .sq base size [.r, .w])
  waitFor (pinRoom s pages) s .other
  .ok ((pinAll (unpinAll s s.job.otPages) pages).onJob fun j => { j with ot := { j.ot with base := v }, otPages := pages })

def execOtbaseWrite (p : Pred) (a : BitVec 6) (s : State) : Host.Outcome State Fault Refusal := csrWrite p a writeOtbase s

/-- The condition that a write to a threshold must leave (R198). -/
def thresholdsOk (hi lo : Nat) : Bool := decide (hi ≤ 1024) && (decide (lo = 0) || decide (lo + 16 ≤ hi))

def writeOthi (v : W64) (s : State) : Except Halt State := do
  check (decide (v.extractLsb' 11 53 ≠ 0) || !thresholdsOk v.toNat s.job.ot.lo) s .sq 0x02
  .ok (later .sq 1 (.othr true v.toNat) s)

def writeOtlo (v : W64) (s : State) : Except Halt State := do
  check (decide (v.extractLsb' 11 53 ≠ 0) || !thresholdsOk s.job.ot.hi v.toNat) s .sq 0x02
  .ok (later .sq 1 (.othr false v.toNat) s)

def execOthiWrite (p : Pred) (a : BitVec 6) (s : State) : Host.Outcome State Fault Refusal := csrWrite p a writeOthi s
def execOtloWrite (p : Pred) (a : BitVec 6) (s : State) : Host.Outcome State Fault Refusal := csrWrite p a writeOtlo s

/-- STEPn (R222). -/
def execStepWrite (p : Pred) (n : BitVec 3) (a : BitVec 6) (s : State) : Host.Outcome State Fault Refusal :=
  csrWrite p a (fun v s => do
    check (decide (v.extractLsb' 32 32 ≠ 0)) s .sq 0x02
    .ok (s.onCore fun c => { c with step := rowSet c.step n.toNat (v.extractLsb' 0 32) })) s

/-- GROUPRD's value from a table (R286). -/
def groupVal (node : Nat) (t : PgTable) (fn : GrpFn) (b : W64) : W64 :=
  let n := t.nodes.length
  let r := t.nodes.findIdx (· = node)
  let here := decide (r < n)
  let big := b.toNat
  BitVec.ofNat 64 (match fn with
    | .rank => r
    | .size => n
    | .left => if here then (r + n - 1) % n else n
    | .right => if here then (r + 1) % n else n
    | .start => if here then r * (big / n) + min r (big % n) else 0
    | .count => if here then big / n + (if r < big % n then 1 else 0) else 0
    | .node => (t.nodes[big]?).getD (2 ^ 64 - 1)
    | .self => node
    | .gid => t.gid)

def execGrouprd (p : Pred) (d : BitVec 5) (a b : BitVec 6) (fn : GrpFn) (s : State) : Host.Outcome State Fault Refusal :=
  sideWord p s fun s => do
    needRegs s [a, b]
    let (s, t) ← groupTable s .sq (s.reg a).toNat
    .ok (later .sq 1 (.sreg d.toNat (groupVal s.node.toNat t fn (s.reg b))) s)

end Sys2Proof.Machine
end

