-- ==== Sys2Proof/Machine/Dispatch.lean ====
section
/-! DEFINITION. One arm for every constructor: a direct call of its meaning, or a rejection by name. -/
namespace Sys2Proof.Machine
open Sys2Proof

def exec (i : Instr) (s : State) : Host.Outcome State Fault Refusal :=
  match i with
  | .add p d a b => Sys2Proof.Machine.execAdd p d a b s
  | .sub p d a b => Sys2Proof.Machine.execSub p d a b s
  | .addi p d a imm => Sys2Proof.Machine.execAddi p d a imm s
  | .lea p d a b sh imm => Sys2Proof.Machine.execLea p d a b sh imm s
  | .mul p d a b => Sys2Proof.Machine.execMul p d a b s
  | .mulh p d a b => Sys2Proof.Machine.execMulh p d a b s
  | .mulhn p d a b => Sys2Proof.Machine.execMulhn p d a b s
  | .div p d a b => Sys2Proof.Machine.execDiv p d a b s
  | .divn p d a b => Sys2Proof.Machine.execDivn p d a b s
  | .rem p d a b => Sys2Proof.Machine.execRem p d a b s
  | .remn p d a b => Sys2Proof.Machine.execRemn p d a b s
  | .and p d a b => Sys2Proof.Machine.execAnd p d a b s
  | .or p d a b => Sys2Proof.Machine.execOr p d a b s
  | .xor p d a b => Sys2Proof.Machine.execXor p d a b s
  | .andn p d a b => Sys2Proof.Machine.execAndn p d a b s
  | .andi p d a imm => Sys2Proof.Machine.execAndi p d a imm s
  | .ori p d a imm => Sys2Proof.Machine.execOri p d a imm s
  | .xori p d a imm => Sys2Proof.Machine.execXori p d a imm s
  | .shl p d a b => Sys2Proof.Machine.execShl p d a b s
  | .shr p d a b => Sys2Proof.Machine.execShr p d a b s
  | .shra p d a b => Sys2Proof.Machine.execShra p d a b s
  | .rotl p d a b => Sys2Proof.Machine.execRotl p d a b s
  | .min p d a b => Sys2Proof.Machine.execMin p d a b s
  | .max p d a b => Sys2Proof.Machine.execMax p d a b s
  | .minn p d a b => Sys2Proof.Machine.execMinn p d a b s
  | .maxn p d a b => Sys2Proof.Machine.execMaxn p d a b s
  | .clz p d a => Sys2Proof.Machine.execClz p d a s
  | .ffs p d a => Sys2Proof.Machine.execFfs p d a s
  | .popc p d a => Sys2Proof.Machine.execPopc p d a s
  | .brev p d a => Sys2Proof.Machine.execBrev p d a s
  | .sext p d a w => Sys2Proof.Machine.execSext p d a w s
  | .zext p d a w => Sys2Proof.Machine.execZext p d a w s
  | .sel p d a b neg f => Sys2Proof.Machine.execSel p d a b neg f s
  | .ldi p d imm => Sys2Proof.Machine.execLdi p d imm s
  | .cmp p fd a b cc => Sys2Proof.Machine.execCmp p fd a b cc s
  | .cmpi p fd a imm cc => Sys2Proof.Machine.execCmpi p fd a imm cc s
  | .pand p fd fa fb => Sys2Proof.Machine.execPand p fd fa fb s
  | .por p fd fa fb => Sys2Proof.Machine.execPor p fd fa fb s
  | .pxor p fd fa fb => Sys2Proof.Machine.execPxor p fd fa fb s
  | .pnot p fd fa => Sys2Proof.Machine.execPnot p fd fa s
  | .ftest p fd w => Sys2Proof.Machine.execFtest p fd w s
  | .fcount p d w => Sys2Proof.Machine.execFcount p d w s
  | .prep p bt off => Sys2Proof.Machine.execPrep p bt off s
  | .prepr p bt src => Sys2Proof.Machine.execPrepr p bt src s
  | .br p bt => Sys2Proof.Machine.execBr p bt s
  | .brl p bt lb => Sys2Proof.Machine.execBrl p bt lb s
  | .binv p bt => Sys2Proof.Machine.execBinv p bt s
  | .bsel p bt a b mask d => Sys2Proof.Machine.execBsel p bt a b mask d s
  | .nop p => Sys2Proof.Machine.execNop p s
  | .ifence p a b => Sys2Proof.Machine.execIfence p a b s
  | .ld p d a width sign imm => Sys2Proof.Machine.execLd p d a width sign imm s
  | .st p a b width imm => Sys2Proof.Machine.execSt p a b width imm s
  | .ldl p d a width sign imm => Sys2Proof.Machine.execLdl p d a width sign imm s
  | .stl p a b width imm => Sys2Proof.Machine.execStl p a b width imm s
  | .amoAdd p d a b x => Sys2Proof.Machine.execAmoAdd p d a b x s
  | .amoMin p d a b x => Sys2Proof.Machine.execAmoMin p d a b x s
  | .amoMax p d a b x => Sys2Proof.Machine.execAmoMax p d a b x s
  | .amoMinn p d a b x => Sys2Proof.Machine.execAmoMinn p d a b x s
  | .amoMaxn p d a b x => Sys2Proof.Machine.execAmoMaxn p d a b x s
  | .amoAnd p d a b x => Sys2Proof.Machine.execAmoAnd p d a b x s
  | .amoOr p d a b x => Sys2Proof.Machine.execAmoOr p d a b x s
  | .amoXor p d a b x => Sys2Proof.Machine.execAmoXor p d a b x s
  | .amoSwap p d a b x => Sys2Proof.Machine.execAmoSwap p d a b x s
  | .amoCas p d a b c x => Sys2Proof.Machine.execAmoCas p d a b c x s
  | .fence p sc => Sys2Proof.Machine.execFence p sc s
  | .waitmem p d a b width cc imm => Sys2Proof.Machine.execWaitmem p d a b width cc imm s
  | .semwait p d a b imm => Sys2Proof.Machine.execSemwait p d a b imm s
  | .sempost p a b imm => Sys2Proof.Machine.execSempost p a b imm s
  | .barw p d a lvl => Sys2Proof.Machine.execBarw p d a lvl s
  | .issue p e preg off => Sys2Proof.Machine.execIssue p e preg off s
  | .issueReg p e preg areg => Sys2Proof.Machine.execIssueReg p e preg areg s
  | .rdv p => Sys2Proof.Machine.execRdv p s
  | .jobend p => Sys2Proof.Machine.execJobend p s
  | .tbind p n preg => Sys2Proof.Machine.execTbind p n preg s
  | .tfree p n => Sys2Proof.Machine.execTfree p n s
  | .trap p code => Sys2Proof.Machine.execTrap p code s
  | .guard p a => Sys2Proof.Machine.execGuard p a s
  | .guardHealth p => Sys2Proof.Machine.execGuardHealth p s
  | .caprd p d a imm => Sys2Proof.Machine.execCaprd p d a imm s
  | .csrrd p d num => Sys2Proof.Machine.execCsrrd p d num s
  | .csrwr p num a => Sys2Proof.Machine.execCsrwr p num a s
  | .domWrite p a => Sys2Proof.Machine.execDomWrite p a s
  | .otbaseWrite p a => Sys2Proof.Machine.execOtbaseWrite p a s
  | .othiWrite p a => Sys2Proof.Machine.execOthiWrite p a s
  | .otloWrite p a => Sys2Proof.Machine.execOtloWrite p a s
  | .stepWrite p n a => Sys2Proof.Machine.execStepWrite p n a s
  | .grouprd p d a b fn => Sys2Proof.Machine.execGrouprd p d a b fn s
  | .pset p g v => Sys2Proof.Machine.execPset p g v s
  | .prst p g v => Sys2Proof.Machine.execPrst p g v s
  | .qinit p h base sz depth prod cons => Sys2Proof.Machine.execQinit p h base sz depth prod cons s
  | .waitf p h n => Sys2Proof.Machine.execWaitf p h n s
  | .waite p h n => Sys2Proof.Machine.execWaite p h n s
  | .advh p h n => Sys2Proof.Machine.execAdvh p h n s
  | .advt p h n => Sys2Proof.Machine.execAdvt p h n s
  | .loop p lvl cnt bl wa => Sys2Proof.Machine.execLoop p lvl cnt bl wa s
  | .fill p h g v => Sys2Proof.Machine.execFill p h g v s
  | .spillq p h g v => Sys2Proof.Machine.execSpillq p h g v s
  | .omld p o v => Sys2Proof.Machine.execOmld p o v s
  | .bfmtw p bank v => Sys2Proof.Machine.execBfmtw p bank v s
  | .spmove p v => Sys2Proof.Machine.execSpmove p v s
  | .sendt p g v => Sys2Proof.Machine.execSendt p g v s
  | .copy p t preg sreg dreg => Sys2Proof.Machine.execCopy p t preg sreg dreg s
  | .copyx p t preg sreg dreg => Sys2Proof.Machine.execCopyx p t preg sreg dreg s
  | .cwait p d t => Sys2Proof.Machine.execCwait p d t s
  | .ctest p fd t => Sys2Proof.Machine.execCtest p fd t s
  | .claim p o => Sys2Proof.Machine.execClaim p o s
  | .release p o => Sys2Proof.Machine.execRelease p o s
  | .mma p d a b k ty pm pn pk rls => Sys2Proof.Machine.execMma p d a b k ty pm pn pk rls s
  | .mzero p d ty => Sys2Proof.Machine.execMzero p d ty s
  | .mdrain p d a ty rnd sat band wrap => Sys2Proof.Machine.execMdrain p d a ty rnd sat band wrap s
  | .msetm p ix a pat => Sys2Proof.Machine.execMsetm p ix a pat s
  | .msetn p ix a pat => Sys2Proof.Machine.execMsetn p ix a pat s
  | .msetk p ix a pat => Sys2Proof.Machine.execMsetk p ix a pat s
  | .mscale p a col => Sys2Proof.Machine.execMscale p a col s
  | .mstat p sel a => Sys2Proof.Machine.execMstat p sel a s
  | .vadd p v => Sys2Proof.Machine.execVadd p v s
  | .vsub p v => Sys2Proof.Machine.execVsub p v s
  | .vmul p v => Sys2Proof.Machine.execVmul p v s
  | .vfma p v => Sys2Proof.Machine.execVfma p v s
  | .vfms p v => Sys2Proof.Machine.execVfms p v s
  | .vfnma p v => Sys2Proof.Machine.execVfnma p v s
  | .vneg p v => Sys2Proof.Machine.execVneg p v s
  | .vabs p v => Sys2Proof.Machine.execVabs p v s
  | .vmin p v => Sys2Proof.Machine.execVmin p v s
  | .vmax p v => Sys2Proof.Machine.execVmax p v s
  | .vdiv p v => Sys2Proof.Machine.execVdiv p v s
  | .vsqrt p v => Sys2Proof.Machine.execVsqrt p v s
  | .vrcp p v => Sys2Proof.Machine.execVrcp p v s
  | .vrsq p v => Sys2Proof.Machine.execVrsq p v s
  | .vexp2 p v => Sys2Proof.Machine.execVexp2 p v s
  | .vlog2 p v => Sys2Proof.Machine.execVlog2 p v s
  | .vexp p v => Sys2Proof.Machine.execVexp p v s
  | .vtanh p v => Sys2Proof.Machine.execVtanh p v s
  | .vsigm p v => Sys2Proof.Machine.execVsigm p v s
  | .viadd p v => Sys2Proof.Machine.execViadd p v s
  | .visub p v => Sys2Proof.Machine.execVisub p v s
  | .vimul p v => Sys2Proof.Machine.execVimul p v s
  | .vimulh p v => Sys2Proof.Machine.execVimulh p v s
  | .vimin p v => Sys2Proof.Machine.execVimin p v s
  | .vimax p v => Sys2Proof.Machine.execVimax p v s
  | .vand p v => Sys2Proof.Machine.execVand p v s
  | .vor p v => Sys2Proof.Machine.execVor p v s
  | .vxor p v => Sys2Proof.Machine.execVxor p v s
  | .vnot p v => Sys2Proof.Machine.execVnot p v s
  | .vshl p v => Sys2Proof.Machine.execVshl p v s
  | .vshr p v => Sys2Proof.Machine.execVshr p v s
  | .vshra p v => Sys2Proof.Machine.execVshra p v s
  | .vclz p v => Sys2Proof.Machine.execVclz p v s
  | .vffs p v => Sys2Proof.Machine.execVffs p v s
  | .vpcnt p v => Sys2Proof.Machine.execVpcnt p v s
  | .vcvt p v src b c => Sys2Proof.Machine.execVcvt p v src b c s
  | .vcmp p k a b x cc => Sys2Proof.Machine.execVcmp p k a b x cc s
  | .vsel p v k => Sys2Proof.Machine.execVsel p v k s
  | .kand p kd ka kb => Sys2Proof.Machine.execKand p kd ka kb s
  | .kor p kd ka kb => Sys2Proof.Machine.execKor p kd ka kb s
  | .knot p kd ka => Sys2Proof.Machine.execKnot p kd ka s
  | .vmov p v => Sys2Proof.Machine.execVmov p v s
  | .vrotr p v => Sys2Proof.Machine.execVrotr p v s
  | .vrotc p v => Sys2Proof.Machine.execVrotc p v s
  | .vbcr p v => Sys2Proof.Machine.execVbcr p v s
  | .vbcc p v => Sys2Proof.Machine.execVbcc p v s
  | .vredr p v op => Sys2Proof.Machine.execVredr p v op s
  | .vredc p v op => Sys2Proof.Machine.execVredc p v op s
  | .vperm p v => Sys2Proof.Machine.execVperm p v s
  | .vcmprs p v k => Sys2Proof.Machine.execVcmprs p v k s
  | .vexpnd p v k => Sys2Proof.Machine.execVexpnd p v k s
  | .vpushc p h a k x => Sys2Proof.Machine.execVpushc p h a k x s
  | .vpopq p d h k x => Sys2Proof.Machine.execVpopq p d h k x s
  | .vtrn16 p v => Sys2Proof.Machine.execVtrn16 p v s
  | .vflag p k km => Sys2Proof.Machine.execVflag p k km s
  | .vsfck p v hi cv => Sys2Proof.Machine.execVsfck p v hi cv s
  | .winset p a => Sys2Proof.Machine.execWinset p a s
  | .winadv p n => Sys2Proof.Machine.execWinadv p n s
  | .tcfg p pl win a => Sys2Proof.Machine.execTcfg p pl win a s
  | .tdrop p pl win => Sys2Proof.Machine.execTdrop p pl win s
  | .firstTouchHoldEnd => Sys2Proof.Machine.execFirstTouchHoldEnd s
  | .vmulk p v => Sys2Proof.Machine.execVmulk p v s
  | .vaddk p v => Sys2Proof.Machine.execVaddk p v s
  | .vcvtk p v st => Sys2Proof.Machine.execVcvtk p v st s
  | .vshrk p v => Sys2Proof.Machine.execVshrk p v s
  | .vlrelk p v sh => Sys2Proof.Machine.execVlrelk p v sh s
  | .unmulk p v => Sys2Proof.Machine.execUnmulk p v s
  | .unaddk p v => Sys2Proof.Machine.execUnaddk p v s
  | .uncvtk p v st => Sys2Proof.Machine.execUncvtk p v st s
  | .unshrk p v => Sys2Proof.Machine.execUnshrk p v s
  | .unlrelk p v sh => Sys2Proof.Machine.execUnlrelk p v sh s
  | .otmark p => Sys2Proof.Machine.execOtmark p s
  | .otdrop p => Sys2Proof.Machine.execOtdrop p s
  | .otspill p n => Sys2Proof.Machine.execOtspill p n s
  | .otdepth p sel => Sys2Proof.Machine.execOtdepth p sel s
  | .vstat p a b x => Sys2Proof.Machine.execVstat p a b x s
  | .vlse p a b x => Sys2Proof.Machine.execVlse p a b x s
  | .vnorms p v => Sys2Proof.Machine.execVnorms p v s
  | .vsofts p v => Sys2Proof.Machine.execVsofts p v s
  | .sbld p a b c tp => Sys2Proof.Machine.execSbld p a b c tp s
  | .sbst p a b c tp => Sys2Proof.Machine.execSbst p a b c tp s
  | .sbclr p a b => Sys2Proof.Machine.execSbclr p a b s
  | .sdrain p v => Sys2Proof.Machine.execSdrain p v s
  | .sdrainDev p a c tp x => Sys2Proof.Machine.execSdrainDev p a c tp x s
  | .sacc p v => Sys2Proof.Machine.execSacc p v s
  | .snorm2 p a ty => Sys2Proof.Machine.execSnorm2 p a ty s
  | .snorm2Put p d => Sys2Proof.Machine.execSnorm2Put p d s
  | .snorm2Clr p => Sys2Proof.Machine.execSnorm2Clr p s
  | .sscale p v => Sys2Proof.Machine.execSscale p v s
  | .optw p v adam wd n pb => Sys2Proof.Machine.execOptw p v adam wd n pb s
  | .optstep p n => Sys2Proof.Machine.execOptstep p n s
  | .coll p t preg => Sys2Proof.Machine.execColl p t preg s
  | .collq p d preg => Sys2Proof.Machine.execCollq p d preg s
  | .wrrem p t preg => Sys2Proof.Machine.execWrrem p t preg s
  | .sigrem p preg => Sys2Proof.Machine.execSigrem p preg s
  | .repart p t preg => Sys2Proof.Machine.execRepart p t preg s
  | .sequencerHeader => Sys2Proof.Machine.execSequencerHeader s
  | .sectionStart => Sys2Proof.Machine.execSectionStart s
  | .sectionRetire => Sys2Proof.Machine.execSectionRetire s
  | .delayLineLanding => Sys2Proof.Machine.execDelayLineLanding s
  | .rendezvousComplete => Sys2Proof.Machine.execRendezvousComplete s
  | .jobEnd => Sys2Proof.Machine.execJobEnd s
  | .streamCacheFill => Sys2Proof.Machine.execStreamCacheFill s
  | .prefetchReady => Sys2Proof.Machine.execPrefetchReady s
  | .translationWalk => Sys2Proof.Machine.execTranslationWalk s
  | .loadReturn => Sys2Proof.Machine.execLoadReturn s
  | .deferredFaultReport => Sys2Proof.Machine.execDeferredFaultReport s
  | .portRunGrant => Sys2Proof.Machine.execPortRunGrant s
  | .portDrainRun => Sys2Proof.Machine.execPortDrainRun s
  | .sendtArrival => Sys2Proof.Machine.execSendtArrival s
  | .copyStart => Sys2Proof.Machine.execCopyStart s
  | .copyRequest => Sys2Proof.Machine.execCopyRequest s
  | .copyDataReturn => Sys2Proof.Machine.execCopyDataReturn s
  | .copyRetire => Sys2Proof.Machine.execCopyRetire s
  | .copyPostAck => Sys2Proof.Machine.execCopyPostAck s
  | .followOnJoin => Sys2Proof.Machine.execFollowOnJoin s
  | .followOnEnter => Sys2Proof.Machine.execFollowOnEnter s
  | .spillStart => Sys2Proof.Machine.execSpillStart s
  | .spillComplete => Sys2Proof.Machine.execSpillComplete s
  | .fillStart => Sys2Proof.Machine.execFillStart s
  | .fillTrailerCheck => Sys2Proof.Machine.execFillTrailerCheck s
  | .fillComplete => Sys2Proof.Machine.execFillComplete s
  | .stackSlotService => Sys2Proof.Machine.execStackSlotService s
  | .refresh => Sys2Proof.Machine.execRefresh s
  | .atomicRequestService => Sys2Proof.Machine.execAtomicRequestService s
  | .atomicFillReturn => Sys2Proof.Machine.execAtomicFillReturn s
  | .plainWriteNotice => Sys2Proof.Machine.execPlainWriteNotice s
  | .watchEvaluation => Sys2Proof.Machine.execWatchEvaluation s
  | .atomicReturn => Sys2Proof.Machine.execAtomicReturn s
  | .sempostAck => Sys2Proof.Machine.execSempostAck s
  | .phaseChangeComplete => Sys2Proof.Machine.execPhaseChangeComplete s
  | .reductionIntervalClose => Sys2Proof.Machine.execReductionIntervalClose s
  | .collectiveComplete => Sys2Proof.Machine.execCollectiveComplete s
  | .collectiveAbort => Sys2Proof.Machine.execCollectiveAbort s
  | .keyRound => Sys2Proof.Machine.execKeyRound s
  | .histogramReduction => Sys2Proof.Machine.execHistogramReduction s
  | .elementMove => Sys2Proof.Machine.execElementMove s
  | .repartComplete => Sys2Proof.Machine.execRepartComplete s
  | .repartAbort => Sys2Proof.Machine.execRepartAbort s
  | .watchdogExpiry => Sys2Proof.Machine.execWatchdogExpiry s
  | .preemptionRequest => Sys2Proof.Machine.execPreemptionRequest s
  | .safePointSave => Sys2Proof.Machine.execSafePointSave s
  | .jobResumption => Sys2Proof.Machine.execJobResumption s
  | .jobRelease => Sys2Proof.Machine.execJobRelease s
  | .dispatchDecision => Sys2Proof.Machine.execDispatchDecision s
  | .pthreshExpiry => Sys2Proof.Machine.execPthreshExpiry s
  | .dealInstall => Sys2Proof.Machine.execDealInstall s
  | .floorDispatch => Sys2Proof.Machine.execFloorDispatch s
  | .checkPoint => Sys2Proof.Machine.execCheckPoint s
  | .reelSemwait => Sys2Proof.Machine.execReelSemwait s
  | .reelLaunch => Sys2Proof.Machine.execReelLaunch s
  | .reelCopy => Sys2Proof.Machine.execReelCopy s
  | .reelGuard => Sys2Proof.Machine.execReelGuard s
  | .reelSempost => Sys2Proof.Machine.execReelSempost s
  | .reelMark => Sys2Proof.Machine.execReelMark s
  | .reelEnd => Sys2Proof.Machine.execReelEnd s
  | .cutMake => Sys2Proof.Machine.execCutMake s
  | .gangDecision => Sys2Proof.Machine.execGangDecision s
  | .graph => Sys2Proof.Machine.execGraph s
  | .invoke => Sys2Proof.Machine.execInvoke s
  | .wait => Sys2Proof.Machine.execWait s
  | .signal => Sys2Proof.Machine.execSignal s
  | .loadslot => Sys2Proof.Machine.execLoadslot s
  | .slotLoadComplete => Sys2Proof.Machine.execSlotLoadComplete s
  | .evictslot => Sys2Proof.Machine.execEvictslot s
  | .preempt => Sys2Proof.Machine.execPreempt s
  | .checkpoint => Sys2Proof.Machine.execCheckpoint s
  | .fencePacket => Sys2Proof.Machine.execFencePacket s
  | .packetComplete => Sys2Proof.Machine.execPacketComplete s
  | .doorbellWrite => Sys2Proof.Machine.execDoorbellWrite s
  | .queueDescriptorWrite => Sys2Proof.Machine.execQueueDescriptorWrite s
  | .queueStopClear => Sys2Proof.Machine.execQueueStopClear s
  | .handleTableWrite => Sys2Proof.Machine.execHandleTableWrite s
  | .handleRevocationComplete => Sys2Proof.Machine.execHandleRevocationComplete s
  | .pageInvalidation => Sys2Proof.Machine.execPageInvalidation s
  | .dealRequest => Sys2Proof.Machine.execDealRequest s
  | .jobEndOrder => Sys2Proof.Machine.execJobEndOrder s
  | .jobResumeOrder => Sys2Proof.Machine.execJobResumeOrder s
  | .loadReportRead => Sys2Proof.Machine.execLoadReportRead s
  | .svnCommit => Sys2Proof.Machine.execSvnCommit s
  | .nodeIdentityAssign => Sys2Proof.Machine.execNodeIdentityAssign s
  | .spdmRequest => Sys2Proof.Machine.execSpdmRequest s
  | .hostCxlAccess => Sys2Proof.Machine.execHostCxlAccess s
  | .writePacketArrival => Sys2Proof.Machine.execWritePacketArrival s
  | .signalPacketArrival => Sys2Proof.Machine.execSignalPacketArrival s
  | .reducePacketArrival => Sys2Proof.Machine.execReducePacketArrival s
  | .barrierPacketArrival => Sys2Proof.Machine.execBarrierPacketArrival s
  | .managementPacketArrival => Sys2Proof.Machine.execManagementPacketArrival s
  | .ackPacketArrival => Sys2Proof.Machine.execAckPacketArrival s
  | .flitRetransmit => Sys2Proof.Machine.execFlitRetransmit s
  | .portRetrain => Sys2Proof.Machine.execPortRetrain s
  | .selfTestStart => Sys2Proof.Machine.execSelfTestStart s
  | .selfTestComplete => Sys2Proof.Machine.execSelfTestComplete s
  | .matrixBudgetUpdate => Sys2Proof.Machine.execMatrixBudgetUpdate s
  | .thermalThrottle => Sys2Proof.Machine.execThermalThrottle s
  | .thermalTrip => Sys2Proof.Machine.execThermalTrip s
  | .deviceReset => Sys2Proof.Machine.execDeviceReset s

end Sys2Proof.Machine
end

