-- ==== Sys2Proof/Machine/House.lean ====
section
/-! DEFINITION. What happens in a device cycle besides words: which event is next, and how a cycle ends (DESIGN CHOICE, log 2). -/
namespace Sys2Proof.Machine

/-- The lines that prefetches under way still miss are asked for. -/
def prefetchAsk (s : State) : State :=
  if s.job.st = .running then (List.range 8).foldl (fun s i => (prefetchStep i s).1) s else s

/-- Whether something lands on the present cycle, of the array or of the job. -/
def landingsDue (s : State) : Bool := arrayDue s || jobLands s

/-- The instruction that takes an entry of the agenda. -/
def evInstr : Ev → Instr
  | .streamCacheFill _ => .streamCacheFill
  | .translationWalk _ _ _ => .translationWalk
  | .loadReturn _ => .loadReturn
  | .descReturn _ _ _ _ _ => .loadReturn
  | .deferredFaultReport _ => .deferredFaultReport
  | .sendtArrival _ => .sendtArrival
  | .copyDataReturn _ _ => .copyDataReturn
  | .copyWritten _ _ _ _ => .copyRequest
  | .remoteRoom _ _ => .copyRequest
  | .copyDone _ => .copyRetire
  | .extEntry _ _ _ _ _ enter => if enter then .copyStart else .copyRetire
  | .copyError _ _ _ _ _ => .copyRetire
  | .extAccess _ _ _ _ _ _ _ _ => .copyRequest
  | .copyPostAck _ => .copyPostAck
  | .followOnJoin _ => .followOnJoin
  | .fillTrailerCheck _ => .fillTrailerCheck
  | .fillComplete _ => .fillComplete
  | .stackSlotService _ => .stackSlotService
  | .atomicFillReturn _ _ _ => .atomicFillReturn
  | .plainWriteNotice _ _ => .plainWriteNotice
  | .watchEvaluation _ _ => .watchEvaluation
  | .atomicReturn _ => .atomicReturn
  | .sempostAck _ => .sempostAck
  | .atomAsk _ => .atomicRequestService
  | .phaseChangeComplete _ _ => .phaseChangeComplete
  | .domMember _ _ _ _ _ => .phaseChangeComplete
  | .domArrive _ _ _ _ _ => .phaseChangeComplete
  | .groupOp _ _ _ _ => .collectiveComplete
  | .memberRecord _ _ _ => .collectiveAbort
  | .wrremSource _ => .ackPacketArrival
  | .reductionIntervalClose _ _ => .reductionIntervalClose
  | .collectiveComplete _ _ => .collectiveComplete
  | .collectiveAbort _ _ _ => .collectiveAbort
  | .keyRound _ _ => .keyRound
  | .histogramReduction _ _ _ => .histogramReduction
  | .elementMove _ _ _ => .elementMove
  | .repartComplete _ _ => .repartComplete
  | .repartAbort _ _ _ => .repartAbort
  | .jobEnd _ _ _ _ => .jobEnd
  | .jobFrozen _ _ => .jobEnd
  | .checkArrive _ _ _ => .checkPoint
  | .graphCopyEnd _ _ _ => .copyRetire
  | .copyQueue _ _ => .copyRetire
  | .preemptionRequest _ => .preemptionRequest
  | .safePointSave _ => .safePointSave
  | .gangDecision => .gangDecision
  | .cutMake _ _ => .cutMake
  | .reelReady _ => .graph
  | .reelStored _ => .cutMake
  | .gripRead _ => .doorbellWrite
  | .checkpointRead _ _ _ _ _ _ => .checkpoint
  | .slotLoadComplete _ _ _ => .slotLoadComplete
  | .slotTranslated _ _ _ => .slotLoadComplete
  | .slotWritten _ _ _ => .slotLoadComplete
  | .packetComplete _ _ => .packetComplete
  | .doorbellWrite _ _ => .doorbellWrite
  | .queueDescriptorWrite _ _ _ _ _ => .queueDescriptorWrite
  | .queueStopClear _ => .queueStopClear
  | .handleTableWrite _ _ _ => .handleTableWrite
  | .pageInvalidation _ _ => .pageInvalidation
  | .dealRequest _ => .dealRequest
  | .jobEndOrder _ => .jobEndOrder
  | .jobResumeOrder _ => .jobResumeOrder
  | .loadReportRead _ => .loadReportRead
  | .svnCommit => .svnCommit
  | .nodeIdentityAssign _ => .nodeIdentityAssign
  | .spdmRequest _ => .spdmRequest
  | .hostCxlAccess _ _ _ => .hostCxlAccess
  | .hostServed _ _ _ => .hostCxlAccess
  | .writePacketArrival _ _ _ _ _ => .writePacketArrival
  | .writeServed _ => .writePacketArrival
  | .signalPacketArrival _ => .signalPacketArrival
  | .reducePacketArrival _ _ => .reducePacketArrival
  | .barrierPacketArrival _ => .barrierPacketArrival
  | .managementPacketArrival _ _ => .managementPacketArrival
  | .ackPacketArrival _ _ _ => .ackPacketArrival
  | .flitRetransmit _ => .flitRetransmit
  | .portRetrain _ _ => .portRetrain
  | .selfTestStart _ _ => .selfTestStart
  | .selfTestComplete _ _ => .selfTestComplete
  | .matrixBudgetUpdate _ => .matrixBudgetUpdate
  | .thermalThrottle _ => .thermalThrottle
  | .thermalTrip => .thermalTrip
  | .deviceReset _ => .deviceReset

/-- What makes a device cycle one of the job's, before its landings: the end of a hold, a release, a resumption. -/
def wakeNext (s : State) : Option Instr :=
  if s.hold.any (fun t => decide (t ≤ s.cyc)) then some .firstTouchHoldEnd
  else if (taskRelease s).isSome then some .jobRelease
  else if s.hold.isNone && resumable s then some .jobResumption
  else none

/-- The event at the head of the agenda once its cycle has come; then the fall of OCC after a spill, a follow-on's entry into the
array and what is ready to be read. -/
def dueNext (s : State) : Option Instr :=
  match s.agenda with
  | e :: _ => if e.at_ ≤ s.cyc then some (evInstr e.ev) else quiet s
  | [] => quiet s
where
  quiet (s : State) : Option Instr :=
    if spillDone s then some .spillComplete
    else if (followReady s).isSome then some .followOnEnter
    else if (prefetchDue s).isSome then some .prefetchReady
    else none

/-- The copy engine's acts of a cycle, which come before the grants of the banks (R266). -/
def beforeRing (s : State) : Option Instr :=
  if (copyStartable s).isSome then some .copyStart
  else if copyAskable s then some .copyRequest
  else none

/-- What the Grip does next on this cycle. -/
def gripNext (s : State) : Option Instr :=
  match reelInstr s, packetInstr s with
  | some i, _ => some i
  | none, some i => some i
  | none, none =>
    if (floorReady s).isSome then some .floorDispatch
    else if (decision s).isSome then some .dispatchDecision
    else if (thresholdDue s).isSome then some .pthreshExpiry
    else if dealReady s then some .dealInstall
    else if (gangReady s).isSome then some .gangDecision
    else if (revocationDone s).isSome then some .handleRevocationComplete
    else if (invalidationDone s).isSome then some .pageInvalidation
    else none

/-- The next event of the cycle after the words and the grants, if there is one. -/
def houseNext (s : State) : Option Instr :=
  let any (f : Stream → Bool) : Bool := engs.any f
  if (wonPort s false).isSome then some .portRunGrant
  else if (wonPort s true).isSome then some .portDrainRun
  else if (atomReady s).isSome then some .atomicRequestService
  else if spillStartable s then some .spillStart
  else if fillStartable s then some .fillStart
  else if (copyRetirable s).isSome then some .copyRetire
  else if any fun st => (retirable s st).isSome then some .sectionRetire
  else if rdvReady s then some .rendezvousComplete
  else if any fun st => (startable s st).isSome then some .sectionStart
  else if (watchdogDue s).isSome then some .watchdogExpiry
  else if (checkComplete s).isSome then some .checkPoint
  else if jobEndable s then some .jobEnd
  else if saveReady s then some .safePointSave
  else gripNext s

/-- The watchdog's count at the end of a cycle (R363). -/
def watch (f : Flow) : Flow := { f with wdog := if f.moved then 0 else f.wdog + 1, moved := false }

/-- A graph's copy that has ended ends its task (R335). -/
def copyTaskEnded (e : Nat × Nat × W64) (s : State) : State :=
  match graphOf s e.1 with
  | none => s
  | some g =>
    let core := match g.tasks[e.2.1]? with | some t => (g.cores[t.ccore]?).getD 0 | none => 0
    let s := if e.2.2 = 0 then s else gtaskFailed e.1 e.2.1 s
    gtaskEnded e.1 e.2.1 (gjobEnded e.1 e.2.1 core [31] s)

/-- From which cycle on all the cores of a placed task have its jobs at the head of their queues (R327). -/
def armTask (t : Task) (s : State) : State :=
  let free (c : Nat) : Bool := let x := coreQ s c; x.run.isNone && decide (x.q.head? = some t.id) && !x.fenced
  if t.st = .placed ∧ t.rel = none ∧ t.cores.all free = true then setTask { t with rel := some s.cyc } s else s

/-- What the Grip takes note of at the end of a cycle: answers of the atomic engines, copies that have ended, fences, a freeze, packets to
read, graphs that wait for their slate or are to vote, runs that are over, resumptions, tests, job queues, queues that are not ready. -/
def gripTick (s : State) : State :=
  let s := s.grip.acks.foldl (fun s a => gripAcked a s) (s.onGrip fun g => { g with acks := [] })
  let s := s.grip.copyEnds.foldl (fun s e => copyTaskEnded e s) (s.onGrip fun g => { g with copyEnds := [] })
  let s := (fencesDone s).foldl (fun s x => packetDone x.1 x.2 false s) s
  let s := freezeReport s
  let s := (List.range 32).foldl (fun s q => match (if headMissing s q then headBytes s q else .ok []) with
    | .error (.read va n) => threadAsk q va n s
    | _ => s) s
  let s := s.grip.graphs.foldl (fun s g => if g.mode = .none then lookUp g s else s) s
  let s := s.grip.graphs.foldl (fun s g => if voteDue s g then castVote g s else s) s
  let s := s.grip.graphs.foldl (fun s g => if runOver g then finishRun g s else s) s
  let s := s.grip.cores.foldl (fun s c => orderResumption c.1 (placeResumption c.1 s)) s
  let s := testTick s
  dropUnready (s.grip.tasks.foldl (fun s t => armTask t s) s)

/-- The end of a device cycle: requests that reach a stack on the next one take their slots, and a job that runs or whose end is
awaited counts a cycle (R56, R240). -/
def tick (s : State) : State :=
  let s := if s.hold.isSome then s else prefetchAsk s
  let s := atomArrive (s.cyc + 1) (settle (s.cyc + 1) (outtakeSend (otRest s)))
  let s := if s.job.st = .running ∧ s.hold = none then s.onJob fun j => { j with cycle := j.cycle + 1, flow := watch j.flow }
    else if s.job.st = .ending then s.onJob fun j => { j with cycle := j.cycle + 1 }
    else s
  let s := arrayTick (arrayRuns s) (budgetTick (gripTick s))
  { s with cyc := s.cyc + 1, todo := cycleSlots, core := { s.core with won := none, banks := [] } }

end Sys2Proof.Machine
end

