-- ==== Sys2Proof/Machine/Present.lean ====
section
/-! DEFINITION. What a stream presents on its turn: a header, the end of a section, or a word with its checks of R33. -/
namespace Sys2Proof.Machine

/-- What a stream's turn is. -/
inductive Turn where
  | idle
  | event (s : State) (i : Instr) (again : Bool)
  | done (s : State)
  deriving DecidableEq, Repr

/-- A word whose requests to device memory, or for a walk, have left the core: it completes in a frozen job (R353). -/
def goesOn (s : State) (st : Stream) : Bool :=
  let m := s.micro st
  decide (10 ≤ m.phase) || !m.descs.isEmpty || !m.leaves.isEmpty ||
    (s.core.walks.any fun x => decide (x.walk.st = st) && decide (x.walk.acc ≠ .x)) ||
    s.core.walked.any fun w => decide (w.st = st) && decide (w.acc ≠ .x)

/-- Streams are presented while the job runs, and on the cycle of a fault but for the stream that took it; a record of another job's
word names none of this job's streams (R353). -/
def presents (s : State) (st : Stream) : Bool :=
  s.hold.isNone && (decide (s.job.st = .running) ||
    (decide (s.job.st = .frozen) && goesOn s st) ||
    (decide (s.job.st = .frozen) && decide (s.job.frozeAt = s.cyc) &&
      match s.job.frec with | some r => r.peer || decide (r.word.st ≠ st) | none => false))

/-- The common head's test on the bits of a word, decoded or not (R16, R33). -/
def wordEnabled (s : State) (st : Stream) (w : BitVec 96) : Bool := enabled s st (wPred w)

/-- A LOOP by its bits: one that is not enabled skips its body (R101, R167). -/
def loopBody (st : Stream) (w : BitVec 96) : Nat :=
  if st ≠ .sq ∧ wMajor w = 0x42 ∧ wMinor w = 0 then (fld w 54 8).toNat + 1 else 0

/-- A word that is not enabled: it occupies its cycle. -/
def skipWord (st : Stream) (w : BitVec 96) (s : State) : State :=
  if loopBody st w = 0 then advance st s
  else engineTo st ((s.eng st).idx + 1 + loopBody st w) (issuedWord st s)

/-- The words that are no side effects (R343). -/
def quietBits (w : BitVec 96) : Bool :=
  match decode .sq w with
  | .ok i => (match i with
    | .prep _ _ _ | .prepr _ _ _ | .br _ _ | .brl _ _ _ | .binv _ _ | .bsel _ _ _ _ _ _ | .nop _ | .ldl _ _ _ _ _ _ | .stl _ _ _ _ _
    | .caprd _ _ _ _ | .csrrd _ _ _ | .guard _ _ | .guardHealth _ => true
    | _ => decide (wMajor w ≤ 0x0A))
  | .error _ => true

/-- A transfer that is the last word of a section with JEND, and is ready: it stands for the job's end (R79, R345). -/
def endsJob (s : State) (w : BitVec 96) : Bool :=
  let go (b : BitVec 3) : Bool := let r := s.job.seq.bReg b.toNat; r.prep && r.ready
  match s.job.seq.pos, decode .sq w with
  | .run _ h i, .ok (.br _ b) => hdrJend h && decide (i + 1 = hdrLen h) && go b
  | .run _ h i, .ok (.brl _ b _) => hdrJend h && decide (i + 1 = hdrLen h) && go b
  | _, _ => false

/-- An enabled word of the sequencer before which the job must have passed its check point (R345). -/
def checkFirst (s : State) (st : Stream) (w : BitVec 96) : Bool :=
  decide (st = .sq) && checkDue s && (!quietBits w || endsJob s w)

/-- A job at its check point: it arrives, or waits for the others. -/
def checkTurn (s : State) : Turn :=
  if s.job.check = .waiting then .done (stalled .sq .rdv s) else .event s .checkPoint false

/-- A fetched word on a stream's turn: the checks of R33 come before any effect. -/
def wordTurn (s : State) (st : Stream) (w : BitVec 96) : Turn :=
  let s := { s with turn := st }
  if !wordEnabled s st w then
    match decode st w with
    | .ok i => .event s i false
    | .error _ => .done (skipWord st w s)
  else if checkFirst s st w then checkTurn s
  else match decode st w with
    | .ok i => .event s i false
    | .error .illegal => .done (takeFault s (faultAt s st 0x01 0))
    | .error .reserved => .done (takeFault s (faultAt s st 0x02 0))

def fetchTurn (st : Stream) (r : Except Halt (State × BitVec 96)) : Turn :=
  match r with
  | .ok (s, w) => wordTurn s st w
  | .error (.wait s x) => .done (stalled st x s)
  | .error (.trap s f) => .done (takeFault s f)

/-- The sequencer's turn. -/
def sqTurn (s : State) : Turn :=
  match s.job.seq.pos with
  | .off => .idle
  | .header _ => if atRdv s .sq then .done (stalled .sq .rdv s) else .event s .sequencerHeader true
  | .wait _ _ _ => .event s .sequencerHeader true
  | .run a h i =>
    if atRdv s .sq then .done (stalled .sq .rdv s)
    else if hdrLen h ≤ i then
      if hdrJend h && checkDue s then checkTurn s
      else
        let s := sqSectionEnd a h (issuedWord .sq s)
        .done (if hdrLen h = 0 then s else { s with todo := .stream .sq :: s.todo })
    else fetchTurn .sq (sqWord s a i)

/-- An engine's turn. -/
def engTurn (s : State) (st : Stream) : Turn :=
  match (s.eng st).cur with
  | none => .idle
  | some q => fetchTurn st (engWord s st q (s.eng st).idx)

def turnOf (s : State) (st : Stream) : Turn :=
  if presents s st then (match st with | .sq => sqTurn s | st => engTurn s st) else .idle

/-- The sequencer goes on within the cycle when a header's waits are met on it (R19). -/
def sqGoesOn (s : State) : Bool :=
  match s.job.seq.pos with
  | .run _ _ _ => decide (s.job.st = .running) || decide (s.job.st = .frozen)
  | _ => false

end Sys2Proof.Machine
end

