-- ==== Sys2Proof/Machine/Step.lean ====
section
/-! DEFINITION. One step: the next act of the present device cycle, in the model's order (DESIGN CHOICE, log 2). -/
namespace Sys2Proof.Machine

/-- A stream's turn. A header whose waits are met leaves the sequencer's turn open, so that the first word issues on the same
cycle (R19). -/
def presentStep (s : State) (st : Stream) : Host.Outcome State Fault Refusal :=
  match turnOf s st with
  | .idle => .next s
  | .done s => .next s
  | .event s i false => exec i s
  | .event s i true =>
    match exec i s with
    | .next s' => .next (if sqGoesOn s' then { s' with todo := .stream st :: s'.todo } else s')
    | r => r

/-- One act of the machine. -/
def step (s : State) : Host.Outcome State Fault Refusal :=
  match s.todo with
  | [] => .next { s with todo := cycleSlots }
  | slot :: rest =>
    let t := { s with todo := rest }
    match slot with
    | .wake =>
      match wakeNext t with
      | some i => exec i { t with todo := .wake :: rest }
      | none => .next t
    | .landings =>
      if landingsDue t then exec .delayLineLanding t else .next t
    | .due =>
      match dueNext t with
      | some i => exec i { t with todo := .due :: rest }
      | none => .next t
    | .stream st => presentStep t st
    | .house =>
      match t.core.won with
      | none =>
        match beforeRing t with
        | some i => exec i { t with todo := .house :: rest }
        | none => .next (ringRound (extRound { t with todo := .house :: rest }))
      | some _ =>
        if lateReads t then .next (ringRound { t with todo := .house :: rest })
        else match houseNext t with
        | some i => exec i { t with todo := .house :: rest }
        | none => .next t
    | .tick => .next (tick t)

/-- The state in which the next step runs a word: a job runs, and the word is the first of the section at which its stream stands,
in the buffer from which the stream takes it (DESIGN CHOICE, log 7). -/
def State.withFetchWord (s : State) (nbits w : Nat) : State :=
  let x : BitVec 96 := BitVec.ofNat 96 (w % 2 ^ nbits)
  let st := match decodeAny x with | some (st, _) => st | none => .sq
  let h : W64 := 0x1008000000000000
  let s := { s with todo := Slot.stream st :: s.todo.filter (· ≠ Slot.stream st), turn := st, job := { s.job with st := .running } }
  match st with
  | .sq => s.onSeq fun q => { q with pos := .run 0 h 0, buf := some (h, [x]) }
  | st => s.onEng st fun e =>
    { e with cur := some ⟨0, h, [], 1, s.job.seq.s, [], 0, [], [], 1, []⟩, idx := 0, lbuf := [(0, x)] }

end Sys2Proof.Machine
end

