-- ==== Sys2Proof/Laws/Decode.lean ====
section
/-! SUPPORT. The fields that the decoder reads from an encoded word, format by format, and the round trip of each kind of
field. -/
namespace Sys2Proof.Laws
set_option Elab.async false -- theorems in turn: one that waits for those before it holds a thread
open Sys2Proof
set_option linter.unusedSimpArgs false

/-! ### Fields of a concatenation -/

theorem cat_hi {m n k : Nat} (x : BitVec m) (y : BitVec n) (lo : Nat) (h : n ≤ lo) :
    BitVec.extractLsb' lo k (no_index (x ++ y)) = x.extractLsb' (lo - n) k := by
  apply BitVec.eq_of_getLsbD_eq
  intro i hi
  simp only [BitVec.getLsbD_extractLsb', BitVec.getLsbD_append, hi, decide_true, Bool.true_and]
  rw [if_neg (by omega)]
  congr 1
  omega

theorem cat_lo {m n k : Nat} (x : BitVec m) (y : BitVec n) (lo : Nat) (h : lo + k ≤ n) :
    BitVec.extractLsb' lo k (no_index (x ++ y)) = y.extractLsb' lo k := by
  apply BitVec.eq_of_getLsbD_eq
  intro i hi
  simp only [BitVec.getLsbD_extractLsb', BitVec.getLsbD_append, hi, decide_true, Bool.true_and]
  rw [if_pos (by omega)]

theorem ofBool_beq_one (b : Bool) : (BitVec.ofBool b == 1#1) = b := by cases b <;> rfl

theorem bit_cases (b : BitVec 1) : b = 0#1 ∨ b = 1#1 := by
  revert b
  decide

/-! ### encS -/

@[simp] theorem major_encS (maj : BitVec 8) (min : BitVec 4) (p : Pred) (d a b fn : BitVec 6) (imm : BitVec 56) : wMajor (encS maj min p d a b fn imm) = maj := by
  simp only [wMajor, fld, encS, encHead]
  simp (disch := decide) only [cat_hi, cat_lo]
  simp
@[simp] theorem minor_encS (maj : BitVec 8) (min : BitVec 4) (p : Pred) (d a b fn : BitVec 6) (imm : BitVec 56) : wMinor (encS maj min p d a b fn imm) = min := by
  simp only [wMinor, fld, encS, encHead]
  simp (disch := decide) only [cat_hi, cat_lo]
  simp
@[simp] theorem pred_encS (maj : BitVec 8) (min : BitVec 4) (p : Pred) (d a b fn : BitVec 6) (imm : BitVec 56) : wPred (encS maj min p d a b fn imm) = p := by
  simp only [wPred, fld, encS, encHead]
  simp (disch := decide) only [cat_hi, cat_lo]
  simp [ofBool_beq_one]
@[simp] theorem sD_encS (maj : BitVec 8) (min : BitVec 4) (p : Pred) (d a b fn : BitVec 6) (imm : BitVec 56) : sD (encS maj min p d a b fn imm) = d := by
  simp only [sD, fld, encS]
  simp (disch := decide) only [cat_hi, cat_lo]
  simp
@[simp] theorem sA_encS (maj : BitVec 8) (min : BitVec 4) (p : Pred) (d a b fn : BitVec 6) (imm : BitVec 56) : sA (encS maj min p d a b fn imm) = a := by
  simp only [sA, fld, encS]
  simp (disch := decide) only [cat_hi, cat_lo]
  simp
@[simp] theorem sB_encS (maj : BitVec 8) (min : BitVec 4) (p : Pred) (d a b fn : BitVec 6) (imm : BitVec 56) : sB (encS maj min p d a b fn imm) = b := by
  simp only [sB, fld, encS]
  simp (disch := decide) only [cat_hi, cat_lo]
  simp
@[simp] theorem sFN_encS (maj : BitVec 8) (min : BitVec 4) (p : Pred) (d a b fn : BitVec 6) (imm : BitVec 56) : sFN (encS maj min p d a b fn imm) = fn := by
  simp only [sFN, fld, encS]
  simp (disch := decide) only [cat_hi, cat_lo]
  simp
@[simp] theorem sImm_encS (maj : BitVec 8) (min : BitVec 4) (p : Pred) (d a b fn : BitVec 6) (imm : BitVec 56) : sImm (encS maj min p d a b fn imm) = imm := by
  simp only [sImm, fld, encS]
  simp (disch := decide) only [cat_hi, cat_lo]
  simp
/-! ### encI -/

@[simp] theorem major_encI (maj : BitVec 8) (min : BitVec 4) (p : Pred) (d : BitVec 6) (imm : W64) : wMajor (encI maj min p d imm) = maj := by
  simp only [wMajor, fld, encI, encHead]
  simp (disch := decide) only [cat_hi, cat_lo]
  simp
@[simp] theorem minor_encI (maj : BitVec 8) (min : BitVec 4) (p : Pred) (d : BitVec 6) (imm : W64) : wMinor (encI maj min p d imm) = min := by
  simp only [wMinor, fld, encI, encHead]
  simp (disch := decide) only [cat_hi, cat_lo]
  simp
@[simp] theorem pred_encI (maj : BitVec 8) (min : BitVec 4) (p : Pred) (d : BitVec 6) (imm : W64) : wPred (encI maj min p d imm) = p := by
  simp only [wPred, fld, encI, encHead]
  simp (disch := decide) only [cat_hi, cat_lo]
  simp [ofBool_beq_one]
@[simp] theorem sD_encI (maj : BitVec 8) (min : BitVec 4) (p : Pred) (d : BitVec 6) (imm : W64) : sD (encI maj min p d imm) = d := by
  simp only [sD, fld, encI]
  simp (disch := decide) only [cat_hi, cat_lo]
  simp
@[simp] theorem fld_res_encI (maj : BitVec 8) (min : BitVec 4) (p : Pred) (d : BitVec 6) (imm : W64) : fld (encI maj min p d imm) 64 10 = 0#10 := by
  simp only [fld, encI]
  simp (disch := decide) only [cat_hi, cat_lo]
  simp
@[simp] theorem fld_imm_encI (maj : BitVec 8) (min : BitVec 4) (p : Pred) (d : BitVec 6) (imm : W64) : fld (encI maj min p d imm) 0 64 = imm := by
  simp only [fld, encI]
  simp (disch := decide) only [cat_hi, cat_lo]
  simp
/-! ### encB -/

@[simp] theorem major_encB (min : BitVec 4) (p : Pred) (bt lb : BitVec 3) (src : BitVec 6) (off : BitVec 40) : wMajor (encB min p bt lb src off) = 0x20#8 := by
  simp only [wMajor, fld, encB, encHead]
  simp (disch := decide) only [cat_hi, cat_lo]
  simp
@[simp] theorem minor_encB (min : BitVec 4) (p : Pred) (bt lb : BitVec 3) (src : BitVec 6) (off : BitVec 40) : wMinor (encB min p bt lb src off) = min := by
  simp only [wMinor, fld, encB, encHead]
  simp (disch := decide) only [cat_hi, cat_lo]
  simp
@[simp] theorem pred_encB (min : BitVec 4) (p : Pred) (bt lb : BitVec 3) (src : BitVec 6) (off : BitVec 40) : wPred (encB min p bt lb src off) = p := by
  simp only [wPred, fld, encB, encHead]
  simp (disch := decide) only [cat_hi, cat_lo]
  simp [ofBool_beq_one]
@[simp] theorem fld_bt_encB (min : BitVec 4) (p : Pred) (bt lb : BitVec 3) (src : BitVec 6) (off : BitVec 40) : fld (encB min p bt lb src off) 77 3 = bt := by
  simp only [fld, encB]
  simp (disch := decide) only [cat_hi, cat_lo]
  simp
@[simp] theorem fld_lb_encB (min : BitVec 4) (p : Pred) (bt lb : BitVec 3) (src : BitVec 6) (off : BitVec 40) : fld (encB min p bt lb src off) 74 3 = lb := by
  simp only [fld, encB]
  simp (disch := decide) only [cat_hi, cat_lo]
  simp
@[simp] theorem fld_src_encB (min : BitVec 4) (p : Pred) (bt lb : BitVec 3) (src : BitVec 6) (off : BitVec 40) : fld (encB min p bt lb src off) 68 6 = src := by
  simp only [fld, encB]
  simp (disch := decide) only [cat_hi, cat_lo]
  simp
@[simp] theorem fld_res_encB (min : BitVec 4) (p : Pred) (bt lb : BitVec 3) (src : BitVec 6) (off : BitVec 40) : fld (encB min p bt lb src off) 40 28 = 0#28 := by
  simp only [fld, encB]
  simp (disch := decide) only [cat_hi, cat_lo]
  simp
@[simp] theorem fld_off_encB (min : BitVec 4) (p : Pred) (bt lb : BitVec 3) (src : BitVec 6) (off : BitVec 40) : fld (encB min p bt lb src off) 0 40 = off := by
  simp only [fld, encB]
  simp (disch := decide) only [cat_hi, cat_lo]
  simp
/-! ### encC -/

@[simp] theorem major_encC (maj : BitVec 8) (min : BitVec 4) (p : Pred) (e : BitVec 8) (r : BitVec 6) (imm : W64) : wMajor (encC maj min p e r imm) = maj := by
  simp only [wMajor, fld, encC, encHead]
  simp (disch := decide) only [cat_hi, cat_lo]
  simp
@[simp] theorem minor_encC (maj : BitVec 8) (min : BitVec 4) (p : Pred) (e : BitVec 8) (r : BitVec 6) (imm : W64) : wMinor (encC maj min p e r imm) = min := by
  simp only [wMinor, fld, encC, encHead]
  simp (disch := decide) only [cat_hi, cat_lo]
  simp
@[simp] theorem pred_encC (maj : BitVec 8) (min : BitVec 4) (p : Pred) (e : BitVec 8) (r : BitVec 6) (imm : W64) : wPred (encC maj min p e r imm) = p := by
  simp only [wPred, fld, encC, encHead]
  simp (disch := decide) only [cat_hi, cat_lo]
  simp [ofBool_beq_one]
@[simp] theorem cEng_encC (maj : BitVec 8) (min : BitVec 4) (p : Pred) (e : BitVec 8) (r : BitVec 6) (imm : W64) : cEng (encC maj min p e r imm) = e := by
  simp only [cEng, fld, encC]
  simp (disch := decide) only [cat_hi, cat_lo]
  simp
@[simp] theorem cRes_encC (maj : BitVec 8) (min : BitVec 4) (p : Pred) (e : BitVec 8) (r : BitVec 6) (imm : W64) : cRes (encC maj min p e r imm) = 0#2 := by
  simp only [cRes, fld, encC]
  simp (disch := decide) only [cat_hi, cat_lo]
  simp
@[simp] theorem cPreg_encC (maj : BitVec 8) (min : BitVec 4) (p : Pred) (e : BitVec 8) (r : BitVec 6) (imm : W64) : cPreg (encC maj min p e r imm) = r := by
  simp only [cPreg, fld, encC]
  simp (disch := decide) only [cat_hi, cat_lo]
  simp
@[simp] theorem cImm_encC (maj : BitVec 8) (min : BitVec 4) (p : Pred) (e : BitVec 8) (r : BitVec 6) (imm : W64) : cImm (encC maj min p e r imm) = imm := by
  simp only [cImm, fld, encC]
  simp (disch := decide) only [cat_hi, cat_lo]
  simp
/-! ### encV -/

@[simp] theorem major_encV (maj : BitVec 8) (min : BitVec 4) (p : Pred) (d a b c : BitVec 15) (ty : BitVec 4) (rnd : BitVec 2) (sat win : Bool)
    (md : BitVec 12) : wMajor (encV maj min p d a b c ty rnd sat win md) = maj := by
  simp only [wMajor, fld, encV, encHead]
  simp (disch := decide) only [cat_hi, cat_lo]
  simp
@[simp] theorem minor_encV (maj : BitVec 8) (min : BitVec 4) (p : Pred) (d a b c : BitVec 15) (ty : BitVec 4) (rnd : BitVec 2) (sat win : Bool)
    (md : BitVec 12) : wMinor (encV maj min p d a b c ty rnd sat win md) = min := by
  simp only [wMinor, fld, encV, encHead]
  simp (disch := decide) only [cat_hi, cat_lo]
  simp
@[simp] theorem pred_encV (maj : BitVec 8) (min : BitVec 4) (p : Pred) (d a b c : BitVec 15) (ty : BitVec 4) (rnd : BitVec 2) (sat win : Bool)
    (md : BitVec 12) : wPred (encV maj min p d a b c ty rnd sat win md) = p := by
  simp only [wPred, fld, encV, encHead]
  simp (disch := decide) only [cat_hi, cat_lo]
  simp [ofBool_beq_one]
@[simp] theorem vD_encV (maj : BitVec 8) (min : BitVec 4) (p : Pred) (d a b c : BitVec 15) (ty : BitVec 4) (rnd : BitVec 2) (sat win : Bool)
    (md : BitVec 12) : vD (encV maj min p d a b c ty rnd sat win md) = d := by
  simp only [vD, fld, encV]
  simp (disch := decide) only [cat_hi, cat_lo]
  simp
@[simp] theorem vA_encV (maj : BitVec 8) (min : BitVec 4) (p : Pred) (d a b c : BitVec 15) (ty : BitVec 4) (rnd : BitVec 2) (sat win : Bool)
    (md : BitVec 12) : vA (encV maj min p d a b c ty rnd sat win md) = a := by
  simp only [vA, fld, encV]
  simp (disch := decide) only [cat_hi, cat_lo]
  simp
@[simp] theorem vB_encV (maj : BitVec 8) (min : BitVec 4) (p : Pred) (d a b c : BitVec 15) (ty : BitVec 4) (rnd : BitVec 2) (sat win : Bool)
    (md : BitVec 12) : vB (encV maj min p d a b c ty rnd sat win md) = b := by
  simp only [vB, fld, encV]
  simp (disch := decide) only [cat_hi, cat_lo]
  simp
@[simp] theorem vC_encV (maj : BitVec 8) (min : BitVec 4) (p : Pred) (d a b c : BitVec 15) (ty : BitVec 4) (rnd : BitVec 2) (sat win : Bool)
    (md : BitVec 12) : vC (encV maj min p d a b c ty rnd sat win md) = c := by
  simp only [vC, fld, encV]
  simp (disch := decide) only [cat_hi, cat_lo]
  simp
@[simp] theorem vTy_encV (maj : BitVec 8) (min : BitVec 4) (p : Pred) (d a b c : BitVec 15) (ty : BitVec 4) (rnd : BitVec 2) (sat win : Bool)
    (md : BitVec 12) : vTy (encV maj min p d a b c ty rnd sat win md) = ty := by
  simp only [vTy, fld, encV]
  simp (disch := decide) only [cat_hi, cat_lo]
  simp
@[simp] theorem vRnd_encV (maj : BitVec 8) (min : BitVec 4) (p : Pred) (d a b c : BitVec 15) (ty : BitVec 4) (rnd : BitVec 2) (sat win : Bool)
    (md : BitVec 12) : vRnd (encV maj min p d a b c ty rnd sat win md) = rnd := by
  simp only [vRnd, fld, encV]
  simp (disch := decide) only [cat_hi, cat_lo]
  simp
@[simp] theorem vSat_encV (maj : BitVec 8) (min : BitVec 4) (p : Pred) (d a b c : BitVec 15) (ty : BitVec 4) (rnd : BitVec 2) (sat win : Bool)
    (md : BitVec 12) : vSat (encV maj min p d a b c ty rnd sat win md) = BitVec.ofBool sat := by
  simp only [vSat, fld, encV]
  simp (disch := decide) only [cat_hi, cat_lo]
  simp
@[simp] theorem vWin_encV (maj : BitVec 8) (min : BitVec 4) (p : Pred) (d a b c : BitVec 15) (ty : BitVec 4) (rnd : BitVec 2) (sat win : Bool)
    (md : BitVec 12) : vWin (encV maj min p d a b c ty rnd sat win md) = BitVec.ofBool win := by
  simp only [vWin, fld, encV]
  simp (disch := decide) only [cat_hi, cat_lo]
  simp
@[simp] theorem vMod_encV (maj : BitVec 8) (min : BitVec 4) (p : Pred) (d a b c : BitVec 15) (ty : BitVec 4) (rnd : BitVec 2) (sat win : Bool)
    (md : BitVec 12) : vMod (encV maj min p d a b c ty rnd sat win md) = md := by
  simp only [vMod, fld, encV]
  simp (disch := decide) only [cat_hi, cat_lo]
  simp

/-! ### Kinds of field -/

@[simp] theorem dst5_r6 (d : BitVec 5) : dst5 (r6 d) = some d := by revert d; decide
@[simp] theorem low3_p6 (f : BitVec 3) : low3 (p6 f) = some f := by revert f; decide
@[simp] theorem decMask_k15 (k : BitVec 3) : decMask (k15 k) = some k := by revert k; decide
@[simp] theorem ty_code (t : Ty) : Ty.ofCode t.code = some t := by cases t <;> rfl
@[simp] theorem rnd_code (t : Rnd) : Rnd.ofCode t.code = t := by cases t <;> rfl
@[simp] theorem dir_code (t : Dir) : Dir.ofCode t.code = t := by cases t <;> rfl
@[simp] theorem cond_code (t : Cond) : Cond.ofCode t.code = some t := by cases t <;> rfl
@[simp] theorem ext_code (t : ExtW) : ExtW.ofCode t.code = some t := by cases t <;> rfl
@[simp] theorem eng_code (t : Eng) : Eng.ofCode t.code = some t := by cases t <;> rfl
@[simp] theorem scope_code (t : Scope) : Scope.ofCode t.code = some t := by cases t <;> rfl
@[simp] theorem grp_code (t : GrpFn) : GrpFn.ofCode t.code = some t := by cases t <;> rfl
@[simp] theorem red_code (t : RedOp) : RedOp.ofCode t.code = some t := by cases t <;> rfl
@[simp] theorem need_true : need true = some () := rfl

@[simp] theorem decOpnd_enc (o : Opnd) : decOpnd o.enc = some o := by
  cases o <;> simp only [decOpnd, Opnd.enc] <;> simp (disch := decide) only [cat_hi, cat_lo] <;> simp

@[simp] theorem lo_encMod (km : Option (BitVec 3)) (lo : BitVec 8) : (encMod km lo).extractLsb' 0 8 = lo := by
  cases km <;> simp only [encMod] <;> simp (disch := decide) only [cat_hi, cat_lo] <;> simp

@[simp] theorem ex_encMod (km : Option (BitVec 3)) (b : BitVec 8) (lo k : Nat) (h : lo + k ≤ 8) :
    (encMod km b).extractLsb' lo k = b.extractLsb' lo k := by
  cases km <;> simp only [encMod] <;> rw [cat_lo _ _ _ h]

@[simp] theorem hi_encMod (b : BitVec 8) (lo k : Nat) (h : 8 ≤ lo) : (encMod none b).extractLsb' lo k = 0#k := by
  simp only [encMod]
  rw [cat_hi _ _ _ h]
  simp

@[simp] theorem decSlot0_enc (h : BitVec 4) : decSlot0 (Opnd.slot h 0#9).enc = some h := by revert h; decide
@[simp] theorem decPlane_enc (n : BitVec 5) : decPlane (Opnd.plane .whole n 0#6).enc = some n := by revert n; decide

@[simp] theorem decKm_encMod (km : Option (BitVec 3)) (lo : BitVec 8) : decKm (encMod km lo) = some km := by
  cases km <;> simp only [decKm, encMod] <;> simp (disch := decide) only [cat_hi, cat_lo] <;> simp

@[simp] theorem decAmoX_enc (x : AmoX) : decAmoX (encAmoX x) = some x := by
  obtain ⟨w, a, r, o⟩ := x
  simp only [decAmoX, encAmoX]
  simp (disch := decide) only [cat_hi, cat_lo]
  simp [ofBool_beq_one]

@[simp] theorem decBselMask_enc (m : Option (MaskKind × BitVec 2)) : decBselMask (encBselMask m) = some m := by
  rcases m with _ | ⟨k, i⟩
  · rfl
  · cases k <;> simp only [decBselMask, encBselMask, MaskKind.code] <;> simp (disch := decide) only [cat_hi, cat_lo] <;> simp

theorem beq_k15 (k : BitVec 3) : k15 k = 0#12 ++ k := rfl

/-! ### Runs of fields that must be zero -/

@[simp] theorem fld80_encS (maj : BitVec 8) (min : BitVec 4) (p : Pred) : fld (encS maj min p 0#6 0#6 0#6 0#6 0#56) 0 80 = 0#80 := by
  apply BitVec.eq_of_getLsbD_eq
  intro i hi
  simp only [fld, encS, BitVec.getLsbD_extractLsb', BitVec.getLsbD_append, hi, decide_true, Bool.true_and, BitVec.getLsbD_zero]
  repeat' split
  all_goals first | rfl | omega
@[simp] theorem fld80_encV (maj : BitVec 8) (min : BitVec 4) (p : Pred) :
    fld (encV maj min p 0#15 0#15 0#15 0#15 0#4 0#2 false false 0#12) 0 80 = 0#80 := by
  apply BitVec.eq_of_getLsbD_eq
  intro i hi
  simp only [fld, encV, BitVec.getLsbD_extractLsb', BitVec.getLsbD_append, hi, decide_true, Bool.true_and, BitVec.getLsbD_zero,
    BitVec.ofBool_false]
  repeat' split
  all_goals first | rfl | omega | simp
@[simp] theorem fld8_encV (maj : BitVec 8) (min : BitVec 4) (p : Pred) (d a b c : BitVec 15) (ty : BitVec 4) (rnd : BitVec 2)
    (sat win : Bool) (md : BitVec 12) :
    fld (encV maj min p d a b c ty rnd sat win md) 12 8 = ty ++ rnd ++ BitVec.ofBool sat ++ BitVec.ofBool win := by
  apply BitVec.eq_of_getLsbD_eq
  intro i hi
  simp only [fld, encV, BitVec.getLsbD_extractLsb', BitVec.getLsbD_append, hi, decide_true, Bool.true_and]
  simp only [show ¬(12 + i < 12) by omega, show 12 + i - 12 = i by omega, if_false]
  split
  · rfl
  · split
    · rfl
    · split
      · rfl
      · rw [if_pos (by omega)]
@[simp] theorem fld4_encV (maj : BitVec 8) (min : BitVec 4) (p : Pred) (d a b c : BitVec 15) (ty : BitVec 4) (rnd : BitVec 2)
    (sat win : Bool) (md : BitVec 12) :
    fld (encV maj min p d a b c ty rnd sat win md) 12 4 = rnd ++ BitVec.ofBool sat ++ BitVec.ofBool win := by
  apply BitVec.eq_of_getLsbD_eq
  intro i hi
  simp only [fld, encV, BitVec.getLsbD_extractLsb', BitVec.getLsbD_append, hi, decide_true, Bool.true_and]
  simp only [show ¬(12 + i < 12) by omega, show 12 + i - 12 = i by omega, if_false]
  split
  · rfl
  · split
    · rfl
    · rw [if_pos (by omega)]
@[simp] theorem fld7_encV (maj : BitVec 8) (min : BitVec 4) (p : Pred) (d a b c : BitVec 15) (ty : BitVec 4) (rnd : BitVec 2)
    (sat win : Bool) (md : BitVec 12) :
    fld (encV maj min p d a b c ty rnd sat win md) 13 7 = ty ++ rnd ++ BitVec.ofBool sat := by
  apply BitVec.eq_of_getLsbD_eq
  intro i hi
  simp only [fld, encV, BitVec.getLsbD_extractLsb', BitVec.getLsbD_append, hi, decide_true, Bool.true_and]
  simp only [show ¬(13 + i < 12) by omega, show ¬(13 + i - 12 < 1) by omega, show 13 + i - 12 - 1 = i by omega, if_false]
  split
  · rfl
  · split
    · rfl
    · rw [if_pos (by omega)]

/-! ### Formats with operands -/

@[simp] theorem decSfx_encV (maj : BitVec 8) (min : BitVec 4) (p : Pred) (d a b c : BitVec 15) (x : Sfx) (lo : BitVec 8) :
    decSfx (encX maj min p d a b c x lo) = some x := by
  simp [decSfx, encX, ofBool_beq_one]

end Sys2Proof.Laws
end

