-- ==== Sys2Proof/Safety.lean ====
section
/-! DEFINITION. What counts as a safe run, and the terms in which the statements about the machine are written: canonical
memories, how a word that issues leaves the machine, what a word of a stream leaves alone. -/
namespace Sys2Proof

/-- `n` acts from `s` all answer a next state. -/
def Safe : Nat → Machine.State → Prop
  | 0, _ => True
  | n + 1, s => ∃ t, Machine.step s = .next t ∧ Safe n t

namespace Machine

/-- The byte memories are in their canonical form: device memory, the scratchpad, the running job's local data memory. -/
def Memory.wf (s : State) : Bool :=
  SMap.wf 0 s.dev.mem && SMap.wf 0 s.core.spad && SMap.wf 0 s.job.seq.ldm

/-- A word of a stream has issued with one result, which lands `lat` job cycles later, and its stream goes on. -/
def issued (st : Stream) (lat : Nat) (e : Eff) (s : State) : Host.Outcome State Fault Refusal := .next (advance st (later st lat e s))

/-- A word of the sequencer that delivers one scalar. -/
def scalarDone (lat : Nat) (d : BitVec 5) (v : W64) (s : State) : Host.Outcome State Fault Refusal := issued .sq lat (.sreg d.toNat v) s

/-- A word of the sequencer that delivers one predicate. -/
def predDone (d : BitVec 3) (v : Bool) (s : State) : Host.Outcome State Fault Refusal := issued .sq 1 (.freg d.toNat v) s

/-- The job's mark that a side effect has issued (R343). -/
def sided (s : State) : State := s.onJob fun j => { j with side := true }

/-- What a word of the sequencer may change of the machine besides its own effect: the delay line, where the sequencer
stands, the bookkeeping of the streams and, where its section's rendezvous faults, the freeze. -/
def seqTouched (s t : State) : State :=
  { s with job := { s.job with
      dl := t.job.dl, flow := t.job.flow, st := t.job.st, frec := t.job.frec, frozeAt := t.job.frozeAt, calpos := t.job.calpos
      seq := { s.job.seq with pos := t.job.seq.pos, buf := t.job.seq.buf } } }

/-- Bytes that a word may reach at once: their address is in range and aligned, a leaf of the translation cache covers it and
permits what the word needs, no unit is fenced and no operation in flight holds them (R229, R235, R254, R365). -/
def reachable (s : State) (va n : Nat) (e : TlbEnt) (perms : List Perm) : Prop :=
  va < 2 ^ 52 ∧ va % n = 0 ∧ tlbFind s s.job.l.root va = some e ∧ (∀ p ∈ perms, permOk e p = true) ∧ s.plat.fenced = 0 ∧
    ∀ r ∈ s.core.ranges, ¬(r.lo < va + n ∧ va < r.hi)

/-- Whether a walk was made for a word's access (R230). -/
def walkedFor (s : State) (st : Stream) (va : Nat) (acc : Perm) : Bool := s.core.walked.contains ⟨st, va / 2 ^ 16 * 2 ^ 16, acc⟩

/-- A request of the sequencer that leaves the core on a cycle is on its way to the stack, or waits in its order to leave. -/
def underWay (leave : Nat) (r : DevReq) (s : State) : Prop :=
  (leave, r) ∈ s.core.ldHeld ∨ (leave + ownerTravel r.owner (stackOf s.variant r.va), r) ∈ s.dev.reqs

/-- A request is on its way to the home engine of its line. -/
def atEngine (leave : Nat) (r : AtomReq) (s : State) : Prop :=
  (leave + engineTravel s r.src (engineOf s r.va), r) ∈ (row s.atoms Atom.init (engineOf s r.va)).arr

/-- A handle word has issued: its stream goes on, and on the sequencer it is a side effect of the job (R96, R343). -/
def handleDone (s u : State) : Host.Outcome State Fault Refusal := .next (advance s.turn (if s.turn = .sq then sided u else u))

/-- A word of several cycles goes on with the work that its stream holds for it. -/
def carriesOn (st : Stream) (m : Micro) (w : Wait) (s : State) : Host.Outcome State Fault Refusal :=
  .next (stalled st w ((s.setMicro st m).onFlow fun f => { f with moved := true }))

/-- The operands of a wide word, each with its count, pass R171's touches and checks, their waits are over, and their sources
have been read: the state after the reads and the values of the sources in their order. -/
def usesRead (st : Stream) (win : Bool) (rnd : Rnd) (sat : Bool) (us : List (Use × Nat)) (s u : State) (vs : List (Array W32)) : Prop :=
  ∃ s1 bs, touchAll (planesOf s win (us.map Prod.fst)) s = .ok s1 ∧ checkUses s1 st win us = .ok () ∧ waitUses s1 st us = .ok bs ∧
    readUses st win rnd sat us bs s1 = (u, vs)

/-- The same of a word whose operands are planes. -/
def planesRead (win : Bool) (us : List (Use × Nat)) (s u : State) (vs : List (Array W32)) : Prop :=
  ∃ s1, touchAll (planesOf s win (us.map Prod.fst)) s = .ok s1 ∧ checkUses s1 .vx win us = .ok () ∧
    readUses .vx win .rne false us [] s1 = (u, vs)

/-- The operands of an elementwise word: the destination, then the sources. -/
def elemUses (d : Opnd) (dty : Ty) (srcs : List (Opnd × Ty)) : List Use := ⟨d, dty, true⟩ :: srcs.map fun a => ⟨a.1, a.2, false⟩

/-- An elementwise word's operands are at hand. -/
def elemRead (st : Stream) (d : Opnd) (dty : Ty) (srcs : List (Opnd × Ty)) (x : Sfx) (s u : State) (vs : List (Array W32)) : Prop :=
  let us := elemUses d dty srcs
  (∀ y ∈ us, absentTy s y.ty = false) ∧ usesRead st x.win x.rnd x.sat (us.map fun y => (y, elemCount s us)) s u vs

/-- An elementwise word has issued with a result for the lane and the place of every element. -/
def elemDone (st : Stream) (lat : Nat) (d : Opnd) (dty : Ty) (srcs : List (Opnd × Ty)) (x : Sfx) (s u : State)
    (out : Nat → Nat → Conv) : Host.Outcome State Fault Refusal :=
  let us := elemUses d dty srcs
  let lanes := elemLanes us (elemCount s us)
  .next (advance st (putResult st lat d dty x.win x.rnd x.sat x.km lanes (lanes.zipIdx.map fun e => out e.1 e.2) u))

/-- The operands of a word that takes whole operands are at hand. -/
def wholeRead (d : Opnd) (n : Nat) (srcs : List (Opnd × Nat)) (x : Sfx) (s u : State) (vs : List (Array W32)) : Prop :=
  absentTy s x.ty = false ∧
    usesRead .vx x.win x.rnd x.sat ((⟨d, x.ty, true⟩, n) :: srcs.map fun a => (⟨a.1, x.ty, false⟩, a.2)) s u vs

/-- Such a word has issued with a result for every place of its destination. -/
def wholeDone (lat : Nat) (d : Opnd) (n : Nat) (x : Sfx) (u : State) (out : Nat → W32) : Host.Outcome State Fault Refusal :=
  .next (advance .vx (putResult .vx lat d x.ty x.win x.rnd x.sat x.km (ownLanes d n)
    ((List.range n).map fun e => ⟨out e, false, false⟩) u))

/-- The shape of a keep or an undo form: predicate, form and variant of its class, latency, operands with their types (R199 to R204). -/
structure FormShape where
  p : Pred
  form : Nat
  var : Nat
  lat : Nat
  d : Opnd
  a : Opnd
  b : Option (Opnd × Ty)
  dty : Ty
  aty : Ty
  win : Bool
  deriving DecidableEq, Repr

/-- The operands of a form, the destination first. -/
def FormShape.uses (f : FormShape) : List Use :=
  ⟨f.d, f.dty, true⟩ :: ⟨f.a, f.aty, false⟩ :: (f.b.toList.map fun x => ⟨x.1, x.2, false⟩)

def keepForm : Instr → Option FormShape
  | .vmulk p v => some ⟨p, 1, v.x.ty.code.toNat, 6, v.d, v.a, some (v.b, v.x.ty), v.x.ty, v.x.ty, v.x.win⟩
  | .vaddk p v => some ⟨p, 2, v.x.ty.code.toNat, 4, v.d, v.a, some (v.b, v.x.ty), v.x.ty, v.x.ty, v.x.win⟩
  | .vcvtk p v none => some ⟨p, 3, 0, 5, v.d, v.a, none, .bf16, .f32, v.x.win⟩
  | .vcvtk p v (some b) => some ⟨p, 3, 1, 5, v.d, v.a, some (b, .f32), .res8, .f32, v.x.win⟩
  | .vshrk p v => some ⟨p, 4, v.x.ty.code.toNat - 3, 4, v.d, v.a, some (v.b, v.x.ty), v.x.ty, v.x.ty, v.x.win⟩
  | .vlrelk p v _ => some ⟨p, 5, v.x.ty.code.toNat, 4, v.d, v.a, none, v.x.ty, v.x.ty, v.x.win⟩
  | _ => none

/-- What a keep form makes of the sources of one element. -/
def keepElem (i : Instr) (g : Nat → W32) : Kept :=
  match i with
  | .vmulk _ v => keepMul v.x.ty (g 0) (g 1)
  | .vaddk _ v => keepAdd v.x.ty (g 0) (g 1)
  | .vcvtk _ _ none => keepBf16 (g 0)
  | .vcvtk _ _ (some _) => keepRes8 (g 0) (g 1)
  | .vshrk _ v => keepShr v.x.ty (g 0) (g 1)
  | .vlrelk _ v sh => keepLrel v.x.ty sh.toNat (g 0)
  | _ => .bad 0

def undoForm : Instr → Option FormShape
  | .unmulk p v => some ⟨p, 1, v.x.ty.code.toNat, 18, v.d, v.a, some (v.b, v.x.ty), v.x.ty, v.x.ty, v.x.win⟩
  | .unaddk p v => some ⟨p, 2, v.x.ty.code.toNat, 4, v.d, v.a, some (v.b, v.x.ty), v.x.ty, v.x.ty, v.x.win⟩
  | .uncvtk p v none => some ⟨p, 3, 0, 4, v.d, v.a, none, .f32, .bf16, v.x.win⟩
  | .uncvtk p v (some b) => some ⟨p, 3, 1, 4, v.d, v.a, some (b, .f32), .f32, .res8, v.x.win⟩
  | .unshrk p v => some ⟨p, 4, v.x.ty.code.toNat - 3, 4, v.d, v.a, some (v.b, v.x.ty), v.x.ty, v.x.ty, v.x.win⟩
  | .unlrelk p v _ => some ⟨p, 5, v.x.ty.code.toNat, 4, v.d, v.a, none, v.x.ty, v.x.ty, v.x.win⟩
  | _ => none

/-- What an undo form makes of the sources and the record of one element. -/
def undoElem (i : Instr) (g : Nat → W32) (r : W32) : Option W32 :=
  match i with
  | .unmulk _ v => undoMul v.x.ty (g 0) (g 1) r
  | .unaddk _ v => undoAdd v.x.ty (g 0) (g 1) r
  | .uncvtk _ _ none => undoBf16 (g 0) r
  | .uncvtk _ _ (some _) => undoRes8 (g 0) (g 1) r
  | .unshrk _ v => undoShr v.x.ty (g 0) (g 1) r
  | .unlrelk _ v sh => undoLrel v.x.ty sh.toNat (g 0) r
  | _ => none

/-- An event stands at the head of the agenda and its cycle has come; the state without it. -/
def dueHead (s s0 : State) (ev : Ev) : Prop := ∃ e l, s.agenda = e :: l ∧ e.ev = ev ∧ e.at_ ≤ s.cyc ∧ s0 = { s with agenda := l }

end Machine
end Sys2Proof
end

