-- ==== Sys2Proof/Certificates/Slice0/Obligations.lean ====
section
/-! DEFINITION. The statements for the provers: what each instruction and each event of the Bruvex B9 does, as the rules of the spec
give it, and what no step does. Each one says what holds of every state and of every operand that meets its hypotheses; the
functions that the statements are written in are those of the machine and of Safety. -/
open Sys2Proof Sys2Proof.Machine

/-! ### Words of the sequencer -/

/-- The integer and address instructions deliver their value after the latency of R54, whatever the state, when the word is enabled
and its registers are not awaiting a load. Logic, shifts, counts, extensions and the select. (After R71, R73.) -/
def Obligations.ScalarWords : Prop :=
  (
    ∀ (s : State) (p : Pred) (d : BitVec 5) (a b sh : BitVec 6) (imm : BitVec 56), enabled s .sq p = true → ready s [a, b] = true →
      exec (.add p d a b) s = scalarDone 1 d (s.reg a + s.reg b) s ∧
      exec (.sub p d a b) s = scalarDone 1 d (s.reg a - s.reg b) s ∧
      exec (.addi p d a imm) s = scalarDone 1 d (s.reg a + imm.signExtend 64) s ∧
      exec (.lea p d a b sh imm) s = scalarDone 1 d (s.reg a + (s.reg b <<< sh.toNat) + imm.signExtend 64) s ∧
      exec (.mul p d a b) s = scalarDone 3 d (BitVec.ofNat 64 ((s.reg a).toNat * (s.reg b).toNat)) s ∧
      exec (.mulh p d a b) s = scalarDone 3 d (BitVec.ofInt 64 ((s.reg a).toInt * (s.reg b).toInt / 2 ^ 64)) s ∧
      exec (.mulhn p d a b) s = scalarDone 3 d (BitVec.ofNat 64 ((s.reg a).toNat * (s.reg b).toNat / 2 ^ 64)) s ∧
      exec (.min p d a b) s = scalarDone 1 d (if (s.reg a).toInt ≤ (s.reg b).toInt then s.reg a else s.reg b) s ∧
      exec (.max p d a b) s = scalarDone 1 d (if (s.reg a).toInt ≤ (s.reg b).toInt then s.reg b else s.reg a) s ∧
      exec (.minn p d a b) s = scalarDone 1 d (if (s.reg a).toNat ≤ (s.reg b).toNat then s.reg a else s.reg b) s ∧
      exec (.maxn p d a b) s = scalarDone 1 d (if (s.reg a).toNat ≤ (s.reg b).toNat then s.reg b else s.reg a) s ∧
      exec (.ldi p d (imm.signExtend 64)) s = scalarDone 1 d (imm.signExtend 64) s) ∧
  (
    ∀ (s : State) (p : Pred) (d : BitVec 5) (a b : BitVec 6) (imm : BitVec 56) (v : W64) (w : ExtW) (neg : Bool) (f : BitVec 3),
      enabled s .sq p = true → ready s [a, b] = true →
      exec (.and p d a b) s = scalarDone 1 d (s.reg a &&& s.reg b) s ∧
      exec (.or p d a b) s = scalarDone 1 d (s.reg a ||| s.reg b) s ∧
      exec (.xor p d a b) s = scalarDone 1 d (s.reg a ^^^ s.reg b) s ∧
      exec (.andn p d a b) s = scalarDone 1 d (s.reg a &&& ~~~s.reg b) s ∧
      exec (.andi p d a imm) s = scalarDone 1 d (s.reg a &&& imm.signExtend 64) s ∧
      exec (.ori p d a imm) s = scalarDone 1 d (s.reg a ||| imm.signExtend 64) s ∧
      exec (.xori p d a imm) s = scalarDone 1 d (s.reg a ^^^ imm.signExtend 64) s ∧
      exec (.shl p d a b) s = scalarDone 1 d (s.reg a <<< ((s.reg b).toNat % 64)) s ∧
      exec (.shr p d a b) s = scalarDone 1 d (s.reg a >>> ((s.reg b).toNat % 64)) s ∧
      exec (.shra p d a b) s = scalarDone 1 d ((s.reg a).sshiftRight ((s.reg b).toNat % 64)) s ∧
      exec (.rotl p d a b) s = scalarDone 1 d ((s.reg a).rotateLeft ((s.reg b).toNat % 64)) s ∧
      (∃ n, exec (.clz p d a) s = scalarDone 1 d (BitVec.ofNat 64 n) s ∧ (s.reg a = 0 → n = 64) ∧
        (s.reg a ≠ 0 → n < 64 ∧ 2 ^ (63 - n) ≤ (s.reg a).toNat ∧ (s.reg a).toNat < 2 ^ (64 - n))) ∧
      (∃ n, exec (.ffs p d a) s = scalarDone 1 d (BitVec.ofNat 64 n) s ∧ (s.reg a = 0 → n = 64) ∧
        (s.reg a ≠ 0 → n < 64 ∧ (s.reg a).getLsbD n = true ∧ ∀ m < n, (s.reg a).getLsbD m = false)) ∧
      exec (.popc p d a) s = scalarDone 1 d (BitVec.ofNat 64 ((List.range 64).filter (s.reg a).getLsbD).length) s ∧
      exec (.brev p d a) s = scalarDone 1 d (s.reg a).reverse s ∧
      exec (.sext p d a w) s = scalarDone 1 d (((s.reg a).setWidth w.bits).signExtend 64) s ∧
      exec (.zext p d a w) s = scalarDone 1 d (((s.reg a).setWidth w.bits).setWidth 64) s ∧
      exec (.sel p d a b neg f) s = scalarDone 1 d (if (s.job.seq.fReg f.toNat ^^ neg) = true then s.reg a else s.reg b) s ∧
      exec (.ldi p d v) s = scalarDone 1 d v s)

/-- DIV and REM divide signed, truncating toward zero, DIVN and REMN natural; a divisor of 0 gives all ones and the dividend, −2^63
divided by −1 gives −2^63 and 0. None of them faults; each result lands exactly 18 cycles after its issue, and one may issue on
every cycle. (Rule R72.) -/
def Obligations.DivisionNeverFaults : Prop :=
  ∀ (s : State) (p : Pred) (d : BitVec 5) (a b : BitVec 6), enabled s .sq p = true → ready s [a, b] = true →
    let x := s.reg a
    let y := s.reg b
    exec (.div p d a b) s = scalarDone 18 d (if y = 0 then -1 else BitVec.ofInt 64 (x.toInt.tdiv y.toInt)) s ∧
    exec (.rem p d a b) s = scalarDone 18 d (if y = 0 then x else BitVec.ofInt 64 (x.toInt - y.toInt * x.toInt.tdiv y.toInt)) s ∧
    exec (.divn p d a b) s = scalarDone 18 d (if y = 0 then -1 else BitVec.ofNat 64 (x.toNat / y.toNat)) s ∧
    exec (.remn p d a b) s = scalarDone 18 d (if y = 0 then x else BitVec.ofNat 64 (x.toNat % y.toNat)) s ∧
    ∀ v, scalarDone 18 d v s = .next (advance .sq (s.onJob fun j =>
      { j with dl := j.dl ++ [⟨j.cycle + 18, .sq, curSec s .sq, j.cycle, .sreg d.toNat v⟩] }))

/-- Compares, predicate logic and the reads of the wide flags. (After R74 to R76.) -/
def Obligations.PredicateWords : Prop :=
  ∀ (s : State) (p : Pred) (fd fa fb : BitVec 3) (d : BitVec 5) (a b : BitVec 6) (imm : BitVec 56) (cc : Cond) (w : BitVec 2),
    enabled s .sq p = true → ready s [a, b] = true →
    let holds (x y : W64) : Bool := match cc with
      | .eq => decide (x = y) | .ne => decide (x ≠ y)
      | .lt => decide (x.toInt < y.toInt) | .le => decide (x.toInt ≤ y.toInt)
      | .gt => decide (y.toInt < x.toInt) | .ge => decide (y.toInt ≤ x.toInt)
      | .ltn => decide (x.toNat < y.toNat) | .len => decide (x.toNat ≤ y.toNat)
      | .gtn => decide (y.toNat < x.toNat) | .gen => decide (y.toNat ≤ x.toNat)
    let flag : W64 := match w.toNat with
      | 0 => (BitVec.ofBool s.job.seq.w0).setWidth 64 | 1 => (BitVec.ofBool s.job.seq.w1).setWidth 64
      | 2 => (BitVec.ofBool s.job.seq.w2).setWidth 64 | _ => s.job.seq.w3.setWidth 64
    let f (x : BitVec 3) : Bool := s.job.seq.fReg x.toNat
    exec (.cmp p fd a b cc) s = predDone fd (holds (s.reg a) (s.reg b)) s ∧
    exec (.cmpi p fd a imm cc) s = predDone fd (holds (s.reg a) (imm.signExtend 64)) s ∧
    exec (.pand p fd fa fb) s = predDone fd (f fa && f fb) s ∧
    exec (.por p fd fa fb) s = predDone fd (f fa || f fb) s ∧
    exec (.pxor p fd fa fb) s = predDone fd (f fa ^^ f fb) s ∧
    exec (.pnot p fd fa) s = predDone fd (!f fa) s ∧
    exec (.ftest p fd w) s = predDone fd (decide (flag ≠ 0)) s ∧
    exec (.fcount p d w) s = scalarDone 1 d flag s

/-- PREP, PREPR and BINV change their register on their own cycle; BR and BRL through a prepared and ready register go to its
address, BRL after it has read b[BT]; through one that is not ready they stall, through one that is not prepared they fault. BSEL
over a table that keeps the layout delivers the least bucket that holds the dimension and prepares its target, with the pending mask
of the last tile; where no bucket holds it, it delivers COUNT and unprepares the register. NOP only occupies its cycle. IFENCE, once
the local stores have landed and every earlier store and AMO has been served, goes on and leaves device memory, the scratchpad,
local data memory, the scalars and the predicates as they were; with length 0 it empties the stream cache, starts every prepared
register's prefetch again, which stays prepared, leaves an unprepared one as it is, and fetches again the words of the section in
which it stands. (After R77 to R80, R83, R84, R81 and NOP.) -/
def Obligations.BranchWords : Prop :=
  (
    ∀ (s : State) (p : Pred) (bt lb : BitVec 3) (src : BitVec 6) (off : BitVec 40), enabled s .sq p = true →
      let b := s.job.seq.bReg bt.toNat
      let prepared (i : BitVec 3) (a : W64) : State := s.onSeq fun q => q.setB i.toNat ⟨a, true, some s.job.cycle, false, none⟩
      exec (.prep p bt off) s = .next (advance .sq (prepared bt (wordAddr (wordRef s .sq) + 4 * off.signExtend 64))) ∧
      (ready s [src] = true → (s.reg src).toNat % 4 = 0 → exec (.prepr p bt src) s = .next (advance .sq (prepared bt (s.reg src)))) ∧
      (ready s [src] = true → (s.reg src).toNat % 4 ≠ 0 →
        exec (.prepr p bt src) s = .next (takeFault s (faultAt s .sq 0x12 0 (s.reg src)))) ∧
      exec (.binv p bt) s = .next (advance .sq (s.onSeq fun q =>
        q.setB bt.toNat { b with prep := false, start := none, ready := false, buf := none })) ∧
      (b.prep = true → b.ready = true →
        (∃ t, exec (.br p bt) s = .next t ∧ t.job.seq.buf = b.buf ∧ t.job.seq.b = s.job.seq.b ∧
          ∀ a h i, s.job.seq.pos = .run a h i → t.job.seq.pos = .header b.addr) ∧
        ∃ t, exec (.brl p bt lb) s = .next t ∧ t.job.seq.buf = b.buf ∧
          ∀ a h i, s.job.seq.pos = .run a h i → t.job.seq.pos = .header b.addr ∧
            t.job.seq.b = rowSet s.job.seq.b lb.toNat ⟨a + BitVec.ofNat 64 (8 + 12 * hdrLen h), true, some s.job.cycle, false, none⟩) ∧
      (b.prep = true → b.ready = false →
        exec (.br p bt) s = .next (stalled .sq .other s) ∧ exec (.brl p bt lb) s = .next (stalled .sq .other s)) ∧
      (b.prep = false →
        exec (.br p bt) s = .next (takeFault s (faultAt s .sq 0x03 0 (bt.setWidth 64))) ∧
        exec (.brl p bt lb) s = .next (takeFault s (faultAt s .sq 0x03 0 (bt.setWidth 64))))) ∧
  (
    ∀ (s : State) (p : Pred) (bt : BitVec 3) (a b : BitVec 6) (mask : Option (MaskKind × BitVec 2)) (d : BitVec 5),
      enabled s .sq p = true → ready s [a, b] = true →
      let t := (s.reg b).toNat
      let dim := (s.reg a).toNat
      let word32 (x : Nat) : Nat := leNat (rdBytes s.job.seq.ldm x 4)
      let n := word32 t
      let size (i : Nat) : Nat := word32 (t + 8 + 16 * i)
      let target (i : Nat) : Nat := leNat (rdBytes s.job.seq.ldm (t + 16 + 16 * i) 8)
      t % 8 = 0 → t + 8 + 16 * n ≤ 65536 → 1 ≤ n → n ≤ 16 → word32 (t + 4) = 0 →
      (∀ i < n, word32 (t + 12 + 16 * i) = 0 ∧ target i % 4 = 0) → (∀ i, i + 1 < n → size i < size (i + 1)) →
      readLdm s t (8 + 16 * n) = .ok () →
      (∀ i < n, dim ≤ size i → (∀ j < i, size j < dim) →
        let u := later .sq 3 (.breg bt.toNat (some (BitVec.ofNat 64 (target i)))) (later .sq 3 (.sreg d.toNat (BitVec.ofNat 64 i)) s)
        exec (.bsel p bt a b mask d) s = .next (advance .sq (match mask with
          | some (k, m) => later .sq 3 (.pend k m.toNat (if dim = 0 then 0 else dim - 64 * ((dim - 1) / 64))) u
          | none => u))) ∧
      ((∀ j < n, size j < dim) →
        exec (.bsel p bt a b mask d) s =
          .next (advance .sq (later .sq 3 (.breg bt.toNat none) (later .sq 3 (.sreg d.toNat (BitVec.ofNat 64 n)) s))))) ∧
  (
    ∀ (s : State) (p : Pred),
      (enabled s s.turn p = true → exec (.nop p) s = .next (advance s.turn s)) ∧
      ∀ (a b : BitVec 6), enabled s .sq p = true → ready s [a, b] = true → fenceCore s = true → writesServed s = true →
        (∃ u, exec (.ifence p a b) s = .next (advance .sq (sided u)) ∧ u.dev = s.dev ∧ u.core.spad = s.core.spad ∧
          u.job.seq.s = s.job.seq.s ∧ u.job.seq.f = s.job.seq.f ∧ u.job.seq.ldm = s.job.seq.ldm ∧ u.job.dl = s.job.dl ∧ ∀ i < 8, (u.job.seq.bReg i).prep = (s.job.seq.bReg i).prep ∧
            (u.job.seq.bReg i).addr = (s.job.seq.bReg i).addr) ∧
        (s.reg b = 0 → ∃ u, exec (.ifence p a b) s = .next (advance .sq (sided u)) ∧ u.core.sc = [] ∧ u.core.scArr = [] ∧
          (∀ at_ h i g ws, s.job.seq.pos = .run at_ h i → u.job.seq.buf = some (g, ws) → ws = []) ∧
          ∀ i < 8, let x := s.job.seq.bReg i
            u.job.seq.bReg i = if x.prep = true then { x with start := some s.job.cycle, ready := false, buf := none } else x))

/-- An ISSUE whose checks pass appends the section to its engine's queue with the targets of its waits, the predicates and the scalars
of its own cycle, counts it as issued and, with RDVE, as a rendezvous to come. TBIND binds the entry that it reads and pins its
pages; TFREE releases a binding that no section uses and marks it invalid. That ISSUE reads the header from device memory as it stands,
in no time, is the model's choice (log 9). (After R88, R89, R233, R234.) -/
def Obligations.SectionsAndBindings : Prop :=
  (
    ∀ (s : State) (p : Pred) (e : Eng) (preg areg : BitVec 6) (off : BitVec 40), enabled s .sq p = true →
      ready s [preg, areg] = true →
      ∀ (addr : W64) (i : Instr), (i = .issue p e preg off ∧ addr = wordAddr (wordRef s .sq) + 4 * off.signExtend 64) ∨
          (i = .issueReg p e preg areg ∧ addr = s.reg areg) →
      ∀ (s1 s2 s3 : State) (pg pages : List Piece) (tgt : List (Nat × Int)) (tp : List TpEnt), addr.toNat % 4 = 0 →
        needPages s .sq addr.toNat 8 [.x] = .ok (s1, pg) →
        let h := BitVec.ofNat 64 (leNat (pieceBytes s1 pg addr.toNat 8))
        needPages s1 .sq addr.toNat (8 + 12 * hdrLen h) [.x] = .ok (s2, pages) →
        hdrFault e.stream h = none → hdrTargets s2 e.stream h = .ok tgt →
        ((preg = 0 ∧ s3 = s2 ∧ tp = []) ∨
          (preg ≠ 0 ∧ (s2.reg preg).toNat % 16 = 0 ∧ ∃ s4 l, descRead s2 .sq (s2.reg preg).toNat 128 = .ok (s4, l) ∧
            bindBlock s4 (s2.reg preg).toNat 8 l = .ok (s3, tp))) →
        (s3.eng e.stream).q.length < 16 → pinRoom s3 (pages ++ tp.flatMap TpEnt.pages) = true →
        ∃ u x, exec i s = .next (advance .sq (sided u)) ∧ (u.eng e.stream).q = (s3.eng e.stream).q ++ [x] ∧
          x.addr = addr ∧ x.hdr = h ∧ x.tgt = tgt ∧ (∀ j < 8, x.preds.getLsbD j = s3.job.seq.fReg j) ∧ x.snap = s3.job.seq.s ∧ x.enter = s3.job.cycle + 1 ∧ x.tp = tp ∧
          x.pend = (if e = .mx then s3.job.seq.pend else []) ∧
          x.num = row s3.job.flow.issued 0 e.stream.idx + 1 ∧
          row u.job.flow.issued 0 e.stream.idx = row s3.job.flow.issued 0 e.stream.idx + 1 ∧
          row u.job.flow.rdvIssued 0 e.stream.idx = row s3.job.flow.rdvIssued 0 e.stream.idx + (if hdrRdve h = true then 1 else 0)) ∧
  (
    ∀ (s : State) (p : Pred) (n : BitVec 4) (preg : BitVec 6), enabled s .sq p = true →
      ((s.binding n.toNat).v = false ∨ bindingUsed s n.toNat = false →
        exec (.tfree p n) s = .next (advance .sq (sided ((unpinAll s (s.binding n.toNat).pages).onJob fun j =>
          { j with bind := rowSet j.bind n.toNat TpEnt.init })))) ∧
      ∀ (s1 s2 : State) (l : List Byte) (e : TpEnt) (pages : List Piece), ready s [preg] = true → (s.reg preg).toNat % 16 = 0 →
        descRead s .sq (s.reg preg).toNat 16 = .ok (s1, l) → tpParse l = some e → e.v = true → e.bnd = none →
        needPages s1 .sq e.base e.len (tpPerms e) = .ok (s2, pages) →
        ((s2.binding n.toNat).v = false ∨ bindingUsed s2 n.toNat = false) →
        pinRoom ((unpinAll s2 (s2.binding n.toNat).pages).onJob fun j => { j with bind := rowSet j.bind n.toNat TpEnt.init }) pages =
          true →
        let s3 := (unpinAll s2 (s2.binding n.toNat).pages).onJob fun j => { j with bind := rowSet j.bind n.toNat TpEnt.init }
        ∃ u, exec (.tbind p n preg) s = .next (advance .sq (sided u)) ∧ u.core.pins = (pinAll s3 pages).core.pins ∧
          row u.job.bind TpEnt.init n.toNat = { e with pages := pages })

/-- RDV and JOBEND whose checks pass take the sequencer to its next rendezvous, with or without job end; one that no engine can meet
faults with 0x0A. TRAP in a running job freezes it with the fault 0x14 of its own word and the code in FAULT2; R342 to R344: a
guard before any side effect is noted with its kind and value, a late one faults with cause 0, the seventeenth with cause 1.
(After R93, R94, R353, R356.) -/
def Obligations.RendezvousTrapGuard : Prop :=
  (
    ∀ (s : State) (p : Pred), enabled s .sq p = true →
      (rdvCheck s (wordRef s .sq) = none → ∀ (i : Instr) (j : Bool), (i = .rdv p ∧ j = false) ∨ (i = .jobend p ∧ j = true) →
        ∃ u, exec i s = .next (advance .sq (sided u)) ∧ cnt5 u.job.flow.rdvReached .sq = cnt5 s.job.flow.rdvReached .sq + 1 ∧
          row u.job.flow.flags (false, false) 0 = (false, j) ∧ u.job.flow.rdvDone = s.job.flow.rdvDone) ∧
      ((∃ e ∈ [Stream.ax, .mx, .vx, .sx], cnt5 s.job.flow.rdvIssued e < cnt5 s.job.flow.rdvReached .sq + 1) →
        exec (.rdv p) s = .next (takeFault s (faultAt s .sq 0x0A 0)) ∧
        exec (.jobend p) s = .next (takeFault s (faultAt s .sq 0x0A 0)))) ∧
  (
    ∀ (s : State) (p : Pred) (a : BitVec 6) (code : BitVec 16), enabled s .sq p = true →
      (s.job.st = .running → ∃ t, exec (.trap p code) s = .next t ∧ t.job.st = .frozen ∧ t.job.frozeAt = s.cyc ∧
        t.job.frec = some ⟨0x14, 0, wordRef s .sq, false, false, false, false, false, false, code.setWidth 64, 0⟩) ∧
      let k := s.job.guards.length
      let noted (v : Bool × W64) : State := s.onJob fun j => { j with guards := j.guards ++ [v] }
      (s.job.side = false → k < 16 →
        (ready s [a] = true → exec (.guard p a) s = .next (advance .sq (noted (false, s.reg a)))) ∧
        exec (.guardHealth p) s = .next (advance .sq (noted (true, healthWord s)))) ∧
      (s.job.side = true →
        (ready s [a] = true → exec (.guard p a) s = .next (takeFault s (faultAt s .sq 0x10 0 (BitVec.ofNat 64 k)))) ∧
        exec (.guardHealth p) s = .next (takeFault s (faultAt s .sq 0x10 0 (BitVec.ofNat 64 k)))) ∧
      (s.job.side = false → 16 ≤ k →
        (ready s [a] = true → exec (.guard p a) s = .next (takeFault s (faultAt s .sq 0x10 1 (BitVec.ofNat 64 k)))) ∧
        exec (.guardHealth p) s = .next (takeFault s (faultAt s .sq 0x10 1 (BitVec.ofNat 64 k)))))

/-- LDL delivers the bytes of local data memory, where they hold no uncorrectable error, little-endian, extended as its FN says,
three cycles later; STL writes the low bytes of B one cycle later; a misaligned offset faults with 0x12, one past the end of the
memory with 0x07, and nothing changes. An LD or ST of bytes that it may reach sends its request, with the physical address of the
leaf, and the sequencer goes on; device memory, the scratchpad and local data memory are as before; an address beyond 2^52 or a
misaligned one faults. The fields of the fault records are the model's reading (log 15). (After R66, R235.) -/
def Obligations.LocalAndDeviceAccess : Prop :=
  (
    ∀ (s : State) (p : Pred) (d : BitVec 5) (a b : BitVec 6) (w : BitVec 2) (sign : Bool) (imm : BitVec 56),
      enabled s .sq p = true → ready s [a, b] = true →
      let off := (s.reg a + imm.signExtend 64).toNat
      let n := 2 ^ w.toNat
      let v := leNat (rdBytes s.job.seq.ldm off n)
      (off % n = 0 → off + n ≤ 65536 →
        (readLdm s off n = .ok () → exec (.ldl p d a w sign imm) s = scalarDone 3 d (if sign = true ∧ 2 ^ (8 * n - 1) ≤ v % 2 ^ (8 * n)
          then BitVec.ofInt 64 ((v % 2 ^ (8 * n) : Nat) - 2 ^ (8 * n)) else BitVec.ofNat 64 (v % 2 ^ (8 * n))) s) ∧
        exec (.stl p a b w imm) s = issued .sq 1 (.ldm off (leBytes n (s.reg b).toNat)) s) ∧
      (off % n ≠ 0 →
        exec (.ldl p d a w sign imm) s = .next (takeFault s (faultAt s .sq 0x12 0 (BitVec.ofNat 64 off))) ∧
        exec (.stl p a b w imm) s = .next (takeFault s (faultAt s .sq 0x12 0 (BitVec.ofNat 64 off)))) ∧
      (off % n = 0 → 65536 < off + n →
        exec (.ldl p d a w sign imm) s = .next (takeFault s (faultAt s .sq 0x07 0 (BitVec.ofNat 64 off))) ∧
        exec (.stl p a b w imm) s = .next (takeFault s (faultAt s .sq 0x07 0 (BitVec.ofNat 64 off))))) ∧
  (
    ∀ (s : State) (p : Pred) (d : BitVec 5) (a b : BitVec 6) (w : BitVec 2) (sign : Bool) (imm : BitVec 56) (e : TlbEnt),
      enabled s .sq p = true → ready s [a, b] = true →
      let va := (s.reg a + imm.signExtend 64).toNat
      let n := 2 ^ w.toNat
      let pa := e.pa + (va - e.va)
      let kept (t : State) : Prop := t.dev.mem = s.dev.mem ∧ t.core.spad = s.core.spad ∧ t.job.seq.ldm = s.job.seq.ldm ∧
        t.job.seq.s = s.job.seq.s ∧ t.job.seq.f = s.job.seq.f ∧ t.job.dl = s.job.dl
      (reachable s va n e [.r] → loadsOut s false < 8 →
        ∃ u, exec (.ld p d a w sign imm) s = .next (advance .sq (sided u)) ∧ kept u ∧
          u.job.seq.ldOut = s.job.seq.ldOut ++ [⟨d.toNat, false, s.job.cycle⟩] ∧
          underWay (leaveCycle s (walkedFor s .sq va .r))
            ⟨.core s.coreNo, party s 0, racePhase s, .read, .ld d w sign, pa, va, n, [], wordRef s .sq, s.job.cycle⟩ u) ∧
      (reachable s va n e [.w] → storeRoom s = true →
        ∃ u, exec (.st p a b w imm) s = .next (advance .sq (sided u)) ∧ kept u ∧ u.job.seq.stOut = s.job.seq.stOut + 1 ∧
          underWay (leaveCycle s (walkedFor s .sq va .w))
            ⟨.core s.coreNo, party s 0, racePhase s, .write, .st, pa, va, n, leBytes n (s.reg b).toNat, wordRef s .sq, 0⟩ u) ∧
      (2 ^ 52 ≤ va →
        exec (.ld p d a w sign imm) s = .next (takeFault s (faultAt s .sq 0x06 0 (BitVec.ofNat 64 va))) ∧
        exec (.st p a b w imm) s = .next (takeFault s (faultAt s .sq 0x06 0 (BitVec.ofNat 64 va)))) ∧
      (va < 2 ^ 52 → va % n ≠ 0 →
        exec (.ld p d a w sign imm) s = .next (takeFault s (faultAt s .sq 0x12 0 (BitVec.ofNat 64 va))) ∧
        exec (.st p a b w imm) s = .next (takeFault s (faultAt s .sq 0x12 0 (BitVec.ofNat 64 va)))))

/-- An AMO of bytes that it may reach sends its operation, operand and comparand to the home engine of its line; without ACQ the
sequencer goes on, with ACQ it stays at the word. (After R273, R274.) -/
def Obligations.AtomicsLeave : Prop :=
  ∀ (s : State) (p : Pred) (d : BitVec 5) (a b c : BitVec 6) (x : AmoX) (e : TlbEnt) (op : AmoOp) (i : Instr),
    (op, i) ∈ [(AmoOp.add, Instr.amoAdd p d a b x), (.min, .amoMin p d a b x), (.max, .amoMax p d a b x),
      (.minn, .amoMinn p d a b x), (.maxn, .amoMaxn p d a b x), (.and, .amoAnd p d a b x), (.or, .amoOr p d a b x),
      (.xor, .amoXor p d a b x), (.swap, .amoSwap p d a b x), (.cas, .amoCas p d a b c x)] →
    enabled s .sq p = true → ready s [a, b, c] = true → (s.micro .sq).phase ≠ 1 →
    let va := (s.reg a + x.off.signExtend 64).toNat
    let n := if x.w64 = true then 8 else 4
    let low (v : W64) : W64 := BitVec.ofNat 64 (v.toNat % 2 ^ (8 * n))
    reachable s va n e [.r, .w] → (x.rel = true → allServed s = true) → loadsOut s true < 8 →
    let r : AtomReq := ⟨.core, .amo op, va, e.pa + (va - e.va), n, low (s.reg b), if op = .cas then low (s.reg c) else 0, d, x.acq,
      x.rel, atomParty s, racePhase s, passes s (party s 0), wordRef s .sq, s.job.cycle⟩
    ∃ u, exec i s = .next (if x.acq = true then stalled .sq .other u else advance .sq (sided u)) ∧
      u.job.seq.ldOut = s.job.seq.ldOut ++ [⟨d.toNat, true, s.job.cycle⟩] ∧
      u.job.seq.amoOut = s.job.seq.amoOut ++ [(va, n)] ∧ u.dev.mem = s.dev.mem ∧ u.core.spad = s.core.spad ∧
      (x.acq = true → (u.micro .sq).phase = 1) ∧
      atEngine (leaveCycle s (walkedFor s .sq va .r || walkedFor s .sq va .w)) r u

/-- SEMPOST sends its request once every earlier store is served and goes on; WAITMEM and SEMWAIT send theirs and stay at the word
until the engine answers; a word that has sent its request only waits. FENCE goes on when what its scope waits for has come to
pass and stalls before; BARW.core raises PHASE0 by one and delivers it; a BARW whose arrival has been completed delivers the count
it was given; a level that is not in DOM faults. (After R258, R275, R257, R281.) -/
def Obligations.WaitsFencesBarriers : Prop :=
  (
    ∀ (s : State) (p : Pred) (d : BitVec 5) (a b : BitVec 6) (w : BitVec 2) (cc : Cond) (imm : BitVec 56) (e : TlbEnt),
      enabled s .sq p = true → ready s [a, b] = true →
      let va := (s.reg a + imm.signExtend 64).toNat
      let n := 2 ^ w.toNat
      let req (k : AtomKind) (size : Nat) (v : W64) (r : BitVec 5) (acq rel : Bool) : AtomReq :=
        ⟨.core, k, va, e.pa + (va - e.va), size, v, 0, r, acq, rel, atomParty s, racePhase s, passes s (party s 0), wordRef s .sq,
          s.job.cycle⟩
      (reachable s va 8 e [.r, .w] → allServed s = true → storeRoom s = true →
        ∃ u, exec (.sempost p a b imm) s = .next (advance .sq (sided u)) ∧ u.job.seq.postOut = s.job.seq.postOut ++ [va] ∧
          atEngine (leaveCycle s (walkedFor s .sq va .r || walkedFor s .sq va .w)) (req .sempost 8 (s.reg b) 0 false true) u) ∧
      ((s.micro .sq).phase ≠ 1 → reachable s va n e [.r] →
        ∃ u, exec (.waitmem p d a b w cc imm) s = .next (stalled .sq .watch u) ∧ (u.micro .sq).phase = 1 ∧
          atEngine (leaveCycle s (walkedFor s .sq va .r))
            (req (.waitmem cc) n (BitVec.ofNat 64 ((s.reg b).toNat % 2 ^ (8 * n))) d true false) u) ∧
      ((s.micro .sq).phase ≠ 1 → reachable s va 8 e [.r, .w] →
        ∃ u, exec (.semwait p d a b imm) s = .next (stalled .sq .watch u) ∧ (u.micro .sq).phase = 1 ∧
          atEngine (leaveCycle s (walkedFor s .sq va .r || walkedFor s .sq va .w)) (req .semwait 8 (s.reg b) d true false) u) ∧
      ((s.micro .sq).phase = 1 →
        exec (.waitmem p d a b w cc imm) s = .next (stalled .sq .watch s) ∧
        exec (.semwait p d a b imm) s = .next (stalled .sq .watch s))) ∧
  (
    ∀ (s : State) (p : Pred) (sc : Scope) (d : BitVec 5) (a : BitVec 6) (lvl : BitVec 3), enabled s .sq p = true →
      let met := fenceCore s = true ∧ (sc ≠ .core → allServed s = true) ∧
        (sc = .gang → s.job.seq.remOut = 0 ∧ ∀ r ∈ s.grp.rems, r.jobId ≠ s.job.id)
      (met → exec (.fence p sc) s = .next (advance .sq (sided s))) ∧
      (¬met → exec (.fence p sc) s = .next (stalled .sq .other s)) ∧
      ((s.micro .sq).phase = 2 → exec (.barw p d a lvl) s =
        .next (advance .sq (sided (later .sq 1 (.sreg d.toNat (s.micro .sq).val) s)))) ∧
      ((s.micro .sq).phase = 0 → lvl = 0 → s.job.levels.getLsbD 0 = true → barwReady s = true →
        ∃ u, exec (.barw p d a lvl) s = .next (advance .sq (sided u)) ∧ u.job.phase0 = s.job.phase0 + 1 ∧
          u.job.dl = s.job.dl ++ [⟨s.job.cycle + 1, .sq, 0, s.job.cycle, .sreg d.toNat (BitVec.ofNat 64 (s.job.phase0 + 1))⟩]) ∧
      ((s.micro .sq).phase = 0 → s.job.levels.getLsbD lvl.toNat = false →
        exec (.barw p d a lvl) s = .next (takeFault s (faultAt s .sq 0x16 1 (BitVec.ofNat 64 lvl.toNat)))) ∧
      ((s.micro .sq).phase = 0 → 1 ≤ lvl.toNat → lvl.toNat ≤ 3 → s.job.levels.getLsbD lvl.toNat = true → barwReady s = true →
        ∃ u, exec (.barw p d a lvl) s = .next (stalled .sq .barw u) ∧ (u.micro .sq).phase = 1 ∧
          myKey s ∈ (domOf u lvl.toNat).arrived))

/-! ### Special registers, handles, loops and the access engine -/

/-- CAPRD delivers the capability word at A plus the immediate, CSRRD the control register of its number, one cycle later: the
capabilities, DOM, the phase counts, WBASE, TSHAPE, BFMT, the outtake registers, STEP, LATVER, CORE, JOBID, JCYCLE and the
four fault words. GROUPRD delivers from a process-group table that R285 admits the rank, size, neighbours, share, member, own node or
identifier that its FN names, one cycle later; a table whose address is not a multiple of 64 faults with 0x12. (After R3, R67,
R285, R286.) -/
def Obligations.SpecialReads : Prop :=
  (
    ∀ (s : State) (p : Pred) (d : BitVec 5) (a : BitVec 6) (imm : BitVec 56) (num : BitVec 12), enabled s .sq p = true →
      let n := num.toNat
      let put (v : W64) : State := advance .sq (sided (later .sq 1 (.sreg d.toNat v) s))
      let reads (v : W64) : Prop := exec (.csrrd p d num) s = .next (put v)
      (ready s [a] = true →
        exec (.caprd p d a imm) s = .next (put (Config.cap s.variant s.stepping (s.reg a + imm.signExtend 64).toNat))) ∧
      (n < 8 → reads (Config.cap s.variant s.stepping n)) ∧ (n = 0x010 → reads (s.job.levels.setWidth 64)) ∧
      (∀ l, l < 5 → n = 0x018 + l → reads (if s.job.levels.getLsbD l = true then BitVec.ofNat 64 (phaseOf s l) else 0)) ∧
      (n = 0x020 → reads (s.job.vx.wbase.setWidth 64)) ∧
      (∀ k, k < 32 → n = 0x040 + k → (s.plane k).owner ≠ some s.job.ctx → reads 0) ∧
      (∀ k, k < 32 → n = 0x040 + k → (s.plane k).owner = some s.job.ctx →
        reads ((if (s.plane k).cfg = true then 2 ^ 15 else 0) + (if (s.plane k).dirty = true then 2 ^ 14 else 0) +
          (s.plane k).shape.setWidth 64)) ∧
      (∀ k, k < 16 → n = 0x060 + k → reads (row s.job.bfmt 0 k)) ∧
      (n = 0x070 → reads s.job.ot.base) ∧ (n = 0x071 → reads (BitVec.ofNat 64 s.job.ot.hi)) ∧
      (n = 0x072 → reads (BitVec.ofNat 64 s.job.ot.lo)) ∧
      (∀ k, k < 8 → n = 0x078 + k → reads ((row s.core.step 0 k).setWidth 64)) ∧
      (n = 0x080 → reads 1) ∧
      (n = 0x081 → let c := Config.coreNode s.coreNo
        reads (BitVec.ofNat 64 (s.coreNo * 2 ^ 16 + Config.coreCluster s.coreNo * 2 ^ 12 + c.die * 2 ^ 8 + c.y * 2 ^ 4 + c.x))) ∧
      (n = 0x082 → reads (BitVec.ofNat 64 s.job.id)) ∧ (n = 0x083 → reads (BitVec.ofNat 64 s.job.cycle)) ∧
      (∀ k, k < 4 → n = 0x090 + k → reads (row s.job.freg 0 k))) ∧
  (
    ∀ (s s1 : State) (p : Pred) (d : BitVec 5) (a b : BitVec 6) (fn : GrpFn) (t : PgTable), enabled s .sq p = true →
      ready s [a, b] = true →
      ((s.reg a).toNat % 64 ≠ 0 →
        exec (.grouprd p d a b fn) s = .next (takeFault s (faultAt s .sq 0x12 0 (BitVec.ofNat 64 (s.reg a).toNat)))) ∧
      (groupTable s .sq (s.reg a).toNat = .ok (s1, t) →
        let x := (s.reg b).toNat
        let n := t.nodes.length
        let done (v : Nat) : Prop :=
          exec (.grouprd p d a b fn) s = .next (advance .sq (sided (later .sq 1 (.sreg d.toNat (BitVec.ofNat 64 v)) s1)))
        (fn = .size → done n) ∧ (fn = .gid → done t.gid) ∧ (fn = .self → done s.node.toNat) ∧
        (fn = .node → done (if h : x < n then t.nodes[x] else 2 ^ 64 - 1)) ∧
        (s.node.toNat ∉ t.nodes → (fn ∈ [GrpFn.rank, .left, .right] → done n) ∧ (fn ∈ [GrpFn.start, .count] → done 0)) ∧
        (∀ r, t.nodes[r]? = some s.node.toNat → (∀ k < r, t.nodes[k]? ≠ some s.node.toNat) →
          (fn = .rank → done r) ∧ (fn = .left → done ((r + n - 1) % n)) ∧ (fn = .right → done ((r + 1) % n)) ∧
          (fn = .start → done (r * (x / n) + Nat.min r (x % n))) ∧ (fn = .count → done (x / n + if r < x % n then 1 else 0)))))

/-- CSRWR to a read-only register faults with 0x07. A write to DOM, OTBASE, OTHI, OTLO or STEPn waits until every issued section has
retired. A value of OTHI or OTLO that leaves legal thresholds takes effect on the next cycle, one of STEPn below 2^32 at once; another
faults with 0x02. A write of OTBASE binds the stack's memory in place of the one before and pins its pages; a malformed one faults with
0x02, one while bytes of the stack are spilled with 0x0B. A write of DOM that R279 admits makes the job a member of the levels that it
names and of no other; one without level 0 or with a level above 4 faults with 0x02, with the gang level and no gang with 0x07, one
that leaves a level in its odd phase with 0x16. (After R67, R68, R197, R277 to R279.) -/
def Obligations.SpecialWrites : Prop :=
  (
    ∀ (s : State) (p : Pred) (num : BitVec 12) (n : BitVec 3) (a : BitVec 6), enabled s .sq p = true →
      let v := s.reg a
      let trap (code : Nat) : Host.Outcome State Fault Refusal := .next (takeFault s (faultAt s .sq code 0))
      exec (.csrwr p num a) s = trap 0x07 ∧
      (ready s [a] = true → (∃ e ∈ [Stream.ax, .mx, .vx, .sx], cnt5 s.job.flow.issued e ≠ cnt5 s.job.flow.retired e) →
        ∀ i ∈ [Instr.domWrite p a, .otbaseWrite p a, .othiWrite p a, .otloWrite p a, .stepWrite p n a],
          exec i s = .next (stalled .sq .other s)) ∧
      (ready s [a] = true → (∀ e ∈ [Stream.ax, .mx, .vx, .sx], cnt5 s.job.flow.issued e = cnt5 s.job.flow.retired e) →
        let legal (hi lo : Nat) : Prop := hi ≤ 1024 ∧ (lo = 0 ∨ lo + 16 ≤ hi)
        (legal v.toNat s.job.ot.lo → exec (.othiWrite p a) s = .next (advance .sq (sided (later .sq 1 (.othr true v.toNat) s)))) ∧
        (legal s.job.ot.hi v.toNat → exec (.otloWrite p a) s = .next (advance .sq (sided (later .sq 1 (.othr false v.toNat) s)))) ∧
        (¬legal v.toNat s.job.ot.lo → exec (.othiWrite p a) s = trap 0x02) ∧
        (¬legal s.job.ot.hi v.toNat → exec (.otloWrite p a) s = trap 0x02) ∧
        (v.toNat < 2 ^ 32 → exec (.stepWrite p n a) s = .next (advance .sq (sided (s.onCore fun c =>
          { c with step := rowSet c.step n.toNat (v.setWidth 32) })))) ∧
        (2 ^ 32 ≤ v.toNat → exec (.stepWrite p n a) s = trap 0x02))) ∧
  (
    ∀ (s : State) (p : Pred) (a : BitVec 6), enabled s .sq p = true → ready s [a] = true →
      (∀ e ∈ [Stream.ax, .mx, .vx, .sx], cnt5 s.job.flow.issued e = cnt5 s.job.flow.retired e) →
      let v := s.reg a
      let size := v.toNat / 2 ^ 52 * 2 ^ 20
      let base := v.toNat / 2 ^ 12 % 2 ^ 40 * 2 ^ 12
      let trap (code cause : Nat) (f2 : W64) : Host.Outcome State Fault Refusal := .next (takeFault s (faultAt s .sq code cause f2))
      (v.toNat % 2 ^ 12 ≠ 0 ∨ 2 ^ 52 < base + size → exec (.otbaseWrite p a) s = trap 0x02 0 0) ∧
      (v.toNat % 2 ^ 12 = 0 → base + size ≤ 2 ^ 52 → 0 < s.job.ot.sp → exec (.otbaseWrite p a) s = trap 0x0B 6 0) ∧
      (∀ s1 pages, v.toNat % 2 ^ 12 = 0 → base + size ≤ 2 ^ 52 → s.job.ot.sp = 0 →
        (size = 0 ∧ s1 = s ∧ pages = [] ∨ size ≠ 0 ∧ needPages s .sq base size [.r, .w] = .ok (s1, pages)) → pinRoom s1 pages = true →
        ∃ t, exec (.otbaseWrite p a) s = .next t ∧ t.job.ot = { s1.job.ot with base := v } ∧ t.job.otPages = pages ∧
          t.core.pins = (pinAll (unpinAll s1 s1.job.otPages) pages).core.pins) ∧
      (v.getLsbD 0 = false ∨ 32 ≤ v.toNat → exec (.domWrite p a) s = trap 0x02 0 0) ∧
      (v.getLsbD 0 = true → v.toNat < 32 → v.getLsbD 4 = true → s.job.l.gang = none → exec (.domWrite p a) s = trap 0x07 0 0) ∧
      (v.getLsbD 0 = true → v.toNat < 32 → (v.getLsbD 4 = true → s.job.l.gang.isSome = true) →
        let leaves (l : Nat) : Prop := s.job.levels.getLsbD l = true ∧ v.getLsbD l = false
        (∀ l, 1 ≤ l → l ≤ 4 → leaves l → phaseOf s l % 2 = 1 → (∀ m, 1 ≤ m → m < l → leaves m → phaseOf s m % 2 ≠ 1) →
          exec (.domWrite p a) s = trap 0x16 2 (BitVec.ofNat 64 l)) ∧
        ((∀ l, 1 ≤ l → l ≤ 4 → leaves l → phaseOf s l % 2 = 0) →
          ∃ t, exec (.domWrite p a) s = .next t ∧ t.job.levels = v.setWidth 5 ∧
            ∀ l, 1 ≤ l → l ≤ 4 →
              (s.job.levels.getLsbD l = false → v.getLsbD l = true → myKey s ∈ (domOf t l).members) ∧
              (leaves l → myKey s ∉ (domOf t l).members))))

/-- The handle words of every stream. QINIT starts a handle that nothing holds, and faults with 0x0A at one that something holds;
WAITF and WAITE go on when the slots that they wait for are full or free and wait before, ADVH and ADVT move the handle one cycle
later; a handle that is not initialised, or whose QINIT has not landed, a stream that has not the role, or a count beyond the depth
faults with 0x0A. Before the engine points of a cycle on which a slot of the handle may be published, each of them waits for these
(R191). An enabled LOOP of its engine's next level, whose body fits, enters its body with a frame of its count, or, with count 0 or
disabled, goes on after its body; a level that is not the next, a body that does not fit or a count above 2^32 - 1 faults with 0x02.
That a disabled LOOP skips its body is the model's reading (log 17). (After R96, R97, R99, R167, R168.) -/
def Obligations.HandlesAndLoops : Prop :=
  (
    ∀ (s : State) (p : Pred) (h : BitVec 4) (base : BitVec 22) (sz : BitVec 3) (depth n : BitVec 10) (prod cons : BitVec 3),
      enabled s s.turn p = true →
      let st := s.turn
      let x := s.handle h.toNat
      let k := n.toNat
      let bad : Host.Outcome State Fault Refusal := .next (takeFault s (faultAt s st 0x0A 0 (BitVec.ofNat 64 h.toNat)))
      let init : Instr := .qinit p h base sz depth prod cons
      let isProd := handleOn s h.toNat = true ∧ x.prod = st.idx
      let isCons := handleOn s h.toNat = true ∧ x.cons = st.idx
      let settled := s.core.won.isSome = true ∨ ∀ w ∈ s.core.writes, w.h = h.toNat → w.pub = 0
      (¬settled → ∀ i ∈ [init, .waitf p h n, .waite p h n, .advh p h n, .advt p h n], exec i s = .next (stalled st .slot s)) ∧
      (settled → (base.toNat % 64 = 0 → base.toNat + depth.toNat * (64 * 2 ^ sz.toNat) ≤ 2 ^ 22 →
        (x.init = true → x.f = 0 ∧ x.u = 0 ∧ x.v = 0 ∧ handleWritten s h.toNat = false) →
        exec init s = handleDone s (later st 1 (.qinit h.toNat base.toNat sz.toNat depth.toNat prod.toNat cons.toNat) s)) ∧
      (base.toNat % 64 ≠ 0 → exec init s = .next (takeFault s (faultAt s st 0x12 0 (base.setWidth 64)))) ∧
      (base.toNat % 64 = 0 → 2 ^ 22 < base.toNat + depth.toNat * (64 * 2 ^ sz.toNat) →
        exec init s = .next (takeFault s (faultAt s st 0x07 0 (base.setWidth 64)))) ∧
      (base.toNat % 64 = 0 → base.toNat + depth.toNat * (64 * 2 ^ sz.toNat) ≤ 2 ^ 22 → x.init = true →
        x.f ≠ 0 ∨ x.u ≠ 0 ∨ x.v ≠ 0 ∨ handleWritten s h.toNat = true → exec init s = bad) ∧
      (isCons → k ≤ x.depth → k ≤ x.f →
        ∃ u, exec (.waitf p h n) s = handleDone s u ∧ u.core.spad = s.core.spad ∧ u.dev = s.dev ∧ u.handle h.toNat = x) ∧
      (isCons → k ≤ x.depth → x.f < k → exec (.waitf p h n) s = .next (stalled st .slot s)) ∧
      (isProd → k ≤ x.depth → k ≤ x.depth - x.f → exec (.waite p h n) s = handleDone s s) ∧
      (isProd → k ≤ x.depth → x.depth - x.f < k → exec (.waite p h n) s = .next (stalled st .slot s)) ∧
      (isCons → k ≤ x.f → exec (.advh p h n) s = handleDone s (if k = 0 then s else later st 1 (.advh h.toNat k true) s)) ∧
      (isProd → slotWritesOut s st h.toNat k = false → k ≤ x.depth - x.f →
        exec (.advt p h n) s = handleDone s (if k = 0 then s else later st 1 (.advt h.toNat k (passes s (strParty s st))) s)) ∧
      (¬isCons ∨ x.depth < k → exec (.waitf p h n) s = bad) ∧ (¬isProd ∨ x.depth < k → exec (.waite p h n) s = bad) ∧
      (¬isCons ∨ x.f < k → exec (.advh p h n) s = bad) ∧
      (¬isProd ∨ (slotWritesOut s st h.toNat k = false ∧ x.depth - x.f < k) → exec (.advt p h n) s = bad))) ∧
  (
    ∀ (s : State) (p : Pred) (lvl : BitVec 2) (cnt : LoopCnt) (bl : BitVec 8) (wa : Bool) (q : QEnt), s.turn ≠ .sq →
      (s.eng s.turn).cur = some q → (∀ fr ∈ (s.eng s.turn).frames, fr.stop ≤ hdrLen q.hdr) →
      let e := s.eng s.turn
      let body := e.idx + 1
      let stop := body + bl.toNat + 1
      let n := match cnt with | .imm k => k.toNat | .z r => (row s.job.seq.z 0 r.toNat).toNat
      let room := match e.frames with | fr :: _ => fr.stop | [] => hdrLen q.hdr
      let legal := n < 2 ^ 32 ∧ lvl.toNat = e.frames.length ∧ stop ≤ room
      (enabled s s.turn p = true → legal → 0 < n →
        ∃ t, exec (.loop p lvl cnt bl wa) s = .next t ∧ (t.eng s.turn).idx = body ∧ (t.eng s.turn).cur = some q ∧
          (t.eng s.turn).frames = ⟨body, stop, n, 0, wa⟩ :: e.frames) ∧
      ((enabled s s.turn p = true ∧ legal ∧ n = 0) ∨ enabled s s.turn p = false →
        exec (.loop p lvl cnt bl wa) s = .next (engineTo s.turn stop (issuedWord s.turn s))) ∧
      (enabled s s.turn p = true → ¬legal →
        exec (.loop p lvl cnt bl wa) s = .next (takeFault s (faultAt s s.turn 0x02 0))))

/-- BFMTW writes a legal format of a bank that no move holds, PSET a port from the descriptor that it has read, PRST restarts a
drained port or takes its configuration away; an illegal operand faults with 0x02, an offset that is not a multiple of 64 with
0x12. FILL moves one vector a cycle from a port into the slots of a handle and publishes them with its last, SPILLQ moves one from
the slots to a port and frees them with its last; OMLD takes the rows of a tile from a port into an empty operand slot and fills
it with its last. A move of nothing completes at once. On which cycles these words make their requests is the model's reading (log
16). (After R121, R122, R124, R126, R133, R134.) -/
def Obligations.PortsAndMoves : Prop :=
  (
    ∀ (s : State) (p : Pred) (g : BitVec 3) (bank : BitVec 4) (v : VSrc), enabled s .ax p = true →
      let x := vOf s v
      let q := s.port g.toNat
      let m := s.micro .ax
      let trap (code : Nat) (f2 : W64) : Host.Outcome State Fault Refusal := .next (takeFault s (faultAt s .ax code 0 f2))
      (2 ^ 22 ≤ x.toNat → exec (.pset p g v) s = trap 0x02 0) ∧
      (x.toNat < 2 ^ 22 → x.toNat % 64 ≠ 0 → exec (.pset p g v) s = trap 0x12 x) ∧
      (x.toNat < 2 ^ 22 → x.toNat % 64 = 0 → m.phase = 0 →
        (portDrained s g.toNat = true → exec (.pset p g v) s = carriesOn .ax { m with phase := 1 } .slot s) ∧
        (portDrained s g.toNat = false → exec (.pset p g v) s = .next (stalled .ax .port s))) ∧
      (∀ ds, x.toNat < 2 ^ 22 → x.toNat % 64 = 0 → m.phase ≠ 0 → slotData s .ax [(x.toNat, 64)] = .ok [ds] →
        (∀ c, parsePort s x.toNat ds = some c → exec (.pset p g v) s = .next (advance .ax (s.setPort g.toNat c))) ∧
        (parsePort s x.toNat ds = none → exec (.pset p g v) s = trap 0x02 x)) ∧
      (2 ≤ x.toNat → exec (.prst p g v) s = trap 0x02 0) ∧
      (x.toNat < 2 → q.cfg = true → portDrained s g.toNat = true →
        exec (.prst p g v) s = .next (advance .ax (later .ax 1 (.port g.toNat (if x = 0
          then { q with pos := 0, fpos := 0, buf := [], out := [] } else Port.init)) s))) ∧
      (x.toNat < 2 → q.cfg = true → portDrained s g.toNat = false → exec (.prst p g v) s = .next (stalled .ax .port s)) ∧
      (badBfmt x = true → exec (.bfmtw p bank v) s = trap 0x02 0) ∧
      (badBfmt x = false → (fmtCode x = 0xA → Config.res16 s.variant = true) →
        (x.extractLsb' 58 2 ≠ 0 → x.toNat % 2 ^ 22 % 4 = 0) →
        (∀ e ∈ s.core.sb, ¬(e.lo < (bank.toNat + 1) * 2 ^ 18 ∧ bank.toNat * 2 ^ 18 < e.hi)) →
        exec (.bfmtw p bank v) s = .next (advance .ax (later .ax 1 (.bfmt bank.toNat x) s)))) ∧
  (
    ∀ (s : State) (p : Pred) (h : BitVec 4) (g : BitVec 3) (v : VSrc) (o : BitVec 6), enabled s .ax p = true →
      let n := (vOf s v).toNat
      let m := s.micro .ax
      let free := (s.handle h.toNat).depth - (s.handle h.toNat).f
      let step (i : Instr) (k : Nat) (u : State) : Prop := ∃ w, exec i s = carriesOn .ax { m with k := k } w u
      (512 < n → ∀ i ∈ [Instr.fill p h g v, .spillq p h g v], exec i s = .next (takeFault s (faultAt s .ax 0x02 0))) ∧
      (n ≤ 512 → m.phase = 0 → checkMove s h.toNat g.toNat n true = .ok () → free < n →
        exec (.fill p h g v) s = .next (stalled .ax .slot s)) ∧
      (m.phase = 0 → n = 0 → checkMove s h.toNat g.toNat n true = .ok () → exec (.fill p h g v) s = .next (advance .ax s)) ∧
      (n ≤ 512 → m.phase = 1 → axWriteOut s = false →
        (m.k = n → exec (.fill p h g v) s = .next (advance .ax (later .ax 1 (.advt h.toNat n (passes s (strParty s .ax))) s))) ∧
        (m.k < n → popReady s g.toNat 1 = true → checkPops s .ax g.toNat 1 = .ok () →
          step (.fill p h g v) (m.k + 1) (fillVector h.toNat g.toNat m.k s))) ∧
      (m.phase = 0 → n = 0 → checkMove s h.toNat g.toNat n false = .ok () → exec (.spillq p h g v) s = .next (advance .ax s)) ∧
      (∀ d, n ≤ 512 → m.phase = 1 → m.k < n → pushRoom s g.toNat = true →
        let x := s.handle h.toNat
        slotData s .ax [(slotAddr x x.rh m.k, vecCount (s.port g.toNat) * slotWidth s (s.port g.toNat) (slotAddr x x.rh m.k))] = .ok [d] →
        ∃ u, u = spillVector h.toNat g.toNat m.k d (s.setMicro .ax m) ∧
          (m.k + 1 = n → exec (.spillq p h g v) s = .next (advance .ax (later .ax 1 (.advh h.toNat n true) u))) ∧
          (m.k + 1 < n → exec (.spillq p h g v) s = carriesOn .ax { m with k := m.k + 1, rds := [] } .slot u)) ∧
      (∀ t : Ty, let x := vOf s v
        let port := x.toNat % 8
        let rows := x.toNat / 2 ^ 8 % 2 ^ 7
        x.toNat < 2 ^ 15 → x.getLsbD 3 = false → 1 ≤ rows → rows ≤ 64 → t.code = x.extractLsb' 4 4 →
        t = .bf16 ∨ t = .f16 ∨ t.isRes = true → (t = .res16 → o.toNat % 2 = 0 ∧ Config.res16 s.variant = true) → m.phase = 1 →
        (m.k = rows → exec (.omld p o v) s = .next (advance .ax (later .ax 1 (.ofull o.toNat) s))) ∧
        (m.k < rows → popReady s port 1 = true → checkPops s .ax port 1 = .ok () →
          let r := popPort .ax port t .rne false s
          step (.omld p o v) (m.k + 1) (later .ax 1 (.orow o.toNat m.k (r.2.map (oElem t)))
            (setSticky .ax (r.2.any (oNcr t)) false r.1)))))

/-- SPMOVE of a legal range puts its range on the scoreboard and reads and writes it whole, and completes when it has written all; one
of no bytes completes at once, an illegal one faults and changes nothing. R136, R283: SENDT pops one vector and sends it, to
arrive after the travel that it names; without a communication step, or with another travel, it faults. When SPMOVE reads and
where SENDT makes its checks is the model's reading (logs 16 and 25). (After R132, R135.) -/
def Obligations.SpmoveAndSendt : Prop :=
  ∀ (s : State) (p : Pred) (g : BitVec 3) (v : VSrc), enabled s .ax p = true →
    let x := vOf s v
    let m := s.micro .ax
    let src := x.toNat % 2 ^ 22
    let dst := x.toNat / 2 ^ 22 % 2 ^ 22
    let len := 64 * (x.toNat / 2 ^ 44 % 2 ^ 17)
    let trap (code cause : Nat) (f2 f3 : W64) : Host.Outcome State Fault Refusal := .next (takeFault s (faultAt s .ax code cause f2 f3))
    let mv : Instr := .spmove p v
    (m.phase ≠ 9 → 65536 < len / 64 ∨ 2 ^ 61 ≤ x.toNat → exec mv s = trap 0x02 0 0 0) ∧
    (m.phase ≠ 9 → len / 64 ≤ 65536 → x.toNat < 2 ^ 61 →
      (src % 64 ≠ 0 → exec mv s = trap 0x12 0 (BitVec.ofNat 64 src) 0) ∧
      (src % 64 = 0 → dst % 64 ≠ 0 → exec mv s = trap 0x12 0 (BitVec.ofNat 64 dst) 0) ∧
      (src % 64 = 0 → dst % 64 = 0 →
        (2 ^ 22 < src + len → exec mv s = trap 0x07 0 (BitVec.ofNat 64 src) 0) ∧
        (src + len ≤ 2 ^ 22 → 2 ^ 22 < dst + len → exec mv s = trap 0x07 0 (BitVec.ofNat 64 dst) 0) ∧
        (src + len ≤ 2 ^ 22 → dst + len ≤ 2 ^ 22 →
          (len = 0 → exec mv s = .next (advance .ax s)) ∧
          (0 < len → 64 ≤ s.core.sb.length → exec mv s = .next (stalled .ax .other s)) ∧
          (0 < len → s.core.sb.length < 64 →
            exec mv s = carriesOn .ax { m with phase := 9, k := 0, val := x, got := [], due := s.job.cycle } .other
              (enterSb ⟨none, s.coreNo, min src dst, max src dst + len, s.cyc, true⟩ s))))) ∧
    (m.phase = 9 →
      (m.k < 2 * len → exec mv s = .next (stalled .ax .other s)) ∧
      (2 * len ≤ m.k → exec mv s = .next (advance .ax (s.onCore fun c =>
        { c with sb := c.sb.filter fun e => !(decide (e.owner = none) && decide (e.core = s.coreNo)) })))) ∧
    let arr := x.toNat % 2 ^ 16
    let slot := BitVec.ofNat 9 (x.toNat / 2 ^ 16)
    let h := BitVec.ofNat 4 (x.toNat / 2 ^ 25)
    let core := x.toNat / 2 ^ 29 % 2 ^ 7
    let q := s.port g.toNat
    let n := vecCount q
    let t := Config.travelCore s.coreNo core
    let snd : Instr := .sendt p g v
    (2 ^ 36 ≤ x.toNat → exec snd s = trap 0x02 0 0 0) ∧
    (x.toNat < 2 ^ 36 → Config.cores s.variant ≤ core → exec snd s = trap 0x04 0 0 0) ∧
    (x.toNat < 2 ^ 36 → core < Config.cores s.variant → checkPort s .ax g.toNat false n (eszBytes q) = .ok () →
      (commLevel s = none → exec snd s = trap 0x16 0 0 0) ∧
      ∀ lvl, commLevel s = some lvl →
        (popReady s g.toNat 1 = false → exec snd s = .next (stalled .ax .port s)) ∧
        (popReady s g.toNat 1 = true → checkPops s .ax g.toNat 1 = .ok () →
          (arr = t → sharesStep s core lvl = true →
            let r := popRaw g.toNat s
            ∃ u, exec snd s = .next (advance .ax u) ∧ u.job.sendOut = r.1.job.sendOut + 1 ∧ u.core = r.1.core ∧
              ∃ e ∈ u.agenda, e.at_ = s.cyc + t ∧ e.ev = .sendtArrival ⟨s.coreNo, core, if core = s.coreNo then s.job.id else 0, h, slot,
                fit (n * eszBytes q) (r.2.flatMap fun y => leBytes (eszBytes q) y.bits.toNat), arr, t, wordRef s .ax,
                passes r.1 (strParty s .ax), racePhase s⟩) ∧
          (arr ≠ t ∨ sharesStep s core lvl = false →
            exec snd s = trap 0x09 (if arr = t then 1 else 0)
              (BitVec.ofNat 64 (s.coreNo + core * 2 ^ 7 + h.toNat * 2 ^ 14 + slot.toNat * 2 ^ 18)) (BitVec.ofNat 64 (arr + t * 2 ^ 16)))))

/-- A COPY or COPYX whose checks pass enters the copy queue with its ends, walk, follow-on and post, and binds its token, which is
busy from then on; memory is as before. A descriptor that is not at a multiple of 64 faults with 0x12, one that breaks its rules
with 0x02; a busy token holds the word up. CWAIT delivers the status of a token that is not busy and joins what it passed on, and
waits while it is; CTEST delivers whether it is not busy, and never waits. (After R264, R269, R270.) -/
def Obligations.CopiesAndTokens : Prop :=
  (
    ∀ (s : State) (p : Pred) (t : BitVec 4) (preg sreg dreg : BitVec 6) (ext : Bool) (i : Instr),
      (ext = false ∧ i = .copy p t preg sreg dreg) ∨ (ext = true ∧ i = .copyx p t preg sreg dreg) →
      enabled s .sq p = true → ready s [preg, sreg, dreg] = true →
      let a := s.reg preg
      (a.toNat % 64 ≠ 0 → exec i s = .next (takeFault s (faultAt s .sq 0x12 0 a))) ∧
      ∀ (s1 : State) (l : List Byte), a.toNat % 64 = 0 → descRead s .sq a.toNat 192 = .ok (s1, l) →
        let src := if sreg = 0 then field64 l 8 else s1.reg sreg
        let dst := if dreg = 0 then field64 l 16 else s1.reg dreg
        (parseCopy l src dst = none → exec i s = .next (takeFault s1 (faultAt s1 .sq 0x02 0 a))) ∧
        ∀ (d : CDesc) (s2 s3 s4 : State) (e1 e2 : End) (fow : Option Instr) (post : List Piece), parseCopy l src dst = some d →
          ((if d.skind = 2 then 1 else 0) + (if d.dkind = 2 then 1 else 0) = if ext = true then 1 else 0) →
          checkEnd s1 d true a = .ok (s2, e1) → checkEnd s2 d false a = .ok (s3, e2) →
          let ends := (endPages e1 ++ endPages e2).eraseDups
          ends.length + (if d.pst = true ∧ pieceAt ends d.post.toNat = none then 1 else 0) ≤ 64 → checkFow s3 d = .ok fow →
          (d.pst = false ∧ s4 = s3 ∧ post = [] ∨
            d.pst = true ∧ d.post.toNat % 8 = 0 ∧ needPages s3 .sq d.post.toNat 8 [.r, .w] = .ok (s4, post)) →
          (tokBusy s4 t.toNat = true → exec i s = .next (stalled .sq .token s4)) ∧
          (tokBusy s4 t.toNat = false → enqueuedCopies s4 < 32 → pinRoom s4 (ends ++ post).eraseDups = true →
            ∃ u c, exec i s = .next (advance .sq (sided u)) ∧ c ∈ u.core.copies ∧
              u.core.copies.length = s4.core.copies.length + 1 ∧ row u.job.tok Tok.init t.toNat = ⟨.busy, 0, []⟩ ∧
              u.dev.mem = s.dev.mem ∧ u.core.spad = s.core.spad ∧
              c.id = s4.core.copyNext + 1 ∧ c.jobId = s.job.id ∧ c.own = true ∧ c.token = t.toNat ∧ c.desc = a.toNat ∧ c.src = e1 ∧
              c.dst = e2 ∧ c.sfmt = d.sfmt ∧ c.dfmt = d.dfmt ∧ c.esz = d.esz ∧ c.desz = d.desz ∧ c.lvls = d.lvls ∧ c.tr = d.tr ∧
              c.fow = fow ∧ c.post.map Prod.fst = (if d.pst = true then some d.post.toNat else none) ∧ c.ph = .queued ∧
              c.rdPos = 0 ∧ c.wrPos = 0)) ∧
  (
    ∀ (s : State) (p : Pred) (d : BitVec 5) (fd : BitVec 3) (t : BitVec 4), enabled s .sq p = true →
      let x := row s.job.tok Tok.init t.toNat
      let joined := joinToken t.toNat s
      (x.st = .busy → exec (.cwait p d t) s = .next (stalled .sq .token s) ∧
        exec (.ctest p fd t) s = .next (advance .sq (sided (later .sq 1 (.freg fd.toNat false) s)))) ∧
      (x.st ≠ .busy →
        exec (.cwait p d t) s = .next (advance .sq (sided (later .sq 1 (.sreg d.toNat x.status) joined))) ∧
        exec (.ctest p fd t) s = .next (advance .sq (sided (later .sq 1 (.freg fd.toNat true) joined))) ∧
        ∀ q ∈ x.held, q = party s 0 ∨ q ∈ heldOf joined (party s 0)))

/-! ### The matrix, vector and store engines -/

/-- CLAIM takes a full slot and waits for one that is not, RELEASE frees a held one that neither the array nor a queued follow-on is to
read and waits before, MMA of held slots with its tags and a tile of its mode is taken by a free array and lands after its cycles and
12 more, with the operands and masks of its issue, or faults with 0x13 where what it reads holds bad data, MZERO gives a tile or a pair
its mode once no MMA is on its way there; each wrong state of a slot or tile faults with 0x11. (After R139, R140, R144
to R147.) -/
def Obligations.SlotAndArrayWords : Prop :=
  ∀ (s : State) (p : Pred) (o : BitVec 6) (d : BitVec 5) (a b k : BitVec 6) (ty : Ty) (pm pn pk : BitVec 2) (rls : Bool),
    enabled s .mx p = true →
    let trap (n : Nat) : Host.Outcome State Fault Refusal := .next (takeFault s (faultAt s .mx 0x11 0 (BitVec.ofNat 64 n)))
    let x := s.oslot o.toNat
    let mma : Instr := .mma p d a b k ty pm pn pk rls
    let n := k.toNat + 1
    let held (i : BitVec 6) : Prop := (s.oslot i.toNat).st = .held ∧ (s.oslot i.toNat).tag = ty.code ∧ (s.oslot i.toNat).pair = false
    let idle := s.core.arr.free ≤ s.core.arr.t ∧ s.core.arr.fq = []
    let present := ty = .res16 → Config.res16 s.variant = true
    (x.pair = false → x.st = .full → exec (.claim p o) s = issued .mx 1 (.claim o.toNat) s) ∧
    (x.pair = true ∨ x.st = .held → exec (.claim p o) s = trap o.toNat) ∧
    (x.pair = false → x.st ≠ .full → x.st ≠ .held → ∃ u, exec (.claim p o) s = .next (stalled .mx .claim u) ∧ u.job.mx = s.job.mx) ∧
    (x.pair = false → x.st = .held → slotRead s o.toNat = false →
      exec (.release p o) s = issued .mx 1 (.release o.toNat) s) ∧
    (x.pair = false → x.st = .held → slotRead s o.toNat = true →
      exec (.release p o) s = .next (stalled .mx .other s)) ∧
    (x.pair = true ∨ x.st ≠ .held → exec (.release p o) s = trap o.toNat) ∧
    (present → held a → held b → (s.tile d.toNat).mode = tileMode ty →
      (¬idle → exec mma s = .next (stalled .mx .other s)) ∧
      (idle → ∀ bit, badCell s (mmaCells d.toNat a.toNat b.toNat ty) = some bit →
        exec mma s = .next (takeFault s (faultAt s .mx 0x13 0 0 (BitVec.ofNat 64 bit)))) ∧
      (idle → badCell s (mmaCells d.toNat a.toNat b.toNat ty) = none → ∃ u, exec mma s = .next (advance .mx u) ∧ u.job.mx = s.job.mx ∧
        u.core.arr.free = s.core.arr.t + mmaCycles ty n ∧
        u.job.dl = s.job.dl ++ [⟨s.job.cycle + (mmaCycles ty n + 12), .mx, curSec s .mx, s.job.cycle,
          .mma ⟨d.toNat, ty, n, (s.oslot a.toNat).data, (s.oslot b.toNat).data, row s.job.mx.pm 0 pm.toNat,
            row s.job.mx.pn 0 pn.toNat, row s.job.mx.pk 0 pk.toNat⟩⟩])) ∧
    (present → (s.oslot a.toNat).st ≠ .held → exec mma s = trap a.toNat) ∧
    (present → (s.oslot a.toNat).st = .held → (s.oslot b.toNat).st ≠ .held → exec mma s = trap b.toNat) ∧
    (present → held a → held b → (s.tile d.toNat).mode ≠ tileMode ty → exec mma s = trap d.toNat) ∧
    (present → let ts := if ty.isRes = true then [d.toNat] else [d.toNat, d.toNat + 1]
      (mmaFlying s ts = false → exec (.mzero p d ty) s = issued .mx 1 (.mzero ts (tileMode ty)) s) ∧
      (mmaFlying s ts = true → exec (.mzero p d ty) s = .next (stalled .mx .other s)))

/-- MSETM, MSETN and MSETK write a mask register with a pattern or with the first n positions, MSCALE a scale vector with what it
reads, MSTAT delivers the sticky bits and clears them, the k count, or the mode; MDRAIN of a tile with a mode delivers a band of
it. (After R142, R143, R148 to R151.) -/
def Obligations.MatrixRegistersAndDrain : Prop :=
  ∀ (s : State) (p : Pred) (i : BitVec 2) (o : Opnd) (pat col : Bool) (t : BitVec 5) (ty : Ty) (rnd : Rnd) (sat wrap : Bool)
    (band : BitVec 2), enabled s .mx p = true →
    let v := constVal s .mx o
    let m := if pat = true then v else if 64 ≤ v.toNat then BitVec.allOnes 64 else BitVec.ofNat 64 (2 ^ v.toNat - 1)
    let x := s.tile t.toNat
    let drain : Instr := .mdrain p o t ty rnd sat band wrap
    let trap (code : Nat) (f3 : W64) : Host.Outcome State Fault Refusal :=
      .next (takeFault s (faultAt s .mx code 0 (BitVec.ofNat 64 t.toNat) f3))
    exec (.msetm p i o pat) s = issued .mx 1 (.mset .pm i.toNat m) s ∧
    exec (.msetn p i o pat) s = issued .mx 1 (.mset .pn i.toNat m) s ∧
    exec (.msetk p i o pat) s = issued .mx 1 (.mset .pk i.toNat m) s ∧
    (∀ bs u l, checkUses s .mx false [(⟨o, .f32, false⟩, 64)] = .ok () → waitUses s .mx [(⟨o, .f32, false⟩, 64)] = .ok bs →
      readUses .mx false .rne false [(⟨o, .f32, false⟩, 64)] bs s = (u, [l]) →
      exec (.mscale p o col) s = issued .mx 1 (.mscale col l.toList) u) ∧
    exec (.mstat p .st t) s = issued .mx 8 (.wcntMx ((if s.job.mx.ncr = true then 1 else 0) + if s.job.mx.qx = true then 2 else 0))
      (later .mx 1 .statClr s) ∧
    (x.mode = .none → exec (.mstat p .kc t) s = issued .mx 8 (.wcntMx 0) s) ∧
    (x.mode = .w8 ∨ x.mode = .w16 → exec (.mstat p .kc t) s = issued .mx 8 (.wcntMx (BitVec.ofNat 32 x.kc)) s) ∧
    (x.mode = .fp → exec (.mstat p .kc t) s = issued .mx 8 (.wcntMx (BitVec.ofNat 32 (s.tile (t.toNat / 2 * 2)).kc)) s) ∧
    exec (.mstat p .md t) s =
      issued .mx 8 (.wcntMx (match x.mode with | .none => 0 | .fp => 1 | .w8 => 2 | .w16 => 3)) s ∧
    (x.mode = .none ∨ (x.mode = .fp ∧ (t.toNat % 2 = 1 ∨ ty = .i32)) → exec drain s = trap 0x11 0) ∧
    ((x.mode = .w8 ∧ 75790 < x.kc ∨ x.mode = .w16 ∧ 525185 < x.kc) → wrap = false → exec drain s = trap 0x0E (BitVec.ofNat 64 x.kc)) ∧
    (∀ bs, (x.mode = .fp ∧ t.toNat % 2 = 0 ∧ ty ≠ .i32) ∨ (x.mode = .w8 ∧ (wrap = true ∨ x.kc ≤ 75790)) ∨
        (x.mode = .w16 ∧ (wrap = true ∨ x.kc ≤ 525185)) →
      checkUses s .mx false [(⟨o, ty, true⟩, 1024)] = .ok () → waitUses s .mx [(⟨o, ty, true⟩, 1024)] = .ok bs →
      badCell s ([.tile t.toNat] ++ if x.mode = .fp then [.tile (t.toNat + 1)] else []) = none →
      exec drain s = .next (advance .mx (putResult .mx (if x.mode = .fp then 4 else 7) o ty false rnd sat none (List.range 1024)
        ((drainBand s.job.mx t.toNat band.toNat ty rnd sat).map plain) s)))

/-- An MMA that lands adds, to every element that both masks admit, each group of its active k positions in turn, in an FP pair the
even positions to the even tile and the odd ones to the odd tile, in a residue tile every product in every channel; an element
that a mask excludes, every other tile, the slots, masks and scales stay; the k count rises by the active positions. A residue
code decodes to the integer that it encodes, over the whole range of its type; a working base reconstructs the integer that was
extended into it; a product added in the base is that of the integers while it stays in range. (After R109, R141, R145, R110,
R112, R114.) -/
def Obligations.MmaLands : Prop :=
  (
    ∀ (x : Mx) (e : MmaEff) (m n : Nat), m < 64 → n < 64 → e.d < 32 → SMap.wf 0 (row x.a Tile.init e.d).data = true →
      SMap.wf 0 (row x.a Tile.init (e.d + 1)).data = true → SMap.wf 0 e.a = true → SMap.wf 0 e.b = true →
      let y := mmaLand e x
      let at_ (z : Mx) (t : Nat) : W48 := SMap.get 0 (row z.a Tile.init t).data (64 * m + n)
      let ks := (List.range e.k).filter fun i => e.pk.getLsbD i
      let active := e.pm.getLsbD m = true ∧ e.pn.getLsbD n = true
      let f := tyFmt e.ty
      let A (k : Nat) : W48 := SMap.get 0 e.a (64 * m + k)
      let B (k : Nat) : W48 := SMap.get 0 e.b (64 * k + n)
      let group (odd : Bool) (c : W48) (j : Nat) : W48 :=
        let g := ks.filter fun k => decide (k / 8 = j) && decide (decide (k % 2 = 1) = odd)
        if g = [] then c
        else BitVec.ofNat 48 (acc48.round .rne false (extSum .rne (acc48.dec c.toNat ::
          g.map fun k => extMul (f.dec (A k).toNat) (f.dec (B k).toNat))))
      (¬active → at_ y e.d = at_ x e.d ∧ at_ y (e.d + 1) = at_ x (e.d + 1)) ∧
      (active → e.ty.isRes = false → e.d + 1 < 32 →
        at_ y e.d = (List.range 8).foldl (group false) (at_ x e.d) ∧ at_ y (e.d + 1) = (List.range 8).foldl (group true) (at_ x (e.d + 1))) ∧
      (active → e.ty.isRes = true → at_ y e.d = ks.foldl (fun c k => chMac (decide (e.ty = .res16)) c (A k) (B k)) (at_ x e.d)) ∧
      (∀ t < 32, t ≠ e.d → (e.ty.isRes = true ∨ t ≠ e.d + 1) → row y.a Tile.init t = row x.a Tile.init t) ∧
      (row y.a Tile.init e.d).kc = min ((row x.a Tile.init e.d).kc + ks.length) (2 ^ 32 - 1) ∧
      y.o = x.o ∧ y.pm = x.pm ∧ y.pn = x.pn ∧ y.pk = x.pk ∧ y.srow = x.srow ∧ y.scol = x.scol) ∧
  (
    (∀ (t : Ty) (x : Int), t = .res8 ∨ t = .res16 → resLo t ≤ x → x ≤ resHi t → resDec t (resEnc t x) = x) ∧
    ∀ (w16 : Bool) (x a b : Int), let M : Int := if w16 = true then 65536 * 65535 * 65521 else 1024 * 1023 * 1021
      0 ≤ x + M / 2 → x < M / 2 →
      baseCrt w16 (baseExt w16 x) = x ∧
      (0 ≤ x + a * b + M / 2 → x + a * b < M / 2 →
        baseCrt w16 (chMac w16 (baseExt w16 x) (baseExt w16 a) (baseExt w16 b)) = x + a * b))

/-- The floating words of two and three sources deliver, element by element, the exact result of the operation rounded once; VNEG,
VABS, VMIN and VMAX deliver theirs exactly, with a NaN made canonical. The floating functions of one source issue with their
latencies and deliver, at the special operands, the values of R176's table: NaN for a NaN, an infinity or zero with its sign, 1 at
a zero of an exponential, one half for the logistic at zero. The reading of overflow is the model's (log 21). (After R174, R175, R176.) -/
def Obligations.FloatWords : Prop :=
  (
    ∀ (s u : State) (p : Pred), enabled s .vx p = true →
      (∀ (v : V1) (A : Array W32), elemRead .vx v.d v.x.ty [(v.a, v.x.ty)] v.x s u [A] →
        let val (e : Nat) : Ext := fval v.x.ty (A.getD e 0)
        let done (f : Ext → Ext) : Host.Outcome State Fault Refusal :=
          elemDone .vx 3 v.d v.x.ty [(v.a, v.x.ty)] v.x s u fun _ e => ⟨fout v.x.ty .rne false (f (val e)), false, false⟩
        exec (.vneg p v) s = done Ext.negate ∧ exec (.vabs p v) s = done Ext.abs) ∧
      (∀ (v : V2) (A B : Array W32), elemRead .vx v.d v.x.ty [(v.a, v.x.ty), (v.b, v.x.ty)] v.x s u [A, B] →
        let r := v.x.rnd
        let a (e : Nat) : Ext := fval v.x.ty (A.getD e 0)
        let b (e : Nat) : Ext := fval v.x.ty (B.getD e 0)
        let done (lat : Nat) (rnd : Rnd) (sat : Bool) (f : Ext → Ext → Ext) : Host.Outcome State Fault Refusal :=
          elemDone .vx lat v.d v.x.ty [(v.a, v.x.ty), (v.b, v.x.ty)] v.x s u fun _ e => ⟨fout v.x.ty rnd sat (f (a e) (b e)), false, false⟩
        exec (.vadd p v) s = done 3 r v.x.sat (extAdd r) ∧ exec (.vsub p v) s = done 3 r v.x.sat (extSub r) ∧
        exec (.vmul p v) s = done 5 r v.x.sat extMul ∧ exec (.vdiv p v) s = done 16 r v.x.sat extDiv ∧
        exec (.vmin p v) s = done 3 .rne false extMin ∧ exec (.vmax p v) s = done 3 .rne false extMax) ∧
      (∀ (v : V3) (A B C : Array W32), elemRead .vx v.d v.x.ty [(v.a, v.x.ty), (v.b, v.x.ty), (v.c, v.x.ty)] v.x s u [A, B, C] →
        let r := v.x.rnd
        let val (X : Array W32) (e : Nat) : Ext := fval v.x.ty (X.getD e 0)
        let done (f : Ext → Ext → Ext → Ext) : Host.Outcome State Fault Refusal :=
          elemDone .vx 5 v.d v.x.ty [(v.a, v.x.ty), (v.b, v.x.ty), (v.c, v.x.ty)] v.x s u fun _ e =>
            ⟨fout v.x.ty r v.x.sat (f (val A e) (val B e) (val C e)), false, false⟩
        exec (.vfma p v) s = done (fun a b c => extAdd r (extMul a b) c) ∧
        exec (.vfms p v) s = done (fun a b c => extSub r (extMul a b) c) ∧
        exec (.vfnma p v) s = done (fun a b c => extAdd r (extMul a b).negate c))) ∧
  (
    ∀ (s u : State) (p : Pred) (v : V1) (A : Array W32), enabled s .vx p = true → elemRead .vx v.d v.x.ty [(v.a, v.x.ty)] v.x s u [A] →
      let t := v.x.ty
      let out (x : Ext) : W32 := fout t .rne false x
      let one : Ext := .num 1 false
      ∀ (i : Instr) (lat : Nat) (atNan pInf nInf : Ext) (zero : Bool → Ext) (neg : Bool),
        (i, lat, atNan, pInf, nInf, neg) ∈ [(Instr.vsqrt p v, 16, Ext.nan, Ext.inf false, Ext.nan, true), (.vrcp p v, 8, .nan, .num 0 false, .num 0 true, false),
          (.vrsq p v, 8, .nan, .num 0 false, .nan, true), (.vexp2 p v, 12, .nan, .inf false, .num 0 false, false),
          (.vexp p v, 12, .nan, .inf false, .num 0 false, false), (.vlog2 p v, 12, .nan, .inf false, .nan, true),
          (.vtanh p v, 12, .nan, one, .num (-1) true, false), (.vsigm p v, 12, .nan, one, .num 0 false, false)] →
        (zero = match i with
          | .vsqrt _ _ => fun g => Ext.num 0 g | .vtanh _ _ => fun g => .num 0 g | .vrcp _ _ => fun g => .inf g
          | .vrsq _ _ => fun g => .inf g | .vlog2 _ _ => fun _ => .inf true | .vsigm _ _ => fun _ => .num (mkRat 1 2) false
          | _ => fun _ => one) →
        ∃ f : W32 → W32, exec i s = elemDone .vx lat v.d t [(v.a, t)] v.x s u (fun _ e => ⟨f (A.getD e 0), false, false⟩) ∧
          ∀ a, (fval t a = .nan → f a = out atNan) ∧ (fval t a = .inf false → f a = out pInf) ∧ (fval t a = .inf true → f a = out nInf) ∧
            (∀ g, fval t a = .num 0 g → f a = out (zero g)) ∧
            (∀ q g, neg = true → q < 0 → fval t a = .num q g → f a = out .nan))

/-- The integer words compute exactly and clamp under .sat or keep the low bits; the bit words work on the patterns of the type's
width, a shift by the low bits of its amount. VCVT converts each element by its two types and its steps; VCMP writes the bits of
its lanes that hold the compare, lie in shape and pass the mask, and clears its other lanes; VSEL takes A where the mask has the
lane's bit and B where not; KAND, KOR and KNOT write a whole mask. (After R177, R178, R116, R117, R179 to R182.) -/
def Obligations.IntegerConvertSelect : Prop :=
  (
    ∀ (s u : State) (p : Pred), enabled s .vx p = true →
      (∀ (v : V2) (A B : Array W32), elemRead .vx v.d v.x.ty [(v.a, v.x.ty), (v.b, v.x.ty)] v.x s u [A, B] →
        let t := v.x.ty
        let w := t.width
        let a (e : Nat) : W32 := A.getD e 0
        let b (e : Nat) : W32 := B.getD e 0
        let low (x : W32) : Nat := x.toNat % 2 ^ w
        let done (lat : Nat) (f : W32 → W32 → W32) : Host.Outcome State Fault Refusal :=
          elemDone .vx lat v.d t [(v.a, t), (v.b, t)] v.x s u fun _ e => ⟨f (a e) (b e), false, false⟩
        let wide (lat : Nat) (sat : Bool) (f : Int → Int → Int) := done lat fun x y => intOut t sat (f (intOf t x) (intOf t y))
        let bits (f : W32 → W32 → Nat) := done 3 fun x y => BitVec.ofNat 32 (f x y % 2 ^ w)
        exec (.viadd p v) s = wide 3 v.x.sat (· + ·) ∧ exec (.visub p v) s = wide 3 v.x.sat (· - ·) ∧
        exec (.vimul p v) s = wide 5 v.x.sat (· * ·) ∧ exec (.vimulh p v) s = wide 5 false (fun x y => x * y / 2 ^ w) ∧
        exec (.vimin p v) s = wide 3 false min ∧ exec (.vimax p v) s = wide 3 false max ∧
        exec (.vand p v) s = bits (fun x y => (x &&& y).toNat) ∧ exec (.vor p v) s = bits (fun x y => (x ||| y).toNat) ∧
        exec (.vxor p v) s = bits (fun x y => (x ^^^ y).toNat) ∧ exec (.vshl p v) s = bits (fun x y => low x * 2 ^ (y.toNat % w)) ∧
        exec (.vshr p v) s = bits (fun x y => low x / 2 ^ (y.toNat % w)) ∧
        exec (.vshra p v) s = bits (fun x y => (((if 2 ^ (w - 1) ≤ low x then (low x : Int) - 2 ^ w else low x) / 2 ^ (y.toNat % w)) % 2 ^ w).toNat)) ∧
      (∀ (v : V1) (A : Array W32), elemRead .vx v.d v.x.ty [(v.a, v.x.ty)] v.x s u [A] →
        let w := v.x.ty.width
        let low (e : Nat) : Nat := (A.getD e 0).toNat % 2 ^ w
        let done (f : Nat → Nat) : Host.Outcome State Fault Refusal :=
          elemDone .vx 3 v.d v.x.ty [(v.a, v.x.ty)] v.x s u fun _ e => ⟨BitVec.ofNat 32 (f (low e) % 2 ^ w), false, false⟩
        exec (.vmov p v) s = done (fun x => x) ∧ exec (.vnot p v) s = done (fun x => 2 ^ w - 1 - x) ∧
        exec (.vpcnt p v) s = done (fun x => ((List.range w).filter x.testBit).length) ∧
        exec (.vclz p v) s = done (fun x => if x = 0 then w else w - 1 - Nat.log2 x) ∧
        exec (.vffs p v) s = done (fun x => ((List.range w).find? fun i => x.testBit i).getD w))) ∧
  (
    ∀ (s u : State) (p : Pred), enabled s .vx p = true →
      (∀ (v : V1) (src : Ty) (b c : Option Opnd) (A : Array W32) (ps : List (Array W32)),
        let steps := (b.toList ++ c.toList).map fun o => (o, Ty.f32)
        elemRead .vx v.d v.x.ty ((v.a, src) :: steps) v.x s u (A :: ps) →
        let at_ (i e : Nat) : W32 := ((ps[i]?).getD #[]).getD e 0
        exec (.vcvt p v src b c) s = elemDone .vx 4 v.d v.x.ty ((v.a, src) :: steps) v.x s u fun _ e =>
          if src.isRes = true then convElem true src v.x.ty (at_ 0 e) (at_ 1 e) v.x.rnd v.x.sat (A.getD e 0)
          else convElem true src v.x.ty 0 (at_ 0 e) v.x.rnd v.x.sat (A.getD e 0)) ∧
      (∀ (k : BitVec 3) (a b : Opnd) (x : Sfx) (cc : Cond) (A B : Array W32),
        let us : List Use := [⟨a, x.ty, false⟩, ⟨b, x.ty, false⟩]
        let n := elemCount s us
        usesRead .vx x.win x.rnd x.sat (us.map fun y => (y, n)) s u [A, B] →
        ∃ m r, exec (.vcmp p k a b x cc) s = issued .vx 3 (.kmask k.toNat m r) u ∧
          (∀ l, m.getLsbD l = true ↔ l ∈ elemLanes us n ∧ l < 1024) ∧
          ∀ e l, (elemLanes us n)[e]? = some l → l < 1024 → (∀ e', (elemLanes us n)[e']? = some l → e' = e) →
            (r.getLsbD l = true ↔ cmpElem x.ty cc (A.getD e 0) (B.getD e 0) = true ∧ maskBit u x.km l = true ∧
              ∀ d pl ix, refPlane us = some (d, pl, ix) → inShape (u.plane (physPlane u x.win pl)) l = true)) ∧
      (∀ (v : V2) (k : BitVec 3) (A B : Array W32), elemRead .vx v.d v.x.ty [(v.a, v.x.ty), (v.b, v.x.ty)] v.x s u [A, B] →
        exec (.vsel p v k) s = elemDone .vx 3 v.d v.x.ty [(v.a, v.x.ty), (v.b, v.x.ty)] v.x s u fun l e =>
          ⟨if (row u.job.vx.k 0 k.toNat).getLsbD l = true then A.getD e 0 else B.getD e 0, false, false⟩) ∧
      ∀ (kd ka kb : BitVec 3), let k (i : BitVec 3) : BitVec 1024 := row s.job.vx.k 0 i.toNat
        exec (.kand p kd ka kb) s = issued .vx 1 (.kmask kd.toNat (.allOnes 1024) (k ka &&& k kb)) s ∧
        exec (.kor p kd ka kb) s = issued .vx 1 (.kmask kd.toNat (.allOnes 1024) (k ka ||| k kb)) s ∧
        exec (.knot p kd ka) s = issued .vx 1 (.kmask kd.toNat (.allOnes 1024) (~~~k ka)) s)

/-- The rotations, broadcasts, the 16-way transposition and the reductions of whole operands; VPERM takes for every element the one
that its index plane names, at least four cycles after the VPERM before. VCMPRS packs the elements of each row that mask and shape
select to its front, zeros behind, and delivers their number; VEXPND takes them back to their places; VFLAG delivers whether any,
all and none of a mask's bits are set, and how many. WINSET writes WBASE with a value up to 15 and faults with 0x02 above, WINADV
adds to it; TCFG gives a plane its shape and TDROP takes a configured one's contents away, on the next cycle, and both discard what is
on its way to the plane; a TDROP of a plane that is not configured faults with 0x05, a TCFG of no shape with 0x02. (After R183 to R188,
R189, R192, R159, R162, R165, R166.) -/
def Obligations.LayoutWords : Prop :=
  (
    ∀ (s u : State) (p : Pred) (v : V1) (w : V2) (op : RedOp) (A : Array W32), enabled s .vx p = true →
      let got (l : Nat) : W32 := A.getD l 0
      let n := planeCnt w.d
      let rot := (constVal u .vx w.b).toNat
      let shape (l : Nat) : Bool := wholeShape u v.x.win v.a l
      let red (l : List Nat) : W32 := reduce op v.x.ty v.x.rnd v.x.sat ((l.filter shape).map got)
      (wholeRead w.d n [(w.a, planeCnt w.a)] w.x s u [A] →
        exec (.vrotr p w) s = wholeDone 2 w.d n w.x u (fun e => got (e / 64 * 64 + (e % 64 + 64 - rot % 64) % 64)) ∧
        exec (.vrotc p w) s = wholeDone 6 w.d n w.x u (fun e =>
          got (if n = 1024 then (e / 64 + 16 - rot % 16) % 16 * 64 + e % 64 else (e + 16 - rot % 16) % 16))) ∧
      (wholeRead v.d 1024 [(v.a, 16)] v.x s u [A] → exec (.vbcr p v) s = wholeDone 2 v.d 1024 v.x u (fun e => got (e / 64))) ∧
      (wholeRead v.d 1024 [(v.a, 64)] v.x s u [A] → exec (.vbcc p v) s = wholeDone 6 v.d 1024 v.x u (fun e => got (e % 64))) ∧
      (wholeRead v.d 1024 [(v.a, 1024)] v.x s u [A] →
        exec (.vtrn16 p v) s = wholeDone 8 v.d 1024 v.x u (fun e => got (e % 16 * 64 + e % 64 / 16 * 16 + e / 64))) ∧
      (wholeRead v.d 16 [(v.a, 1024)] v.x s u [A] →
        exec (.vredr p v op) s = wholeDone 7 v.d 16 v.x u (fun i => red ((List.range 64).map fun j => 64 * i + j))) ∧
      (wholeRead v.d 64 [(v.a, 1024)] v.x s u [A] →
        exec (.vredc p v op) s = wholeDone 11 v.d 64 v.x u (fun j => red ((List.range 16).map fun i => 64 * i + j))) ∧
      ∀ s1 : State,
        let us : List Use := [⟨w.d, w.x.ty, true⟩, ⟨w.a, w.x.ty, false⟩]
        let q := (planesOf s1 w.x.win [⟨w.b, .i32, false⟩]).headD 0
        let ix := s1.plane q
        let idx (e : Nat) : Nat := ((planeRead ix (planeWidth ix) (List.range 1024)).getD e 0).toNat % 1024
        absentTy s w.x.ty = false → touchAll (planesOf s w.x.win (us ++ [⟨w.b, .i32, false⟩])) s = .ok s1 →
        checkUses s1 .vx w.x.win (us.map fun y => (y, 1024)) = .ok () → ix.cfg = true → planeWidth ix ≠ 8 →
        ((∃ c, s1.job.vx.perm = some c ∧ s1.job.cycle < c + 4) → exec (.vperm p w) s = .next (stalled .vx .other s1)) ∧
        ((∀ c, s1.job.vx.perm = some c → c + 4 ≤ s1.job.cycle) → ∀ u, readUses .vx w.x.win .rne false (us.map fun y => (y, 1024)) [] s1 = (u, [A]) →
          exec (.vperm p w) s = .next (advance .vx (putResult .vx 16 w.d w.x.ty w.x.win .rne false w.x.km (List.range 1024)
            ((List.range 1024).map fun e => ⟨got (idx e), false, false⟩)
            (u.onJob fun j => { j with vx := { j.vx with perm := some j.cycle } }))))) ∧
  (
    ∀ (s u : State) (p : Pred) (v : V1) (k : BitVec 3) (km : Option (BitVec 3)) (A : Array W32), enabled s .vx p = true →
      let rows := rowsOf v.a
      let n := planeCnt v.d
      let mask (y : State) (i : BitVec 3) : BitVec 1024 := row y.job.vx.k 0 i.toNat
      let cols (r : Nat) : List Nat := (List.range 64).filter fun j => (mask u k).getLsbD (64 * r + j) && wholeShape u v.x.win v.a (64 * r + j)
      let sel (e : Nat) : List Nat := cols (rows.getD (e / 64) 0)
      n = 64 * rows.length →
      (absentTy s v.x.ty = false → planesRead v.x.win [(⟨v.d, v.x.ty, true⟩, n), (⟨v.a, v.x.ty, false⟩, n)] s u [A] →
        exec (.vcmprs p v k) s = issued .vx 8 (.wcnt (BitVec.ofNat 32 ((rows.map fun r => (cols r).length).foldl (· + ·) 0)))
          (putResult .vx 6 v.d v.x.ty v.x.win .rne false none (ownLanes v.d n)
            ((List.range n).map fun e => ⟨match (sel e)[e % 64]? with | some j => A.getD (e / 64 * 64 + j) 0 | none => 0, false, false⟩) u)) ∧
      (wholeRead v.d n [(v.a, n)] v.x s u [A] →
        exec (.vexpnd p v k) s = wholeDone 6 v.d n v.x u (fun e =>
          if e % 64 ∈ sel e then A.getD (e / 64 * 64 + (sel e).idxOf (e % 64)) 0 else 0)) ∧
      let set := (List.range 1024).filter fun i => (mask s k).getLsbD i && (match km with | some m => (mask s m).getLsbD i | none => true)
      let tot := match km with | some m => ((List.range 1024).filter (mask s m).getLsbD).length | none => 1024
      exec (.vflag p k km) s =
        issued .vx 8 (.wbits (decide (0 < set.length)) (decide (set.length = tot)) (decide (set.length = 0)) (BitVec.ofNat 32 set.length)) s) ∧
  (
    ∀ (s s1 : State) (p : Pred) (a : Opnd) (n : BitVec 4) (pl : BitVec 5) (win : Bool), enabled s .vx p = true →
      let v := constVal s .vx a
      let q := physPlane s win pl
      let cleared (t : State) : State := t.onJob fun j => { j with dl := j.dl.filter fun e => decide (effPlane e.eff ≠ some q) }
      (v.toNat ≤ 15 → exec (.winset p a) s = issued .vx 1 (.wset (v.setWidth 4)) s) ∧
      (15 < v.toNat → exec (.winset p a) s = .next (takeFault s (faultAt s .vx 0x02 0))) ∧
      exec (.winadv p n) s = issued .vx 1 (.wadv n) s ∧
      (touchAll [q] s = .ok s1 →
        ((s1.plane q).cfg = true → exec (.tdrop p pl win) s = issued .vx 1 (.shape q none) (cleared s1)) ∧
        ((s1.plane q).cfg = false → exec (.tdrop p pl win) s = .next (takeFault s1 (faultAt s1 .vx 0x05 0 (BitVec.ofNat 64 q))))) ∧
      (v.toNat < 2 ^ 12 → v.extractLsb' 10 2 ≠ 3 → touchAll [q] s = .ok s1 →
        exec (.tcfg p pl win a) s = issued .vx 1 (.shape q (some (v.setWidth 12))) (cleared s1)) ∧
      (2 ^ 12 ≤ v.toNat ∨ v.extractLsb' 10 2 = 3 → exec (.tcfg p pl win a) s = .next (takeFault s (faultAt s .vx 0x02 0))))

/-- VPUSHC writes the elements that mask and shape select, packed, behind what its handle's head slot already holds, publishes the
slots that they fill and delivers their number; VPOPQ takes as many from where its handle was left, frees the slots that it has
emptied and writes the selected lanes; without room or data they wait, and before the engine points of a cycle on which a slot of the
handle may be published; a wrong role or depth faults with 0x0A. (After R190, R191.) -/
def Obligations.ConditionalStreams : Prop :=
  ∀ (s s1 : State) (p : Pred) (h : BitVec 4) (o : Opnd) (k : BitVec 3) (x : Sfx) (A : Array W32), enabled s .vx p = true →
    absentTy s x.ty = false →
    let q := s1.handle h.toNat
    let w := x.ty.width / 8
    let z := 64 * 2 ^ q.sz
    let sel := selElems s1 x.win o (kReg s1 k)
    let b := sel.length * w
    let bad : Host.Outcome State Fault Refusal := .next (takeFault s1 (faultAt s1 .vx 0x0A 0 (BitVec.ofNat 64 h.toNat)))
    let settled := s1.core.won.isSome = true ∨ ∀ y ∈ s1.core.writes, y.h = h.toNat → y.pub = 0
    (touchAll (planesOf s x.win [⟨o, x.ty, false⟩]) s = .ok s1 → checkUses s1 .vx x.win [(⟨o, x.ty, false⟩, planeCnt o)] = .ok () →
      readUses .vx x.win .rne false [(⟨o, x.ty, false⟩, planeCnt o)] [] s1 = (s1, [A]) →
      let need := ceilDiv (q.u + b) z
      let ok := handleOn s1 h.toNat = true ∧ q.prod = 3 ∧ need ≤ q.depth ∧ q.u % w = 0
      let bytes := sel.flatMap fun e => leBytes w (A.getD e.2 0).toNat
      (¬settled → exec (.vpushc p h o k x) s = .next (stalled .vx .slot s1)) ∧
      (settled → ¬ok → exec (.vpushc p h o k x) s = bad) ∧
      (settled → ok → q.depth - q.f < need → exec (.vpushc p h o k x) s = .next (stalled .vx .slot s1)) ∧
      (settled → ok → need ≤ q.depth - q.f →
        let kept := s1.setHandle h.toNat { q with u := q.u + b }
        let parts := (packParts z q.u b).map fun y =>
          let d := (bytes.drop (y.1 * z + y.2.1 - q.u)).take y.2.2
          if y.2.1 = 0 then (slotAddr q q.wh y.1, fit z d) else (slotAddr q q.wh y.1 + y.2.1, d)
        exec (.vpushc p h o k x) s = issued .vx 8 (.wcnt (BitVec.ofNat 32 sel.length))
          (if b = 0 then kept else later .vx 6 (.slotW h.toNat parts ((q.u + b) / z - q.u / z) (wordRef s1 .vx)) kept))) ∧
    (∀ (d : Dir) (pl : BitVec 5) (ix : BitVec 6), o = .plane d pl ix → touchAll (planesOf s x.win [⟨o, x.ty, true⟩]) s = .ok s1 →
      checkUses s1 .vx x.win [(⟨o, x.ty, true⟩, planeCnt o)] = .ok () →
      let need := ceilDiv (q.v + b) z
      let ok := handleOn s1 h.toNat = true ∧ q.cons = 3 ∧ need ≤ q.depth ∧ q.v % w = 0
      (¬settled → exec (.vpopq p o h k x) s = .next (stalled .vx .slot s1)) ∧
      (settled → ¬ok → exec (.vpopq p o h k x) s = bad) ∧
      (settled → ok → q.f < need → exec (.vpopq p o h k x) s = .next (stalled .vx .slot s1)) ∧
      (∀ bs, settled → ok → need ≤ q.f → slotData s1 .vx ((packParts z q.v b).map fun y => (slotAddr q q.rh y.1 + y.2.1, y.2.2)) = .ok bs →
        ∃ t, exec (.vpopq p o h k x) s = issued .vx 6 (.lanes (physPlane s1 x.win pl) ((sel.map Prod.fst).zip (bytesElems w bs.flatten))) t ∧
          t.handle h.toNat = { q with v := (q.v + b) % z } ∧
          t.job.dl = s1.job.dl ++ (if (q.v + b) / z = 0 then [] else
            [⟨s1.job.cycle + 1, .vx, curSec s1 .vx, s1.job.cycle, .advh h.toNat ((q.v + b) / z) false⟩])))

/-- VSFCK delivers the low and the high half of each point's key, the coordinates clamped to 21 bits, and sets QX where one of a point
was clamped whose lane D or H takes; H as D's plane faults with 0x02. (After R193, R307.) -/
def Obligations.CurveKeys : Prop :=
  ∀ (s s1 u : State) (p : Pred) (v : V3) (hi : BitVec 5) (cv : Curve) (A B C : Array W32), enabled s .vx p = true →
    let pd := (planesOf s v.x.win [⟨v.d, .n32, true⟩]).headD 0
    let us : List Use := [⟨v.d, .n32, true⟩, ⟨v.a, .n32, false⟩, ⟨v.b, .n32, false⟩, ⟨v.c, .n32, false⟩]
    let co (X : Array W32) (e : Nat) : Nat := (X.getD e 0).toNat
    let key (e : Nat) : Nat :=
      let x := min (co A e) (2 ^ 21 - 1)
      let y := min (co B e) (2 ^ 21 - 1)
      let z := min (co C e) (2 ^ 21 - 1)
      match cv with | .morton => mortonKey x y z | .hilbert => hilbertKey x y z
    let lanes (pl : Nat) (f : Nat → Nat) : Eff :=
      .lanes pl (((List.range 1024).map fun e => (e, BitVec.ofNat 32 (f (key e)))).filter fun y => inShape (u.plane pl) y.1)
    (hi.toNat = pd → exec (.vsfck p v hi cv) s = .next (takeFault s (faultAt s .vx 0x02 0))) ∧
    (hi.toNat ≠ pd → touchAll (hi.toNat :: planesOf s v.x.win us) s = .ok s1 →
      checkUses s1 .vx v.x.win (us.map fun y => (y, 1024)) = .ok () → checkPlane s1 .vx hi.toNat 32 = .ok () →
      readUses .vx v.x.win .rne false (us.map fun y => (y, 1024)) [] s1 = (u, [A, B, C]) →
      let t := later .vx 6 (lanes hi.toNat (· / 2 ^ 32)) (later .vx 6 (lanes pd id) u)
      exec (.vsfck p v hi cv) s = .next (advance .vx (if (List.range 1024).any (fun e =>
        (inShape (u.plane pd) e || inShape (u.plane hi.toNat) e) &&
          (decide (2 ^ 21 ≤ co A e) || decide (2 ^ 21 ≤ co B e) || decide (2 ^ 21 ≤ co C e))) = true
        then later .vx 6 (.sticky false true) t else t)))

/-- On 21-bit coordinates a Morton key interleaves the bits of x, y and z, both keys lie below 2^63, and different points have
different keys on either curve. (After R193, R307.) -/
def Obligations.KeysNamePoints : Prop :=
  ∀ (x y z x' y' z' : Nat), x < 2 ^ 21 → y < 2 ^ 21 → z < 2 ^ 21 → x' < 2 ^ 21 → y' < 2 ^ 21 → z' < 2 ^ 21 →
    (∀ m < 21, (mortonKey x y z).testBit (3 * m) = x.testBit m ∧ (mortonKey x y z).testBit (3 * m + 1) = y.testBit m ∧
      (mortonKey x y z).testBit (3 * m + 2) = z.testBit m) ∧
    mortonKey x y z < 2 ^ 63 ∧ hilbertKey x y z < 2 ^ 63 ∧
    (mortonKey x y z = mortonKey x' y' z' → x = x' ∧ y = y' ∧ z = z') ∧
    (hilbertKey x y z = hilbertKey x' y' z' → x = x' ∧ y = y' ∧ z = z')

/-! ### The outtake stack and the statistics buffer -/

/-- A keep form (VMULK, VADDK, VCVTK, VSHRK, VLRELK) with room for its record, whose in-shape elements all pass, delivers its result
and pushes the record of what the result loses on the next cycle; the first element that cannot be kept faults with 0x0D and its
cause, and pushes nothing. An undo form (UNMULK, UNADDK, UNCVTK, UNSHRK, UNLRELK) whose record is the newest of its form, variant,
shape and count restores the elements of its destination's shape and pops the record on the next cycle; an empty stack, a broken
one, or a record of another form, shape or count faults with 0x0B and its cause (of a record without an uncorrectable error). Which
elements beyond the operand a record holds is left open (log 22). (After R199 to R201, R202 to R204.) -/
def Obligations.KeepAndUndoForms : Prop :=
  (
    ∀ (s u : State) (p : Pred) (v2 : V2) (v1 : V1) (o : Option Opnd) (sh : BitVec 5) (i : Instr) (f : FormShape) (q : BitVec 5) (dir : Dir)
        (ix : BitVec 6) (vs : List (Array W32)),
      i ∈ [Instr.vmulk p v2, .vaddk p v2, .vcvtk p v1 o, .vshrk p v2, .vlrelk p v1 sh] → keepForm i = some f → enabled s .vx f.p = true → f.d = .plane dir q ix →
      let n := planeCnt f.a
      planeCnt f.d = n → otOcc s.job.ot + otSize n ≤ 1024 →
      usesRead .vx f.win .rne false (f.uses.map fun y => (y, n)) s u vs →
      let ref := opndPlane u f.win f.a
      let src (e : Nat) : Nat := (ownLanes f.a n).getD e 0
      let dst (e : Nat) : Nat := (ownLanes f.d n).getD e 0
      let live := (List.range n).filter fun e => inShape ref (src e)
      let out (e : Nat) : Kept := keepElem i fun k => (vs.getD k #[]).getD e 0
      let y (e : Nat) : W32 := match out e with | .ok y _ => y | .bad _ => 0
      let rec_ (e : Nat) : W32 := match out e with | .ok _ r => r | .bad _ => 0
      let pl := physPlane u f.win q
      ((∀ e ∈ live, ∃ a b, out e = .ok a b) →
        exec i s = .next (advance .vx (later .vx f.lat (.lanes pl ((live.filter fun e => inShape (u.plane pl) (dst e)).map fun e => (dst e, y e)))
          (otPushLater (8 * f.form + f.var) ((planeRows ref - 1) * 64 + (planeCols ref - 1)) n
            ((List.range n).map fun e => if inShape ref (src e) = true then rec_ e else 0) u)))) ∧
      ∀ e c, e ∈ live → out e = .bad c → (∀ e' ∈ live, e' < e → ∃ a b, out e' = .ok a b) →
        ∃ t, exec i s = .next (takeFault t (faultAt t .vx 0x0D c (BitVec.ofNat 64 e))) ∧ t.job.dl = s.job.dl ∧ t.job.ot = s.job.ot) ∧
  (
    ∀ (s u : State) (p : Pred) (v2 : V2) (v1 : V1) (o : Option Opnd) (sh : BitVec 5) (i : Instr) (f : FormShape) (q : BitVec 5) (dir : Dir)
        (ix : BitVec 6) (vs : List (Array W32)),
      i ∈ [Instr.unmulk p v2, .unaddk p v2, .uncvtk p v1 o, .unshrk p v2, .unlrelk p v1 sh] → undoForm i = some f → enabled s .vx f.p = true → f.d = .plane dir q ix →
      let n := planeCnt f.d
      usesRead .vx f.win .rne false (f.uses.map fun y => (y, n)) s u vs →
      let ref := opndPlane u f.win f.d
      let cls := 8 * f.form + f.var
      let want := otTag cls ((planeRows ref - 1) * 64 + (planeCols ref - 1)) s.job.ot.depth
      let trap (cause : Nat) (f3 : W64) : Prop := ∃ t, exec i s = .next (takeFault t (faultAt t .vx 0x0B cause 0 f3)) ∧ t.job.ot = s.job.ot
      (s.job.ot.depth = 0 → trap 0 0) ∧ (s.job.ot.depth ≠ 0 → s.job.ot.brk = true → trap 4 0) ∧
      ∀ top, s.job.ot.depth ≠ 0 → s.job.ot.brk = false → (onChip s.job.ot).getLast? = some top →
        badAmong s [.record s.job.ot.depth] = false →
        let sig := top.tag.extractLsb' 16 10 = want.extractLsb' 16 10
        let lane (e : Nat) : Nat := (ownLanes f.d n).getD e 0
        let live := (List.range n).filter fun e => inShape ref (lane e)
        let out (e : Nat) : Option W32 := undoElem i (fun k => (vs.getD k #[]).getD e 0) (top.data.getD e 0)
        (otClass top ≠ cls → trap 1 (want ++ top.tag)) ∧ (otClass top = cls → ¬sig → trap 2 (want ++ top.tag)) ∧
        (otClass top = cls → sig → top.n ≠ n → trap 3 (want ++ top.tag)) ∧
        (otClass top = cls → sig → top.n = n → (∀ e ∈ live, (out e).isSome = true) →
          let odd (e : Nat) : Bool := f.uses[1]?.any fun y => y.ty.isRes && resNonCanon y.ty ((vs.getD 0 #[]).getD e 0)
          let popped := later .vx 1 (.otPop (otSize top.n)) u
          exec i s = .next (advance .vx (later .vx f.lat (.lanes (physPlane u f.win q) (live.map fun e => (lane e, (out e).getD 0)))
            (if live.any odd then later .vx f.lat (.sticky true false) popped else popped)))))

/-- What a keep form keeps is enough: the undo form, given the result and the record, restores the element, bit for bit, with the sign
of its zero; so the word chosen decides the rounding, and nothing is lost. (After R201, R204.) -/
def Obligations.UndoRestoresWhatKeepKept : Prop :=
  ∀ (t : Ty) (a b y r : W32) (n : Nat),
    let bits : W32 := BitVec.ofNat 32 (a.toNat % 2 ^ t.width)
    (t.isFloat = true → keepMul t a b = .ok y r → undoMul t y b r = some bits) ∧
    (t.isFloat = true → keepAdd t a b = .ok y r → undoAdd t y b r = some bits) ∧
    (keepBf16 a = .ok y r → undoBf16 y r = some a) ∧
    (keepRes8 a b = .ok y r → undoRes8 y b r = some a) ∧
    (t.isInt = true → keepShr t a b = .ok y r → undoShr t y b r = some bits) ∧
    (t.isFloat = true → keepLrel t n a = .ok y r → undoLrel t n y r = some bits)

/-- OTMARK pushes a marker record of 16 elements; OTDROP without a marker faults with 0x0B cause 5, and with one removes the records
on chip down to and with the newest marker; OTSPILL of at least what is on chip completes; OTDEPTH delivers the records, the
entries or the spilled lines; a broken stack faults with cause 4. When a spill's room comes back is the model's reading (log 23).
(After R200, R203, R205, R208.) -/
def Obligations.StackWords : Prop :=
  ∀ (s : State) (p : Pred) (n : BitVec 11), enabled s .vx p = true →
    let o := s.job.ot
    let trap (cause : Nat) : Host.Outcome State Fault Refusal := .next (takeFault s (faultAt s .vx 0x0B cause))
    let wcnt (v : Nat) : Host.Outcome State Fault Refusal := issued .vx 8 (.wcnt (BitVec.ofNat 32 v)) s
    let entries (l : List OtRec) : Nat := (l.map fun r => (4 * r.n + 255) / 256).foldl (· + ·) 0
    (entries o.recs + 1 ≤ 1024 → exec (.otmark p) s = .next (advance .vx (otPushLater 0x38 0 16 [] s))) ∧
    (o.brk = true → exec (.otdepth p .recs) s = trap 4 ∧ exec (.otdepth p .ent) s = trap 4 ∧ exec (.otdepth p .spl) s = trap 4) ∧
    (o.brk = false → exec (.otdepth p .recs) s = wcnt o.depth ∧ exec (.otdepth p .ent) s = wcnt (entries o.recs) ∧
      exec (.otdepth p .spl) s = wcnt (o.sp / 64)) ∧
    ((s.micro .vx).phase = 0 →
      (o.brk = true → exec (.otdrop p) s = trap 4 ∧ exec (.otspill p n) s = trap 4) ∧
      (o.brk = false → o.marks = 0 → exec (.otdrop p) s = trap 5) ∧
      (∀ a m b, o.brk = false → o.recs = a ++ m :: b → otClass m = 0x38 → (∀ r ∈ b, otClass r ≠ 0x38) → 0 < o.marks →
        ∃ t, exec (.otdrop p) s = .next (advance .vx t) ∧ t.job.ot.recs = a ∧ t.job.ot.marks = o.marks - 1 ∧
          t.job.ot.depth = o.depth - (b.length + 1)) ∧
      (o.brk = false → entries (onChip o) ≤ n.toNat → ∃ t, exec (.otspill p n) s = .next (advance .vx t) ∧ t.job.ot = o) ∧
      (o.brk = false → n.toNat < entries (onChip o) → o.spill = none → o.fill = none → spillFits s = true →
        ∃ t, exec (.otspill p n) s = .next (stalled .vx .other t) ∧ t.job.ot = { o with force := true }))

/-- VSTAT and VLSE give their rows' KIND on the next cycle and update them, on their landing, with the elements of each operand row
that shape and mask select; VNORMS and VSOFTS deliver each element normalised by the row that it uses, as the rows stand at issue; a
row beyond 4,095 faults with 0x07, one of another kind with 0x11. SBLD and SBST of rows within the buffer send their lines, one a
cycle, and stay until the last is served; SBLD then writes its rows; SBCLR clears 64 rows a cycle, and a count of up to 64 at once;
0 rows or more than 4,096 fault with 0x02, a row beyond the last with 0x07. The rows hold no uncorrectable error. The bounds of SBLD
and SBST, the shape that VNORMS uses and the fields of these faults are the model's reading (log 19). (After R212, R213, R214.) -/
def Obligations.StatisticsWords : Prop :=
  (
    ∀ (s s1 u : State) (p : Pred) (a b : Opnd) (x : Sfx) (v2 : V2) (v3 : V3) (A : Array W32), enabled s .vx p = true →
      let trap (code : Nat) (f2 : W64) : Host.Outcome State Fault Refusal := .next (takeFault s1 (faultAt s1 .vx code 0 f2))
      (touchAll (planesOf s x.win [⟨a, x.ty, false⟩]) s = .ok s1 → checkUses s1 .vx x.win [(⟨a, x.ty, false⟩, planeCnt a)] = .ok () →
        let pl := opndPlane s1 x.win a
        let rows := statRows pl a (constVal s1 .vx b).toNat
        let vals (i : Nat) : List W32 :=
          ((List.range 64).filter fun j => inShape pl (64 * i + j) && maskBit s1 x.km (64 * i + j)).map fun j =>
            BitVec.ofNat 32 ((((dense (0 : W32) 1024 pl.data).getD (64 * i + j) 0).toNat) % 2 ^ x.ty.width)
        let good (l : List (Nat × Nat)) : Prop := badAmong s1 (l.map fun r => .stat r.2) = false
        ∀ (k lat : Nat) (i : Instr), (k = 1 ∧ lat = 12 ∧ i = .vstat p a b x) ∨ (k = 2 ∧ lat = 14 ∧ i = .vlse p a b x) →
          ((∀ r ∈ rows, r.2 < 4096) → (∀ r ∈ rows, (statRow s1 r.2).kind = 0 ∨ (statRow s1 r.2).kind = k) → good rows →
            exec i s = issued .vx lat (.stat k x.ty (rows.map fun r => (r.2, vals r.1))) (later .vx 1 (.skind k (rows.map Prod.snd)) s1)) ∧
          ((∃ r ∈ rows, 4096 ≤ r.2) → exec i s = trap 0x07 0) ∧
          (∀ l r l', rows = l ++ r :: l' → (∀ y ∈ rows, y.2 < 4096) → (∀ y ∈ l, (statRow s1 y.2).kind = 0 ∨ (statRow s1 y.2).kind = k) →
            (statRow s1 r.2).kind ≠ 0 → (statRow s1 r.2).kind ≠ k → exec i s = trap 0x11 (BitVec.ofNat 64 r.2))) ∧
      ∀ (d a' b' : Opnd) (y : Sfx) (k lat : Nat) (i : Instr) (f : SRow → W32 → W32),
        (i = .vnorms p v3 ∧ d = v3.d ∧ a' = v3.a ∧ b' = v3.b ∧ y = v3.x ∧ k = 1 ∧ lat = 14 ∧
          f = fun r z => normElem v3.x.ty v3.x.rnd v3.x.sat r (constElem s1 .vx v3.c) z) ∨
        (i = .vsofts p v2 ∧ d = v2.d ∧ a' = v2.a ∧ b' = v2.b ∧ y = v2.x ∧ k = 2 ∧ lat = 20 ∧
          f = fun r z => softElem v2.x.ty v2.x.rnd v2.x.sat r z) →
        let n := planeCnt d
        let us : List Use := [⟨d, y.ty, true⟩, ⟨a', y.ty, false⟩]
        touchAll (planesOf s y.win us) s = .ok s1 → checkUses s1 .vx y.win (us.map fun z => (z, n)) = .ok () →
        let rows := statRows (opndPlane s1 y.win d) d (constVal s1 .vx b').toNat
        ((∃ r ∈ rows, 4096 ≤ r.2) → exec i s = trap 0x07 0) ∧
        ((∀ r ∈ rows, r.2 < 4096) → (∀ r ∈ rows, (statRow s1 r.2).kind = k) → badAmong s1 (rows.map fun r => .stat r.2) = false →
          readUses .vx y.win y.rnd y.sat (us.map fun z => (z, n)) [] s1 = (u, [A]) →
          let row_ (l : Nat) : Nat := ((rows.find? fun r => decide (r.1 = l / 64)).map Prod.snd).getD 0
          exec i s = .next (advance .vx (putResult .vx lat d y.ty y.win y.rnd y.sat y.km (ownLanes d n)
            ((ownLanes d n).zipIdx.map fun e => ⟨f (statRow u (row_ e.1)) (A.getD e.2 0), false, false⟩) u)))) ∧
  (
    ∀ (s : State) (p : Pred) (a b c : Opnd) (tp : BitVec 3), enabled s .vx p = true →
      let sr := (constVal s .vx a).toNat
      let n := (constVal s .vx b).toNat
      let o := (constVal s .vx c).toNat
      let m := s.micro .vx
      let ins : List Instr := [.sbld p a b c tp, .sbst p a b c tp, .sbclr p a b]
      (n = 0 ∨ 4096 < n → ∀ i ∈ ins, exec i s = .next (takeFault s (faultAt s .vx 0x02 0))) ∧
      (1 ≤ n → n ≤ 4096 → 4096 < sr + n → ∀ i ∈ ins, exec i s = .next (takeFault s (faultAt s .vx 0x07 0))) ∧
      (1 ≤ n → sr + n ≤ 4096 →
        (m.phase = 0 → o % 16 = 0 → rowLandings s sr n = false → ∀ (i : Instr) (acc : Acc) (k : ReqKind) (va : Nat) (pages : List Piece),
          (i = .sbld p a b c tp ∧ acc = .read ∧ k = .sbRd) ∨ (i = .sbst p a b c tp ∧ acc = .write ∧ k = .sbWr) →
          tensorAt s .vx tp o (16 * n) (decide (acc = .write)) = .ok (va, pages) → (∀ r ∈ s.core.ranges, ¬(r.lo < va + 16 * n ∧ va < r.hi)) →
          (acc = .write → badAmong s ((List.range n).map fun j => .stat (sr + j)) = false) →
          ∃ u, exec i s = .next (stalled .vx .other u) ∧ (u.micro .vx).phase = 10 ∧
            (u.micro .vx).rds = ((linePieces va (16 * n)).map fun l => ⟨l.1, l.2, some 0, []⟩) ∧
            u.core.stat = s.core.stat ∧ u.dev.mem = s.dev.mem ∧
            u.dev.reqs.length = s.dev.reqs.length + (linePieces va (16 * n)).length) ∧
        (m.phase = 10 → (∀ r ∈ m.rds, ∃ g, r.grant = some g ∧ g ≠ 0 ∧ g ≤ s.cyc) →
          exec (.sbst p a b c tp) s = .next (advance .vx s) ∧
          (let l := m.rds.flatMap SRead.data
           let val (i : Nat) : BitVec 128 := BitVec.ofNat 128 (leNat ((l.drop (16 * i)).take 16))
           SMap.wf 0 s.core.stat = true → (∀ i < n, (val i).toNat / 2 ^ 96 ≤ 2) →
            ∃ u, exec (.sbld p a b c tp) s = .next (advance .vx u) ∧ u.dev = s.dev ∧ u.job = s.job ∧
              (∀ i < n, SMap.get 0 u.core.stat (sr + i) = val i) ∧
              ∀ r, r < sr ∨ sr + n ≤ r → SMap.get 0 u.core.stat r = SMap.get 0 s.core.stat r)) ∧
        (m.phase = 0 → m.k = 0 → rowLandings s sr n = false → SMap.wf 0 s.core.stat = true →
          (n ≤ 64 → ∃ u, exec (.sbclr p a b) s = .next (advance .vx u) ∧ (∀ i < n, SMap.get 0 u.core.stat (sr + i) = 0) ∧
            ∀ r, r < sr ∨ sr + n ≤ r → SMap.get 0 u.core.stat r = SMap.get 0 s.core.stat r) ∧
          (64 < n → ∃ u, exec (.sbclr p a b) s = .next (stalled .vx .other u) ∧ (∀ i < 64, SMap.get 0 u.core.stat (sr + i) = 0) ∧
            u.micro .vx = { m with phase := 12, k := 64 }))))

/-- From finite values, the update of a moments row gives the mean of all that it has counted and the sum of their squared deviations,
each computed exactly and rounded once; a row that a NaN or an infinity enters holds NaN; the count rises by the values and stops
at 2^32 - 1; no value leaves the row as it is. That an empty update leaves the row is the model's reading (log 19). (After R212.) -/
def Obligations.MomentsAreExact : Prop :=
  ∀ (row : SRow) (xs : List Ext),
    (xs = [] → statMoments row xs = row) ∧
    (xs ≠ [] → (statMoments row xs).count = min (row.count + xs.length) (2 ^ 32 - 1) ∧ (statMoments row xs).kind = 1) ∧
    (xs ≠ [] → (∃ x ∈ xs, x.isFin = false) → (statMoments row xs).hi = 0x7FC00000 ∧ (statMoments row xs).mid = 0x7FC00000) ∧
    ∀ (qs : List Rat) (mu m2 : Rat) (z z2 : Bool), xs = qs.map Ext.ofRat → qs ≠ [] → f32v row.mid = .num mu z → f32v row.hi = .num m2 z2 →
      let n : Rat := ((row.count : Nat) : Rat)
      let m : Rat := ((qs.length : Nat) : Rat)
      let mean : Rat := (n * mu + qs.sum) / (n + m)
      (statMoments row xs).mid = rne32 (Ext.ofRat mean) ∧
      (statMoments row xs).hi =
        rne32 (Ext.ofRat (m2 + n * (mu - mean) ^ 2 + (qs.map fun x => (x - mean) ^ 2).sum))

/-! ### The matrix, vector and store engines -/

/-- SDRAIN moves its source's elements to its destination, SACC adds two sources in its type, SSCALE clips by a squared norm and a
limit; the .dev form sends the bytes of its source to the bytes of its tensor entry, a line a cycle, and completes when the last
line has left the core; an offset that is not a multiple of 64 faults with 0x12. SNORM2 adds the squares of its vector to NACC,
exactly and rounded once with what NACC then holds, SNORM2's put form delivers NACC in every element, its clear form makes NACC 0,
each six cycles later. OPTW pops the weights, gradients and states of its ports once, and pushes the new weights to its port and
the new states to the port after it, sixteen cycles later; OPTSTEP raises its step counter by one, up to 2^32 - 1. (After R216,
R217, R219, R218, R220 to R223.) -/
def Obligations.StoreEngineWords : Prop :=
  (
    ∀ (s u : State) (p : Pred), enabled s .sx p = true →
      (∀ (v : V1) (A : Array W32), elemRead .sx v.d v.x.ty [(v.a, v.x.ty)] v.x s u [A] →
        exec (.sdrain p v) s = elemDone .sx 1 v.d v.x.ty [(v.a, v.x.ty)] v.x s u (fun _ e => ⟨A.getD e 0, false, false⟩)) ∧
      (∀ (v : V2) (A B : Array W32), elemRead .sx v.d v.x.ty [(v.a, v.x.ty), (v.b, v.x.ty)] v.x s u [A, B] →
        let t := v.x.ty
        exec (.sacc p v) s = elemDone .sx 3 v.d t [(v.a, t), (v.b, t)] v.x s u (fun _ e =>
          ⟨if t.isFloat = true then fout t v.x.rnd v.x.sat (extAdd v.x.rnd (fval t (A.getD e 0)) (fval t (B.getD e 0)))
            else intOut t v.x.sat (intOf t (A.getD e 0) + intOf t (B.getD e 0)), false, false⟩)) ∧
      (∀ (v : V3) (A B C : Array W32), elemRead .sx v.d v.x.ty [(v.a, v.x.ty), (v.b, .f32), (v.c, .f32)] v.x s u [A, B, C] →
        exec (.sscale p v) s = elemDone .sx 16 v.d v.x.ty [(v.a, v.x.ty), (v.b, .f32), (v.c, .f32)] v.x s u (fun _ e =>
          ⟨sscaleElem v.x.ty v.x.rnd v.x.sat (A.getD e 0) (B.getD e 0) (C.getD e 0), false, false⟩)) ∧
      ∀ (a c : Opnd) (tp : BitVec 3) (x : Sfx),
        let us : List Use := [⟨a, x.ty, false⟩]
        let n := elemCount s us
        let len := n * x.ty.width / 8
        let o := (constVal s .sx c).toNat
        let i : Instr := .sdrainDev p a c tp x
        ((s.micro .sx).phase = 13 → (s.micro .sx).due ≤ s.cyc → exec i s = .next (advance .sx s)) ∧
        ((s.micro .sx).phase ≠ 13 → absentTy s x.ty = false → checkUses s .sx false (us.map fun y => (y, n)) = .ok () →
          (o % 64 ≠ 0 → exec i s = .next (takeFault s (faultAt s .sx 0x12 0 (BitVec.ofNat 64 o)))) ∧
          ∀ va pages bs A, o % 64 = 0 → tensorAt s .sx tp o len true = .ok (va, pages) →
            (∀ r ∈ s.core.ranges, ¬(r.lo < va + len ∧ va < r.hi)) → waitUses s .sx (us.map fun y => (y, n)) = .ok bs →
            readUses .sx false x.rnd x.sat (us.map fun y => (y, n)) bs s = (u, [A]) →
            ∃ t, exec i s = .next (stalled .sx .other t) ∧ (t.micro .sx).phase = 13 ∧
              (t.micro .sx).due = s.cyc + 1 + (linePieces va len).length ∧ t.dev.mem = s.dev.mem ∧
              t.dev.reqs.length = s.dev.reqs.length + (linePieces va len).length ∧
              ∀ (l : Nat × Nat), l ∈ linePieces va len → ∃ q ∈ t.dev.reqs, q.2.va = l.1 ∧ q.2.len = l.2 ∧ q.2.acc = .write ∧ q.2.kind = .devWr ∧
                q.2.data = ((A.toList.flatMap fun y => leBytes (x.ty.width / 8) y.toNat).drop (l.1 - va)).take l.2)) ∧
  (
    ∀ (s u : State) (p : Pred) (a : Opnd) (ty : Ty) (A : Array W32) (bs : List (List Byte)), enabled s .sx p = true →
      let us : List (Use × Nat) := [(⟨a, ty, false⟩, elemCount s [⟨a, ty, false⟩])]
      (checkUses s .sx false us = .ok () → waitUses s .sx us = .ok bs → readUses .sx false .rne false us bs s = (u, [A]) →
        exec (.snorm2 p a ty) s = issued .sx 6 (.naccAdd ty A.toList) u) ∧
      exec (.snorm2Clr p) s = issued .sx 6 (.nacc 0) s ∧
      (elemRead .sx a .f32 [] sfxF32 s u [] →
        exec (.snorm2Put p a) s = elemDone .sx 6 a .f32 [] sfxF32 s u (fun _ _ => ⟨u.job.nacc, false, false⟩)) ∧
      ∀ (st : Stream) (sec : Nat) (l : List W32) (t : State),
        let sum := fp32.round .rne false (extSum .rne (f32v t.job.nacc :: l.map fun y => extMul (fval ty y) (fval ty y)))
        landEff st sec t (.nacc 0) = (t.onJob fun j => { j with nacc := 0 }) ∧
        landEff st sec t (.naccAdd ty l) = t.onJob fun j => { j with nacc := BitVec.ofNat 32 sum }) ∧
  (
    ∀ (s u : State) (p : Pred) (v : V3) (wd : Bool) (n pb : BitVec 3) (gd : BitVec 3) (bs : List (List Byte)), enabled s .sx p = true →
      v.d = .port gd →
      let x := v.x
      let one (st : State) : W32 := row st.core.step 0 n.toNat
      (exec (.optstep p n) s = issued .sx 1 (.ostep n.toNat (if one s = 0xFFFFFFFF then one s else one s + 1)) s) ∧
      ∀ (adam : Bool) (k : Nat) (vs : List (Array W32)), k = (if adam = true then 2 else 1) →
        let us : List Use := [⟨v.d, x.ty, true⟩] ++ List.replicate k ⟨.port (gd + 1), .f32, true⟩ ++ [⟨v.a, x.ty, false⟩, ⟨v.b, .f32, false⟩] ++
          List.replicate k ⟨v.c, .f32, false⟩
        let cnt := elemCount s us
        let uns := us.map fun y => (y, cnt)
        checkUses s .sx false uns = .ok () → (s.port (gd + 1).toNat).buf.length + k ≤ 2 → waitUses s .sx uns = .ok bs → readUses .sx false x.rnd x.sat uns bs s = (u, vs) →
        let g (e i : Nat) : W32 := (vs.getD i #[]).getD e 0
        let h (i : Nat) : W32 := s.job.l.pool.getD (32 * pb.toNat + i) 0
        let t := (one s).toNat + 1
        let sgd (e : Nat) : W32 × W32 := sgdElem x.ty x.rnd x.sat wd (h 0) (h 1) (h 4) (g e 0) (g e 1) (g e 2)
        let ad (e : Nat) : W32 × W32 × W32 := adamElem x.ty x.rnd x.sat wd (h 0) (h 1) (h 2) (h 3) (h 4) t (g e 0) (g e 1) (g e 2) (g e 3)
        let push (q : BitVec 3) (ty : Ty) (f : Nat → W32) (y : State) : State :=
          pushLater .sx 16 q.toNat ty x.rnd x.sat ((List.range cnt).map f) y
        exec (.optw p v adam wd n pb) s = .next (advance .sx (if adam = true
          then push (gd + 1) .f32 (fun e => (ad e).2.1) (push (gd + 1) .f32 (fun e => (ad e).1) (push gd x.ty (fun e => (ad e).2.2) u))
          else push (gd + 1) .f32 (fun e => (sgd e).1) (push gd x.ty (fun e => (sgd e).2) u))))

/-! ### Collectives, one-sided packets, repartition -/

/-- A COLL whose checks pass binds its token, takes the next number of its group's sequence and hands its record to the reducers;
COLLQ delivers the word that R296 makes of the record, and starts nothing; a misplaced or ill-formed record faults. A REPART of a
well-formed record that starts a pass, with its group, its pages and a free token, binds the token, takes the group's next number
and starts the pass at its first round, unless another member's record of that number differs; a misplaced or ill-formed record
faults. (After R284, R294, R295, R296, R304, R305, R313.) -/
def Obligations.CollectiveAndRepartWords : Prop :=
  (
    ∀ (s : State) (p : Pred) (t : BitVec 4) (d : BitVec 5) (preg : BitVec 6), enabled s .sq p = true → ready s [preg] = true →
      let a := s.reg preg
      (a.toNat % 64 ≠ 0 → exec (.coll p t preg) s = .next (takeFault s (faultAt s .sq 0x12 0 a)) ∧
        exec (.collq p d preg) s = .next (takeFault s (faultAt s .sq 0x12 0 a))) ∧
      (∀ s1 l, a.toNat % 64 = 0 → descRead s .sq a.toNat 256 = .ok (s1, l) → parseColl l = none →
        exec (.coll p t preg) s = .next (takeFault s1 (faultAt s1 .sq 0x02 0 a)) ∧
        exec (.collq p d preg) s = .next (takeFault s1 (faultAt s1 .sq 0x02 0 a))) ∧
      ∀ s1 r tab rank pages, collChecks preg s = .ok (s1, r, tab, rank, pages) →
        let n := tab.nodes.length
        let num := ((s1.grp.seqs.find? fun x => x.1 = tab.gid).map Prod.snd).getD 0
        exec (.collq p d preg) s = .next (advance .sq (sided (later .sq 1 (.sreg d.toNat (BitVec.ofNat 64
          (collChunks r * 2 ^ 32 + (if collPre r n = true then 2 ^ 12 else 0) + floorLog n * 2 ^ 4 + collAlg r n))) s1))) ∧
        (tokBusy s1 t.toNat = true → exec (.coll p t preg) s = .next (stalled .sq .token s1)) ∧
        (tokBusy s1 t.toNat = false → activeGroupOps s1 < 8 → pinRoom s1 pages = true →
          (∀ c ∈ s1.grp.colls, ¬(c.gid = tab.gid ∧ c.num = num)) →
          ∃ u c, exec (.coll p t preg) s = .next (advance .sq (sided u)) ∧ row u.job.tok Tok.init t.toNat = ⟨.busy, 0, []⟩ ∧
            collOf u tab.gid num = some c ∧ c.token = t.toNat ∧ c.core = s.coreNo ∧ c.op = r.op ∧ c.red = r.red ∧ c.dt = r.dt ∧
            c.count = r.count ∧ c.src = r.src ∧ c.src2 = r.src2 ∧ c.dst = r.dst ∧ c.comp = r.comp ∧ c.ranks = n ∧ c.rank = rank ∧ c.chunk = 0 ∧
            ((u.grp.seqs.find? fun x => x.1 = tab.gid).map Prod.snd) = some (num + 1) ∧ u.dev.mem = s1.dev.mem)) ∧
  (
    ∀ (s : State) (p : Pred) (t : BitVec 4) (preg : BitVec 6), enabled s .sq p = true → ready s [preg] = true →
      let a := s.reg preg
      (a.toNat % 64 ≠ 0 → exec (.repart p t preg) s = .next (takeFault s (faultAt s .sq 0x12 0 a))) ∧
      ∀ s1 l, a.toNat % 64 = 0 → descRead s .sq a.toNat 256 = .ok (s1, l) →
        ∀ s2 tab rank, ownTable s1 (fieldN l 8 8) = .ok (s2, tab, rank) →
        (parseRep a.toNat l = none → exec (.repart p t preg) s = .next (takeFault s2 (faultAt s2 .sq 0x02 0 a))) ∧
        ∀ r s3 pages, parseRep a.toNat l = some r → repMode r.ctrl = false →
          let n := tab.nodes.length
          let z := repSize r.ctrl
          let num := ((s3.grp.seqs.find? fun x => x.1 = tab.gid).map Prod.snd).getD 0
          rank < n → cap1 s2 5 = true → cap1 s2 4 = true →
          needAll s2 [(r.src, z * r.nsrc, .r), (r.prev, 0, .r), (r.rbuf, z * r.rcap, .w), (r.reta, z * r.retcap, .w), (r.comp, 64 + 4 * n, .w)] =
            .ok (s3, pages) → pages.length ≤ 4096 → s3.plat.fenced = 0 → foreignGroup s3 tab.gid = false →
          (tokBusy s3 t.toNat = true → exec (.repart p t preg) s = .next (stalled .sq .token s3)) ∧
          (tokBusy s3 t.toNat = false → activeGroupOps s3 < 8 → pinRoom s3 pages = true →
            (∀ c ∈ s3.grp.reps, ¬(c.gid = tab.gid ∧ c.num = num)) → (∀ k ∈ recsOf tab.gid num s3, k = repKey r) →
            ∃ u c, exec (.repart p t preg) s = .next (advance .sq (sided u)) ∧ row u.job.tok Tok.init t.toNat = ⟨.busy, 0, []⟩ ∧
              repOf u tab.gid num = some c ∧ c.token = t.toNat ∧ c.ctrl = r.ctrl ∧ c.src = r.src ∧ c.nsrc = r.nsrc ∧ c.rbuf = r.rbuf ∧
              c.rcap = r.rcap ∧ c.rhave = r.rhave ∧ c.reta = r.reta ∧ c.retcap = r.retcap ∧ c.comp = r.comp ∧ c.ranks = n ∧ c.rank = rank ∧
              c.round = 0 ∧ c.dests = none ∧ (∃ e ∈ u.agenda, e.ev = .keyRound tab.gid num) ∧ u.dev.mem = s3.dev.mem))

/-- A WRREM whose checks pass binds its token, with as many acknowledgements to come as it has packets, and asks for its source; once
that has been read without a race, its bytes leave in address order, at most 4,096 a packet, for the rank's node. SIGREM counts its
signal as outstanding and sends it with its increment, behind every earlier WRREM to the same rank on the same channel that has not
been sent. In whose slots the source is read, and that packets leave by port 0, is the model's choice (logs 33 and 30). (After R300,
R301.) -/
def Obligations.RemoteWords : Prop :=
  (
  ∀ (s : State) (p : Pred) (t : BitVec 4) (preg : BitVec 6), enabled s .sq p = true → ready s [preg] = true →
    let a := s.reg preg
    (a.toNat % 32 ≠ 0 → exec (.wrrem p t preg) s = .next (takeFault s (faultAt s .sq 0x12 0 a)) ∧
      exec (.sigrem p preg) s = .next (takeFault s (faultAt s .sq 0x12 0 a))) ∧
    (∀ s1 r tab pages, remChecks true preg s = .ok (s1, r, tab, pages) → storeRoom s1 = true →
      let dst := (tab.nodes[r.rank]?).getD 0
      ∃ u, exec (.sigrem p preg) s = .next (advance .sq (sided u)) ∧ u.job.seq.remOut = s1.job.seq.remOut + 1 ∧
        ((∀ x ∈ s1.grp.rems, x.sent = true) →
          u.out = s1.out ++ [.packet 0 ⟨2, BitVec.ofNat 8 r.vc, s1.node, BitVec.ofNat 16 dst, 0, BitVec.ofNat 64 tab.gid,
            fit 16 (leBytes 8 r.doff ++ leBytes 1 r.bix ++ leBytes 3 0 ++ leBytes 4 r.len), []⟩]) ∧
        ((∀ x ∈ s1.grp.rems, x.id ≠ s1.grp.remNext ∧ (x.token = none → x.sent = true)) →
          (∃ x ∈ s1.grp.rems, x.token.isSome = true ∧ x.sent = false ∧ x.dst = dst ∧ x.vc = r.vc) → u.out = s1.out) ∧
        ∃ m ∈ u.grp.rems, m.id = s1.grp.remNext ∧ m.token = none ∧ m.left = 1 ∧ m.gid = tab.gid) ∧
    ∀ s1 r tab pages, remChecks false preg s = .ok (s1, r, tab, pages) →
      (tokBusy s1 t.toNat = true → exec (.wrrem p t preg) s = .next (stalled .sq .token s1)) ∧
      (tokBusy s1 t.toNat = false → pinRoom s1 pages = true →
        ∃ u, exec (.wrrem p t preg) s = .next (advance .sq (sided u)) ∧ row u.job.tok Tok.init t.toNat = ⟨.busy, 0, []⟩ ∧
          (∃ m ∈ u.grp.rems, m.id = s1.grp.remNext ∧ m.token = some t.toNat ∧ m.left = (r.len + 4095) / 4096 ∧ m.gid = tab.gid ∧
            m.src = r.src ∧ m.len = r.len ∧ m.off = r.doff ∧ m.dst = (tab.nodes[r.rank]?).getD 0 ∧ m.sent = false) ∧
          (∃ e ∈ u.agenda, e.ev = .wrremSource s1.grp.remNext ∧ e.at_ = s.cyc + 1) ∧ u.dev.mem = s1.dev.mem ∧ u.out = s1.out)) ∧
  ∀ (s s0 u : State) (id : Nat) (m : Remote) (x : UnitOp), dueHead s s0 (.wrremSource id) →
    s0.grp.rems.find? (fun y => y.id = id) = some m → unitTake (.wrremSource id) s0 = (some x, u) → x.fault = none →
    (∀ y ∈ s0.grp.rems, y.token = none → y.sent = true) →
    ∃ v, exec .ackPacketArrival s = .next v ∧ (∃ y ∈ v.grp.rems, y.id = id ∧ y.sent = true) ∧
      v.out = s.out ++ (List.range ((m.len + 4095) / 4096)).map fun i =>
        let d := ((x.bytes m.src m.len).drop (4096 * i)).take 4096
        .packet 0 ⟨1, BitVec.ofNat 8 m.vc, s.node, BitVec.ofNat 16 m.dst, BitVec.ofNat 16 ((d.length + 31) / 32),
          BitVec.ofNat 64 m.gid, fit 16 (leBytes 8 (m.off + 4096 * i) ++ leBytes 1 m.bix ++ leBytes 3 0 ++ leBytes 4 0),
          fit (32 * ((d.length + 31) / 32)) d⟩

/-! ### Events of a core -/

/-- A header whose bytes are at hand and well formed lets its section's words begin once its targets are met, and holds what the
sections it waited for held; until then the sequencer waits there. A value that is no header faults with 0x01, a header that breaks
R18 with 0x02, a dependency of −128 with 0x0F; the record marks the header. The first engine in stream order whose next section may
start starts it: the section leaves the queue, the pending masks of its ISSUE land on the next job cycle, the loop buffer keeps what
it holds only for the section with LBR that it already holds, and a section of no words has ended at once. The first whose oldest
ended section has nothing left to land retires it: the count that waits look at rises by 1, its pages are unpinned, and with RDVE
the engine is at its rendezvous. That an engine section without words has ended on the cycle on which it starts, and when a pending
mask lands, are the model's reading (log 17). (After R18, R19, R90, R91, R93, R142, R169.) -/
def Obligations.SequencerAtHeader : Prop :=
  (
    ∀ (s s1 : State) (a h : W64), s.job.seq.pos = .header a →
      ((∃ ws, s.job.seq.buf = some (h, ws)) ∧ s1 = s ∨
        s.job.seq.buf = none ∧ ∃ l, sqFetch s a.toNat 8 = .ok (s1, l) ∧ h = BitVec.ofNat 64 (leNat l)) →
      let runs (tgt : List (Nat × Int)) (s : State) : State :=
        addHeld (s.onSeq fun q => { q with pos := .run a h 0 }) (strParty s .sq) (targetHeld s tgt)
      (hdrType h ≠ 1 → exec .sequencerHeader s = .next (takeFault s1 { faultAt s1 .sq 0x01 0 with hdrF := true })) ∧
      (∀ c, hdrFault .sq h = some c → exec .sequencerHeader s = .next (takeFault s1 { faultAt s1 .sq c 0 with hdrF := true })) ∧
      (hdrFault .sq h = none →
        (∀ i t, hdrTargets s1 .sq h = .error (i, t) → exec .sequencerHeader s =
          .next (takeFault s1 { faultAt s1 .sq 0x0F 0 (BitVec.ofNat 64 i) (BitVec.ofInt 64 t) with hdrF := true })) ∧
        ∀ tgt, hdrTargets s1 .sq h = .ok tgt →
          (targetsMet s1 tgt = true → exec .sequencerHeader s = .next (runs tgt (waitOver .sq s1))) ∧
          (targetsMet s1 tgt = false →
            exec .sequencerHeader s =
              .next (stalled .sq .other ((waitOver .sq s1).onSeq fun q => { q with pos := .wait a h tgt })) ∧
            ∀ u : State, u.job.seq.pos = .wait a h tgt → targetsMet u tgt = true →
              exec .sequencerHeader u = .next (issuedWord .sq (runs tgt u))))) ∧
  (
    ∀ (s : State) (st : Stream), st ∈ engs →
      (∀ q, (∀ x ∈ engs, x.idx < st.idx → startable s x = none) → startable s st = some q →
        ∃ t, exec .sectionStart s = .next t ∧ (t.eng st).q = (s.eng st).q.tail ∧ (t.eng st).idx = 0 ∧ (t.eng st).frames = [] ∧
          (hdrLen q.hdr ≠ 0 → (t.eng st).cur = some q ∧ (t.eng st).ended = (s.eng st).ended) ∧
          (hdrLen q.hdr = 0 → (t.eng st).cur = none ∧ ((t.eng st).ended.getLast?.map Ended.num) = some q.num) ∧
          t.job.dl = s.job.dl ++ q.pend.map (fun x => ⟨s.job.cycle + 1, st, 0, s.job.cycle, .mset x.1 x.2.1 (pendMask x.2.2)⟩) ∧
          (t.eng st).lbuf = (if hdrLbr q.hdr = true ∧ (s.eng st).lbr.map Prod.fst = some q.addr then (s.eng st).lbuf else []) ∧
          t.job.mx = s.job.mx ∧ t.job.seq = s.job.seq ∧ t.dev = s.dev ∧ t.core = s.core) ∧
      ∀ x, (∀ y ∈ engs, y.idx < st.idx → retirable s y = none) → retirable s st = some x →
        ∃ t, exec .sectionRetire s = .next t ∧ (t.eng st).ended = (s.eng st).ended.tail ∧
          row t.job.flow.retired 0 st.idx = row s.job.flow.retired 0 st.idx + 1 ∧
          (∀ i < 5, i ≠ st.idx → row t.job.flow.retired 0 i = row s.job.flow.retired 0 i) ∧
          t.core.pins = (unpinAll s (x.pages ++ x.tp.flatMap TpEnt.pages)).core.pins ∧
          t.job.flow.rdvReached = (if hdrRdve x.hdr then rowSet s.job.flow.rdvReached st.idx (cnt5 s.job.flow.rdvReached st + 1)
            else s.job.flow.rdvReached) ∧
          t.job.seq = s.job.seq ∧ t.dev = s.dev)

/-- On a cycle on which something of the running job lands, every entry whose cycle has come lands in its order, and the others stay;
where planes of those entries wait to be restored, the job is held first, for 64 cycles for every plane stored or restored. A hold
ends on its cycle. A line that comes back enters the stream cache in front of its set; a prefetch whose lines are resident, 6
cycles after its start, makes its register ready; a walk whose read is back reads the next table, and one that ends puts the leaf it
found in front of the translation cache; of a walk that faults nothing enters. The stack of a walk's reads and the index of the
stream cache are the model's choice (logs 48 and 8). (After R55, R163, R401, R13, R78, R229, R230.) -/
def Obligations.LandingsHoldsFills : Prop :=
  (
    ∀ (s : State),
      let u := if arrayDue s then landArray s else s
      let due := (dueEntries u.job.cycle u.job.dl).filterMap fun e => effPlane e.eff
      let stored (p : Nat) : Bool := u.core.images.any fun i => i.1 = u.job.ctx ∧ i.2.1 = p
      (jobLands u = true → (∀ p ∈ due, stored p = false) →
        exec .delayLineLanding s = .next (landAll u) ∧ (landAll u).job.dl = u.job.dl.filter fun e => ¬ e.land ≤ u.job.cycle) ∧
      (jobLands u = true → (∃ p ∈ due, p < 32 ∧ stored p = true ∧ (u.plane p).owner ≠ some u.job.ctx) →
        ∃ t n, exec .delayLineLanding s = .next t ∧ 0 < n ∧ n ≤ 64 ∧ t.hold = some (s.cyc + 64 * n) ∧ t.job.dl = u.job.dl ∧
          t.todo = .landings :: s.todo) ∧
      (jobLands u = false → exec .delayLineLanding s = .next u) ∧
      ∀ c, s.hold = some c → c ≤ s.cyc → exec .firstTouchHoldEnd s = .next { s with hold := none }) ∧
  (
    (∀ (s s0 : State) (line : Nat) (l : ScLine), dueHead s s0 (.streamCacheFill line) →
      s.core.scArr.find? (fun x => x.line = line) = some l →
      ∃ u, exec .streamCacheFill s = .next (scTouch l u) ∧ u.core.scFill = s.core.scFill.filter (· ≠ line) ∧
        u.core.scArr = s.core.scArr.filter (fun x => x.line ≠ line) ∧ u.core.sc = s.core.sc ∧ u.job = s.job ∧ u.dev = s.dev) ∧
    (∀ (s u : State) (i : Nat) (v : Option (W64 × List (BitVec 96))), prefetchDue s = some i → prefetchTry s i = (u, some v) →
      exec .prefetchReady s = .next (u.onSeq fun q => q.setB i { q.bReg i with ready := true, buf := v })) ∧
    ∀ (s s0 : State) (st : Stream) (va : Nat) (acc : Perm) (x : WalkRd), dueHead s s0 (.translationWalk st va acc) →
      let w : Walk := ⟨st, va, acc⟩
      s.core.walks.find? (fun y => y.walk = w) = some x →
      (∀ y, walkNext s x = some y → exec .translationWalk s =
        .next (walkRead (s.cyc + 1) y (s0.onCore fun c => { c with walks := c.walks.filter fun z => z.walk ≠ w }))) ∧
      (walkNext s x = none → ∃ t, exec .translationWalk s = .next t ∧ (∀ y ∈ t.core.walks, y.walk ≠ w) ∧ w ∈ t.core.walked ∧
        t.dev = s.dev ∧ t.job.seq = s.job.seq ∧
        (∀ e, walkTable s s.job.l.root va = .ok e → t.core.tlb.head? = some e ∧ (t.micro st).leaves.head? = some e) ∧
        ∀ f, walkTable s s.job.l.root va = .error f → t.core.tlb = s.core.tlb ∧ t.job = s.job))

/-- A rendezvous that every stream has reached completes, and each stream holds what every other held. With JEND on every stream the
job ends, unless a phase counter of its levels is odd, which faults with 0x16 cause 3; with JEND on some it faults with 0x0A; at
one that is safe on every stream a request for pre-emption that has arrived is taken; otherwise the streams go on. A phase change
that closes raises its instance's count by 1 on its cycle, not before, and nobody has arrived any more; a BARW of this core's job that
waits for it has its count. A gang of several nodes starts its dissemination rounds instead, each with a packet to the rank 2^i further;
the last one, whose packet has come, raises the count. A job of another core that arrives counts as one of this core's. The latency of
a gang and the round of a barrier packet are the model's reading (log 38), and so is how other cores' jobs tell of themselves (log 1).
(After R94, R95, R102, R278, R279, R281, R282.) -/
def Obligations.RendezvousAndPhases : Prop :=
  (
    ∀ (s : State), rdvReady s = true →
      let fl := s.job.flow.flags.toList
      ∃ t, exec .rendezvousComplete s = .next t ∧ t.job.flow.rdvDone = s.job.flow.rdvDone + 1 ∧ t.job.seq = s.job.seq ∧ t.dev = s.dev ∧
        t.core = s.core ∧
        (fl.all Prod.snd = true → oddPhase s = none → t.job.st = .ending) ∧
        (fl.all Prod.snd = true → ∀ l, oddPhase s = some l →
          t.job.st = .frozen ∧ (t.job.frec.map fun r => (r.code, r.cause, r.f2)) = some (0x16, 3, BitVec.ofNat 64 l)) ∧
        (fl.all Prod.snd = false → fl.any Prod.snd = true → t.job.st = .frozen ∧ (t.job.frec.map FaultRec.code) = some 0x0A) ∧
        (fl.any Prod.snd = false → fl.all Prod.fst = true → (∃ n, s.job.preempt = some n ∧ n ≤ s.cyc) → t.job.st = .saving) ∧
        (fl.any Prod.snd = false → (fl.all Prod.fst = false ∨ ∀ n, s.job.preempt = some n → s.cyc < n) → t.job.st = .running)) ∧
  (
    ∀ (s s0 : State) (lvl inst : Nat) (d : Dom), findDom s lvl inst = some d →
      let done : Dom := { d with count := d.count + 1, arrived := [], held := [], closing := false, round := 0, start := 0 }
      let completes (t : State) : Prop :=
        (domInst s lvl ≠ inst → t.job = s.job) ∧
        (domInst s lvl = inst → isMember s lvl = true → myKey s ∈ d.arrived → (s.micro .sq).phase = 1 → (s.micro .sq).k = lvl →
          s.job.st = .running → (t.micro .sq).phase = 2 ∧ (t.micro .sq).val = BitVec.ofNat 64 (d.count + 1))
      let roundStarts (t : State) : Prop :=
        (∃ e ∈ t.agenda, e.ev = .phaseChangeComplete 4 inst ∧ e.at_ = s.cyc + d.lam + 8) ∧
        ∃ k, t.out = s.out ++ [.packet 0 k] ∧ k.ty = 4 ∧ k.ctl = 3 ∧ k.src = s.node ∧ k.nflit = 0 ∧
          k.dst = BitVec.ofNat 16 ((d.nodes[(d.nodes.findIdx (· = s.node.toNat) + 2 ^ d.round) % d.nodes.length]?).getD 0)
      (dueHead s s0 (.phaseChangeComplete lvl inst) →
        ((d.closing = false ∨ s.cyc < d.start) → exec .phaseChangeComplete s = .next s0) ∧
        (d.closing = true → d.start ≤ s.cyc →
          ((lvl ≠ 4 ∨ d.nodes.length ≤ 1) →
            ∃ t, exec .phaseChangeComplete s = .next t ∧ findDom t lvl inst = some done ∧ t.dev = s.dev ∧ completes t) ∧
          (lvl = 4 → 1 < d.nodes.length → d.round = 0 → ∃ t, exec .phaseChangeComplete s = .next t ∧
            findDom t lvl inst = some { d with round := 1, start := s.cyc + d.lam + 8 } ∧ roundStarts t) ∧
          (lvl = 4 → 1 < d.nodes.length → 0 < d.round →
            (∀ x ∈ d.remote, x.1 + 1 = d.round → s.cyc < x.2) → exec .phaseChangeComplete s = .next s0) ∧
          ∀ x, lvl = 4 → 1 < d.nodes.length → 0 < d.round → d.remote.find? (fun x => x.1 + 1 = d.round ∧ x.2 ≤ s.cyc) = some x →
            (clog2 d.nodes.length ≤ d.round → ∃ t, exec .phaseChangeComplete s = .next t ∧
              findDom t lvl inst = some { done with remote := d.remote.erase x } ∧ t.out = s.out ∧ completes t) ∧
            (d.round < clog2 d.nodes.length → ∃ t, exec .phaseChangeComplete s = .next t ∧
              findDom t lvl inst = some { d with remote := d.remote.erase x, round := d.round + 1, start := s.cyc + d.lam + 8 } ∧
              roundStarts t))) ∧
      ∀ c k held, dueHead s s0 (.domArrive c k lvl inst held) → memberKey c k ∈ d.members →
        ∃ t x, exec .phaseChangeComplete s = .next t ∧ findDom t lvl inst = some x ∧ x.members = d.members ∧ x.count = d.count ∧
          x.arrived = unionNat d.arrived [memberKey c k] ∧ x.held = unionNat d.held held ∧ t.job = s.job ∧ t.out = s.out)

/-- The run that a port won at its bank. A read port's elements, with the format and the step of the bank on this cycle, join those
that it has fetched; a write port's elements are converted for their banks and written in walk order, and no other byte changes.
An access that the stamps refuse takes the race, and of a write the elements below the failing granule are written. A timed send of
this core to itself that arrives at a free slot is written there, and the slots that have arrived from WH on are published; one that
finds its slot not free, or comes third on a cycle, writes nothing and raises the schedule fault, cause 2. (After R63, R111, R122,
R123, R128, R131, R136, R253.) -/
def Obligations.PortsAndTimedSends : Prop :=
  (
    ∀ (s : State) (g pos n : Nat) (l : List Nat), g < 8 → s.core.won = some (g :: l) → portRun s (s.port g) = some (pos, n) →
      let p := s.port g
      let u := s.onCore fun c => { c with won := some l }
      let as := (List.range n).map fun i => walkAddr p (pos + i)
      let acc : Acc := if p.wr then .write else .read
      (∀ v r, runStamp u .ax acc as (eszBytes p) = (v, some r) →
        (p.wr = false → exec .portRunGrant s = .next (takeFault v (spadRace v (wordRef s (portStream p)) (strParty v .ax) .read r))) ∧
        ∀ x rest, p.wr = true → p.buf = x :: rest →
          let w := putConvs (eszBytes p) ((runConvs s x as).filter fun c => c.1 < 64 * r.gran) v
          exec .portDrainRun s = .next (takeFault w (spadRace w x.word (strParty w .ax) .write r))) ∧
      ∀ v, runStamp u .ax acc as (eszBytes p) = (v, none) →
        (p.wr = false → ∃ t, exec .portRunGrant s = .next t ∧ t.core.spad = s.core.spad ∧ t.job.seq = s.job.seq ∧ t.core.won = some l ∧
          ((t.port g).buf.flatMap PVec.elems) = p.buf.flatMap PVec.elems ++ as.map fun a =>
            (⟨elemBytes s a (eszBytes p), fmtCode (bankFmt s (bankOf a)), stepAt s (bankFmt s (bankOf a)) a⟩ : PElem)) ∧
        (∀ x rest, p.wr = true → p.buf = x :: rest → ∃ t, exec .portDrainRun s = .next t ∧ t.dev = s.dev ∧ t.core.won = some l ∧
          (t.port g).buf = (if x.done + n < x.cnt then { x with done := x.done + n } :: rest else rest) ∧
          (∀ b, (∀ a ∈ as, ∀ i < eszBytes p, b ≠ a % 2 ^ 22 + i) → SMap.get 0 t.core.spad b = SMap.get 0 s.core.spad b) ∧
          t.core.spad = as.zipIdx.foldl (fun m e =>
            let f := bankFmt s (bankOf e.1)
            let y := x.elems.getD (x.done + e.2) ⟨0, 0xF, 0⟩
            let c := if x.bank then crossBank y.fmt y.step (fmtCode f) (stepAt s f e.1) y.bits
              else crossTo (fmtCode f) (stepAt s f e.1) x.ty x.rnd x.sat y.bits
            wrBytes m (e.1 % 2 ^ 22) (leBytes (eszBytes p) c.bits.toNat)) s.core.spad ∧
          t.job.dl = (let c := convSticky ((runConvs s x as).map Prod.snd); setSticky .ax c.1 c.2 s).job.dl)) ∧
  (
    ∀ (s s0 : State) (m : SendMsg), dueHead s s0 (.sendtArrival m) → m.srcCore = s.coreNo → m.dstCore = s.coreNo →
      let k := if s.core.landed.1 = s.cyc then s.core.landed.2 + 1 else 1
      let here := decide (s.job.id = m.jobId) && decide (s.job.st ≠ .none)
      let x := s.handle m.handle.toNat
      let z := slotSize x
      let q := s.coreNo * 32 + 1
      (∀ j st, here = true → k ≤ 2 → arrivalSlot s m = some j →
        stampGrans s.core.stamps q m.phase .write (fun p => decide (p = q) || m.held.contains p) (granSpan 64 (x.base + j * z) z).1
          (granSpan 64 (x.base + j * z) z).2 = (st, none) →
        ∃ t, exec .sendtArrival s = .next t ∧ t.core.stamps = st ∧ t.dev = s.dev ∧ t.job.sendOut = s.job.sendOut - 1 ∧
          t.core.spad = wrBytes s.core.spad ((x.base + j * z) % 2 ^ 22) (fit z m.bytes) ∧
          t.handle m.handle.toNat = (publishArrived m.handle.toNat x.depth
            (s.setHandle m.handle.toNat { x with arrived := x.arrived ++ [(j, unionNat m.held [q])] })).handle m.handle.toNat) ∧
      ((here = false ∨ 2 < k ∨ arrivalSlot s m = none) →
        ∃ t, exec .sendtArrival s = .next t ∧ t.core.spad = s.core.spad ∧ t.job.h = s.job.h ∧
          (s.job.st = .running → t.job.st = .frozen ∧ (t.job.frec.map fun r => (r.code, r.cause, r.word)) = some (0x09, 2, m.word))))

/-- The oldest queued copy starts and enters its ranges, and one entry in the scoreboard of each core in whose scratchpad it has an end;
a bank here that does not suit it, or a destination
slot that is not EMPTY, is the error of R268. A copy whose turn it is asks for the next run of its reads, and one for the next run
of its writes; data that comes back joins its staging buffer. A copy whose last write has been made retires: its scoreboard
entries and ranges go, its slot is FULL, or RESERVED where its follow-on releases it; with neither a post nor a follow-on its
token is DONE on the cycle after, with a post when the acknowledgement is back and the follow-on, if it has one, has joined. The
cycles of a copy's start and of its requests are the model's reading (log 24). (After R132, R254, R266, R267, R268, R269.) -/
def Obligations.CopyEngine : Prop :=
  (
    (∀ (s : State) (c : Copy), (∀ e l, s.agenda = e :: l → s.cyc < e.at_ ∨ ∀ k id lo hi wr, e.ev ≠ .extEntry k id lo hi wr true) →
      copyStartable s = some c →
      let u := s.onCore fun k => { k with copyAt := (s.cyc + 1, k.copyAt.2) }
      let full := match c.dst with | .oslot o => !slotEmpty s o (tileTy c.dfmt) | _ => false
      let dev (src : Bool) : List DevRange := match copyEnd c src with
        | .dev _ _ => [⟨c.id, copyParty s c, (copyBound c src).1, (copyBound c src).2⟩]
        | _ => []
      (badBanks s c = true → exec .copyStart s = .next (failCopy c 0x02 0 (BitVec.ofNat 64 c.desc) 0 true s.cyc u)) ∧
      (∀ o, badBanks s c = false → full = true → c.dst = .oslot o →
        exec .copyStart s = .next (failCopy c 0x11 0 (BitVec.ofNat 64 o) 0 true s.cyc u)) ∧
      (badBanks s c = false → full = false → ∃ t, exec .copyStart s = .next t ∧ copyOf t c.id = some { c with ph := .active } ∧
        t.core.sb = ((footprints c).foldl (fun (v : State) f =>
          if f.1 = s.coreNo then enterSb ⟨some c.id, f.1, f.2.1, f.2.2.1, s.cyc, f.2.2.2⟩ v else v) s).core.sb ∧
        t.out = s.out ++ ((footprints c).filter fun f => f.1 ≠ s.coreNo).map (fun f =>
          .remoteEntry c.id f.1 f.2.1 f.2.2.1 f.2.2.2 true) ∧
        t.core.ranges = s.core.ranges ++ dev true ++ dev false ∧
        (∀ o, c.dst = .oslot o → o < 64 → (t.oslot o).st = .filling) ∧ t.dev = s.dev ∧ t.core.spad = s.core.spad)) ∧
    (∀ (s : State), (∀ e l, s.agenda = e :: l → s.cyc < e.at_ ∨ requestDue e.ev = none) → copyAskable s = true →
      let u := askRead (s.onCore fun k => { k with copyAt := (k.copyAt.1, s.cyc + 1) })
      ∃ t, exec .copyRequest s = .next t ∧ t.dev.mem = s.dev.mem ∧ t.core.spad = s.core.spad ∧ t.job.seq = s.job.seq ∧
        (∀ c run, rotate s s.core.rdLast (readReady s) = some (c, run) → t.core.rdLast = c.id ∧
          (∃ x, copyOf t c.id = some x ∧ x.rdPos = c.rdPos + run.length) ∧
          ∀ va l, c.src = .dev va l → ∃ r ∈ t.dev.reqs, r.2.kind = .copyRd c.id run ∧ r.2.acc = .read) ∧
        ∀ c run, rotate u u.core.wrLast (writeReady u) = some (c, run) → t.core.wrLast = c.id ∧
          ∃ x, copyOf t c.id = some x ∧ x.wrPos = c.wrPos + run.length) ∧
    ∀ (s s0 : State) (id : Nat) (els : List (Nat × W32 × BitVec 4 × W32)) (c : Copy), dueHead s s0 (.copyDataReturn id els) →
      copyOf s id = some c → ∃ t, exec .copyDataReturn s = .next t ∧
        copyOf t id = some { c with
          rdOut := c.rdOut - 1, reads := c.reads + els.length,
          stage := c.stage ++ els.map fun e => (e.1, (⟨e.2.1, e.2.2.1, e.2.2.2⟩ : PElem)) }) ∧
  (
    (∀ (s : State) (c : Copy), (∀ e l, s.agenda = e :: l → s.cyc < e.at_ ∨ ∀ f, retireDue e.ev ≠ some f) → copyRetirable s = some c →
      ∃ t, exec .copyRetire s = .next t ∧ copyOf t c.id = some { c with ph := .retired } ∧ t.dev.mem = s.dev.mem ∧
        t.core.spad = s.core.spad ∧ t.core.sb = s.core.sb.filter (fun e => ¬(e.owner = some c.id ∧ e.core = s.coreNo)) ∧
        t.core.ranges = s.core.ranges.filter (fun r => r.id ≠ c.id) ∧
        (c.fow = none → c.post = none → ∃ e ∈ t.agenda, e.ev = .copyDone c.id ∧ e.at_ = s.cyc + 1) ∧
        (c.fow ≠ none → ∃ e ∈ t.agenda, e.ev = .followOnJoin c.id ∧ e.at_ = s.cyc + 1)) ∧
    ∀ (s s0 : State) (c : Copy), copyOf s c.id = some c → c.own = true → s.job.id = c.jobId → c.token < 16 →
      (dueHead s s0 (.copyDone c.id) → c.fow = none → c.post = none →
        ∃ t, exec .copyRetire s = .next t ∧ copyOf t c.id = none ∧
          row t.job.tok Tok.init c.token = ⟨.done, 0, unionNat [copyParty s c] c.held⟩) ∧
      (dueHead s s0 (.copyPostAck c.id) → (c.fow = none ∨ c.fjoin = true) →
        ∃ t, exec .copyPostAck s = .next t ∧ copyOf t c.id = none ∧
          row t.job.tok Tok.init c.token = ⟨.done, 0, unionNat [copyParty s c] c.held⟩) ∧
      (dueHead s s0 (.copyPostAck c.id) → c.fow ≠ none → c.fjoin = false →
        ∃ t, exec .copyPostAck s = .next t ∧ copyOf t c.id = some { c with acked := true } ∧ t.job = s.job))

/-- A follow-on whose state checks pass joins the queue of 4; while that is full its copy is held for the next cycle; one whose checks
fail has the error of R152. The head enters the array while that is free, holds it for its G array cycles and lands 12 after. A
spill takes the oldest record on chip, for the area from BASE + SP on, and OCC falls when it is complete; a fill reads the trailer
below SP, and one whose checks pass its data, and then the record is the oldest on chip and SP falls; a check that fails sets BRK
and leaves SP, OCC and DEPTH. The cycle on which a spill is complete is the model's reading (log 23), and so is the array's count over
a hold or a freeze (log 16). (After R152, R153, R205, R206.) -/
def Obligations.FollowOnsAndSpills : Prop :=
  (
    (∀ (s s0 : State) (c : Copy) (w : Instr) (f : Fow), dueHead s s0 (.followOnJoin c.id) → copyOf s c.id = some c → c.fow = some w →
      fowOf w = some f →
      let ok (o : Nat) (st : OState) : Bool := decide (st = .full ∨ st = .held) || (decide (st = .reserved) && decide (o = copySlot c))
      (4 ≤ s.core.arr.fq.length → exec .followOnJoin s = .next (s0.postAt (s.cyc + 1) (.followOnJoin c.id) c.id)) ∧
      (s.core.arr.fq.length < 4 →
        (∀ i, mmaBad s ok f.d f.a f.b f.ty = some i → exec .followOnJoin s = .next (failFollow c 0x11 i 0 s0)) ∧
        (mmaBad s ok f.d f.a f.b f.ty = none →
          (∀ b, badCell s (mmaCells f.d f.a f.b f.ty) = some b → exec .followOnJoin s = .next (failFollow c 0x13 0 b s0)) ∧
          (badCell s (mmaCells f.d f.a f.b f.ty) = none → ∃ t, exec .followOnJoin s = .next t ∧
            t.core.arr = { s.core.arr with fq := s.core.arr.fq ++ [⟨c.id, w, c.word, copySlot c⟩] } ∧ t.job.mx = s.job.mx)))) ∧
    ∀ (s : State) (x : FollowOn) (f : Fow), followReady s = some (x, f) →
      let g := mmaCycles f.ty f.k
      ∃ t, exec .followOnEnter s = .next t ∧ t.core.arr.t = s.core.arr.t ∧ t.core.arr.free = s.core.arr.t + g ∧ t.core.arr.fq = s.core.arr.fq.tail ∧
        t.core.arr.fland = s.core.arr.fland ++ [(s.core.arr.t + g + 12, mmaEff s f.d f.a f.b f.k f.ty f.pm f.pn f.pk)] ∧
        t.core.arr.rls = (if f.rls then s.core.arr.rls ++ [(x.slot, s.core.arr.t + g)] else s.core.arr.rls) ∧ t.job = s.job) ∧
  (
    (∀ (s : State) (r : OtRec) (l : List OtRec), spillStartable s = true → s.job.ot.recs = r :: l →
      ∃ t, exec .spillStart s = .next t ∧ t.dev = s.dev ∧ t.job.seq = s.job.seq ∧
        t.job.ot = { s.job.ot with spill := some ⟨s.nseq, otSize r.n, otBase s + s.job.ot.sp, 0, s.cyc + 1, none⟩, force := false, cont := false }) ∧
    (∀ (s : State), spillDone s = true → exec .spillComplete s =
      .next (s.onJob fun j => { j with ot := { j.ot with recs := j.ot.recs.tail, spill := none, cont := true } })) ∧
    (∀ (s : State), fillStartable s = true →
      ∃ t f, exec .fillStart s = .next t ∧ t.job.ot = { s.job.ot with fill := some f, want := false } ∧
        f.va = otBase s + s.job.ot.sp - 64 ∧ f.start = s.cyc + 1 ∧ f.data = false ∧ t.dev = s.dev) ∧
    (∀ (s s0 : State) (f : OtFill), dueHead s s0 (.fillTrailerCheck f.id) → s.job.ot.fill = some f →
      let d := (f.got.headD (0, [])).2
      let tag := leNat (d.take 4)
      let n := leNat ((d.drop 4).take 2)
      let cnt := leNat ((d.drop 6).take 2)
      let good := 1 ≤ n ∧ n ≤ 16 ∧ (cnt = 16 ∨ cnt = 64 ∨ cnt = 1024) ∧ (4 * cnt + 255) / 256 = n ∧ (∀ b ∈ d.drop 8, b = 0) ∧
        tag % 2 ^ 16 = (s.job.ot.depth - s.job.ot.recs.length) % 2 ^ 16
      (¬good → ∃ t, exec .fillTrailerCheck s = .next t ∧ t.job.ot = { s.job.ot with brk := true, fill := none }) ∧
      (good → f.drop = false → ∃ t, exec .fillTrailerCheck s = .next t ∧ t.job.ot = { s.job.ot with
        fill := some { f with data := true, sent := 0, start := s.cyc + 1, tag := BitVec.ofNat 32 tag, n := n, cnt := cnt, got := [] } }) ∧
      (good → f.drop = true → ∃ t, exec .fillTrailerCheck s = .next t ∧ t.job.ot.fill = none ∧
        t.job.ot.sp = s.job.ot.sp - (256 * n + 64) ∧ t.job.ot.depth = s.job.ot.depth - 1 ∧ t.job.ot.recs = s.job.ot.recs)) ∧
    ∀ (s s0 : State) (f : OtFill), dueHead s s0 (.fillComplete f.id) → s.job.ot.fill = some f →
      ∃ t, exec .fillComplete s = .next t ∧ t.job.ot = { s.job.ot with
        fill := none, sp := s.job.ot.sp - (256 * f.n + 64)
        recs := ⟨f.tag, f.cnt, bytesElems 4 ((List.range (4 * f.n)).flatMap fun k =>
          ((f.got.find? fun x => x.1 = k).map Prod.snd).getD [])⟩ :: s.job.ot.recs })

/-! ### Events of the device: stacks, atomic engines, groups -/

/-- A stack serves a request in its owner's slot. A load's value, extended as its word says, is on its way back; a store's bytes are
written, no other byte changes, and the notice leaves for the line's home engine; a fetched line is on its way; of the
write-throughs of a line the one with the higher number is applied and an overtaken one discarded; one that the stamps refuse is not
applied, and its engine is told to drop the line. What the stamps or bad data refuse is reported and leaves memory as it was.
Refresh touches no state that a program sees. A load or an AMO that returns writes its register among the results of its cycle, in a
frozen job at once; a word that waited for its answer goes on with what it acquired. A deferred fault freezes the running job. A
post that has been served no longer holds up its core. When a deferred fault is taken is the model's reading (log 15); the newer of
two write-throughs is applied, and which atomics a stack tests, as log 20 reads the rules. (After R13, R61, R235, R239, R251, R253,
R271, R274, R275.) -/
def Obligations.StacksServe : Prop :=
  (
    ∀ (s s0 : State) (r : DevReq), dueHead s s0 (.stackSlotService r) →
      exec .refresh s = .next s ∧
      exec .stackSlotService s = .next (serveReq r s0) ∧
      (∀ reg w g u, r.kind = .ld reg w g → r.acc = .read → badDev s r.pa r.len = none → reqStamp r s0 = (u, none) →
        serveReq r s0 = u.postAt (backAt s r true)
          (.loadReturn ⟨reg, extendLow (8 * 2 ^ w.toNat) g (leNat (rdBytes s.dev.mem r.pa r.len)), r.sec⟩)) ∧
      (∀ reg w g u x, r.kind = .ld reg w g → r.acc = .read → badDev s r.pa r.len = none → reqStamp r s0 = (u, some x) →
        serveReq r s0 = u.postAt (backAt s r false) (.deferredFaultReport (reqRace u r x true false)) ∧ u.dev.mem = s.dev.mem) ∧
      (r.kind = .st → r.acc = .write →
        let v := s0.onSeq fun q => { q with stOut := q.stOut - 1 }
        (∀ u, reqStamp r v = (u, none) → (serveReq r s0).dev.mem = wrBytes s.dev.mem r.pa r.data ∧
          (serveReq r s0).job.seq = { s.job.seq with stOut := s.job.seq.stOut - 1 } ∧
          (∀ a, a < r.pa ∨ r.pa + r.data.length ≤ a → SMap.get 0 (serveReq r s0).dev.mem a = SMap.get 0 s.dev.mem a) ∧
          ∃ e ∈ (serveReq r s0).agenda, e.ev = .plainWriteNotice (homeOf s.variant r.va) (r.pa / 64)) ∧
        ∀ u x, reqStamp r v = (u, some x) → (serveReq r s0).dev.mem = s.dev.mem ∧
          ∃ e ∈ (serveReq r s0).agenda, e.ev = .deferredFaultReport (reqRace u r x true false)) ∧
      (r.kind = .fetch → (∃ l ∈ (serveReq r s0).core.scArr, l = ⟨r.pa / 64, rdBytes s.dev.mem (r.pa / 64 * 64) 64, [],
          (badDev s (r.pa / 64 * 64) 64).isSome⟩) ∧
        (serveReq r s0).dev = s.dev ∧ ∃ e ∈ (serveReq r s0).agenda, e.ev = .streamCacheFill (r.pa / 64) ∧ e.at_ = backAt s r true) ∧
      ∀ k n ack test, k < 16 → r.kind = .atomWt k n ack test →
        (∀ src held u x, test = some (src, held) → wtStamp r src held s0 = (u, some x) → (serveReq r s0).dev.mem = s.dev.mem ∧
          ∃ e ∈ (serveReq r s0).agenda, e.ev = .plainWriteNotice k (r.pa / 64)) ∧
        ((∀ src held, test = some (src, held) → (wtStamp r src held s0).2 = none) →
        (SMap.get 0 (atomAt s k).applied (r.pa / 64) < n → (serveReq r s0).dev.mem = wrBytes s.dev.mem r.pa r.data ∧
          (atomAt (serveReq r s0) k).applied = SMap.set 0 (atomAt s k).applied (r.pa / 64) n) ∧
        (n ≤ SMap.get 0 (atomAt s k).applied (r.pa / 64) → (serveReq r s0).dev.mem = s.dev.mem))) ∧
  (
    (∀ (s s0 : State) (r : LoadRet) (o : LdOut), dueHead s s0 (.loadReturn r) →
      s.job.seq.ldOut.find? (fun o => decide (o.reg = r.reg.toNat) && !o.amo && decide (o.iss = r.iss)) = some o →
      ∃ t, exec .loadReturn s = .next t ∧ t.job.seq.ldOut = s.job.seq.ldOut.erase o ∧ t.dev = s.dev ∧
        (s.job.st = .running → (⟨s.job.cycle, .sq, 0, r.iss, .sreg r.reg.toNat r.val⟩ : DEnt) ∈ t.job.dl) ∧
        (s.job.st = .frozen → r.reg ≠ 0 → t.job.seq.sReg r.reg.toNat = r.val)) ∧
    (∀ (s s0 : State) (f : FaultRec), dueHead s s0 (.deferredFaultReport f) →
      let g := if f.op && decide (f.word.st = .vx) then { f with word := wordRef s .vx } else f
      exec .deferredFaultReport s = .next (takeFault s0 g) ∧
        (s.job.st = .running → (takeFault s0 g).job.st = .frozen ∧ (takeFault s0 g).job.frec = some g)) ∧
    (∀ (s s0 : State) (r : AtomRet) (d : BitVec 5), dueHead s s0 (.atomicReturn r) → r.src = .core → r.reg = some d →
      let mine (o : LdOut) : Bool := o.amo && decide (o.reg = d.toNat) && decide (o.iss = r.iss)
      let u := match s.job.seq.ldOut.find? mine with | some o => s0.onSeq fun q => { q with ldOut := q.ldOut.erase o } | none => s0
      let v := landReturn r.iss (.sreg d.toNat r.val) (fun q => q.setS d.toNat r.val) u
      (∀ f, r.fault = some f → exec .atomicReturn s = .next (takeFault u f)) ∧
      (r.fault = none → r.hold = false → exec .atomicReturn s = .next v) ∧
      (r.fault = none → r.hold = true → exec .atomicReturn s = .next (advance .sq (addHeld v (party s 0) r.acq)))) ∧
    ∀ (s s0 : State), (∀ va, dueHead s s0 (.sempostAck (.post va)) →
        ∃ t, exec .sempostAck s = .next t ∧ t.job.seq = { s.job.seq with postOut := s.job.seq.postOut.erase va } ∧ t.dev.mem = s.dev.mem) ∧
      ∀ q pk, dueHead s s0 (.sempostAck (.grip q pk)) →
        exec .sempostAck s = .next (s0.onGrip fun g => { g with acks := g.acks ++ [.served q pk] }))

/-- An engine that can take a request takes the one at the head of its queue. One to a line that is on its way is parked; one whose
line is absent sends for it; one that hits is performed: the line holds the new value, the answer is on its way, and the pointer
moves on by one; one whose condition does not hold leaves a watch. The requests parked on a fill are served one a cycle from the
cycle it is back; the notice of a plain write drops the line, and what is on its way serves none that comes later; after an atomic
write to a line a watch whose operation can be performed is satisfied and goes, and one that cannot stays. When a request is
stamped and a watch evaluated is the model's reading (log 20). (After R258, R271 to R276.) -/
def Obligations.AtomicEngines : Prop :=
  (
    ∀ (s : State) (k : Nat) (r : AtomReq) (rest : List AtomReq), (∀ e l, s.agenda = e :: l → s.cyc < e.at_ ∨ ∀ q, e.ev ≠ .atomAsk q) →
      atomReady s = some k → (atomAt s k).queue = r :: rest →
      let a := atomAt s k
      let line := r.pa / 64
      let parked := a.fills.find? fun f => f.line = line ∧ f.live
      let hit := a.store.find? fun x => x.line = line
      let o := r.pa % 64
      (∀ f, parked = some f → ∃ t, exec .atomicRequestService s = .next t ∧ t.dev = s.dev ∧
        atomAt t k = { a with
          queue := rest, next := s.cyc + 1, fills := a.fills.map fun g => if g.id = f.id then { g with reqs := g.reqs ++ [r] } else g }) ∧
      (parked = none → hit = none → ∃ t q, exec .atomicRequestService s = .next t ∧ t.dev.mem = s.dev.mem ∧
        atomAt t k = { a with
          queue := rest, next := s.cyc + 1, fills := a.fills ++ [⟨a.nfill, line, none, [r], true⟩], nfill := a.nfill + 1 } ∧
        t.dev.reqs = s.dev.reqs ++ [(s.cyc + Config.travelStack (Config.engineNode k) (stackOf s.variant r.va), q)] ∧
        q.kind = .atomFill k a.nfill ∧ q.owner = atomOwner s r.src ∧ q.pa = 64 * line) ∧
      ∀ x, parked = none → hit = some x → atomBad r s = none →
        let old := leNat ((x.data.drop o).take r.size)
        (∀ new v, atomEval r.kind (8 * r.size) old r.b r.c = some (new, v) →
          (engineTests r new.isSome = true → (atomStamp r (relSet a line) new.isSome s).2 = none) →
          ∃ t, exec .atomicRequestService s = .next t ∧ (atomAt t k).queue = rest ∧ (atomAt t k).ptr = (a.ptr + 1) % 10 ∧
            (atomAt t k).watches = a.watches ∧ t.dev.mem = s.dev.mem ∧
            ((atomAt t k).store.head?.map fun y => (y.line, y.data)) = some (line, match new with
              | some n => x.data.take o ++ leBytes r.size n ++ x.data.drop (o + r.size) | none => x.data) ∧
            (r.kind ≠ .sempost → ∃ e ∈ t.agenda, e.at_ = s.cyc + 2 + engineTravel s r.src k ∧
              ∃ y, e.ev = .atomicReturn y ∧ y.src = r.src ∧ y.reg = some r.reg ∧ y.val = v ∧ y.fault = none)) ∧
        (atomEval r.kind (8 * r.size) old r.b r.c = none → (atomStamp r (relSet a line) false s).2 = none →
          ∃ t, exec .atomicRequestService s = .next t ∧ (atomAt t k).queue = rest ∧ (atomAt t k).watches = a.watches ++ [r] ∧
            ((atomAt t k).store.head?.map fun y => (y.line, y.data)) = some (line, x.data))) ∧
  (
    (∀ (s s0 : State) (k id : Nat) (d : List Byte) (f : AFill) (r : AtomReq) (rest : List AtomReq), k < 16 →
      dueHead s s0 (.atomicFillReturn k id d) → (atomAt s k).fills.find? (fun f => f.id = id) = some f → f.reqs = r :: rest →
      relRoom s (atomAt s k) r = true →
      ∃ t, exec .atomicFillReturn s = .next t ∧ t.dev.mem = s.dev.mem ∧ (atomAt t k).ptr = ((atomAt s k).ptr + 1) % 10 ∧
        (rest = [] → ∀ g ∈ (atomAt t k).fills, g.id ≠ id) ∧
        (rest ≠ [] → (∃ g ∈ (atomAt t k).fills, g.id = id ∧ g.reqs = rest) ∧
          ∃ e ∈ t.agenda, e.ev = .atomicFillReturn k id [] ∧ e.at_ = s.cyc + 1)) ∧
    (∀ (s s0 : State) (k line : Nat), k < 16 → dueHead s s0 (.plainWriteNotice k line) →
      ∃ t, exec .plainWriteNotice s = .next t ∧ t.dev = s.dev ∧ t.job = s.job ∧
        atomAt t k = { atomAt s k with
          store := (atomAt s k).store.filter fun x => x.line ≠ line
          fills := (atomAt s k).fills.map fun f => if f.line = line then { f with live := false } else f }) ∧
    ∀ (s s0 : State) (k line : Nat), dueHead s s0 (.watchEvaluation k line) →
      let a := atomAt s k
      let d := match a.store.find? fun x => x.line = line with | some x => x.data | none => serveReq.lineNow s k line
      ((a.watches.filter fun w => w.pa / 64 = line) = [] →
        ∃ t, exec .watchEvaluation s = .next t ∧ t.dev = s.dev ∧ t.job = s.job ∧ t.agenda = s0.agenda) ∧
      ∀ w u d' done, (a.watches.filter fun w => w.pa / 64 = line) = [w] → atomOp k w d s0 = (u, d', done) →
        exec .watchEvaluation s = .next (onAtom k (storeSet line d')
          (if done then onAtom k (fun a => { a with watches := a.watches.erase w }) u else u)) ∧
        (atomBad w s = none → (atomEval w.kind (8 * w.size) (leNat ((d.drop (w.pa % 64)).take w.size)) w.b w.c).isSome = true → done = true) ∧
        (atomBad w s = none → (atomEval w.kind (8 * w.size) (leNat ((d.drop (w.pa % 64)).take w.size)) w.b w.c) = none →
          (atomStamp w (relSet a line) false s).2 = none → done = false ∧ d' = d))

/-- The acts of a collective. The image of a chunk is read once no earlier operation holds its ranges, in lines that the reducers ask
for; an interval whose arrivals are complete closes, and the next begins; after the last interval the output joins what waits for its
block, and a block that is whole is written and noted once it has been. A read or a write that finds bad data or a race stops the
collective with cause 4, and the members are told. The completion record is written before the token completes. A stop gives the token
the status of its cause, once; a member whose record differs stops it with cause 3. The times of these acts are the model's choice
(log 32), and so is how members compare (log 57); an output block that is not whole waits (log 37). (After R287, R290, R295, R297,
R298.) -/
def Obligations.CollectivesRun : Prop :=
  ∀ (s s0 : State) (gid num : Nat) (c : Coll), collOf s gid num = some c →
    let next : Ev := .reductionIntervalClose gid num
    let comes (t : State) : Prop := ∃ e ∈ t.agenda, e.ev = next
    let asks (t : State) (a : Acc) (ev : Ev) (l : List LineAcc) : Prop :=
      (∃ op ∈ t.dev.ops, op.next = ev ∧ op.left = l.length ∧ op.party = collParty c.core) ∧
      ∀ x ∈ l, ∃ r ∈ t.dev.reqs, r.2.acc = a ∧ r.2.owner = .reducer ∧ r.2.va = x.1 ∧ r.2.pa = x.2.1 ∧ r.2.data = x.2.2.2
    let stops (t : State) (cause : Nat) : Prop :=
      ∃ y, collOf t gid num = some y ∧ y.fin = some (BitVec.ofNat 64 (0x13 + cause * 256)) ∧ t.out = s.out ++ [.groupAbort gid num cause]
    (dueHead s s0 next → (unitTake next s0).1 = none →
      (c.fin.isSome = true ∨ c.busy = true → exec .reductionIntervalClose s = .next s0) ∧
      (c.fin = none → c.busy = false →
        (c.stage = 0 → collHeld c s = true →
          ∃ t, exec .reductionIntervalClose s = .next t ∧ t.grp = s.grp ∧ t.dev = s.dev ∧ comes t) ∧
        (c.stage = 0 → collHeld c s = false →
          ∃ t, exec .reductionIntervalClose s = .next t ∧ t.dev.mem = s.dev.mem ∧ collOf t gid num = some { c with busy := true } ∧
            asks t .read next (fillLines c)) ∧
        (c.stage = 1 → (itvDone c = false ∨ c.itvs ≤ c.itv) →
          ∃ t, exec .reductionIntervalClose s = .next t ∧ t.grp = s.grp ∧ t.dev = s.dev ∧ comes t) ∧
        (c.stage = 1 → c.itv < c.itvs → itvDone c = true →
          let d := (closeItv c s0).2
          d.itv = c.itv + 1 ∧
          (d.itv < c.itvs → ∃ t, exec .reductionIntervalClose s = .next t ∧ collOf t gid num = some d ∧ t.dev = s.dev ∧ comes t) ∧
          (c.itvs ≤ d.itv →
            (∀ b, wholeBlock (gatherChunk d) = some b → ∃ t, exec .reductionIntervalClose s = .next t ∧ t.dev.mem = s.dev.mem ∧
              collOf t gid num = some { gatherChunk d with busy := true } ∧ asks t .write next (blockLines (gatherChunk d) b)) ∧
            (wholeBlock (gatherChunk d) = none → ∃ t x, exec .reductionIntervalClose s = .next t ∧ t.dev = s.dev ∧
              collOf t gid num = some x ∧ x.chunk = c.chunk + 1 ∧ x.stage = 0 ∧ x.image = [] ∧ x.outp = (gatherChunk d).outp ∧
              (c.chunks ≤ c.chunk + 1 → x.fin = some 0) ∧ (c.chunk + 1 < c.chunks → x.fin = none ∧ comes t)))))) ∧
    (∀ x u, dueHead s s0 next → unitTake next s0 = (some x, u) → c.fin = none →
      (x.bad = true → ∃ t, exec .reductionIntervalClose s = .next t ∧ t.dev.mem = s.dev.mem ∧ stops t 4) ∧
      (x.bad = false → c.stage = 0 → 0 < c.itvs → ∃ t, exec .reductionIntervalClose s = .next t ∧ t.dev.mem = s.dev.mem ∧
        collOf t gid num = some (fillColl { c with busy := false } x) ∧ comes t) ∧
      ∀ b, x.bad = false → c.stage = 2 → wholeBlock c = some b → x.got ≠ [] → ∃ t y, exec .reductionIntervalClose s = .next t ∧
        t.dev.mem = s.dev.mem ∧ collOf t gid num = some y ∧ y.blocks = c.blocks ++ [b]) ∧
    (dueHead s s0 (.collectiveComplete gid num) →
      ((unitTake (.collectiveComplete gid num) s0).1 = none →
        (∀ st, c.fin = some st → c.wrote = false → c.busy = false → ∃ t, exec .collectiveComplete s = .next t ∧
          t.dev.mem = s.dev.mem ∧ collOf t gid num = some { c with wrote := true } ∧
          asks t .write (.collectiveComplete gid num) (lineAccs c.pages c.comp (collRecord c st).length (collRecord c st))) ∧
        (c.fin = none ∨ c.wrote = true ∨ c.busy = true → exec .collectiveComplete s = .next s0)) ∧
      ∀ x u, unitTake (.collectiveComplete gid num) s0 = (some x, u) → s.job.id = c.jobId → c.token < 16 →
        let st := if x.bad = true ∧ c.fin.getD 0 = 0 then BitVec.ofNat 64 (0x13 + 4 * 256) else c.fin.getD 0
        ∃ t, exec .collectiveComplete s = .next t ∧ t.dev.mem = s.dev.mem ∧
          t.grp.colls.map (fun y => (y.gid, y.num)) = (s.grp.colls.erase c).map (fun y => (y.gid, y.num)) ∧
          (row t.job.tok Tok.init c.token).status = st ∧ (row t.job.tok Tok.init c.token).st = (if st = 0 then .done else .err)) ∧
    (∀ cause, dueHead s s0 (.collectiveAbort gid num cause) →
      (c.fin.isSome = true → exec .collectiveAbort s = .next s0) ∧
      (c.fin = none → ∃ t, exec .collectiveAbort s = .next t ∧ t.dev = s.dev ∧ t.job = s.job ∧
        collOf t gid num = some { c with fin := some (BitVec.ofNat 64 (0x13 + cause.toNat * 256)) } ∧
        (c.busy = false → ∃ e ∈ t.agenda, e.ev = .collectiveComplete gid num))) ∧
    ∀ key, dueHead s s0 (.memberRecord gid num key) →
      (collKey c.rcd = key → exec .collectiveAbort s = .next s0) ∧
      (collKey c.rcd ≠ key → c.fin = none → ∃ t, exec .collectiveAbort s = .next t ∧ t.dev = s.dev ∧ t.job = s.job ∧ stops t 3)

/-- The order in which the packets of different senders arrive has no effect on what an interval makes of the image. (After R290.) -/
def Obligations.ArrivalOrderHasNoEffect : Prop :=
  ∀ (s : State) (c : Coll) (l : List RedPkt), (∀ r, l.filter (fun a => a.sender = r) = c.arrivals.filter fun a => a.sender = r) →
    (closeItv { c with arrivals := l } s).1 = (closeItv c s).1 ∧
    (closeItv { c with arrivals := l } s).2.image = (closeItv c s).2.image ∧
    (closeItv { c with arrivals := l } s).2.itv = (closeItv c s).2.itv

/-- The acts of a repartition pass. Its first round reads the elements, in lines that the key units ask for, and keys them in their
order; each round sends its histogram; the sums choose the boundary buckets and after the last round every element's destination; a
total of 2^64 stops the pass with cause 5, one of 0 leaves every element where it is. A pass that more elements than RETCAP would be
kept in stops with cause 6; else the elements move: those that are received, in the order of their sources, are written from RHAVE
on, and those retained to RETA. The record is written before the token completes, not before the moves have been acknowledged. A
read or a write that finds bad data or a race stops the pass with cause 4. The times of these acts are the model's choice (log 32),
that other ranks' elements come with the event too (log 42). (After R306 to R311, R314, R315.) -/
def Obligations.PassesRun : Prop :=
  ∀ (s s0 : State) (gid num : Nat) (c : Rep), repOf s gid num = some c →
    let z := repSize c.ctrl
    let stopped (cause : Nat) : Rep := { c with fin := some (BitVec.ofNat 64 (0x13 + cause * 256)) }
    let asks (t : State) (a : Acc) (o : Owner) (ev : Ev) (l : List LineAcc) : Prop :=
      (∃ op ∈ t.dev.ops, op.next = ev ∧ op.left = l.length ∧ op.party = collParty c.core) ∧
      ∀ x ∈ l, ∃ r ∈ t.dev.reqs, r.2.acc = a ∧ r.2.owner = o ∧ r.2.va = x.1 ∧ r.2.pa = x.2.1 ∧ r.2.data = x.2.2.2
    let stops (t : State) (cause : Nat) : Prop :=
      ∃ y, repOf t gid num = some y ∧ y.fin = some (BitVec.ofNat 64 (0x13 + cause * 256)) ∧ t.out = s.out ++ [.groupAbort gid num cause]
    (dueHead s s0 (.keyRound gid num) → c.fin = none →
      ((unitTake (.keyRound gid num) s0).1 = none → c.busy = false →
        (repHeld c s = true →
          ∃ t, exec .keyRound s = .next t ∧ t.grp = s.grp ∧ t.dev = s.dev ∧ ∃ e ∈ t.agenda, e.ev = .keyRound gid num) ∧
        (repHeld c s = false → c.round = 0 → ∃ t, exec .keyRound s = .next t ∧ t.dev.mem = s.dev.mem ∧
          repOf t gid num = some { c with busy := true } ∧ asks t .read .keyUnit (.keyRound gid num) (repSource c)) ∧
        (repHeld c s = false → c.round ≠ 0 → ∃ t, exec .keyRound s = .next t ∧ t.grp = s.grp ∧ t.dev = s.dev ∧
          t.out = s.out ++ [.repHist gid num c.round (roundHist c)])) ∧
      ∀ x u, unitTake (.keyRound gid num) s0 = (some x, u) →
        let ks := (repElems c x).map (elemKey c)
        let c' : Rep :=
          { c with busy := false, keys := ks.map fun k => (k.1, k.2.1), clamps := (ks.map fun k => k.2.2).foldl (· + ·) 0 }
        (x.bad = true → ∃ t, exec .keyRound s = .next t ∧ t.dev.mem = s.dev.mem ∧ stops t 4) ∧
        (x.bad = false → c.dests = none → ∃ t, exec .keyRound s = .next t ∧ t.dev.mem = s.dev.mem ∧ repOf t gid num = some c' ∧
          t.out = s.out ++ [.repHist gid num c.round (roundHist c')]) ∧
        ∀ ds, x.bad = false → c.dests = some ds → ∃ t, exec .keyRound s = .next t ∧ t.dev.mem = s.dev.mem ∧
          repOf t gid num = some { c with busy := false } ∧ t.out = s.out ++ [.repCounts gid num
            ⟨c.rank, (List.range c.ranks).map (fun r => (ds.filter fun y => y = r).length), c.rcap - c.rhave, c.retcap, []⟩]) ∧
    (∀ others, dueHead s s0 (.histogramReduction gid num others) → c.fin = none →
      let hists := (c.rank, roundHist c) :: others
      let all := sumHists (hists.map Prod.snd)
      let total := if c.round = 0 then (all.map Prod.snd).foldl (· + ·) 0 else c.total
      ∃ t, exec .histogramReduction s = .next t ∧ t.dev = s.dev ∧
        (2 ^ 64 ≤ total → repOf t gid num = some (stopped 5)) ∧
        (total = 0 → repOf t gid num = some { c with dests := some (List.replicate c.nsrc c.rank) }) ∧
        (0 < total → total < 2 ^ 64 → ∃ x, repOf t gid num = some x ∧ x.total = total ∧ x.bnd.length = c.ranks - 1 ∧
          (c.round < 5 → x.round = c.round + 1 ∧ x.dests = c.dests ∧ ∃ e ∈ t.agenda, e.ev = .keyRound gid num) ∧
          (5 ≤ c.round → x.dests = some (splitDests { c with total := total, bnd := x.bnd } hists) ∧ x.round = c.round))) ∧
    (∀ others ds, dueHead s s0 (.elementMove gid num others) → c.fin = none → c.dests = some ds →
      let p := c.ranks
      let tab : List RankCounts :=
        ⟨c.rank, (List.range p).map fun r => (ds.filter fun x => x = r).length, c.rcap - c.rhave, c.retcap, []⟩ :: others
      let ev : Ev := .elementMove gid num others
      ((unitTake ev s0).1 = none → c.busy = false → c.round < 6 →
        ((∃ x ∈ tab, x.retCap < keptBy tab p x) →
          ∃ t, exec .elementMove s = .next t ∧ t.dev = s.dev ∧ repOf t gid num = some (stopped 6)) ∧
        ((∀ x ∈ tab, keptBy tab p x ≤ x.retCap) → ∃ t, exec .elementMove s = .next t ∧ t.dev.mem = s.dev.mem ∧
          repOf t gid num = some { c with round := reading, busy := true } ∧ asks t .read .keyUnit ev (repSource c))) ∧
      ∀ x u, unitTake ev s0 = (some x, u) →
        let group (d : Nat) : List (List Byte) := (((repElems c x).zip ds).filter fun e => e.2 = d).map Prod.fst
        let got := (List.range p).flatMap fun sr =>
          if sr = c.rank then ((group c.rank).take (dealt tab c.rank c.rank)).flatten
          else ((others.find? fun t => t.rank = sr).map fun t => t.elems.take (z * dealt tab sr c.rank)).getD []
        let ret := (List.range p).flatMap fun d => ((group d).drop (dealt tab c.rank d)).flatten
        (x.bad = true → ∃ t, exec .elementMove s = .next t ∧ t.dev.mem = s.dev.mem ∧ stops t 4) ∧
        (x.bad = false → c.round = reading → ∃ t y, exec .elementMove s = .next t ∧ t.dev.mem = s.dev.mem ∧
          repOf t gid num = some y ∧ y.round = writing ∧ y.recv = got.length / z ∧
          y.kept = (List.range p).map (fun d => ((group d).drop (dealt tab c.rank d)).length) ∧
          y.ovf = (tab.any fun x => decide (0 < keptBy tab p x)) ∧
          asks t .write .reducer ev (lineAccs c.pages (c.rbuf + z * c.rhave) got.length got ++ lineAccs c.pages c.reta ret.length ret)) ∧
        (x.bad = false → c.round = writing → ∃ t, exec .elementMove s = .next t ∧ t.dev.mem = s.dev.mem ∧
          repOf t gid num = some { c with busy := false, round := moved } ∧ ∃ e ∈ t.agenda, e.ev = .repartComplete gid num)) ∧
    (dueHead s s0 (.repartComplete gid num) →
      ((unitTake (.repartComplete gid num) s0).1 = none → c.wrote = false → c.busy = false →
        ((c.fin ≠ none ∨ c.round = moved ∧ c.left = 0) → ∃ t, exec .repartComplete s = .next t ∧
          repOf t gid num = some { c with fin := some (c.fin.getD 0), wrote := true } ∧
          (undefinedAfter (c.fin.getD 0) = false → t.dev.mem = s.dev.mem) ∧
          asks t .write .reducer (.repartComplete gid num)
            (lineAccs c.pages c.comp (repRecord c (c.fin.getD 0)).length (repRecord c (c.fin.getD 0)))) ∧
        (c.fin = none → (c.round ≠ moved ∨ c.left ≠ 0) → exec .repartComplete s = .next s0)) ∧
      ∀ x u, unitTake (.repartComplete gid num) s0 = (some x, u) → s.job.id = c.jobId → c.token < 16 →
        let st := if x.bad = true ∧ c.fin.getD 0 = 0 then BitVec.ofNat 64 (0x13 + 4 * 256) else c.fin.getD 0
        ∃ t, exec .repartComplete s = .next t ∧ (x.bad = false → t.dev.mem = s.dev.mem) ∧
          t.grp.reps.map (fun y => (y.gid, y.num)) = (s.grp.reps.erase c).map (fun y => (y.gid, y.num)) ∧
          (row t.job.tok Tok.init c.token).status = st ∧ (row t.job.tok Tok.init c.token).st = (if st = 0 then .done else .err)) ∧
    ∀ cause, dueHead s s0 (.repartAbort gid num cause) →
      (c.fin.isSome = true → exec .repartAbort s = .next s0) ∧
      (c.fin = none → ∃ t, exec .repartAbort s = .next t ∧ t.dev = s.dev ∧ t.job = s.job ∧
        repOf t gid num = some (stopped cause.toNat) ∧ (c.busy = false → ∃ e ∈ t.agenda, e.ev = .repartComplete gid num))

/-! ### Events of jobs and of the Grip -/

/-- A task whose release has come and whose job is this core's next starts there on job cycle 0: it stands at its entry with the
scalar state of a job start, x and z of its launch, no handle, port or token, all masks set, and no byte of memory changes. A job
that has passed its last rendezvous and has nothing under way ends: its core holds no job, its planes and their stored images go,
no byte of device memory changes, and of the scratchpad only what its write ports and its slots still had to write. A frozen job that
is resumed goes on (to its end, if its last rendezvous is passed), at its calendar position, with the cycle after the one on which it
froze; FAULT0 to FAULT3 show its record, and every prepared register is fetched again. A saved one comes back the same
way with its statistics, its counters and its slots. What a job waits for before it ends is the model's reading (log 26); how ids
are chosen is its choice (log 11). (After R65, R86, R327, R95, R164, R354, R356, R357.) -/
def Obligations.JobsStartEndResume : Prop :=
  (
    ∀ (s : State) (t : Task) (l : Launch) (rest : List Launch), taskRelease s = some t → t.cores = [s.coreNo] → s.core.jobq = l :: rest →
      ∃ u, exec .jobRelease s = .next u ∧ u.core.jobq = rest ∧ u.dev.mem = s.dev.mem ∧ u.core.spad = s.core.spad ∧
        u.job.st = .running ∧ u.job.cycle = 0 ∧ u.job.l = l ∧ u.job.seq.pos = .header l.entry ∧
        u.job.levels = BitVec.ofNat 5 l.levels ∧ u.job.id = s.grip.jobCount + 1 ∧
        (∀ i < 16, row u.job.seq.x 0 i = l.xs.getD i 0) ∧ (∀ i < 8, row u.job.seq.z 0 i = l.zs.getD i 0) ∧
        (∀ i < 32, u.job.seq.sReg i = 0) ∧ (∀ i < 8, u.job.seq.fReg i = decide (i = 0)) ∧ u.job.seq.ldm = [] ∧ u.job.dl = [] ∧
        (∀ h < 16, u.handle h = Handle.zero) ∧ (∀ g < 8, u.port g = Port.init) ∧ (∀ k < 16, row u.job.tok Tok.init k = Tok.init) ∧
        (∀ i < 8, row u.job.vx.k 0 i = .allOnes 1024) ∧ (∀ i < 4, row u.job.mx.pm 0 i = .allOnes 64) ∧ u.job.freg = .replicate 4 0) ∧
  (
    ∀ (s : State), (∀ e l, s.agenda = e :: l → s.cyc < e.at_ ∨ evInstr e.ev ≠ .jobEnd) → jobEndable s = true →
      ∃ t, exec .jobEnd s = .next t ∧ t.job = Job.init ∧ t.hold = none ∧ t.dev.mem = s.dev.mem ∧ t.core.spad = (flushWrites s).core.spad ∧
        (s.core.writes = [] → (∀ g < 8, (s.port g).cfg = true → (s.port g).wr = true → (s.port g).buf = []) → t.core.spad = s.core.spad) ∧
        (∀ p < 32, (t.plane p).owner ≠ some s.job.ctx) ∧
        (∀ p < 32, (s.plane p).owner ≠ some s.job.ctx → t.plane p = s.plane p) ∧ ∀ i ∈ t.core.images, i.1 ≠ s.job.ctx) ∧
  (
    (∀ (s : State), frozenDue s = true → ∃ t, exec .jobResumption s = .next t ∧ t.dev = s.dev ∧
      (∃ n ≤ 1, t.core = { s.core with arr := { s.core.arr with t := s.core.arr.t + n } }) ∧
      t.job.st = (if pastLast s.job then .ending else .running) ∧ t.job.cycle = s.job.cycle + 1 ∧ t.job.frec = none ∧ (∀ r, s.job.frec = some r → t.job.freg = faultWords r) ∧
      t.job.dl = s.job.dl ∧ t.job.seq.s = s.job.seq.s ∧ t.job.seq.f = s.job.seq.f ∧ t.job.seq.pos = s.job.seq.pos ∧ t.job.mx = s.job.mx ∧
      ∀ i < 8, let b := s.job.seq.bReg i
        t.job.seq.bReg i = { b with buf := none, ready := false, start := if b.prep then some (s.job.cycle + 1) else none }) ∧
    ∀ (s : State) (x : Saved), frozenDue s = false → savedDue s = some x →
      ∃ t, exec .jobResumption s = .next t ∧ t.dev = s.dev ∧ t.core.jobq = s.core.jobq.tail ∧ t.core.stat = x.stat ∧ t.core.step = x.step ∧
        (∀ y ∈ t.core.saved, y.job.id ≠ x.job.id) ∧
        t.core.spad = x.slots.foldl (fun m w => wrBytes m (w.1 % 2 ^ 22) w.2) s.core.spad ∧
        t.job.st = .running ∧ t.job.cycle = x.job.cycle + 1 ∧ t.job.seq.s = x.job.seq.s ∧ t.job.seq.pos = x.job.seq.pos ∧
        t.job.dl = x.job.dl ∧ t.job.mx = x.job.mx ∧ t.job.ot = x.job.ot ∧ t.job.tok = x.job.tok)

/-- A job whose check point finds its guards as they were recorded passes it; one that is alone in its task and finds them otherwise
stops, with no effect; jobs of one task wait for each other, and pass together or stop together. 2^24 cycles on which nothing issues
freeze the job with 0x17 and the cause of its lowest stalled stream. A request for pre-emption reaches the running job, and stands
until a safe point takes it; a save keeps the live part of the context and leaves the core without a job. The cause of a stall that
R364 does not name is the model's choice (log 46). (After R343 to R345, R102, R328, R358 to R363.) -/
def Obligations.GuardsWatchdogSaves : Prop :=
  (
    ∀ (s : State), (∀ e l, s.agenda = e :: l → s.cyc < e.at_ ∨ evInstr e.ev ≠ .checkPoint) →
      (checkComplete s = none → s.job.st = .running → s.job.check = .before → s.job.l.njobs = 1 → ownGuards s = none →
        exec .checkPoint s = .next { s with job := { s.job with check := .passed }, todo := .stream .sq :: s.todo }) ∧
      (∀ h t, checkComplete s = none → s.job.st = .running → s.job.check = .before → s.job.l.njobs = 1 → ownGuards s = some h →
        taskOf s s.job.l.task = some t → t.ncore = 1 → t.cores = [s.coreNo] →
        ∃ u, exec .checkPoint s = .next u ∧ u.job = Job.init ∧ u.dev.mem = s.dev.mem ∧ u.core.spad = s.core.spad) ∧
      (checkComplete s = none → s.job.st = .running → s.job.check = .before → s.job.l.njobs ≠ 1 → (∀ t, taskOf s s.job.l.task = some t → t.ncore ≠ 1) →
        ∃ u, exec .checkPoint s = .next u ∧ u.job.check = .waiting ∧ u.job.seq = s.job.seq ∧ u.dev.mem = s.dev.mem) ∧
      ∀ t, checkComplete s = some t →
        (t.checks.findSome? Prod.snd = none →
          ∃ u, exec .checkPoint s = .next u ∧ Out.checked t.id ∈ u.out ∧ u.job.seq = s.job.seq ∧ u.dev = s.dev ∧
            (s.job.check = .waiting → s.job.l.task = t.id → u.job.check = .passed)) ∧
        ∀ h, t.checks.findSome? Prod.snd = some h → s.coreNo ∈ t.cores →
          ∃ u, exec .checkPoint s = .next u ∧ u.job = Job.init ∧ u.dev.mem = s.dev.mem ∧ u.core.spad = s.core.spad) ∧
  (
    (∀ (s : State) (st : Stream) (w : Wait), watchdogDue s = some (st, w) →
      ∃ t, exec .watchdogExpiry s = .next t ∧ t.job.st = .frozen ∧ t.job.seq = s.job.seq ∧ t.dev.mem = s.dev.mem ∧
        (t.job.frec.map fun r => (r.code, r.cause, r.word)) = some (0x17, BitVec.ofNat 8 (waitCause w), wordRef s st)) ∧
    (∀ (s s0 : State) (c k : Nat), dueHead s s0 (.preemptionRequest c) → (coreQ s c).run = some k →
      (c ≠ s.coreNo → exec .preemptionRequest s = .next { s0 with out := s.out ++ [.preempt c] }) ∧
      (c = s.coreNo → s.job.st = .running →
        exec .preemptionRequest s = .next { s0 with job := { s.job with preempt := some (s.job.preempt.getD s.cyc) } })) ∧
    ∀ (s : State), (∀ e l, s.agenda = e :: l → s.cyc < e.at_ ∨ evInstr e.ev ≠ .safePointSave) → saveReady s = true →
      let m := liveMap (liveEntry s)
      let j := savedJob m s.job
      ∃ t, exec .safePointSave s = .next t ∧ t.job = Job.init ∧ t.dev.mem = s.dev.mem ∧ t.core.spad = s.core.spad ∧
        t.core.saved = s.core.saved ++ [⟨j, handleSlots s m, s.core.stat, s.core.step⟩] ∧
        (∀ i < 32, row j.seq.s 0 i = if m.sm.testBit i then row s.job.seq.s 0 i else 0) ∧
        (∀ i < 8, row j.seq.b BReg.init i = if m.bm.testBit i then row s.job.seq.b BReg.init i else BReg.init) ∧
        (∀ i < 16, row j.h Handle.zero i = if m.hm.testBit i then row s.job.h Handle.zero i else Handle.zero) ∧
        j.seq.ldm = s.job.seq.ldm ∧ j.ot = s.job.ot ∧ j.vx = s.job.vx ∧ j.cycle = s.job.cycle ∧ j.dl = s.job.dl ∧ j.tok = s.job.tok ∧
        ∀ p < 32, (s.plane p).owner = some s.job.ctx → m.vm.testBit p = false → t.plane p = Plane.init)

/-- A decision serves the lowest class in which a queue is ready: that queue holds its class's turn with the deficit that is left, and
its oldest task is placed on the cores that R326 gives it, with the dispatch count as its race epoch. A task that has waited
beyond its queue's threshold asks for the fewest cores that let it be placed; a deal that was asked for is installed where no job
is resident, and is measured. The floor scheduler places a ready task of a run, or joins a copy task to its core's copy queue;
rank 0 of a gang takes in the votes and tells every other member what is decided; cut c + 1 is made out of the dailies of a replay
of cut c. That a deal is measured when it is installed is the model's reading (log 28); the bytes of a decision (log 41) and the
port that it leaves by (log 30) are its choice. (After R323, R326, R327, R241, R328, R331, R389, R335, R349, R350.) -/
def Obligations.DispatchDealsCuts : Prop :=
  (
    ∀ (s : State) (cls q left : Nat) (t : Task) (cores : List Nat), decision s = some (cls, q, t, cores, left) →
      (∀ c p, c < cls → p < 32 → qClass (queueAt s p) = c → queueReady s p = none) ∧
      (t.graph = none → ∃ u, exec .dispatchDecision s = .next u ∧ u.job = s.job ∧ u.dev = s.dev ∧ (queueAt u q).deficit = left ∧
        row u.grip.turn none cls = some q ∧ row u.grip.last 0 cls = q ∧ u.grip.decAt = s.cyc + 1 ∧ u.grip.dispatch = s.grip.dispatch + 1 ∧
        taskOf u t.id = some { t with st := .placed, cores := cores, rel := none, epoch := (s.grip.dispatch + 1).toNat })) ∧
  (
    (∀ (s : State) (t : Task) (l : List Nat), thresholdDue s = some (t, l) → SMap.wf CoreQ.init s.grip.cores = true →
      ∃ u, exec .pthreshExpiry s = .next u ∧ u.job = s.job ∧ u.dev = s.dev ∧ ∀ c ∈ l, ∃ e ∈ u.agenda, e.ev = .preemptionRequest c) ∧
    ∀ (s : State) (d : W32), dealReady s = true → s.dev.dealPend = some d →
      ∃ u, exec .dealInstall s = .next u ∧ u.dev = { s.dev with deal := d, dealPend := none } ∧ u.job = s.job ∧
        row u.plat.mr [] 3 = sha256 (row s.plat.mr [] 3 ++ sha256 (leBytes 4 d.toNat)) ∧
        ∀ i < 8, i ≠ 3 → row u.plat.mr [] i = row s.plat.mr [] i) ∧
  (
    (∀ (s : State) (gid i : Nat) (g : Graph) (t : GTask), floorReady s = some (gid, i) → graphOf s gid = some g → gtaskReady s g i = true →
      g.tasks[i]? = some t → (t.copy = true → (g.tens[t.csrc]?).isSome = true ∧ (g.tens[t.cdst]?).isSome = true) →
      ∃ u x, exec .floorDispatch s = .next u ∧ u.job = s.job ∧ u.dev.mem = s.dev.mem ∧ graphOf u gid = some x ∧ x.floorAt = s.cyc + 1 ∧
        x.st = g.st.set i (if t.copy then .launched else .placed) ∧ x.tasks = g.tasks ∧
        (t.copy = false → ∃ k ∈ u.grip.tasks, k.graph = some (gid, i) ∧ k.st = .placed ∧ k.ncore = t.ncore ∧ k.slot = t.slot)) ∧
    (∀ (s : State) (g : Graph) (gid : Nat) (nodes : List Nat), (∀ e l, s.agenda = e :: l → e.ev ≠ .gangDecision) →
      gangReady s = some g → g.gidTab = some (gid, nodes) →
      ∃ u, exec .gangDecision s = .next u ∧ u.job = s.job ∧ u.dev = s.dev ∧ u.grip.votes = s.grip.votes.filter (fun v => v.gid ≠ gid) ∧
        ∀ n ∈ nodes.tail, ∃ k, Out.packet 0 k ∈ u.out ∧ k.ty = 5 ∧ k.dst = BitVec.ofNat 16 n ∧ k.gid = BitVec.ofNat 64 gid ∧
          k.data = fit 32 (leBytes 2 1 ++ leBytes 2 ((decideCut g (s.grip.votes.filter fun v => v.gid = gid)).getD 0xFFFF))) ∧
    ∀ (s s0 : State) (slate : W64) (c : Nat), dueHead s s0 (.cutMake slate c) →
      exec .cutMake s = .next (s0.onGrip fun g => { g with
        sets := g.sets.map fun x => if x.slate = slate then { makeCut x c with inUse := false } else x }))

/-- The record at a streamer's head that is next acts: a SEMWAIT once the semaphore has its value, a LAUNCH together with those of its
task on their other reels, a COPY, a GUARD, a SEMPOST, whose post waits for the last job or copy of its reel and then asks the
semaphore's engine, a MARK; then the head moves to the next record, and the cycles that SEMWAIT, LAUNCH and COPY waited are noted.
END ends its reel. Where a set's semaphores stand (log 43), and that a SEMWAIT sees one by the answers to its posts (log 35), is the
model's choice. (After R340, R341, R348, R402.) -/
def Obligations.ReelsPlay : Prop :=
  ∀ (s : State) (g : Graph) (i : Nat) (r : ReelRec) (h : Streamer), reelNext s = some (g, i, r) → g.heads[i]? = some h →
    let counted := match r with | .semwait _ _ _ | .launch _ _ | .copy _ => true | _ => false
    let wait := if counted then min (s.cyc - h.since) (2 ^ 32 - 1) else 0
    let w : Instr := match r with
      | .semwait _ _ _ => .reelSemwait | .launch _ _ => .reelLaunch | .copy _ => .reelCopy | .guard _ _ _ _ => .reelGuard
      | .sempost _ _ => .reelSempost | .mark _ => .reelMark | .fin _ => .reelEnd
    ∃ u x y, exec w s = .next u ∧ u.job = s.job ∧ u.dev = s.dev ∧ graphOf u g.id = some x ∧ x.heads[i]? = some y ∧
      y.pos = h.pos + 1 ∧ y.since = s.cyc + 1 ∧ y.dailies = h.dailies ++ [wait] ∧ (y.fin = true ↔ ∃ n, r = .fin n) ∧
      (∀ t sem v, r = .semwait t sem v → v ≤ g.sems.getD sem 0 ∧ x.sems = g.sems) ∧
      (∀ t j, r = .launch t j → y.lastTask = some t ∧ ∃ k ∈ u.grip.tasks, k.graph = some (g.id, t) ∧ k.st = .placed) ∧
      (∀ t, r = .copy t → y.lastTask = some t) ∧
      (∀ t sem k, r = .sempost t sem → h.lastTask = some k →
        (g.doneJobs.contains (k, h.core) = true → ∀ st, setOf s g.slate = some st →
          x.sems = g.sems ∧ x.posts = g.posts ∧ x.owed = g.owed + 1 ∧
          ∃ q, q.src = .reel g.id sem ∧ q.kind = .sempost ∧ q.pa = semAt s.variant st sem ∧ q.b = 1 ∧
            (s.cyc + engineTravel s q.src (engineOf s q.va), q) ∈ (atomAt u (engineOf s q.va)).arr) ∧
        (g.doneJobs.contains (k, h.core) = false → x.sems = g.sems ∧ x.posts = g.posts ++ [(sem, k, h.core)]))

/-! ### Queues, the host link, the fabric and the platform -/

/-- The packet at the head of the queue whose thread is ready. The thread passes it in either case. One whose header or body fails its
check has no effect: its queue stops with the code and the packet's SEQ, and the queue's vector is raised. A well-formed INVOKE
that supplies its registers itself is a task that waits to be dispatched; a WAIT blocks its thread and asks the semaphore's
engine; a SIGNAL asks the engine to add its value; a GRAPH whose record and slots pass their checks is a graph that waits for its
core set. LOADSLOT takes a FREE slot and asks for its image's lines; EVICTSLOT takes a RESIDENT one of its version, which is FREE at
once when no job uses it; PREEMPT asks the core's job, and completes at once where none runs; CHECKPOINT asks for the lines of its
range, counts its handle, and sends what was read to the handle's BASE; FENCE waits for what is before it. A native image that has
been read and passes its checks is made known, and its patches are written, after which its slot is RESIDENT; one that fails leaves
it FREE and stops its queue. A packet that completes leaves its queue. Where the head stands after a refused packet is the model's
reading (log 40); when a CHECKPOINT's lines are accepted (log 36) is its choice. (After R318 to R322, R324, R325, R328, R332, R361,
R373, R390, R402.) -/
def Obligations.PacketsOfTheQueues : Prop :=
  (
    ∀ (s : State) (q ty code : Nat) (l : List Byte) (w : Instr) (body : Nat → List Byte → State → Except GStop State),
      (∀ e l, s.agenda = e :: l → s.cyc < e.at_ ∨ evInstr e.ev ≠ w) → packetReady s = some q → headBytes s q = .ok l → fieldN l 0 1 = ty →
      (w, ty, body) ∈ ([(.graph, 1, graphPacket), (.invoke, 2, invoke), (.wait, 3, waitPacket), (.signal, 4, signalPacket),
        (.loadslot, 5, loadslot), (.evictslot, 6, evictslot), (.preempt, 7, preemptPacket), (.checkpoint, 8, checkpointPacket),
        (.fencePacket, 9, fun q l s => .ok (acceptPacket q l 1 s).1)] :
        List (Instr × Nat × (Nat → List Byte → State → Except GStop State))) →
      (headFault s q l = some code ∨ headFault s q l = none ∧ body q l s = .error (.code code)) →
      ∃ t, exec w s = .next t ∧ t.dev = s.dev ∧ t.core = s.core ∧ t.job = s.job ∧ t.out = s.out ++ [.msix q] ∧
        queueAt t q = { queueAt s q with
          head := ((queueAt s q).head + 1) % qSize (queueAt s q), next := (queueAt t q).next, stop := true
          code := BitVec.ofNat 8 code, seq := BitVec.ofNat 32 (fieldN l 4 4), got := [], ask := none }) ∧
  (
    ∀ (s : State) (q : Nat) (l : List Byte), packetReady s = some q → headBytes s q = .ok l → headFault s q l = none →
      let d := queueAt s q
      let taken (t : State) (left : Nat) : Prop := (queueAt t q).head = (d.head + 1) % qSize d ∧
        (queueAt t q).pkts = d.pkts ++ [⟨d.nextId, fieldN l 0 1, BitVec.ofNat 32 (fieldN l 4 4), fieldN l 8 8, left, false⟩]
      (∀ o, fieldN l 0 1 = 2 → fieldN l 16 2 < 256 → fieldN l 24 8 = 0 → fieldN l 32 8 = 0 →
        launchable s (fieldN l 16 2) (fieldN l 18 2) = some o → (∀ x, o.xdata = some x → x < 3 → field64 l (40 + 8 * x) = 0) →
        ∃ t k, exec .invoke s = .next t ∧ taken t 1 ∧ t.dev = s.dev ∧ t.job = s.job ∧ t.grip.tasks = s.grip.tasks ++ [k] ∧
          k.q = q ∧ k.pkt = d.nextId ∧ k.slot = fieldN l 16 2 ∧ k.ncore = o.ncore ∧ k.st = .waiting ∧ k.since = s.cyc ∧ k.gidTab = none ∧
          k.zs = List.replicate 8 0 ∧
          (∀ i < 3, o.xdata ≠ some i → k.xs.getD i 0 = field64 l (40 + 8 * i)) ∧
          (∀ x, o.xdata = some x → x < 16 → k.xs.getD x 0 = BitVec.ofNat 64 o.data) ∧
          (slotAt t (fieldN l 16 2)).jobs = (slotAt s (fieldN l 16 2)).jobs + 1) ∧
      (∀ pages, fieldN l 0 1 = 3 → fieldN l 16 8 % 8 = 0 → fieldN l 32 1 ≤ 1 →
        gripRange s d.root (fieldN l 16 8) 8 (if fieldN l 32 1 = 0 then [.r, .w] else [.r]) = .ok pages →
        ∃ t r, exec .wait s = .next t ∧ taken t 1 ∧ (queueAt t q).blocked = true ∧ t.dev = s.dev ∧ t.job = s.job ∧
          r.src = .grip q d.nextId ∧ r.kind = (if fieldN l 32 1 = 0 then .semwait else .waitmem .gen) ∧ r.va = fieldN l 16 8 ∧
          r.pa = (pieceAt pages (fieldN l 16 8)).getD 0 ∧ r.b = field64 l 24 ∧ r.size = 8 ∧
          (s.cyc + engineTravel s r.src (engineOf s r.va), r) ∈ (atomAt t (engineOf s r.va)).arr) ∧
      (∀ pages, fieldN l 0 1 = 4 → fieldN l 16 8 % 8 = 0 → field64 l 24 ≠ 0 → gripRange s d.root (fieldN l 16 8) 8 [.r, .w] = .ok pages →
        ∃ t r, exec .signal s = .next t ∧ taken t 1 ∧ t.dev = s.dev ∧ t.job = s.job ∧ r.src = .grip q d.nextId ∧ r.kind = .sempost ∧
          r.va = fieldN l 16 8 ∧ r.b = field64 l 24 ∧ (s.cyc + engineTravel s r.src (engineOf s r.va), r) ∈ (atomAt t (engineOf s r.va)).arr) ∧
      ∀ h tasks tens tables pages, fieldN l 0 1 = 1 → fieldN l 24 8 = 0 →
        (∀ e l, s.agenda = e :: l → s.cyc < e.at_ ∨ evInstr e.ev ≠ .graph) →
        readGraph s q (fieldN l 16 8) = .ok (h, tasks, tens, tables) → tensPages s d.root tens = .ok pages →
        (∀ t ∈ tasks, t.copy = true ∨ (launchable s t.slot t.sver).isSome = true) →
        ∃ t x k, exec .graph s = .next t ∧ taken t 1 ∧ t.dev.mem = s.dev.mem ∧ t.job = s.job ∧
          t.grip.tasks = s.grip.tasks ++ [k] ∧ k.graph = some (s.grip.graphNext, wholeGraph) ∧ k.ncore = h.ncoreg ∧ k.st = .waiting ∧
          t.grip.graphs.getLast? = some x ∧ x.id = s.grip.graphNext ∧ x.tasks = tasks ∧ x.tens = tens ∧ x.enc = shapeEnc h 0 tables ∧
          x.slate = slateOf x.enc ∧ x.placed = false ∧ x.st = tasks.map fun _ => .waiting) ∧
  (
    (∀ (s : State) (q : Nat) (l : List Byte), packetReady s = some q → headBytes s q = .ok l → headFault s q l = none →
      let d := queueAt s q
      let n := fieldN l 16 2
      let taken (t : State) (left : Nat) : Prop := (queueAt t q).head = (d.head + 1) % qSize d ∧
        (queueAt t q).pkts = d.pkts ++ [⟨d.nextId, fieldN l 0 1, BitVec.ofNat 32 (fieldN l 4 4), fieldN l 8 8, left, false⟩]
      (fieldN l 0 1 = 5 → n < 256 → (slotAt s n).st = .free →
        ∃ t op, exec .loadslot s = .next t ∧ taken t 1 ∧ t.dev.mem = s.dev.mem ∧ (slotAt t n).st = .loading ∧
          (slotAt t n).ver = BitVec.ofNat 16 (fieldN l 18 2) ∧
          (slotAt t n).obj = some (imageOnly (fieldN l 24 8) (fieldN l 32 8) d.root d.ctx) ∧
          op ∈ t.dev.ops ∧ op.next = .slotLoadComplete n q d.nextId ∧
          ∀ pages, gripRange s d.root (fieldN l 24 8) (fieldN l 32 8) [.r] = .ok pages →
            op.left = (lineAccs pages (fieldN l 24 8) (fieldN l 32 8) []).length) ∧
      (fieldN l 0 1 = 6 → n < 256 → (slotAt s n).st = .resident → (slotAt s n).ver.toNat = fieldN l 18 2 →
        ∃ t, exec .evictslot s = .next t ∧ (queueAt t q).head = (d.head + 1) % qSize d ∧ t.dev = s.dev ∧
          (0 < (slotAt s n).jobs → (slotAt t n).st = .evicting ∧ (slotAt t n).jobs = (slotAt s n).jobs) ∧
          ((slotAt s n).jobs = 0 → (slotAt t n).st = .free)) ∧
      (fieldN l 0 1 = 7 → n < Config.cores s.variant →
        ((coreQ s n).run = none → ∃ t, exec .preempt s = .next t ∧ taken t 0 ∧ ∃ e ∈ t.agenda, e.ev = .packetComplete q d.nextId) ∧
        ((coreQ s n).run ≠ none → ∃ t, exec .preempt s = .next t ∧ taken t 1 ∧ t.grip.asked = s.grip.asked ++ [(n, q, d.nextId)] ∧
          ((coreQ s n).asked = false → ∃ e ∈ t.agenda, e.ev = .preemptionRequest n))) ∧
      (∀ pages, fieldN l 0 1 = 8 → fieldN l 16 8 < 2 ^ 28 → (∀ e l, s.agenda = e :: l → s.cyc < e.at_ ∨ evInstr e.ev ≠ .checkpoint) →
        gripRange s d.root (fieldN l 24 8) (fieldN l 32 8) [.r] = .ok pages →
        handleCause s d.ctx (fieldN l 16 8 % 2 ^ 12) (fieldN l 16 8 / 2 ^ 12 % 2 ^ 16) 0 (fieldN l 32 8) true 64 = none →
        let i := fieldN l 16 8 % 2 ^ 12
        ∃ t op, exec .checkpoint s = .next t ∧ taken t 1 ∧ t.dev.mem = s.dev.mem ∧ t.out = s.out ∧
          t.dev.hcount = (countHandle i true s).dev.hcount ∧ op ∈ t.dev.ops ∧
          op.left = (lineAccs pages (fieldN l 24 8) (fieldN l 32 8) []).length ∧
          op.next = .checkpointRead q d.nextId (fieldN l 16 8) (handleEnt s i).base (fieldN l 24 8) (fieldN l 32 8)) ∧
      (fieldN l 0 1 = 9 → ∃ t, exec .fencePacket s = .next t ∧ taken t 1 ∧ t.dev = s.dev ∧ t.job = s.job)) ∧
    (∀ (s s0 u : State) (q pk h base va len : Nat) (op : UnitOp), dueHead s s0 (.checkpointRead q pk h base va len) →
      unitTake (.checkpointRead q pk h base va len) s0 = (some op, u) →
      ∃ t, exec .checkpoint s = .next t ∧ t.dev.mem = s.dev.mem ∧ t.job = s.job ∧ (∃ e ∈ t.agenda, e.ev = .packetComplete q pk) ∧
        t.out = s.out ++ (linePieces va len).map fun x =>
          .extWrite (h % 2 ^ 12) (h / 2 ^ 12 % 2 ^ 16) (base + (x.1 - va)) (op.bytes x.1 x.2)) ∧
    (∀ (s s0 : State) (n q pk : Nat) (o : Obj), n < 256 → (slotAt s n).obj = some o →
      (dueHead s s0 (.slotLoadComplete n q pk) →
        let u := (unitTake (.slotLoadComplete n q pk) s0).2
        let pages := imagePages u o.root o.img o.len [.r]
        (∀ p h x, pages = .ok p → readHead u ⟨o.root, o.img, o.len, p⟩ = .ok h → h.ndeiq = false →
          loadNative n ⟨o.root, o.img, o.len, p⟩ o.ctx u = .ok x →
          ∃ t op, exec .slotLoadComplete s = .next t ∧ (slotAt t n).st = (slotAt s n).st ∧ (slotAt t n).obj = some x.obj ∧
            (slotAt t n).report = reportWords 0 0 (BitVec.ofNat 64 x.decisions) (BitVec.ofNat 64 x.first) ∧ t.dev.mem = s.dev.mem ∧
            op ∈ t.dev.ops ∧ op.next = .slotWritten n q pk ∧ op.left = (writeLines u o.root x.patches).length) ∧
        (∀ e, (pages = .error e ∨ (∃ p, pages = .ok p ∧ readHead u ⟨o.root, o.img, o.len, p⟩ = .error e) ∨
            ∃ p h, pages = .ok p ∧ readHead u ⟨o.root, o.img, o.len, p⟩ = .ok h ∧ h.ndeiq = false ∧
              loadNative n ⟨o.root, o.img, o.len, p⟩ o.ctx u = .error e) → q < 32 →
          ∃ t, exec .slotLoadComplete s = .next t ∧ (slotAt t n).st = .free ∧ (slotAt t n).obj = none ∧ (queueAt t q).stop = true ∧
            (queueAt t q).code = BitVec.ofNat 8 e.code ∧ t.dev.mem = s.dev.mem)) ∧
      (dueHead s s0 (.slotWritten n q pk) →
        ∃ t, exec .slotLoadComplete s = .next t ∧ (slotAt t n).st = .resident ∧ (slotAt t n).obj = some o ∧ t.dev.mem = s.dev.mem)) ∧
    ∀ (s s0 : State) (q pk : Nat) (p : Pkt), dueHead s s0 (.packetComplete q pk) → q < 32 → packetOf s q pk = some p →
      ∃ t, exec .packetComplete s = .next t ∧ (queueAt t q).pkts = (queueAt s q).pkts.filter (fun y => y.id ≠ pk) ∧ t.dev = s.dev ∧
        t.job = s.job ∧ ((p.csem = 0 ∨ p.fault = true) → t.atoms = s.atoms) ∧
        ∀ e, p.csem ≠ 0 → p.fault = false → walkTable s (queueAt s q).root p.csem = .ok e →
          ∃ r, r.src = .grip q pk ∧ r.kind = .sempost ∧ r.va = p.csem ∧ r.b = 1 ∧
            (s.cyc + engineTravel s r.src (engineOf s r.va), r) ∈ (atomAt t (engineOf s r.va)).arr)

/-- A doorbell gives a queue its tail, modulo its ring. A descriptor that sets EN is checked: one that breaks R317 leaves EN 0 with
the code 0x02, a ring that does not translate with 0x06; one that passes takes its ring from the first packet. A clear of STOP
lets the thread go on. The driver writes an entry of the handle table, which keeps its generation, or revokes it, which raises the
generation at once and completes when no command holds it. An invalidation drops the page's translations, and completes when
nothing holds the old entry. A deal is asked for; a frozen job is ended, or resumed where its fault is a TRAP; a load report is
read; the fuse counter rises to the version of the image that runs and never falls; a report is signed under an index that is
spent; the host's accesses to the window through CXL ask for their lines, and what is read goes out once they have been served; an
address beyond the window is refused by name. What a thread has asked for comes back to it. When a doorbell acts and
what a rise of EN does to the ring (log 27), the refusal beyond the window (log 44) and the signature (log 50) are the model's
choice. (After R317, R318, R322, R230, R242, R243, R331, R354, R373, R380, R388, R389.) -/
def Obligations.HostCommands : Prop :=
  (
    ∀ (s s0 : State) (q : Nat), q < 32 →
      let old := queueAt s q
      (∀ tail, dueHead s s0 (.doorbellWrite q tail) → ∃ t n, exec .doorbellWrite s = .next t ∧
        queueAt t q = { old with tail := tail % qSize old, next := n } ∧ t.out = s.out ∧ t.dev = s.dev) ∧
      (∀ op u va len, dueHead s s0 (.gripRead q) → unitTake (.gripRead q) s0 = (some op, u) → old.ask = some (va, len) →
        ∃ t, exec .doorbellWrite s = .next t ∧ t.dev.mem = s.dev.mem ∧ t.job = s.job ∧
          queueAt t q = { old with got := old.got ++ [(va, op.bytes va len)], ask := none }) ∧
      (∀ d0 d1 ctx root, dueHead s s0 (.queueDescriptorWrite q d0 d1 ctx root) → s.plat.fw = true →
        (∀ c, d0.getLsbD 27 = true → old.d0.getLsbD 27 = false → descFault s d0 d1 root = some c →
          ∃ t, exec .queueDescriptorWrite s = .next t ∧ (queueAt t q).d0.getLsbD 27 = false ∧ (queueAt t q).code = c ∧
            (queueAt t q).head = old.head ∧ t.out = s.out ++ [.mailbox 1 []]) ∧
        (d0.getLsbD 27 = true → old.d0.getLsbD 27 = false → descFault s d0 d1 root = none → ∃ t, exec .queueDescriptorWrite s = .next t ∧
          queueAt t q = { old with d0 := d0, d1 := d1, ctx := ctx, root := root, head := 0, tail := 0, got := [], ask := none } ∧ t.out = s.out ++ [.mailbox 0 []]) ∧
        ((d0.getLsbD 27 = false ∨ old.d0.getLsbD 27 = true) → ∃ t, exec .queueDescriptorWrite s = .next t ∧
          queueAt t q = { old with d0 := d0, d1 := d1, ctx := ctx, root := root } ∧ t.out = s.out ++ [.mailbox 0 []])) ∧
      (dueHead s s0 (.queueStopClear q) → s.plat.fw = true → ∃ t, exec .queueStopClear s = .next t ∧
        queueAt t q = { old with stop := false } ∧ t.out = s.out ++ [.mailbox 0 []]) ∧
      ∀ d0 d1 root, (qBits d0 54 8 = 0 ∨ qBits d0 28 4 < 6) → descFault s d0 d1 root = some 0x02) ∧
  (
    (∀ (s s0 : State) (i : Nat) (e : BitVec 256) (rv : Bool), dueHead s s0 (.handleTableWrite i e rv) → s.plat.fw = true → i < 4096 →
      let old := SMap.get 0 s.dev.handles i
      let bad := 4 < (e.extractLsb' 112 4).toNat ∨ e &&& ~~~(handleMask ||| (0xFFFF#256 <<< 128)) ≠ 0
      (rv = true → ∃ t, exec .handleTableWrite s = .next t ∧ t.dev.revoked = s.dev.revoked ++ [i] ∧ t.out = s.out ∧ t.job = s.job ∧
        t.dev.handles = SMap.set 0 s.dev.handles i (withGen old (genField old + 1))) ∧
      (rv = false → bad → ∃ t, exec .handleTableWrite s = .next t ∧ t.dev = s.dev ∧ t.out = s.out ++ [.mailbox 1 []]) ∧
      (rv = false → ¬bad → ∃ t, exec .handleTableWrite s = .next t ∧ t.dev.handles = SMap.set 0 s.dev.handles i (withGen e (genField old)) ∧
        t.dev.mem = s.dev.mem ∧ t.out = s.out ++ [.mailbox 0 []])) ∧
    (∀ e g, genField (withGen e g) = g) ∧
    (∀ (s : State) (i : Nat), revocationDone s = some i → SMap.get 0 s.dev.hcount i = 0 ∧
      ∃ t, exec .handleRevocationComplete s = .next t ∧ t.dev = { s.dev with revoked := s.dev.revoked.erase i } ∧
        t.out = s.out ++ [.mailbox 0 []]) ∧
    (∀ (s s0 : State) (root va : Nat), dueHead s s0 (.pageInvalidation root va) → s.plat.fw = true →
      let hit (r a n : Nat) : Bool := decide (r = root) && decide (a ≤ va) && decide (va < a + n)
      ∃ t, exec .pageInvalidation s = .next t ∧ tlbFind t root va = none ∧ t.dev.mem = s.dev.mem ∧ t.job = s.job ∧
        ((∀ p ∈ s.core.pins, hit p.root p.va p.size = false ∨ p.count = 0) → t.out = s.out ++ [.mailbox 0 []] ∧ t.dev = s.dev) ∧
        ∀ p ∈ s.core.pins, hit p.root p.va p.size = true → p.count ≠ 0 → (p.root, p.va, p.pa) ∈ t.dev.inval ∧ t.out = s.out) ∧
    ∀ (s : State) (x : Nat × Nat × Nat), (∀ e l, s.agenda = e :: l → s.cyc < e.at_ ∨ evInstr e.ev ≠ .pageInvalidation) →
      invalidationDone s = some x → ∃ t, exec .pageInvalidation s = .next t ∧ t.dev = { s.dev with inval := s.dev.inval.erase x } ∧
        t.out = s.out ++ [.mailbox 0 []]) ∧
  (
    ∀ (s s0 : State), s.plat.fw = true →
      (∀ d, dueHead s s0 (.dealRequest d) → ∃ t, exec .dealRequest s = .next t ∧ t.dev = { s.dev with dealPend := some d } ∧
        t.out = s.out ++ [.mailbox 0 []]) ∧
      (dueHead s s0 (.jobEndOrder s.coreNo) → (coreQ s s.coreNo).frozen = true → s.job.st = .frozen → ∃ t, exec .jobEndOrder s = .next t ∧
        t.job = { s.job with st := .ending } ∧ t.dev = s.dev) ∧
      (∀ c, dueHead s s0 (.jobResumeOrder c) → (coreQ s c).frozen = true →
        (c = s.coreNo → s.job.st = .frozen → (coreQ s c).fcode = 0x14 → ∃ t, exec .jobResumeOrder s = .next t ∧
          t.job = { s.job with l := { s.job.l with resume := some s.job.id } } ∧ t.out = s.out ++ [.mailbox 0 []]) ∧
        (c ≠ s.coreNo → (coreQ s c).fcode = 0x14 → ∃ t, exec .jobResumeOrder s = .next t ∧ t.job = s.job ∧
          t.out = s.out ++ [.orders c false, .mailbox 0 []]) ∧
        ((coreQ s c).fcode ≠ 0x14 → ∃ t, exec .jobResumeOrder s = .next t ∧ t.job = s.job ∧ t.out = s.out ++ [.mailbox 1 []])) ∧
      (∀ n, dueHead s s0 (.loadReportRead n) → n < 256 → ∃ t, exec .loadReportRead s = .next t ∧ t.dev = s.dev ∧
        t.out = s.out ++ [.mailbox 0 (fit 64 ((slotAt s n).report.flatMap fun w => leBytes 8 w.toNat))]) ∧
      (dueHead s s0 .svnCommit → ∃ t, exec .svnCommit s = .next t ∧ t.plat = { s.plat with fuse := max s.plat.fuse s.plat.svn } ∧
        s.plat.fuse ≤ t.plat.fuse) ∧
      (∀ nonce, dueHead s s0 (.spdmRequest nonce) →
        (2 ^ 20 ≤ s.plat.att → exec .spdmRequest s = .next { s0 with out := s.out ++ [.mailbox 1 []] }) ∧
        (s.plat.att < 2 ^ 20 → ∃ t body, exec .spdmRequest s = .next t ∧ t.plat = { s.plat with att := s.plat.att + 1 } ∧
          body = nonce ++ s.plat.mr.toList.flatten ++ leBytes 8 s.plat.fuse ++ leBytes 4 s.plat.att ∧
          t.out = s.out ++ [.spdm (body ++ Config.signature body)])) ∧
      (∀ w pa d, dueHead s s0 (.hostCxlAccess w pa d) →
        (Config.allocBytes s.variant < pa + d.length → exec .hostCxlAccess s = .fault .undecoded) ∧
        (pa + d.length ≤ Config.allocBytes s.variant → ∃ t op, exec .hostCxlAccess s = .next t ∧ t.job = s.job ∧
          t.dev.mem = s.dev.mem ∧ t.out = s.out ∧ op ∈ t.dev.ops ∧ op.next = .hostServed w pa d.length ∧
          op.left = (linePieces pa d.length).length)) ∧
      ∀ w pa n op u, dueHead s s0 (.hostServed w pa n) → unitTake (.hostServed w pa n) s0 = (some op, u) →
        ∃ t, exec .hostCxlAccess s = .next t ∧ t.dev.mem = s.dev.mem ∧ t.job = s.job ∧
          t.out = s.out ++ if w then [] else [.cxlData (op.bytes pa n)])

/-- A packet whose header breaks R383 is discarded and counted, and does nothing else. The first packet of a WRREM has its whole range
checked against the binding; one that is admitted asks for the writes of its bytes and is acknowledged once they have been served, one
that is not is refused. A signal waits for the writes before it and then asks the semaphore's engine to add its increment; a reduce
packet waits for its interval, or stops a collective whose record differs; a barrier packet counts for its round; a management packet
is a vote or a withdrawal; the last acknowledgement completes a WRREM's token, ends a signal's count or lets a pass write its record.
The bytes of a management packet, those of a barrier packet's round and what is known of a write packet beside its bytes are the
model's choice and reading (logs 41, 38 and 33). (After R282, R290, R295, R298, R300, R301, R314, R350, R382, R383.) -/
def Obligations.PacketsArrive : Prop :=
  ∀ (s s0 : State) (k : SynPkt),
    let dropped (ty : Nat) (w : Instr) : Prop := badPacket k ty = true → exec w s = .next (discardPacket s0)
    let gid := k.gid.toNat
    let place (n : Nat) := bindingPlace s gid (k.body.getD 8 0).toNat (leNat (k.body.take 8)) n
    (∀ id first doff len, dueHead s s0 (.writePacketArrival k id first doff len) → dropped 1 .writePacketArrival ∧
      (badPacket k 1 = false → ∀ w : WrIn,
        (if first then s.grp.wrs ++ [⟨k.src.toNat, id, len, bindingPlace s gid (k.body.getD 8 0).toNat doff len⟩] else s.grp.wrs).find?
          (fun w => w.src = k.src.toNat ∧ w.id = id) = some w →
        (w.place = none → ∃ t, exec .writePacketArrival s = .next t ∧ t.out = s.out ++ [.wrAck k false] ∧ t.dev = s.dev ∧ t.job = s.job) ∧
        ∀ va pages, w.place = some (va, pages) →
          let l := lineAccs pages (va + (leNat (k.body.take 8) - doff)) k.data.length k.data
          ∃ t, exec .writePacketArrival s = .next t ∧ t.out = s.out ∧ t.job = s.job ∧ t.dev.mem = s.dev.mem ∧
            (∃ op ∈ t.dev.ops, op.next = .writeServed k ∧ op.left = l.length ∧ op.party = 26) ∧
            ∀ x ∈ l, ∃ r ∈ t.dev.reqs, r.2.acc = .write ∧ r.2.owner = .port 0 ∧ r.2.va = x.1 ∧ r.2.pa = x.2.1 ∧ r.2.data = x.2.2.2)) ∧
    (∀ x u, dueHead s s0 (.writeServed k) → unitTake (.writeServed k) s0 = (some x, u) →
      ∃ t, exec .writePacketArrival s = .next t ∧ t.dev.mem = s.dev.mem ∧ t.job = s.job ∧ t.out = s.out ++ [.wrAck k (!x.bad)]) ∧
    (dueHead s s0 (.signalPacketArrival k) → dropped 2 .signalPacketArrival ∧ (badPacket k 2 = false →
      (writesBefore s k = true → ∃ t, exec .signalPacketArrival s = .next t ∧ t.dev = s.dev ∧ t.job = s.job ∧ t.out = s.out ∧
        ∃ e ∈ t.agenda, e.ev = .signalPacketArrival k ∧ e.at_ = s.cyc + 1) ∧
      (writesBefore s k = false → place 8 = none → exec .signalPacketArrival s = .next { s0 with out := s.out ++ [.wrAck k false] }) ∧
      ∀ va pages, writesBefore s k = false → place 8 = some (va, pages) → ∃ t r, exec .signalPacketArrival s = .next t ∧ t.out = s.out ++ [.wrAck k true] ∧
        t.dev = s.dev ∧ t.job = s.job ∧ r.kind = .sempost ∧ r.va = va ∧ r.b = BitVec.ofNat 64 (leNat ((k.body.drop 12).take 4)) ∧
        (s.cyc + engineTravel s r.src (engineOf s r.va), r) ∈ (atomAt t (engineOf s r.va)).arr)) ∧
    (∀ r, dueHead s s0 (.reducePacketArrival k r) → dropped 3 .reducePacketArrival ∧ (badPacket k 3 = false →
      (collOf s r.gid r.seqNo = none →
        exec .reducePacketArrival s = .next (s0.onGrp fun g => { g with early := g.early ++ [trueStep 0 g.early r] })) ∧
      ∀ c, collOf s r.gid r.seqNo = some c → ∃ t, exec .reducePacketArrival s = .next t ∧ t.dev = s.dev ∧ t.job = s.job ∧
        (r.kind = c.dt.code.toNat + 16 * c.red → collOf t r.gid r.seqNo = some { c with
          arrivals := c.arrivals ++ [trueStep (if r.chunk = c.chunk % 2 ^ 24 then c.itv else 0) c.arrivals r] }) ∧
        (r.kind ≠ c.dt.code.toNat + 16 * c.red → c.fin = none → (collOf t r.gid r.seqNo).bind Coll.fin = some 0x0313))) ∧
    (dueHead s s0 (.barrierPacketArrival k) → dropped 4 .barrierPacketArrival ∧ (badPacket k 4 = false →
      (findDom s 4 gid = none → exec .barrierPacketArrival s = .next s0) ∧
      ∀ d j, findDom s 4 gid = some d → ((List.range (clog2 d.nodes.length)).find? fun j =>
        (d.nodes.findIdx (· = k.src.toNat) + 2 ^ j) % d.nodes.length = d.nodes.findIdx (· = s.node.toNat)) = some j →
        ∃ t, exec .barrierPacketArrival s = .next t ∧ findDom t 4 gid = some { d with remote := d.remote ++ [(j, s.cyc + 8)] } ∧
          t.dev = s.dev ∧ t.job = s.job ∧ ∃ e ∈ t.agenda, e.ev = .phaseChangeComplete 4 gid ∧ e.at_ = s.cyc + 8)) ∧
    (∀ m, dueHead s s0 (.managementPacketArrival k m) → dropped 5 .managementPacketArrival ∧ (badPacket k 5 = false →
      (∀ r slate holds cuts, m = .cuts r slate holds cuts → ∃ t, exec .managementPacketArrival s = .next t ∧ t.dev = s.dev ∧
        t.grip.votes = (s.grip.votes.filter fun v => ¬(v.gid = gid ∧ v.rank = r)) ++ [⟨gid, r, slate, holds, cuts⟩]) ∧
      (∀ c, m = .decision c → exec .managementPacketArrival s = .next (applyDecision gid c s0)) ∧
      ∀ w, m = .withdraw w → ∃ t, exec .managementPacketArrival s = .next t ∧ t.dev = s.dev ∧ t.job = s.job ∧
        ∀ c ∈ t.grp.colls, c.gid = w → c.fin ≠ none)) ∧
    ∀ id ok, dueHead s s0 (.ackPacketArrival k id ok) → dropped 6 .ackPacketArrival ∧ (badPacket k 6 = false →
      (∀ c, s.grp.rems.find? (fun m => m.id = id) = none → s.grp.reps.find? (fun c => c.ack = id ∧ c.left ≠ 0) = some c →
        ∃ t, exec .ackPacketArrival s = .next t ∧ t.dev = s.dev ∧ t.job = s.job ∧
          (c.left = 1 → ∃ e ∈ t.agenda, e.ev = .repartComplete c.gid c.num ∧ e.at_ = s.cyc + 1)) ∧
      ∀ m, s.grp.rems.find? (fun m => m.id = id) = some m → ∃ t, exec .ackPacketArrival s = .next t ∧ t.dev = s.dev ∧
        (1 < m.left → t.job = s.job ∧ t.grp.rems = s.grp.rems.map fun x =>
          if x.id = id then { m with left := m.left - 1, bad := m.bad || !ok } else x) ∧
        (m.left ≤ 1 → (∀ x ∈ t.grp.rems, x.id ≠ id) ∧ (s.job.id = m.jobId →
          (m.token = none → t.job.seq.remOut = s.job.seq.remOut - 1) ∧
          ∀ tok, m.token = some tok → tok < 16 → (row t.job.tok Tok.init tok).status = (if m.bad || !ok then 0x0107 else 0) ∧
            (row t.job.tok Tok.init tok).st = (if m.bad || !ok then .err else .done))))

/-- A flit that is sent again delays the packet that comes next by 2Λ + 16 cycles; a port that does not retrain is fenced and stops
what goes between ranks with cause 1; a unit of this core under test takes no new job; one that fails its test is fenced; the
matrix budget and the throttle follow the cap and the temperature. A device reset, and the trip at 115 °C, leave every state as at
reset but memory, the fuses, the protected counter and the flash store. The ROM runs an image only where its signature holds and
its version is not below the fuse counter; the node identity then completes bring-up, and READY is set. Which packet a repeated
flit delays (log 30), what else survives a reset (log 39) and whether a signature holds (log 50) are the model's choice. (After
R298, R365, R366, R385, R386, R391, R392, R387, R388, R392, R393.) -/
def Obligations.LinksTestsLimitsResets : Prop :=
  (
    ∀ (s s0 : State),
      (∀ p e, dueHead s s0 (.flitRetransmit p) → s0.agenda.find? (fun e => isArrival e.ev) = some e → exec .flitRetransmit s =
        .next { s0 with agenda := insDue { e with at_ := e.at_ + 2 * portLambda s p + 16 } (s0.agenda.erase e) }) ∧
      (∀ p, dueHead s s0 (.portRetrain p true) → exec .portRetrain s = .next s0) ∧
      (∀ p, dueHead s s0 (.portRetrain p false) → p < Config.ports s.variant → ∃ t, exec .portRetrain s = .next t ∧
        t.plat = { s.plat with fenced := s.plat.fenced ||| BitVec.ofNat 64 (2 ^ (40 + p)) } ∧ t.dev = s.dev ∧ t.job = s.job ∧
        ∀ c ∈ t.grp.colls, 1 < c.ranks → c.fin ≠ none) ∧
      (∀ u bad, dueHead s s0 (.selfTestStart u bad) → ∃ t, exec .selfTestStart s = .next t ∧ t.dev = s.dev ∧ t.job = s.job ∧
        t.plat = { s.plat with bad := s.plat.bad ++ bad, testing := (u, none) :: s.plat.testing.filter fun x => x.1 ≠ u } ∧
        (u < 10 → (coreQ t s.coreNo).fenced = true)) ∧
      (∀ u ok, dueHead s s0 (.selfTestComplete u ok) → testRuns s u = true → ∃ t, exec .selfTestComplete s = .next t ∧ t.dev = s.dev ∧
        t.job = s.job ∧ t.plat.testing = s.plat.testing.filter (fun x => x.1 ≠ u) ∧
        (ok = true → t.plat.fenced = s.plat.fenced) ∧ (ok = false → t.plat.fenced = s.plat.fenced ||| BitVec.ofNat 64 (2 ^ u))) ∧
      (∀ u ok, dueHead s s0 (.selfTestComplete u ok) → testRuns s u = false → (s.plat.testing.any fun x => x.1 = u) = true →
        ∃ t, exec .selfTestComplete s = .next t ∧ t.dev = s.dev ∧ t.job = s.job ∧ t.plat = s.plat ∧
          ∃ e ∈ t.agenda, e.ev = .selfTestComplete u ok ∧ e.at_ = s.cyc + 1) ∧
      (∀ b, dueHead s s0 (.matrixBudgetUpdate b) →
        exec .matrixBudgetUpdate s = .next { s0 with plat := { s.plat with budgetNext := min b 256 } }) ∧
      ∀ c, dueHead s s0 (.thermalThrottle c) → ∃ t, exec .thermalThrottle s = .next t ∧ t.plat.temp = c ∧ t.dev = s.dev ∧ t.job = s.job ∧
        (1050 ≤ c → t.plat.throttled = true) ∧ (c < 1000 → t.plat.throttled = false) ∧
        (1000 ≤ c → c < 1050 → t.plat.throttled = s.plat.throttled)) ∧
  (
    ∀ (s s0 : State),
      let asReset (t : State) : Prop := t.cyc = 0 ∧ t.job = Job.init ∧ t.core = CoreSt.init ∧ t.dev = { DevSt.init with mem := s.dev.mem } ∧
        t.grp = GroupSt.init ∧ t.grip = GripSt.init ∧ t.hold = none ∧ t.plat.ready = false ∧ t.plat.fenced = 0 ∧ t.plat.bad = [] ∧
        t.plat.fuse = s.plat.fuse ∧ t.plat.att = s.plat.att ∧ t.out = s.out ++ [.reset]
      (dueHead s s0 .thermalTrip → ∃ t, exec .thermalTrip s = .next t ∧ asReset t ∧ t.plat.flash = s.plat.flash ∧ t.plat.fw = false) ∧
      (∀ b, dueHead s s0 (.deviceReset b) → ∃ t, exec .deviceReset s = .next t ∧ asReset t ∧
        (t.plat.fw = true ↔ Config.signatureOk b.image b.sig = true ∧ s.plat.fuse ≤ b.svn) ∧
        (t.plat.fw = true → t.plat.svn = b.svn ∧ t.plat.flash = (if s.plat.tsvn < b.tsvn then [] else s.plat.flash) ∧
          row t.plat.mr [] 1 = sha256 (List.replicate 32 0 ++ sha256 b.image)) ∧
        (t.plat.fw = false → t.plat.flash = s.plat.flash)) ∧
      ∀ n, dueHead s s0 (.nodeIdentityAssign n) → s.plat.fw = true → ∃ t, exec .nodeIdentityAssign s = .next t ∧ t.node = n ∧
        t.plat.ready = true ∧ t.dev = s.dev ∧ t.job = s.job ∧ t.out = s.out ++ [.mailbox 0 []] ∧
        ∀ p < Config.ports s.variant, t.plat.fenced.getLsbD (40 + p) = (s.plat.fenced.getLsbD (40 + p) || (row s.plat.classes none p).isNone))

/-- The fuse counter is monotonic: no act changes it but an SVN commit, which raises it to the version of the image that runs, where
that is higher; no step lowers it. (Rule R388.) -/
def Obligations.FuseCounterIsMonotonic : Prop :=
  (∀ (i : Instr) (s t : State), exec i s = .next t →
    t.plat.fuse = s.plat.fuse ∨ (i = .svnCommit ∧ s.plat.fw = true ∧ t.plat.fuse = max s.plat.fuse s.plat.svn)) ∧
  ∀ (s t : State), step s = .next t → s.plat.fuse ≤ t.plat.fuse

/-! ### The whole machine -/

/-- Right after reset: device cycle 0, no job resident or saved, READY 0, nothing in flight, no unit fenced, every queue disabled with
WEIGHT 1 and RSIZE 6 (R317, R318), every bank raw (R121), every tile mask full; the byte memories are in their canonical form and
read 0 (the model's choice, log 3). The registers of a job before the first launch are the model's choice (log 6). -/
def Obligations.ResetState : Prop :=
  let s := State.reset
  s.cyc = 0 ∧ s.job.st = .none ∧ s.core.saved = [] ∧ s.core.jobq = [] ∧ s.agenda = [] ∧ s.hold = none ∧ s.dev.reqs = [] ∧
    s.plat.ready = false ∧ s.plat.fw = false ∧ s.plat.fenced = 0 ∧ s.grip.tasks = [] ∧ s.grip.graphs = [] ∧
    (∀ q < 32, (queueAt s q).d0 = 0x0040000060000000) ∧ (∀ b < 16, row s.job.bfmt 0 b = bfmtRaw) ∧
    (∀ r, s.job.seq.sReg r = 0) ∧ (∀ r, s.job.seq.fReg r = decide (r = 0)) ∧
    Memory.wf s = true ∧ ∀ a, SMap.get 0 s.dev.mem a = 0 ∧ SMap.get 0 s.core.spad a = 0 ∧ SMap.get 0 s.job.seq.ldm a = 0

/-- A stream's turn runs the word at which it stands: when its job runs, no check point is due before the word and the fetched bits
decode to an instruction, the step is exec of it, in the state after the fetch with that stream's turn marked. The state that
withFetchWord gives runs the word as the first of the machine. The order of the acts of a cycle (the model's choice among the acts
of one cycle, log 2): what makes it a cycle of the job; the landings; what is due comes off the agenda by the arm of its event; then
the streams; then the units' acts, with the ring's grants after the copies', and once more for what a word presented again reads; a
cycle ends with its tick, after which the next one's acts stand to be done. That withFetchWord stands for the load of a program is
the model's choice (log 7). -/
def Obligations.StepRunsWord : Prop :=
  (
    (∀ (s u : State) (rest : List Slot) (w : Word) (i : Instr) (a h : W64) (k : Nat),
      s.todo = .stream .sq :: rest → presents s .sq = true → atRdv s .sq = false → s.job.seq.pos = .run a h k → k < hdrLen h →
      sqWord { s with todo := rest } a k = .ok (u, w) → decode .sq w = .ok i →
      (enabled u .sq (wPred w) = false ∨ checkFirst { u with turn := .sq } .sq w = false) →
      step s = exec i { u with turn := .sq }) ∧
    (∀ (s u : State) (rest : List Slot) (st : Stream) (q : QEnt) (w : Word) (i : Instr), st ≠ .sq →
      s.todo = .stream st :: rest → presents s st = true → (s.eng st).cur = some q →
      engWord { s with todo := rest } st q (s.eng st).idx = .ok (u, w) → decode st w = .ok i → step s = exec i { u with turn := st }) ∧
    ∀ (w : Word) (st : Stream) (i : Instr), decodeAny w = some (st, i) →
      let t := State.reset.withFetchWord 96 w.toNat
      step t = exec i { t with todo := t.todo.tail, turn := st }) ∧
  (
    ∀ (s : State) (rest : List Slot),
      let t := { s with todo := rest }
      (s.todo = [] → step s = .next { s with todo := cycleSlots }) ∧
      (s.todo = .wake :: rest → ∀ i, wakeNext t = some i → step s = exec i s) ∧
      (s.todo = .wake :: rest → wakeNext t = none → step s = .next t) ∧
      (s.todo = .landings :: rest → landingsDue t = true → step s = exec .delayLineLanding t) ∧
      (s.todo = .due :: rest → ∀ e l, s.agenda = e :: l → e.at_ ≤ s.cyc → step s = exec (evInstr e.ev) s) ∧
      (s.todo = .due :: rest → ∀ i, dueNext t = some i → step s = exec i s) ∧
      (s.todo = .due :: rest → dueNext t = none → step s = .next t) ∧
      (s.todo = .house :: rest → s.core.won = none → ∀ i, beforeRing t = some i → step s = exec i s) ∧
      (s.todo = .house :: rest → s.core.won = none → beforeRing t = none → step s = .next (ringRound (extRound s))) ∧
      (s.todo = .house :: rest → s.core.won ≠ none → lateReads t = true → step s = .next (ringRound s)) ∧
      (s.todo = .house :: rest → s.core.won ≠ none → lateReads t = false → ∀ i, houseNext t = some i → step s = exec i s) ∧
      (s.todo = .house :: rest → s.core.won ≠ none → lateReads t = false → houseNext t = none → step s = .next t) ∧
      (s.todo = .tick :: rest → ∃ u, step s = .next u ∧ u.cyc = s.cyc + 1 ∧ u.todo = cycleSlots))

/-- A fetched word that is not enabled occupies its cycle and does nothing else, whatever its bits: a LOOP skips its body. An enabled
word whose pair is undefined on its stream takes the fault 0x01, one with a reserved field or value 0x02, before any effect. The
same on the sequencer and on the engines. (Rule R16, R33, R101.) -/
def Obligations.WordsAreChecked : Prop :=
  ∀ (s u : State) (rest : List Slot) (st : Stream) (w : Word),
    s.todo = .stream st :: rest → presents s st = true →
    (st = .sq → atRdv s .sq = false ∧ ∃ a h k, s.job.seq.pos = .run a h k ∧ k < hdrLen h ∧ sqWord { s with todo := rest } a k = .ok (u, w)) →
    (st ≠ .sq → ∃ q, (s.eng st).cur = some q ∧ engWord { s with todo := rest } st q (s.eng st).idx = .ok (u, w)) →
    let v := { u with turn := st }
    (enabled u st (wPred w) = false →
      (loopBody st w = 0 → step s = .next (advance st v)) ∧
      (loopBody st w ≠ 0 → step s = .next (engineTo st ((v.eng st).idx + 1 + loopBody st w) (issuedWord st v)))) ∧
    (enabled u st (wPred w) = true → checkFirst v st w = false →
      (decode st w = .error .illegal → step s = .next (takeFault v (faultAt v st 0x01 0))) ∧
      (decode st w = .error .reserved → step s = .next (takeFault v (faultAt v st 0x02 0))))

/-- No instruction and no event ends the machine: every fault of the spec is taken within it. The one exception is the host's access
beyond the decoded window, to which the spec gives no answer. That this access is refused is the model's choice (log 44). -/
def Obligations.EveryActAnswersNext : Prop :=
  ∀ (i : Instr) (s : State), (∃ t, exec i s = .next t) ∨
    (i = .hostCxlAccess ∧ exec i s = .fault .undecoded ∧ ∃ e l w pa d, s.agenda = e :: l ∧ e.ev = .hostCxlAccess w pa d ∧ e.at_ ≤ s.cyc ∧
      Config.allocBytes s.variant < pa + d.length)

/-- Encoding and decoding agree: every well-formed instruction that is a word has an encoding, and that word decodes to it, with every
operand, on every stream on which it is valid. A word has one meaning: what a stream decodes is well formed, valid on that stream,
and has the word for its encoding, so that no bit of a word is ignored and two words never decode alike (R33). -/
def Obligations.DecodeEncodeAgree : Prop :=
  (
    ∀ (i : Instr), i.wf = true → i.streams ≠ [] → ∃ w, encode i = some w ∧ ∀ st ∈ i.streams, decode st w = .ok i) ∧
  (
    ∀ (st : Stream) (w : Word) (i : Instr), decode st w = .ok i → i.wf = true ∧ st ∈ i.streams ∧ encode i = some w)

/-- Words whose bits the spec writes out decode to the instructions that it gives for them: a sequencer addition of −8, a move of
control, an atomic addition, an issue, a trap, an access-engine write, copies and tokens, a loop, a matrix product, vector words
with a predicate, a window and a mask, keep and undo forms, the optimiser, fences, barriers and collectives. -/
def Obligations.WordsDecode : Prop :=
  let u : Pred := ⟨false, 0⟩
  let x (ty : Ty) (win : Bool) : Sfx := ⟨ty, .rne, false, win, none⟩
  decode .sq 0x00200C1000FFFFFFFFFFFFF8 = .ok (.addi u 3 1 0xFFFFFFFFFFFFF8) ∧
  decode .sq 0x210008554000000000000006 = .ok (.bsel u 2 5 21 (some (.pm, 0)) 6) ∧
  decode .sq 0x2500061500C0000000000000 = .ok (.amoAdd u 1 33 20 ⟨true, false, false, 0⟩) ∧
  decode .sq 0x28000200000000000000000A = .ok (.issue u .mx 0 10) ∧
  decode .sq 0x2C0000000000000000000007 = .ok (.trap u 7) ∧
  decode .sq 0x26101020F000000000000000 = .ok (.waitmem u 4 2 3 3 .eq 0) ∧
  decode .sq 0x264002000400000000000000 = .ok (.barw u 0 32 4) ∧
  decode .ax 0x45003000900000003E800000 = .ok (.bfmtw u 3 (.imm 0x900000003E800000)) ∧
  decode .sq 0x481060120000000000000403 = .ok (.copyx u 6 18 3 4) ∧
  decode .sq 0x483060000000000000000002 = .ok (.ctest u 2 6) ∧
  decode .vx 0x42000000C0A0000000000000 = .ok (.loop u 0 (.imm 3) 2 true) ∧
  decode .mx 0x610000080000000803F00000 = .ok (.mma u 4 0 1 63 .bf16 0 0 0 false) ∧
  decode .vx 0x8032138A3216301200525000 =
    .ok (.vfma ⟨false, 2⟩ ⟨.plane .row 7 5, .plane .row 18 5, .slot 3 2, .port 5, ⟨.f32, .rtz, false, true, none⟩⟩) ∧
  decode .vx 0x8810000404000A0000020002 = .ok (.vcmp u 2 (.plane .whole 4 0) (.plane .whole 5 0) (x .f32 false) .lt) ∧
  decode .vx 0xA0100A0004000A0000000000 = .ok (.vaddk u ⟨.plane .whole 20 0, .plane .whole 4 0, .plane .whole 5 0, x .bf16 false⟩) ∧
  decode .vx 0xA12008001400000000021000 = .ok (.uncvtk u ⟨.plane .whole 16 0, .plane .whole 20 0, x .f32 true⟩ none) ∧
  decode .sx 0xC10040048002100200400093 = .ok (.optw u ⟨.port 2, .port 0, .slot 1 0, .port 4, x .bf16 false⟩ true true 1 1) ∧
  decode .sq 0xC84050090000000000000000 = .ok (.repart u 5 9)

/-- The byte memories keep their canonical form over every act: device memory, the scratchpad, the local data memory of the running
job and of the saved ones. The canonical form is the model's own (log 3). -/
def Obligations.StepKeepsMemoryCanonical : Prop :=
  ∀ (s t : State), Memory.wf s = true → (∀ x ∈ s.core.saved, SMap.wf 0 x.job.seq.ldm = true) → step s = .next t →
    Memory.wf t = true ∧ ∀ x ∈ t.core.saved, SMap.wf 0 x.job.seq.ldm = true

/-- What an issued word leaves alone, and what its result changes. A word that issues changes, besides its own effect, the bookkeeping
of its stream only: for the sequencer what seqTouched names, for an engine the delay line, the streams' counts and where that
engine stands. A result lands on its job cycle in the register that it names and nowhere else; one for s0 or f0 is discarded,
lanes for a plane that the job does not own are discarded; local data memory changes in the bytes stored only. (After R16, R21,
R55, R65, R79, R98, R401.) -/
def Obligations.ResultsLandWhereTheyName : Prop :=
  ∀ (s : State) (st : Stream) (sec lat : Nat),
    advance .sq s = seqTouched s (advance .sq s) ∧
    (∀ e, later st lat e s = { s with job := { s.job with dl := s.job.dl ++ [⟨s.job.cycle + lat, st, curSec s st, s.job.cycle, e⟩] } }) ∧
    (st ≠ .sq → let t := advance st s
      t = { s with job := { s.job with dl := t.job.dl, flow := t.job.flow, eng := t.job.eng } } ∧ ∀ x, x ≠ .sq → x ≠ st → t.eng x = s.eng x) ∧
    (∀ d v, d < 32 → let t := landEff st sec s (.sreg d v)
      t = { s with job := { s.job with seq := { s.job.seq with s := t.job.seq.s } } } ∧
        ∀ i, t.job.seq.sReg i = if i = d ∧ d ≠ 0 then v else s.job.seq.sReg i) ∧
    (∀ d v, d < 8 → let t := landEff st sec s (.freg d v)
      t = { s with job := { s.job with seq := { s.job.seq with f := t.job.seq.f } } } ∧
        ∀ i, t.job.seq.fReg i = if i = d ∧ d ≠ 0 then v else s.job.seq.fReg i) ∧
    (∀ a l, SMap.wf 0 s.job.seq.ldm = true → let t := landEff st sec s (.ldm a l)
      t = { s with job := { s.job with seq := { s.job.seq with ldm := t.job.seq.ldm } } } ∧ rdBytes t.job.seq.ldm a l.length = l ∧
        ∀ b, b < a ∨ a + l.length ≤ b → SMap.get 0 t.job.seq.ldm b = SMap.get 0 s.job.seq.ldm b) ∧
    (∀ p l, p < 32 → let t := landEff st sec s (.lanes p l)
      ((s.plane p).owner ≠ some s.job.ctx → t = s) ∧
      ((s.plane p).owner = some s.job.ctx → t = { s with core := { s.core with planes := t.core.planes } } ∧ (t.plane p).dirty = true ∧
        (t.plane p).shape = (s.plane p).shape ∧ (∀ q < 32, q ≠ p → t.plane q = s.plane q) ∧
        ∀ i, (∀ e ∈ l, e.1 ≠ i) → SMap.get 0 (t.plane p).data i = SMap.get 0 (s.plane p).data i)) ∧
    (∀ k m v, k < 8 → let t := landEff st sec s (.kmask k m v)
      ∀ j < 8, ∀ i < 1024, (row t.job.vx.k 0 j).getLsbD i =
        if j = k ∧ m.getLsbD i = true then v.getLsbD i else (row s.job.vx.k 0 j).getLsbD i) ∧
    ∀ b v, b < 16 → let t := landEff st sec s (.bfmt b v)
      t = { s with job := { s.job with bfmt := t.job.bfmt } } ∧ ∀ i < 16, row t.job.bfmt 0 i = if i = b then v else row s.job.bfmt 0 i
end

