-- ==== Sys2Proof/Laws/Exec.lean ====
section
/-! SUPPORT. The arms of exec as equations, one for every constructor. -/
namespace Sys2Proof.Laws
set_option Elab.async false -- theorems in turn: one that waits for those before it holds a thread
open Sys2Proof Sys2Proof.Machine

@[simp] theorem exec_add (p d a b) (s : State) : exec (.add p d a b) s = execAdd p d a b s := rfl
@[simp] theorem exec_sub (p d a b) (s : State) : exec (.sub p d a b) s = execSub p d a b s := rfl
@[simp] theorem exec_addi (p d a imm) (s : State) : exec (.addi p d a imm) s = execAddi p d a imm s := rfl
@[simp] theorem exec_lea (p d a b sh imm) (s : State) : exec (.lea p d a b sh imm) s = execLea p d a b sh imm s := rfl
@[simp] theorem exec_mul (p d a b) (s : State) : exec (.mul p d a b) s = execMul p d a b s := rfl
@[simp] theorem exec_mulh (p d a b) (s : State) : exec (.mulh p d a b) s = execMulh p d a b s := rfl
@[simp] theorem exec_mulhn (p d a b) (s : State) : exec (.mulhn p d a b) s = execMulhn p d a b s := rfl
@[simp] theorem exec_div (p d a b) (s : State) : exec (.div p d a b) s = execDiv p d a b s := rfl
@[simp] theorem exec_divn (p d a b) (s : State) : exec (.divn p d a b) s = execDivn p d a b s := rfl
@[simp] theorem exec_rem (p d a b) (s : State) : exec (.rem p d a b) s = execRem p d a b s := rfl
@[simp] theorem exec_remn (p d a b) (s : State) : exec (.remn p d a b) s = execRemn p d a b s := rfl
@[simp] theorem exec_and (p d a b) (s : State) : exec (.and p d a b) s = execAnd p d a b s := rfl
@[simp] theorem exec_or (p d a b) (s : State) : exec (.or p d a b) s = execOr p d a b s := rfl
@[simp] theorem exec_xor (p d a b) (s : State) : exec (.xor p d a b) s = execXor p d a b s := rfl
@[simp] theorem exec_andn (p d a b) (s : State) : exec (.andn p d a b) s = execAndn p d a b s := rfl
@[simp] theorem exec_andi (p d a imm) (s : State) : exec (.andi p d a imm) s = execAndi p d a imm s := rfl
@[simp] theorem exec_ori (p d a imm) (s : State) : exec (.ori p d a imm) s = execOri p d a imm s := rfl
@[simp] theorem exec_xori (p d a imm) (s : State) : exec (.xori p d a imm) s = execXori p d a imm s := rfl
@[simp] theorem exec_shl (p d a b) (s : State) : exec (.shl p d a b) s = execShl p d a b s := rfl
@[simp] theorem exec_shr (p d a b) (s : State) : exec (.shr p d a b) s = execShr p d a b s := rfl
@[simp] theorem exec_shra (p d a b) (s : State) : exec (.shra p d a b) s = execShra p d a b s := rfl
@[simp] theorem exec_rotl (p d a b) (s : State) : exec (.rotl p d a b) s = execRotl p d a b s := rfl
@[simp] theorem exec_min (p d a b) (s : State) : exec (.min p d a b) s = execMin p d a b s := rfl
@[simp] theorem exec_max (p d a b) (s : State) : exec (.max p d a b) s = execMax p d a b s := rfl
@[simp] theorem exec_minn (p d a b) (s : State) : exec (.minn p d a b) s = execMinn p d a b s := rfl
@[simp] theorem exec_maxn (p d a b) (s : State) : exec (.maxn p d a b) s = execMaxn p d a b s := rfl
@[simp] theorem exec_clz (p d a) (s : State) : exec (.clz p d a) s = execClz p d a s := rfl
@[simp] theorem exec_ffs (p d a) (s : State) : exec (.ffs p d a) s = execFfs p d a s := rfl
@[simp] theorem exec_popc (p d a) (s : State) : exec (.popc p d a) s = execPopc p d a s := rfl
@[simp] theorem exec_brev (p d a) (s : State) : exec (.brev p d a) s = execBrev p d a s := rfl
@[simp] theorem exec_sext (p d a w) (s : State) : exec (.sext p d a w) s = execSext p d a w s := rfl
@[simp] theorem exec_zext (p d a w) (s : State) : exec (.zext p d a w) s = execZext p d a w s := rfl
@[simp] theorem exec_sel (p d a b neg f) (s : State) : exec (.sel p d a b neg f) s = execSel p d a b neg f s := rfl
@[simp] theorem exec_ldi (p d imm) (s : State) : exec (.ldi p d imm) s = execLdi p d imm s := rfl
@[simp] theorem exec_cmp (p fd a b cc) (s : State) : exec (.cmp p fd a b cc) s = execCmp p fd a b cc s := rfl
@[simp] theorem exec_cmpi (p fd a imm cc) (s : State) : exec (.cmpi p fd a imm cc) s = execCmpi p fd a imm cc s := rfl
@[simp] theorem exec_pand (p fd fa fb) (s : State) : exec (.pand p fd fa fb) s = execPand p fd fa fb s := rfl
@[simp] theorem exec_por (p fd fa fb) (s : State) : exec (.por p fd fa fb) s = execPor p fd fa fb s := rfl
@[simp] theorem exec_pxor (p fd fa fb) (s : State) : exec (.pxor p fd fa fb) s = execPxor p fd fa fb s := rfl
@[simp] theorem exec_pnot (p fd fa) (s : State) : exec (.pnot p fd fa) s = execPnot p fd fa s := rfl
@[simp] theorem exec_ftest (p fd w) (s : State) : exec (.ftest p fd w) s = execFtest p fd w s := rfl
@[simp] theorem exec_fcount (p d w) (s : State) : exec (.fcount p d w) s = execFcount p d w s := rfl
@[simp] theorem exec_prep (p bt off) (s : State) : exec (.prep p bt off) s = execPrep p bt off s := rfl
@[simp] theorem exec_prepr (p bt src) (s : State) : exec (.prepr p bt src) s = execPrepr p bt src s := rfl
@[simp] theorem exec_br (p bt) (s : State) : exec (.br p bt) s = execBr p bt s := rfl
@[simp] theorem exec_brl (p bt lb) (s : State) : exec (.brl p bt lb) s = execBrl p bt lb s := rfl
@[simp] theorem exec_binv (p bt) (s : State) : exec (.binv p bt) s = execBinv p bt s := rfl
@[simp] theorem exec_bsel (p bt a b mask d) (s : State) : exec (.bsel p bt a b mask d) s = execBsel p bt a b mask d s := rfl
@[simp] theorem exec_nop (p) (s : State) : exec (.nop p) s = execNop p s := rfl
@[simp] theorem exec_ifence (p a b) (s : State) : exec (.ifence p a b) s = execIfence p a b s := rfl
@[simp] theorem exec_ld (p d a width sign imm) (s : State) : exec (.ld p d a width sign imm) s = execLd p d a width sign imm s := rfl
@[simp] theorem exec_st (p a b width imm) (s : State) : exec (.st p a b width imm) s = execSt p a b width imm s := rfl
@[simp] theorem exec_ldl (p d a width sign imm) (s : State) : exec (.ldl p d a width sign imm) s = execLdl p d a width sign imm s := rfl
@[simp] theorem exec_stl (p a b width imm) (s : State) : exec (.stl p a b width imm) s = execStl p a b width imm s := rfl
@[simp] theorem exec_amoAdd (p d a b x) (s : State) : exec (.amoAdd p d a b x) s = execAmoAdd p d a b x s := rfl
@[simp] theorem exec_amoMin (p d a b x) (s : State) : exec (.amoMin p d a b x) s = execAmoMin p d a b x s := rfl
@[simp] theorem exec_amoMax (p d a b x) (s : State) : exec (.amoMax p d a b x) s = execAmoMax p d a b x s := rfl
@[simp] theorem exec_amoMinn (p d a b x) (s : State) : exec (.amoMinn p d a b x) s = execAmoMinn p d a b x s := rfl
@[simp] theorem exec_amoMaxn (p d a b x) (s : State) : exec (.amoMaxn p d a b x) s = execAmoMaxn p d a b x s := rfl
@[simp] theorem exec_amoAnd (p d a b x) (s : State) : exec (.amoAnd p d a b x) s = execAmoAnd p d a b x s := rfl
@[simp] theorem exec_amoOr (p d a b x) (s : State) : exec (.amoOr p d a b x) s = execAmoOr p d a b x s := rfl
@[simp] theorem exec_amoXor (p d a b x) (s : State) : exec (.amoXor p d a b x) s = execAmoXor p d a b x s := rfl
@[simp] theorem exec_amoSwap (p d a b x) (s : State) : exec (.amoSwap p d a b x) s = execAmoSwap p d a b x s := rfl
@[simp] theorem exec_amoCas (p d a b c x) (s : State) : exec (.amoCas p d a b c x) s = execAmoCas p d a b c x s := rfl
@[simp] theorem exec_fence (p sc) (s : State) : exec (.fence p sc) s = execFence p sc s := rfl
@[simp] theorem exec_waitmem (p d a b width cc imm) (s : State) : exec (.waitmem p d a b width cc imm) s = execWaitmem p d a b width cc imm s := rfl
@[simp] theorem exec_semwait (p d a b imm) (s : State) : exec (.semwait p d a b imm) s = execSemwait p d a b imm s := rfl
@[simp] theorem exec_sempost (p a b imm) (s : State) : exec (.sempost p a b imm) s = execSempost p a b imm s := rfl
@[simp] theorem exec_barw (p d a lvl) (s : State) : exec (.barw p d a lvl) s = execBarw p d a lvl s := rfl
@[simp] theorem exec_issue (p e preg off) (s : State) : exec (.issue p e preg off) s = execIssue p e preg off s := rfl
@[simp] theorem exec_issueReg (p e preg areg) (s : State) : exec (.issueReg p e preg areg) s = execIssueReg p e preg areg s := rfl
@[simp] theorem exec_rdv (p) (s : State) : exec (.rdv p) s = execRdv p s := rfl
@[simp] theorem exec_jobend (p) (s : State) : exec (.jobend p) s = execJobend p s := rfl
@[simp] theorem exec_tbind (p n preg) (s : State) : exec (.tbind p n preg) s = execTbind p n preg s := rfl
@[simp] theorem exec_tfree (p n) (s : State) : exec (.tfree p n) s = execTfree p n s := rfl
@[simp] theorem exec_trap (p code) (s : State) : exec (.trap p code) s = execTrap p code s := rfl
@[simp] theorem exec_guard (p a) (s : State) : exec (.guard p a) s = execGuard p a s := rfl
@[simp] theorem exec_guardHealth (p) (s : State) : exec (.guardHealth p) s = execGuardHealth p s := rfl
@[simp] theorem exec_caprd (p d a imm) (s : State) : exec (.caprd p d a imm) s = execCaprd p d a imm s := rfl
@[simp] theorem exec_csrrd (p d num) (s : State) : exec (.csrrd p d num) s = execCsrrd p d num s := rfl
@[simp] theorem exec_csrwr (p num a) (s : State) : exec (.csrwr p num a) s = execCsrwr p num a s := rfl
@[simp] theorem exec_domWrite (p a) (s : State) : exec (.domWrite p a) s = execDomWrite p a s := rfl
@[simp] theorem exec_otbaseWrite (p a) (s : State) : exec (.otbaseWrite p a) s = execOtbaseWrite p a s := rfl
@[simp] theorem exec_othiWrite (p a) (s : State) : exec (.othiWrite p a) s = execOthiWrite p a s := rfl
@[simp] theorem exec_otloWrite (p a) (s : State) : exec (.otloWrite p a) s = execOtloWrite p a s := rfl
@[simp] theorem exec_stepWrite (p n a) (s : State) : exec (.stepWrite p n a) s = execStepWrite p n a s := rfl
@[simp] theorem exec_grouprd (p d a b fn) (s : State) : exec (.grouprd p d a b fn) s = execGrouprd p d a b fn s := rfl
@[simp] theorem exec_pset (p g v) (s : State) : exec (.pset p g v) s = execPset p g v s := rfl
@[simp] theorem exec_prst (p g v) (s : State) : exec (.prst p g v) s = execPrst p g v s := rfl
@[simp] theorem exec_qinit (p h base sz depth prod cons) (s : State) : exec (.qinit p h base sz depth prod cons) s = execQinit p h base sz depth prod cons s := rfl
@[simp] theorem exec_waitf (p h n) (s : State) : exec (.waitf p h n) s = execWaitf p h n s := rfl
@[simp] theorem exec_waite (p h n) (s : State) : exec (.waite p h n) s = execWaite p h n s := rfl
@[simp] theorem exec_advh (p h n) (s : State) : exec (.advh p h n) s = execAdvh p h n s := rfl
@[simp] theorem exec_advt (p h n) (s : State) : exec (.advt p h n) s = execAdvt p h n s := rfl
@[simp] theorem exec_loop (p lvl cnt bl wa) (s : State) : exec (.loop p lvl cnt bl wa) s = execLoop p lvl cnt bl wa s := rfl
@[simp] theorem exec_fill (p h g v) (s : State) : exec (.fill p h g v) s = execFill p h g v s := rfl
@[simp] theorem exec_spillq (p h g v) (s : State) : exec (.spillq p h g v) s = execSpillq p h g v s := rfl
@[simp] theorem exec_omld (p o v) (s : State) : exec (.omld p o v) s = execOmld p o v s := rfl
@[simp] theorem exec_bfmtw (p bank v) (s : State) : exec (.bfmtw p bank v) s = execBfmtw p bank v s := rfl
@[simp] theorem exec_spmove (p v) (s : State) : exec (.spmove p v) s = execSpmove p v s := rfl
@[simp] theorem exec_sendt (p g v) (s : State) : exec (.sendt p g v) s = execSendt p g v s := rfl
@[simp] theorem exec_copy (p t preg sreg dreg) (s : State) : exec (.copy p t preg sreg dreg) s = execCopy p t preg sreg dreg s := rfl
@[simp] theorem exec_copyx (p t preg sreg dreg) (s : State) : exec (.copyx p t preg sreg dreg) s = execCopyx p t preg sreg dreg s := rfl
@[simp] theorem exec_cwait (p d t) (s : State) : exec (.cwait p d t) s = execCwait p d t s := rfl
@[simp] theorem exec_ctest (p fd t) (s : State) : exec (.ctest p fd t) s = execCtest p fd t s := rfl
@[simp] theorem exec_claim (p o) (s : State) : exec (.claim p o) s = execClaim p o s := rfl
@[simp] theorem exec_release (p o) (s : State) : exec (.release p o) s = execRelease p o s := rfl
@[simp] theorem exec_mma (p d a b k ty pm pn pk rls) (s : State) : exec (.mma p d a b k ty pm pn pk rls) s = execMma p d a b k ty pm pn pk rls s := rfl
@[simp] theorem exec_mzero (p d ty) (s : State) : exec (.mzero p d ty) s = execMzero p d ty s := rfl
@[simp] theorem exec_mdrain (p d a ty rnd sat band wrap) (s : State) : exec (.mdrain p d a ty rnd sat band wrap) s = execMdrain p d a ty rnd sat band wrap s := rfl
@[simp] theorem exec_msetm (p i a pat) (s : State) : exec (.msetm p i a pat) s = execMsetm p i a pat s := rfl
@[simp] theorem exec_msetn (p i a pat) (s : State) : exec (.msetn p i a pat) s = execMsetn p i a pat s := rfl
@[simp] theorem exec_msetk (p i a pat) (s : State) : exec (.msetk p i a pat) s = execMsetk p i a pat s := rfl
@[simp] theorem exec_mscale (p a col) (s : State) : exec (.mscale p a col) s = execMscale p a col s := rfl
@[simp] theorem exec_mstat (p sel a) (s : State) : exec (.mstat p sel a) s = execMstat p sel a s := rfl
@[simp] theorem exec_vadd (p v) (s : State) : exec (.vadd p v) s = execVadd p v s := rfl
@[simp] theorem exec_vsub (p v) (s : State) : exec (.vsub p v) s = execVsub p v s := rfl
@[simp] theorem exec_vmul (p v) (s : State) : exec (.vmul p v) s = execVmul p v s := rfl
@[simp] theorem exec_vfma (p v) (s : State) : exec (.vfma p v) s = execVfma p v s := rfl
@[simp] theorem exec_vfms (p v) (s : State) : exec (.vfms p v) s = execVfms p v s := rfl
@[simp] theorem exec_vfnma (p v) (s : State) : exec (.vfnma p v) s = execVfnma p v s := rfl
@[simp] theorem exec_vneg (p v) (s : State) : exec (.vneg p v) s = execVneg p v s := rfl
@[simp] theorem exec_vabs (p v) (s : State) : exec (.vabs p v) s = execVabs p v s := rfl
@[simp] theorem exec_vmin (p v) (s : State) : exec (.vmin p v) s = execVmin p v s := rfl
@[simp] theorem exec_vmax (p v) (s : State) : exec (.vmax p v) s = execVmax p v s := rfl
@[simp] theorem exec_vdiv (p v) (s : State) : exec (.vdiv p v) s = execVdiv p v s := rfl
@[simp] theorem exec_vsqrt (p v) (s : State) : exec (.vsqrt p v) s = execVsqrt p v s := rfl
@[simp] theorem exec_vrcp (p v) (s : State) : exec (.vrcp p v) s = execVrcp p v s := rfl
@[simp] theorem exec_vrsq (p v) (s : State) : exec (.vrsq p v) s = execVrsq p v s := rfl
@[simp] theorem exec_vexp2 (p v) (s : State) : exec (.vexp2 p v) s = execVexp2 p v s := rfl
@[simp] theorem exec_vlog2 (p v) (s : State) : exec (.vlog2 p v) s = execVlog2 p v s := rfl
@[simp] theorem exec_vexp (p v) (s : State) : exec (.vexp p v) s = execVexp p v s := rfl
@[simp] theorem exec_vtanh (p v) (s : State) : exec (.vtanh p v) s = execVtanh p v s := rfl
@[simp] theorem exec_vsigm (p v) (s : State) : exec (.vsigm p v) s = execVsigm p v s := rfl
@[simp] theorem exec_viadd (p v) (s : State) : exec (.viadd p v) s = execViadd p v s := rfl
@[simp] theorem exec_visub (p v) (s : State) : exec (.visub p v) s = execVisub p v s := rfl
@[simp] theorem exec_vimul (p v) (s : State) : exec (.vimul p v) s = execVimul p v s := rfl
@[simp] theorem exec_vimulh (p v) (s : State) : exec (.vimulh p v) s = execVimulh p v s := rfl
@[simp] theorem exec_vimin (p v) (s : State) : exec (.vimin p v) s = execVimin p v s := rfl
@[simp] theorem exec_vimax (p v) (s : State) : exec (.vimax p v) s = execVimax p v s := rfl
@[simp] theorem exec_vand (p v) (s : State) : exec (.vand p v) s = execVand p v s := rfl
@[simp] theorem exec_vor (p v) (s : State) : exec (.vor p v) s = execVor p v s := rfl
@[simp] theorem exec_vxor (p v) (s : State) : exec (.vxor p v) s = execVxor p v s := rfl
@[simp] theorem exec_vnot (p v) (s : State) : exec (.vnot p v) s = execVnot p v s := rfl
@[simp] theorem exec_vshl (p v) (s : State) : exec (.vshl p v) s = execVshl p v s := rfl
@[simp] theorem exec_vshr (p v) (s : State) : exec (.vshr p v) s = execVshr p v s := rfl
@[simp] theorem exec_vshra (p v) (s : State) : exec (.vshra p v) s = execVshra p v s := rfl
@[simp] theorem exec_vclz (p v) (s : State) : exec (.vclz p v) s = execVclz p v s := rfl
@[simp] theorem exec_vffs (p v) (s : State) : exec (.vffs p v) s = execVffs p v s := rfl
@[simp] theorem exec_vpcnt (p v) (s : State) : exec (.vpcnt p v) s = execVpcnt p v s := rfl
@[simp] theorem exec_vcvt (p v src b c) (s : State) : exec (.vcvt p v src b c) s = execVcvt p v src b c s := rfl
@[simp] theorem exec_vcmp (p k a b x cc) (s : State) : exec (.vcmp p k a b x cc) s = execVcmp p k a b x cc s := rfl
@[simp] theorem exec_vsel (p v k) (s : State) : exec (.vsel p v k) s = execVsel p v k s := rfl
@[simp] theorem exec_kand (p kd ka kb) (s : State) : exec (.kand p kd ka kb) s = execKand p kd ka kb s := rfl
@[simp] theorem exec_kor (p kd ka kb) (s : State) : exec (.kor p kd ka kb) s = execKor p kd ka kb s := rfl
@[simp] theorem exec_knot (p kd ka) (s : State) : exec (.knot p kd ka) s = execKnot p kd ka s := rfl
@[simp] theorem exec_vmov (p v) (s : State) : exec (.vmov p v) s = execVmov p v s := rfl
@[simp] theorem exec_vrotr (p v) (s : State) : exec (.vrotr p v) s = execVrotr p v s := rfl
@[simp] theorem exec_vrotc (p v) (s : State) : exec (.vrotc p v) s = execVrotc p v s := rfl
@[simp] theorem exec_vbcr (p v) (s : State) : exec (.vbcr p v) s = execVbcr p v s := rfl
@[simp] theorem exec_vbcc (p v) (s : State) : exec (.vbcc p v) s = execVbcc p v s := rfl
@[simp] theorem exec_vredr (p v op) (s : State) : exec (.vredr p v op) s = execVredr p v op s := rfl
@[simp] theorem exec_vredc (p v op) (s : State) : exec (.vredc p v op) s = execVredc p v op s := rfl
@[simp] theorem exec_vperm (p v) (s : State) : exec (.vperm p v) s = execVperm p v s := rfl
@[simp] theorem exec_vcmprs (p v k) (s : State) : exec (.vcmprs p v k) s = execVcmprs p v k s := rfl
@[simp] theorem exec_vexpnd (p v k) (s : State) : exec (.vexpnd p v k) s = execVexpnd p v k s := rfl
@[simp] theorem exec_vpushc (p h a k x) (s : State) : exec (.vpushc p h a k x) s = execVpushc p h a k x s := rfl
@[simp] theorem exec_vpopq (p d h k x) (s : State) : exec (.vpopq p d h k x) s = execVpopq p d h k x s := rfl
@[simp] theorem exec_vtrn16 (p v) (s : State) : exec (.vtrn16 p v) s = execVtrn16 p v s := rfl
@[simp] theorem exec_vflag (p k km) (s : State) : exec (.vflag p k km) s = execVflag p k km s := rfl
@[simp] theorem exec_vsfck (p v hi cv) (s : State) : exec (.vsfck p v hi cv) s = execVsfck p v hi cv s := rfl
@[simp] theorem exec_winset (p a) (s : State) : exec (.winset p a) s = execWinset p a s := rfl
@[simp] theorem exec_winadv (p n) (s : State) : exec (.winadv p n) s = execWinadv p n s := rfl
@[simp] theorem exec_tcfg (p pl win a) (s : State) : exec (.tcfg p pl win a) s = execTcfg p pl win a s := rfl
@[simp] theorem exec_tdrop (p pl win) (s : State) : exec (.tdrop p pl win) s = execTdrop p pl win s := rfl
@[simp] theorem exec_firstTouchHoldEnd (s : State) : exec .firstTouchHoldEnd s = execFirstTouchHoldEnd s := rfl
@[simp] theorem exec_vmulk (p v) (s : State) : exec (.vmulk p v) s = execVmulk p v s := rfl
@[simp] theorem exec_vaddk (p v) (s : State) : exec (.vaddk p v) s = execVaddk p v s := rfl
@[simp] theorem exec_vcvtk (p v st) (s : State) : exec (.vcvtk p v st) s = execVcvtk p v st s := rfl
@[simp] theorem exec_vshrk (p v) (s : State) : exec (.vshrk p v) s = execVshrk p v s := rfl
@[simp] theorem exec_vlrelk (p v sh) (s : State) : exec (.vlrelk p v sh) s = execVlrelk p v sh s := rfl
@[simp] theorem exec_unmulk (p v) (s : State) : exec (.unmulk p v) s = execUnmulk p v s := rfl
@[simp] theorem exec_unaddk (p v) (s : State) : exec (.unaddk p v) s = execUnaddk p v s := rfl
@[simp] theorem exec_uncvtk (p v st) (s : State) : exec (.uncvtk p v st) s = execUncvtk p v st s := rfl
@[simp] theorem exec_unshrk (p v) (s : State) : exec (.unshrk p v) s = execUnshrk p v s := rfl
@[simp] theorem exec_unlrelk (p v sh) (s : State) : exec (.unlrelk p v sh) s = execUnlrelk p v sh s := rfl
@[simp] theorem exec_otmark (p) (s : State) : exec (.otmark p) s = execOtmark p s := rfl
@[simp] theorem exec_otdrop (p) (s : State) : exec (.otdrop p) s = execOtdrop p s := rfl
@[simp] theorem exec_otspill (p n) (s : State) : exec (.otspill p n) s = execOtspill p n s := rfl
@[simp] theorem exec_otdepth (p sel) (s : State) : exec (.otdepth p sel) s = execOtdepth p sel s := rfl
@[simp] theorem exec_vstat (p a b x) (s : State) : exec (.vstat p a b x) s = execVstat p a b x s := rfl
@[simp] theorem exec_vlse (p a b x) (s : State) : exec (.vlse p a b x) s = execVlse p a b x s := rfl
@[simp] theorem exec_vnorms (p v) (s : State) : exec (.vnorms p v) s = execVnorms p v s := rfl
@[simp] theorem exec_vsofts (p v) (s : State) : exec (.vsofts p v) s = execVsofts p v s := rfl
@[simp] theorem exec_sbld (p a b c tp) (s : State) : exec (.sbld p a b c tp) s = execSbld p a b c tp s := rfl
@[simp] theorem exec_sbst (p a b c tp) (s : State) : exec (.sbst p a b c tp) s = execSbst p a b c tp s := rfl
@[simp] theorem exec_sbclr (p a b) (s : State) : exec (.sbclr p a b) s = execSbclr p a b s := rfl
@[simp] theorem exec_sdrain (p v) (s : State) : exec (.sdrain p v) s = execSdrain p v s := rfl
@[simp] theorem exec_sdrainDev (p a c tp x) (s : State) : exec (.sdrainDev p a c tp x) s = execSdrainDev p a c tp x s := rfl
@[simp] theorem exec_sacc (p v) (s : State) : exec (.sacc p v) s = execSacc p v s := rfl
@[simp] theorem exec_snorm2 (p a ty) (s : State) : exec (.snorm2 p a ty) s = execSnorm2 p a ty s := rfl
@[simp] theorem exec_snorm2Put (p d) (s : State) : exec (.snorm2Put p d) s = execSnorm2Put p d s := rfl
@[simp] theorem exec_snorm2Clr (p) (s : State) : exec (.snorm2Clr p) s = execSnorm2Clr p s := rfl
@[simp] theorem exec_sscale (p v) (s : State) : exec (.sscale p v) s = execSscale p v s := rfl
@[simp] theorem exec_optw (p v adam wd n pb) (s : State) : exec (.optw p v adam wd n pb) s = execOptw p v adam wd n pb s := rfl
@[simp] theorem exec_optstep (p n) (s : State) : exec (.optstep p n) s = execOptstep p n s := rfl
@[simp] theorem exec_coll (p t preg) (s : State) : exec (.coll p t preg) s = execColl p t preg s := rfl
@[simp] theorem exec_collq (p d preg) (s : State) : exec (.collq p d preg) s = execCollq p d preg s := rfl
@[simp] theorem exec_wrrem (p t preg) (s : State) : exec (.wrrem p t preg) s = execWrrem p t preg s := rfl
@[simp] theorem exec_sigrem (p preg) (s : State) : exec (.sigrem p preg) s = execSigrem p preg s := rfl
@[simp] theorem exec_repart (p t preg) (s : State) : exec (.repart p t preg) s = execRepart p t preg s := rfl
@[simp] theorem exec_sequencerHeader (s : State) : exec .sequencerHeader s = execSequencerHeader s := rfl
@[simp] theorem exec_sectionStart (s : State) : exec .sectionStart s = execSectionStart s := rfl
@[simp] theorem exec_sectionRetire (s : State) : exec .sectionRetire s = execSectionRetire s := rfl
@[simp] theorem exec_delayLineLanding (s : State) : exec .delayLineLanding s = execDelayLineLanding s := rfl
@[simp] theorem exec_rendezvousComplete (s : State) : exec .rendezvousComplete s = execRendezvousComplete s := rfl
@[simp] theorem exec_jobEnd (s : State) : exec .jobEnd s = execJobEnd s := rfl
@[simp] theorem exec_streamCacheFill (s : State) : exec .streamCacheFill s = execStreamCacheFill s := rfl
@[simp] theorem exec_prefetchReady (s : State) : exec .prefetchReady s = execPrefetchReady s := rfl
@[simp] theorem exec_translationWalk (s : State) : exec .translationWalk s = execTranslationWalk s := rfl
@[simp] theorem exec_loadReturn (s : State) : exec .loadReturn s = execLoadReturn s := rfl
@[simp] theorem exec_deferredFaultReport (s : State) : exec .deferredFaultReport s = execDeferredFaultReport s := rfl
@[simp] theorem exec_portRunGrant (s : State) : exec .portRunGrant s = execPortRunGrant s := rfl
@[simp] theorem exec_portDrainRun (s : State) : exec .portDrainRun s = execPortDrainRun s := rfl
@[simp] theorem exec_sendtArrival (s : State) : exec .sendtArrival s = execSendtArrival s := rfl
@[simp] theorem exec_copyStart (s : State) : exec .copyStart s = execCopyStart s := rfl
@[simp] theorem exec_copyRequest (s : State) : exec .copyRequest s = execCopyRequest s := rfl
@[simp] theorem exec_copyDataReturn (s : State) : exec .copyDataReturn s = execCopyDataReturn s := rfl
@[simp] theorem exec_copyRetire (s : State) : exec .copyRetire s = execCopyRetire s := rfl
@[simp] theorem exec_copyPostAck (s : State) : exec .copyPostAck s = execCopyPostAck s := rfl
@[simp] theorem exec_followOnJoin (s : State) : exec .followOnJoin s = execFollowOnJoin s := rfl
@[simp] theorem exec_followOnEnter (s : State) : exec .followOnEnter s = execFollowOnEnter s := rfl
@[simp] theorem exec_spillStart (s : State) : exec .spillStart s = execSpillStart s := rfl
@[simp] theorem exec_spillComplete (s : State) : exec .spillComplete s = execSpillComplete s := rfl
@[simp] theorem exec_fillStart (s : State) : exec .fillStart s = execFillStart s := rfl
@[simp] theorem exec_fillTrailerCheck (s : State) : exec .fillTrailerCheck s = execFillTrailerCheck s := rfl
@[simp] theorem exec_fillComplete (s : State) : exec .fillComplete s = execFillComplete s := rfl
@[simp] theorem exec_stackSlotService (s : State) : exec .stackSlotService s = execStackSlotService s := rfl
@[simp] theorem exec_refresh (s : State) : exec .refresh s = execRefresh s := rfl
@[simp] theorem exec_atomicRequestService (s : State) : exec .atomicRequestService s = execAtomicRequestService s := rfl
@[simp] theorem exec_atomicFillReturn (s : State) : exec .atomicFillReturn s = execAtomicFillReturn s := rfl
@[simp] theorem exec_plainWriteNotice (s : State) : exec .plainWriteNotice s = execPlainWriteNotice s := rfl
@[simp] theorem exec_watchEvaluation (s : State) : exec .watchEvaluation s = execWatchEvaluation s := rfl
@[simp] theorem exec_atomicReturn (s : State) : exec .atomicReturn s = execAtomicReturn s := rfl
@[simp] theorem exec_sempostAck (s : State) : exec .sempostAck s = execSempostAck s := rfl
@[simp] theorem exec_phaseChangeComplete (s : State) : exec .phaseChangeComplete s = execPhaseChangeComplete s := rfl
@[simp] theorem exec_reductionIntervalClose (s : State) : exec .reductionIntervalClose s = execReductionIntervalClose s := rfl
@[simp] theorem exec_collectiveComplete (s : State) : exec .collectiveComplete s = execCollectiveComplete s := rfl
@[simp] theorem exec_collectiveAbort (s : State) : exec .collectiveAbort s = execCollectiveAbort s := rfl
@[simp] theorem exec_keyRound (s : State) : exec .keyRound s = execKeyRound s := rfl
@[simp] theorem exec_histogramReduction (s : State) : exec .histogramReduction s = execHistogramReduction s := rfl
@[simp] theorem exec_elementMove (s : State) : exec .elementMove s = execElementMove s := rfl
@[simp] theorem exec_repartComplete (s : State) : exec .repartComplete s = execRepartComplete s := rfl
@[simp] theorem exec_repartAbort (s : State) : exec .repartAbort s = execRepartAbort s := rfl
@[simp] theorem exec_watchdogExpiry (s : State) : exec .watchdogExpiry s = execWatchdogExpiry s := rfl
@[simp] theorem exec_preemptionRequest (s : State) : exec .preemptionRequest s = execPreemptionRequest s := rfl
@[simp] theorem exec_safePointSave (s : State) : exec .safePointSave s = execSafePointSave s := rfl
@[simp] theorem exec_jobResumption (s : State) : exec .jobResumption s = execJobResumption s := rfl
@[simp] theorem exec_jobRelease (s : State) : exec .jobRelease s = execJobRelease s := rfl
@[simp] theorem exec_dispatchDecision (s : State) : exec .dispatchDecision s = execDispatchDecision s := rfl
@[simp] theorem exec_pthreshExpiry (s : State) : exec .pthreshExpiry s = execPthreshExpiry s := rfl
@[simp] theorem exec_dealInstall (s : State) : exec .dealInstall s = execDealInstall s := rfl
@[simp] theorem exec_floorDispatch (s : State) : exec .floorDispatch s = execFloorDispatch s := rfl
@[simp] theorem exec_checkPoint (s : State) : exec .checkPoint s = execCheckPoint s := rfl
@[simp] theorem exec_reelSemwait (s : State) : exec .reelSemwait s = execReelSemwait s := rfl
@[simp] theorem exec_reelLaunch (s : State) : exec .reelLaunch s = execReelLaunch s := rfl
@[simp] theorem exec_reelCopy (s : State) : exec .reelCopy s = execReelCopy s := rfl
@[simp] theorem exec_reelGuard (s : State) : exec .reelGuard s = execReelGuard s := rfl
@[simp] theorem exec_reelSempost (s : State) : exec .reelSempost s = execReelSempost s := rfl
@[simp] theorem exec_reelMark (s : State) : exec .reelMark s = execReelMark s := rfl
@[simp] theorem exec_reelEnd (s : State) : exec .reelEnd s = execReelEnd s := rfl
@[simp] theorem exec_cutMake (s : State) : exec .cutMake s = execCutMake s := rfl
@[simp] theorem exec_gangDecision (s : State) : exec .gangDecision s = execGangDecision s := rfl
@[simp] theorem exec_graph (s : State) : exec .graph s = execGraph s := rfl
@[simp] theorem exec_invoke (s : State) : exec .invoke s = execInvoke s := rfl
@[simp] theorem exec_wait (s : State) : exec .wait s = execWait s := rfl
@[simp] theorem exec_signal (s : State) : exec .signal s = execSignal s := rfl
@[simp] theorem exec_loadslot (s : State) : exec .loadslot s = execLoadslot s := rfl
@[simp] theorem exec_slotLoadComplete (s : State) : exec .slotLoadComplete s = execSlotLoadComplete s := rfl
@[simp] theorem exec_evictslot (s : State) : exec .evictslot s = execEvictslot s := rfl
@[simp] theorem exec_preempt (s : State) : exec .preempt s = execPreempt s := rfl
@[simp] theorem exec_checkpoint (s : State) : exec .checkpoint s = execCheckpoint s := rfl
@[simp] theorem exec_fencePacket (s : State) : exec .fencePacket s = execFencePacket s := rfl
@[simp] theorem exec_packetComplete (s : State) : exec .packetComplete s = execPacketComplete s := rfl
@[simp] theorem exec_doorbellWrite (s : State) : exec .doorbellWrite s = execDoorbellWrite s := rfl
@[simp] theorem exec_queueDescriptorWrite (s : State) : exec .queueDescriptorWrite s = execQueueDescriptorWrite s := rfl
@[simp] theorem exec_queueStopClear (s : State) : exec .queueStopClear s = execQueueStopClear s := rfl
@[simp] theorem exec_handleTableWrite (s : State) : exec .handleTableWrite s = execHandleTableWrite s := rfl
@[simp] theorem exec_handleRevocationComplete (s : State) : exec .handleRevocationComplete s = execHandleRevocationComplete s := rfl
@[simp] theorem exec_pageInvalidation (s : State) : exec .pageInvalidation s = execPageInvalidation s := rfl
@[simp] theorem exec_dealRequest (s : State) : exec .dealRequest s = execDealRequest s := rfl
@[simp] theorem exec_jobEndOrder (s : State) : exec .jobEndOrder s = execJobEndOrder s := rfl
@[simp] theorem exec_jobResumeOrder (s : State) : exec .jobResumeOrder s = execJobResumeOrder s := rfl
@[simp] theorem exec_loadReportRead (s : State) : exec .loadReportRead s = execLoadReportRead s := rfl
@[simp] theorem exec_svnCommit (s : State) : exec .svnCommit s = execSvnCommit s := rfl
@[simp] theorem exec_nodeIdentityAssign (s : State) : exec .nodeIdentityAssign s = execNodeIdentityAssign s := rfl
@[simp] theorem exec_spdmRequest (s : State) : exec .spdmRequest s = execSpdmRequest s := rfl
@[simp] theorem exec_hostCxlAccess (s : State) : exec .hostCxlAccess s = execHostCxlAccess s := rfl
@[simp] theorem exec_writePacketArrival (s : State) : exec .writePacketArrival s = execWritePacketArrival s := rfl
@[simp] theorem exec_signalPacketArrival (s : State) : exec .signalPacketArrival s = execSignalPacketArrival s := rfl
@[simp] theorem exec_reducePacketArrival (s : State) : exec .reducePacketArrival s = execReducePacketArrival s := rfl
@[simp] theorem exec_barrierPacketArrival (s : State) : exec .barrierPacketArrival s = execBarrierPacketArrival s := rfl
@[simp] theorem exec_managementPacketArrival (s : State) : exec .managementPacketArrival s = execManagementPacketArrival s := rfl
@[simp] theorem exec_ackPacketArrival (s : State) : exec .ackPacketArrival s = execAckPacketArrival s := rfl
@[simp] theorem exec_flitRetransmit (s : State) : exec .flitRetransmit s = execFlitRetransmit s := rfl
@[simp] theorem exec_portRetrain (s : State) : exec .portRetrain s = execPortRetrain s := rfl
@[simp] theorem exec_selfTestStart (s : State) : exec .selfTestStart s = execSelfTestStart s := rfl
@[simp] theorem exec_selfTestComplete (s : State) : exec .selfTestComplete s = execSelfTestComplete s := rfl
@[simp] theorem exec_matrixBudgetUpdate (s : State) : exec .matrixBudgetUpdate s = execMatrixBudgetUpdate s := rfl
@[simp] theorem exec_thermalThrottle (s : State) : exec .thermalThrottle s = execThermalThrottle s := rfl
@[simp] theorem exec_thermalTrip (s : State) : exec .thermalTrip s = execThermalTrip s := rfl
@[simp] theorem exec_deviceReset (s : State) : exec .deviceReset s = execDeviceReset s := rfl

end Sys2Proof.Laws
end

