-- ==== Sys2Proof/Laws/State.lean ====
section
/-! SUPPORT. One lemma for every field of State and every named update of a part of it; then the same for the parts of the running
job and for the memories, as the operations that change them leave them. -/
namespace Sys2Proof.Laws
set_option Elab.async false -- theorems in turn: one that waits for those before it holds a thread
open Sys2Proof Sys2Proof.Machine

/-! ### onJob -/

@[simp] theorem onJob_variant (s : State) (f : Job → Job) : (s.onJob f).variant = s.variant := rfl
@[simp] theorem onJob_stepping (s : State) (f : Job → Job) : (s.onJob f).stepping = s.stepping := rfl
@[simp] theorem onJob_coreNo (s : State) (f : Job → Job) : (s.onJob f).coreNo = s.coreNo := rfl
@[simp] theorem onJob_node (s : State) (f : Job → Job) : (s.onJob f).node = s.node := rfl
@[simp] theorem onJob_cyc (s : State) (f : Job → Job) : (s.onJob f).cyc = s.cyc := rfl
@[simp] theorem onJob_todo (s : State) (f : Job → Job) : (s.onJob f).todo = s.todo := rfl
@[simp] theorem onJob_turn (s : State) (f : Job → Job) : (s.onJob f).turn = s.turn := rfl
@[simp] theorem onJob_agenda (s : State) (f : Job → Job) : (s.onJob f).agenda = s.agenda := rfl
@[simp] theorem onJob_nseq (s : State) (f : Job → Job) : (s.onJob f).nseq = s.nseq := rfl
@[simp] theorem onJob_fresh (s : State) (f : Job → Job) : (s.onJob f).fresh = s.fresh := rfl
@[simp] theorem onJob_hold (s : State) (f : Job → Job) : (s.onJob f).hold = s.hold := rfl
@[simp] theorem onJob_job (s : State) (f : Job → Job) : (s.onJob f).job = f s.job := rfl
@[simp] theorem onJob_core (s : State) (f : Job → Job) : (s.onJob f).core = s.core := rfl
@[simp] theorem onJob_dev (s : State) (f : Job → Job) : (s.onJob f).dev = s.dev := rfl
@[simp] theorem onJob_atoms (s : State) (f : Job → Job) : (s.onJob f).atoms = s.atoms := rfl
@[simp] theorem onJob_grp (s : State) (f : Job → Job) : (s.onJob f).grp = s.grp := rfl
@[simp] theorem onJob_grip (s : State) (f : Job → Job) : (s.onJob f).grip = s.grip := rfl
@[simp] theorem onJob_plat (s : State) (f : Job → Job) : (s.onJob f).plat = s.plat := rfl
@[simp] theorem onJob_out (s : State) (f : Job → Job) : (s.onJob f).out = s.out := rfl

/-! ### onSeq -/

@[simp] theorem onSeq_variant (s : State) (f : Seq → Seq) : (s.onSeq f).variant = s.variant := rfl
@[simp] theorem onSeq_stepping (s : State) (f : Seq → Seq) : (s.onSeq f).stepping = s.stepping := rfl
@[simp] theorem onSeq_coreNo (s : State) (f : Seq → Seq) : (s.onSeq f).coreNo = s.coreNo := rfl
@[simp] theorem onSeq_node (s : State) (f : Seq → Seq) : (s.onSeq f).node = s.node := rfl
@[simp] theorem onSeq_cyc (s : State) (f : Seq → Seq) : (s.onSeq f).cyc = s.cyc := rfl
@[simp] theorem onSeq_todo (s : State) (f : Seq → Seq) : (s.onSeq f).todo = s.todo := rfl
@[simp] theorem onSeq_turn (s : State) (f : Seq → Seq) : (s.onSeq f).turn = s.turn := rfl
@[simp] theorem onSeq_agenda (s : State) (f : Seq → Seq) : (s.onSeq f).agenda = s.agenda := rfl
@[simp] theorem onSeq_nseq (s : State) (f : Seq → Seq) : (s.onSeq f).nseq = s.nseq := rfl
@[simp] theorem onSeq_fresh (s : State) (f : Seq → Seq) : (s.onSeq f).fresh = s.fresh := rfl
@[simp] theorem onSeq_hold (s : State) (f : Seq → Seq) : (s.onSeq f).hold = s.hold := rfl
@[simp] theorem onSeq_job (s : State) (f : Seq → Seq) : (s.onSeq f).job = { s.job with seq := f s.job.seq } := rfl
@[simp] theorem onSeq_core (s : State) (f : Seq → Seq) : (s.onSeq f).core = s.core := rfl
@[simp] theorem onSeq_dev (s : State) (f : Seq → Seq) : (s.onSeq f).dev = s.dev := rfl
@[simp] theorem onSeq_atoms (s : State) (f : Seq → Seq) : (s.onSeq f).atoms = s.atoms := rfl
@[simp] theorem onSeq_grp (s : State) (f : Seq → Seq) : (s.onSeq f).grp = s.grp := rfl
@[simp] theorem onSeq_grip (s : State) (f : Seq → Seq) : (s.onSeq f).grip = s.grip := rfl
@[simp] theorem onSeq_plat (s : State) (f : Seq → Seq) : (s.onSeq f).plat = s.plat := rfl
@[simp] theorem onSeq_out (s : State) (f : Seq → Seq) : (s.onSeq f).out = s.out := rfl

/-! ### onFlow -/

@[simp] theorem onFlow_variant (s : State) (f : Flow → Flow) : (s.onFlow f).variant = s.variant := rfl
@[simp] theorem onFlow_stepping (s : State) (f : Flow → Flow) : (s.onFlow f).stepping = s.stepping := rfl
@[simp] theorem onFlow_coreNo (s : State) (f : Flow → Flow) : (s.onFlow f).coreNo = s.coreNo := rfl
@[simp] theorem onFlow_node (s : State) (f : Flow → Flow) : (s.onFlow f).node = s.node := rfl
@[simp] theorem onFlow_cyc (s : State) (f : Flow → Flow) : (s.onFlow f).cyc = s.cyc := rfl
@[simp] theorem onFlow_todo (s : State) (f : Flow → Flow) : (s.onFlow f).todo = s.todo := rfl
@[simp] theorem onFlow_turn (s : State) (f : Flow → Flow) : (s.onFlow f).turn = s.turn := rfl
@[simp] theorem onFlow_agenda (s : State) (f : Flow → Flow) : (s.onFlow f).agenda = s.agenda := rfl
@[simp] theorem onFlow_nseq (s : State) (f : Flow → Flow) : (s.onFlow f).nseq = s.nseq := rfl
@[simp] theorem onFlow_fresh (s : State) (f : Flow → Flow) : (s.onFlow f).fresh = s.fresh := rfl
@[simp] theorem onFlow_hold (s : State) (f : Flow → Flow) : (s.onFlow f).hold = s.hold := rfl
@[simp] theorem onFlow_job (s : State) (f : Flow → Flow) : (s.onFlow f).job = { s.job with flow := f s.job.flow } := rfl
@[simp] theorem onFlow_core (s : State) (f : Flow → Flow) : (s.onFlow f).core = s.core := rfl
@[simp] theorem onFlow_dev (s : State) (f : Flow → Flow) : (s.onFlow f).dev = s.dev := rfl
@[simp] theorem onFlow_atoms (s : State) (f : Flow → Flow) : (s.onFlow f).atoms = s.atoms := rfl
@[simp] theorem onFlow_grp (s : State) (f : Flow → Flow) : (s.onFlow f).grp = s.grp := rfl
@[simp] theorem onFlow_grip (s : State) (f : Flow → Flow) : (s.onFlow f).grip = s.grip := rfl
@[simp] theorem onFlow_plat (s : State) (f : Flow → Flow) : (s.onFlow f).plat = s.plat := rfl
@[simp] theorem onFlow_out (s : State) (f : Flow → Flow) : (s.onFlow f).out = s.out := rfl

/-! ### onMx -/

@[simp] theorem onMx_variant (s : State) (f : Mx → Mx) : (s.onMx f).variant = s.variant := rfl
@[simp] theorem onMx_stepping (s : State) (f : Mx → Mx) : (s.onMx f).stepping = s.stepping := rfl
@[simp] theorem onMx_coreNo (s : State) (f : Mx → Mx) : (s.onMx f).coreNo = s.coreNo := rfl
@[simp] theorem onMx_node (s : State) (f : Mx → Mx) : (s.onMx f).node = s.node := rfl
@[simp] theorem onMx_cyc (s : State) (f : Mx → Mx) : (s.onMx f).cyc = s.cyc := rfl
@[simp] theorem onMx_todo (s : State) (f : Mx → Mx) : (s.onMx f).todo = s.todo := rfl
@[simp] theorem onMx_turn (s : State) (f : Mx → Mx) : (s.onMx f).turn = s.turn := rfl
@[simp] theorem onMx_agenda (s : State) (f : Mx → Mx) : (s.onMx f).agenda = s.agenda := rfl
@[simp] theorem onMx_nseq (s : State) (f : Mx → Mx) : (s.onMx f).nseq = s.nseq := rfl
@[simp] theorem onMx_fresh (s : State) (f : Mx → Mx) : (s.onMx f).fresh = s.fresh := rfl
@[simp] theorem onMx_hold (s : State) (f : Mx → Mx) : (s.onMx f).hold = s.hold := rfl
@[simp] theorem onMx_job (s : State) (f : Mx → Mx) : (s.onMx f).job = { s.job with mx := f s.job.mx } := rfl
@[simp] theorem onMx_core (s : State) (f : Mx → Mx) : (s.onMx f).core = s.core := rfl
@[simp] theorem onMx_dev (s : State) (f : Mx → Mx) : (s.onMx f).dev = s.dev := rfl
@[simp] theorem onMx_atoms (s : State) (f : Mx → Mx) : (s.onMx f).atoms = s.atoms := rfl
@[simp] theorem onMx_grp (s : State) (f : Mx → Mx) : (s.onMx f).grp = s.grp := rfl
@[simp] theorem onMx_grip (s : State) (f : Mx → Mx) : (s.onMx f).grip = s.grip := rfl
@[simp] theorem onMx_plat (s : State) (f : Mx → Mx) : (s.onMx f).plat = s.plat := rfl
@[simp] theorem onMx_out (s : State) (f : Mx → Mx) : (s.onMx f).out = s.out := rfl

/-! ### onEng -/

@[simp] theorem onEng_variant (s : State) (st : Stream) (f : EngSt → EngSt) : (s.onEng st f).variant = s.variant := rfl
@[simp] theorem onEng_stepping (s : State) (st : Stream) (f : EngSt → EngSt) : (s.onEng st f).stepping = s.stepping := rfl
@[simp] theorem onEng_coreNo (s : State) (st : Stream) (f : EngSt → EngSt) : (s.onEng st f).coreNo = s.coreNo := rfl
@[simp] theorem onEng_node (s : State) (st : Stream) (f : EngSt → EngSt) : (s.onEng st f).node = s.node := rfl
@[simp] theorem onEng_cyc (s : State) (st : Stream) (f : EngSt → EngSt) : (s.onEng st f).cyc = s.cyc := rfl
@[simp] theorem onEng_todo (s : State) (st : Stream) (f : EngSt → EngSt) : (s.onEng st f).todo = s.todo := rfl
@[simp] theorem onEng_turn (s : State) (st : Stream) (f : EngSt → EngSt) : (s.onEng st f).turn = s.turn := rfl
@[simp] theorem onEng_agenda (s : State) (st : Stream) (f : EngSt → EngSt) : (s.onEng st f).agenda = s.agenda := rfl
@[simp] theorem onEng_nseq (s : State) (st : Stream) (f : EngSt → EngSt) : (s.onEng st f).nseq = s.nseq := rfl
@[simp] theorem onEng_fresh (s : State) (st : Stream) (f : EngSt → EngSt) : (s.onEng st f).fresh = s.fresh := rfl
@[simp] theorem onEng_hold (s : State) (st : Stream) (f : EngSt → EngSt) : (s.onEng st f).hold = s.hold := rfl
@[simp] theorem onEng_job (s : State) (st : Stream) (f : EngSt → EngSt) : (s.onEng st f).job = { s.job with eng := rowSet s.job.eng (st.idx - 1) (f (s.eng st)) } := rfl
@[simp] theorem onEng_core (s : State) (st : Stream) (f : EngSt → EngSt) : (s.onEng st f).core = s.core := rfl
@[simp] theorem onEng_dev (s : State) (st : Stream) (f : EngSt → EngSt) : (s.onEng st f).dev = s.dev := rfl
@[simp] theorem onEng_atoms (s : State) (st : Stream) (f : EngSt → EngSt) : (s.onEng st f).atoms = s.atoms := rfl
@[simp] theorem onEng_grp (s : State) (st : Stream) (f : EngSt → EngSt) : (s.onEng st f).grp = s.grp := rfl
@[simp] theorem onEng_grip (s : State) (st : Stream) (f : EngSt → EngSt) : (s.onEng st f).grip = s.grip := rfl
@[simp] theorem onEng_plat (s : State) (st : Stream) (f : EngSt → EngSt) : (s.onEng st f).plat = s.plat := rfl
@[simp] theorem onEng_out (s : State) (st : Stream) (f : EngSt → EngSt) : (s.onEng st f).out = s.out := rfl

/-! ### setMicro -/

@[simp] theorem setMicro_variant (s : State) (st : Stream) (m : Micro) : (s.setMicro st m).variant = s.variant := rfl
@[simp] theorem setMicro_stepping (s : State) (st : Stream) (m : Micro) : (s.setMicro st m).stepping = s.stepping := rfl
@[simp] theorem setMicro_coreNo (s : State) (st : Stream) (m : Micro) : (s.setMicro st m).coreNo = s.coreNo := rfl
@[simp] theorem setMicro_node (s : State) (st : Stream) (m : Micro) : (s.setMicro st m).node = s.node := rfl
@[simp] theorem setMicro_cyc (s : State) (st : Stream) (m : Micro) : (s.setMicro st m).cyc = s.cyc := rfl
@[simp] theorem setMicro_todo (s : State) (st : Stream) (m : Micro) : (s.setMicro st m).todo = s.todo := rfl
@[simp] theorem setMicro_turn (s : State) (st : Stream) (m : Micro) : (s.setMicro st m).turn = s.turn := rfl
@[simp] theorem setMicro_agenda (s : State) (st : Stream) (m : Micro) : (s.setMicro st m).agenda = s.agenda := rfl
@[simp] theorem setMicro_nseq (s : State) (st : Stream) (m : Micro) : (s.setMicro st m).nseq = s.nseq := rfl
@[simp] theorem setMicro_fresh (s : State) (st : Stream) (m : Micro) : (s.setMicro st m).fresh = s.fresh := rfl
@[simp] theorem setMicro_hold (s : State) (st : Stream) (m : Micro) : (s.setMicro st m).hold = s.hold := rfl
@[simp] theorem setMicro_job (s : State) (st : Stream) (m : Micro) : (s.setMicro st m).job = { s.job with flow := { s.job.flow with micro := rowSet s.job.flow.micro st.idx m } } := rfl
@[simp] theorem setMicro_core (s : State) (st : Stream) (m : Micro) : (s.setMicro st m).core = s.core := rfl
@[simp] theorem setMicro_dev (s : State) (st : Stream) (m : Micro) : (s.setMicro st m).dev = s.dev := rfl
@[simp] theorem setMicro_atoms (s : State) (st : Stream) (m : Micro) : (s.setMicro st m).atoms = s.atoms := rfl
@[simp] theorem setMicro_grp (s : State) (st : Stream) (m : Micro) : (s.setMicro st m).grp = s.grp := rfl
@[simp] theorem setMicro_grip (s : State) (st : Stream) (m : Micro) : (s.setMicro st m).grip = s.grip := rfl
@[simp] theorem setMicro_plat (s : State) (st : Stream) (m : Micro) : (s.setMicro st m).plat = s.plat := rfl
@[simp] theorem setMicro_out (s : State) (st : Stream) (m : Micro) : (s.setMicro st m).out = s.out := rfl

/-! ### setHandle -/

@[simp] theorem setHandle_variant (s : State) (h : Nat) (x : Handle) : (s.setHandle h x).variant = s.variant := rfl
@[simp] theorem setHandle_stepping (s : State) (h : Nat) (x : Handle) : (s.setHandle h x).stepping = s.stepping := rfl
@[simp] theorem setHandle_coreNo (s : State) (h : Nat) (x : Handle) : (s.setHandle h x).coreNo = s.coreNo := rfl
@[simp] theorem setHandle_node (s : State) (h : Nat) (x : Handle) : (s.setHandle h x).node = s.node := rfl
@[simp] theorem setHandle_cyc (s : State) (h : Nat) (x : Handle) : (s.setHandle h x).cyc = s.cyc := rfl
@[simp] theorem setHandle_todo (s : State) (h : Nat) (x : Handle) : (s.setHandle h x).todo = s.todo := rfl
@[simp] theorem setHandle_turn (s : State) (h : Nat) (x : Handle) : (s.setHandle h x).turn = s.turn := rfl
@[simp] theorem setHandle_agenda (s : State) (h : Nat) (x : Handle) : (s.setHandle h x).agenda = s.agenda := rfl
@[simp] theorem setHandle_nseq (s : State) (h : Nat) (x : Handle) : (s.setHandle h x).nseq = s.nseq := rfl
@[simp] theorem setHandle_fresh (s : State) (h : Nat) (x : Handle) : (s.setHandle h x).fresh = s.fresh := rfl
@[simp] theorem setHandle_hold (s : State) (h : Nat) (x : Handle) : (s.setHandle h x).hold = s.hold := rfl
@[simp] theorem setHandle_job (s : State) (h : Nat) (x : Handle) : (s.setHandle h x).job = { s.job with h := rowSet s.job.h h x } := rfl
@[simp] theorem setHandle_core (s : State) (h : Nat) (x : Handle) : (s.setHandle h x).core = s.core := rfl
@[simp] theorem setHandle_dev (s : State) (h : Nat) (x : Handle) : (s.setHandle h x).dev = s.dev := rfl
@[simp] theorem setHandle_atoms (s : State) (h : Nat) (x : Handle) : (s.setHandle h x).atoms = s.atoms := rfl
@[simp] theorem setHandle_grp (s : State) (h : Nat) (x : Handle) : (s.setHandle h x).grp = s.grp := rfl
@[simp] theorem setHandle_grip (s : State) (h : Nat) (x : Handle) : (s.setHandle h x).grip = s.grip := rfl
@[simp] theorem setHandle_plat (s : State) (h : Nat) (x : Handle) : (s.setHandle h x).plat = s.plat := rfl
@[simp] theorem setHandle_out (s : State) (h : Nat) (x : Handle) : (s.setHandle h x).out = s.out := rfl

/-! ### setPort -/

@[simp] theorem setPort_variant (s : State) (g : Nat) (x : Port) : (s.setPort g x).variant = s.variant := rfl
@[simp] theorem setPort_stepping (s : State) (g : Nat) (x : Port) : (s.setPort g x).stepping = s.stepping := rfl
@[simp] theorem setPort_coreNo (s : State) (g : Nat) (x : Port) : (s.setPort g x).coreNo = s.coreNo := rfl
@[simp] theorem setPort_node (s : State) (g : Nat) (x : Port) : (s.setPort g x).node = s.node := rfl
@[simp] theorem setPort_cyc (s : State) (g : Nat) (x : Port) : (s.setPort g x).cyc = s.cyc := rfl
@[simp] theorem setPort_todo (s : State) (g : Nat) (x : Port) : (s.setPort g x).todo = s.todo := rfl
@[simp] theorem setPort_turn (s : State) (g : Nat) (x : Port) : (s.setPort g x).turn = s.turn := rfl
@[simp] theorem setPort_agenda (s : State) (g : Nat) (x : Port) : (s.setPort g x).agenda = s.agenda := rfl
@[simp] theorem setPort_nseq (s : State) (g : Nat) (x : Port) : (s.setPort g x).nseq = s.nseq := rfl
@[simp] theorem setPort_fresh (s : State) (g : Nat) (x : Port) : (s.setPort g x).fresh = s.fresh := rfl
@[simp] theorem setPort_hold (s : State) (g : Nat) (x : Port) : (s.setPort g x).hold = s.hold := rfl
@[simp] theorem setPort_job (s : State) (g : Nat) (x : Port) : (s.setPort g x).job = { s.job with g := rowSet s.job.g g x } := rfl
@[simp] theorem setPort_core (s : State) (g : Nat) (x : Port) : (s.setPort g x).core = s.core := rfl
@[simp] theorem setPort_dev (s : State) (g : Nat) (x : Port) : (s.setPort g x).dev = s.dev := rfl
@[simp] theorem setPort_atoms (s : State) (g : Nat) (x : Port) : (s.setPort g x).atoms = s.atoms := rfl
@[simp] theorem setPort_grp (s : State) (g : Nat) (x : Port) : (s.setPort g x).grp = s.grp := rfl
@[simp] theorem setPort_grip (s : State) (g : Nat) (x : Port) : (s.setPort g x).grip = s.grip := rfl
@[simp] theorem setPort_plat (s : State) (g : Nat) (x : Port) : (s.setPort g x).plat = s.plat := rfl
@[simp] theorem setPort_out (s : State) (g : Nat) (x : Port) : (s.setPort g x).out = s.out := rfl

/-! ### setOslot -/

@[simp] theorem setOslot_variant (s : State) (o : Nat) (x : OSlot) : (s.setOslot o x).variant = s.variant := rfl
@[simp] theorem setOslot_stepping (s : State) (o : Nat) (x : OSlot) : (s.setOslot o x).stepping = s.stepping := rfl
@[simp] theorem setOslot_coreNo (s : State) (o : Nat) (x : OSlot) : (s.setOslot o x).coreNo = s.coreNo := rfl
@[simp] theorem setOslot_node (s : State) (o : Nat) (x : OSlot) : (s.setOslot o x).node = s.node := rfl
@[simp] theorem setOslot_cyc (s : State) (o : Nat) (x : OSlot) : (s.setOslot o x).cyc = s.cyc := rfl
@[simp] theorem setOslot_todo (s : State) (o : Nat) (x : OSlot) : (s.setOslot o x).todo = s.todo := rfl
@[simp] theorem setOslot_turn (s : State) (o : Nat) (x : OSlot) : (s.setOslot o x).turn = s.turn := rfl
@[simp] theorem setOslot_agenda (s : State) (o : Nat) (x : OSlot) : (s.setOslot o x).agenda = s.agenda := rfl
@[simp] theorem setOslot_nseq (s : State) (o : Nat) (x : OSlot) : (s.setOslot o x).nseq = s.nseq := rfl
@[simp] theorem setOslot_fresh (s : State) (o : Nat) (x : OSlot) : (s.setOslot o x).fresh = s.fresh := rfl
@[simp] theorem setOslot_hold (s : State) (o : Nat) (x : OSlot) : (s.setOslot o x).hold = s.hold := rfl
@[simp] theorem setOslot_job (s : State) (o : Nat) (x : OSlot) : (s.setOslot o x).job = { s.job with mx := { s.job.mx with o := rowSet s.job.mx.o o x } } := rfl
@[simp] theorem setOslot_core (s : State) (o : Nat) (x : OSlot) : (s.setOslot o x).core = s.core := rfl
@[simp] theorem setOslot_dev (s : State) (o : Nat) (x : OSlot) : (s.setOslot o x).dev = s.dev := rfl
@[simp] theorem setOslot_atoms (s : State) (o : Nat) (x : OSlot) : (s.setOslot o x).atoms = s.atoms := rfl
@[simp] theorem setOslot_grp (s : State) (o : Nat) (x : OSlot) : (s.setOslot o x).grp = s.grp := rfl
@[simp] theorem setOslot_grip (s : State) (o : Nat) (x : OSlot) : (s.setOslot o x).grip = s.grip := rfl
@[simp] theorem setOslot_plat (s : State) (o : Nat) (x : OSlot) : (s.setOslot o x).plat = s.plat := rfl
@[simp] theorem setOslot_out (s : State) (o : Nat) (x : OSlot) : (s.setOslot o x).out = s.out := rfl

/-! ### setTile -/

@[simp] theorem setTile_variant (s : State) (a : Nat) (x : Tile) : (s.setTile a x).variant = s.variant := rfl
@[simp] theorem setTile_stepping (s : State) (a : Nat) (x : Tile) : (s.setTile a x).stepping = s.stepping := rfl
@[simp] theorem setTile_coreNo (s : State) (a : Nat) (x : Tile) : (s.setTile a x).coreNo = s.coreNo := rfl
@[simp] theorem setTile_node (s : State) (a : Nat) (x : Tile) : (s.setTile a x).node = s.node := rfl
@[simp] theorem setTile_cyc (s : State) (a : Nat) (x : Tile) : (s.setTile a x).cyc = s.cyc := rfl
@[simp] theorem setTile_todo (s : State) (a : Nat) (x : Tile) : (s.setTile a x).todo = s.todo := rfl
@[simp] theorem setTile_turn (s : State) (a : Nat) (x : Tile) : (s.setTile a x).turn = s.turn := rfl
@[simp] theorem setTile_agenda (s : State) (a : Nat) (x : Tile) : (s.setTile a x).agenda = s.agenda := rfl
@[simp] theorem setTile_nseq (s : State) (a : Nat) (x : Tile) : (s.setTile a x).nseq = s.nseq := rfl
@[simp] theorem setTile_fresh (s : State) (a : Nat) (x : Tile) : (s.setTile a x).fresh = s.fresh := rfl
@[simp] theorem setTile_hold (s : State) (a : Nat) (x : Tile) : (s.setTile a x).hold = s.hold := rfl
@[simp] theorem setTile_job (s : State) (a : Nat) (x : Tile) : (s.setTile a x).job = { s.job with mx := { s.job.mx with a := rowSet s.job.mx.a a x } } := rfl
@[simp] theorem setTile_core (s : State) (a : Nat) (x : Tile) : (s.setTile a x).core = s.core := rfl
@[simp] theorem setTile_dev (s : State) (a : Nat) (x : Tile) : (s.setTile a x).dev = s.dev := rfl
@[simp] theorem setTile_atoms (s : State) (a : Nat) (x : Tile) : (s.setTile a x).atoms = s.atoms := rfl
@[simp] theorem setTile_grp (s : State) (a : Nat) (x : Tile) : (s.setTile a x).grp = s.grp := rfl
@[simp] theorem setTile_grip (s : State) (a : Nat) (x : Tile) : (s.setTile a x).grip = s.grip := rfl
@[simp] theorem setTile_plat (s : State) (a : Nat) (x : Tile) : (s.setTile a x).plat = s.plat := rfl
@[simp] theorem setTile_out (s : State) (a : Nat) (x : Tile) : (s.setTile a x).out = s.out := rfl

/-! ### onCore -/

@[simp] theorem onCore_variant (s : State) (f : CoreSt → CoreSt) : (s.onCore f).variant = s.variant := rfl
@[simp] theorem onCore_stepping (s : State) (f : CoreSt → CoreSt) : (s.onCore f).stepping = s.stepping := rfl
@[simp] theorem onCore_coreNo (s : State) (f : CoreSt → CoreSt) : (s.onCore f).coreNo = s.coreNo := rfl
@[simp] theorem onCore_node (s : State) (f : CoreSt → CoreSt) : (s.onCore f).node = s.node := rfl
@[simp] theorem onCore_cyc (s : State) (f : CoreSt → CoreSt) : (s.onCore f).cyc = s.cyc := rfl
@[simp] theorem onCore_todo (s : State) (f : CoreSt → CoreSt) : (s.onCore f).todo = s.todo := rfl
@[simp] theorem onCore_turn (s : State) (f : CoreSt → CoreSt) : (s.onCore f).turn = s.turn := rfl
@[simp] theorem onCore_agenda (s : State) (f : CoreSt → CoreSt) : (s.onCore f).agenda = s.agenda := rfl
@[simp] theorem onCore_nseq (s : State) (f : CoreSt → CoreSt) : (s.onCore f).nseq = s.nseq := rfl
@[simp] theorem onCore_fresh (s : State) (f : CoreSt → CoreSt) : (s.onCore f).fresh = s.fresh := rfl
@[simp] theorem onCore_hold (s : State) (f : CoreSt → CoreSt) : (s.onCore f).hold = s.hold := rfl
@[simp] theorem onCore_job (s : State) (f : CoreSt → CoreSt) : (s.onCore f).job = s.job := rfl
@[simp] theorem onCore_core (s : State) (f : CoreSt → CoreSt) : (s.onCore f).core = f s.core := rfl
@[simp] theorem onCore_dev (s : State) (f : CoreSt → CoreSt) : (s.onCore f).dev = s.dev := rfl
@[simp] theorem onCore_atoms (s : State) (f : CoreSt → CoreSt) : (s.onCore f).atoms = s.atoms := rfl
@[simp] theorem onCore_grp (s : State) (f : CoreSt → CoreSt) : (s.onCore f).grp = s.grp := rfl
@[simp] theorem onCore_grip (s : State) (f : CoreSt → CoreSt) : (s.onCore f).grip = s.grip := rfl
@[simp] theorem onCore_plat (s : State) (f : CoreSt → CoreSt) : (s.onCore f).plat = s.plat := rfl
@[simp] theorem onCore_out (s : State) (f : CoreSt → CoreSt) : (s.onCore f).out = s.out := rfl

/-! ### setPlane -/

@[simp] theorem setPlane_variant (s : State) (p : Nat) (x : Plane) : (s.setPlane p x).variant = s.variant := rfl
@[simp] theorem setPlane_stepping (s : State) (p : Nat) (x : Plane) : (s.setPlane p x).stepping = s.stepping := rfl
@[simp] theorem setPlane_coreNo (s : State) (p : Nat) (x : Plane) : (s.setPlane p x).coreNo = s.coreNo := rfl
@[simp] theorem setPlane_node (s : State) (p : Nat) (x : Plane) : (s.setPlane p x).node = s.node := rfl
@[simp] theorem setPlane_cyc (s : State) (p : Nat) (x : Plane) : (s.setPlane p x).cyc = s.cyc := rfl
@[simp] theorem setPlane_todo (s : State) (p : Nat) (x : Plane) : (s.setPlane p x).todo = s.todo := rfl
@[simp] theorem setPlane_turn (s : State) (p : Nat) (x : Plane) : (s.setPlane p x).turn = s.turn := rfl
@[simp] theorem setPlane_agenda (s : State) (p : Nat) (x : Plane) : (s.setPlane p x).agenda = s.agenda := rfl
@[simp] theorem setPlane_nseq (s : State) (p : Nat) (x : Plane) : (s.setPlane p x).nseq = s.nseq := rfl
@[simp] theorem setPlane_fresh (s : State) (p : Nat) (x : Plane) : (s.setPlane p x).fresh = s.fresh := rfl
@[simp] theorem setPlane_hold (s : State) (p : Nat) (x : Plane) : (s.setPlane p x).hold = s.hold := rfl
@[simp] theorem setPlane_job (s : State) (p : Nat) (x : Plane) : (s.setPlane p x).job = s.job := rfl
@[simp] theorem setPlane_core (s : State) (p : Nat) (x : Plane) : (s.setPlane p x).core = { s.core with planes := rowSet s.core.planes p x } := rfl
@[simp] theorem setPlane_dev (s : State) (p : Nat) (x : Plane) : (s.setPlane p x).dev = s.dev := rfl
@[simp] theorem setPlane_atoms (s : State) (p : Nat) (x : Plane) : (s.setPlane p x).atoms = s.atoms := rfl
@[simp] theorem setPlane_grp (s : State) (p : Nat) (x : Plane) : (s.setPlane p x).grp = s.grp := rfl
@[simp] theorem setPlane_grip (s : State) (p : Nat) (x : Plane) : (s.setPlane p x).grip = s.grip := rfl
@[simp] theorem setPlane_plat (s : State) (p : Nat) (x : Plane) : (s.setPlane p x).plat = s.plat := rfl
@[simp] theorem setPlane_out (s : State) (p : Nat) (x : Plane) : (s.setPlane p x).out = s.out := rfl

/-! ### onDev -/

@[simp] theorem onDev_variant (s : State) (f : DevSt → DevSt) : (s.onDev f).variant = s.variant := rfl
@[simp] theorem onDev_stepping (s : State) (f : DevSt → DevSt) : (s.onDev f).stepping = s.stepping := rfl
@[simp] theorem onDev_coreNo (s : State) (f : DevSt → DevSt) : (s.onDev f).coreNo = s.coreNo := rfl
@[simp] theorem onDev_node (s : State) (f : DevSt → DevSt) : (s.onDev f).node = s.node := rfl
@[simp] theorem onDev_cyc (s : State) (f : DevSt → DevSt) : (s.onDev f).cyc = s.cyc := rfl
@[simp] theorem onDev_todo (s : State) (f : DevSt → DevSt) : (s.onDev f).todo = s.todo := rfl
@[simp] theorem onDev_turn (s : State) (f : DevSt → DevSt) : (s.onDev f).turn = s.turn := rfl
@[simp] theorem onDev_agenda (s : State) (f : DevSt → DevSt) : (s.onDev f).agenda = s.agenda := rfl
@[simp] theorem onDev_nseq (s : State) (f : DevSt → DevSt) : (s.onDev f).nseq = s.nseq := rfl
@[simp] theorem onDev_fresh (s : State) (f : DevSt → DevSt) : (s.onDev f).fresh = s.fresh := rfl
@[simp] theorem onDev_hold (s : State) (f : DevSt → DevSt) : (s.onDev f).hold = s.hold := rfl
@[simp] theorem onDev_job (s : State) (f : DevSt → DevSt) : (s.onDev f).job = s.job := rfl
@[simp] theorem onDev_core (s : State) (f : DevSt → DevSt) : (s.onDev f).core = s.core := rfl
@[simp] theorem onDev_dev (s : State) (f : DevSt → DevSt) : (s.onDev f).dev = f s.dev := rfl
@[simp] theorem onDev_atoms (s : State) (f : DevSt → DevSt) : (s.onDev f).atoms = s.atoms := rfl
@[simp] theorem onDev_grp (s : State) (f : DevSt → DevSt) : (s.onDev f).grp = s.grp := rfl
@[simp] theorem onDev_grip (s : State) (f : DevSt → DevSt) : (s.onDev f).grip = s.grip := rfl
@[simp] theorem onDev_plat (s : State) (f : DevSt → DevSt) : (s.onDev f).plat = s.plat := rfl
@[simp] theorem onDev_out (s : State) (f : DevSt → DevSt) : (s.onDev f).out = s.out := rfl

/-! ### onGrp -/

@[simp] theorem onGrp_variant (s : State) (f : GroupSt → GroupSt) : (s.onGrp f).variant = s.variant := rfl
@[simp] theorem onGrp_stepping (s : State) (f : GroupSt → GroupSt) : (s.onGrp f).stepping = s.stepping := rfl
@[simp] theorem onGrp_coreNo (s : State) (f : GroupSt → GroupSt) : (s.onGrp f).coreNo = s.coreNo := rfl
@[simp] theorem onGrp_node (s : State) (f : GroupSt → GroupSt) : (s.onGrp f).node = s.node := rfl
@[simp] theorem onGrp_cyc (s : State) (f : GroupSt → GroupSt) : (s.onGrp f).cyc = s.cyc := rfl
@[simp] theorem onGrp_todo (s : State) (f : GroupSt → GroupSt) : (s.onGrp f).todo = s.todo := rfl
@[simp] theorem onGrp_turn (s : State) (f : GroupSt → GroupSt) : (s.onGrp f).turn = s.turn := rfl
@[simp] theorem onGrp_agenda (s : State) (f : GroupSt → GroupSt) : (s.onGrp f).agenda = s.agenda := rfl
@[simp] theorem onGrp_nseq (s : State) (f : GroupSt → GroupSt) : (s.onGrp f).nseq = s.nseq := rfl
@[simp] theorem onGrp_fresh (s : State) (f : GroupSt → GroupSt) : (s.onGrp f).fresh = s.fresh := rfl
@[simp] theorem onGrp_hold (s : State) (f : GroupSt → GroupSt) : (s.onGrp f).hold = s.hold := rfl
@[simp] theorem onGrp_job (s : State) (f : GroupSt → GroupSt) : (s.onGrp f).job = s.job := rfl
@[simp] theorem onGrp_core (s : State) (f : GroupSt → GroupSt) : (s.onGrp f).core = s.core := rfl
@[simp] theorem onGrp_dev (s : State) (f : GroupSt → GroupSt) : (s.onGrp f).dev = s.dev := rfl
@[simp] theorem onGrp_atoms (s : State) (f : GroupSt → GroupSt) : (s.onGrp f).atoms = s.atoms := rfl
@[simp] theorem onGrp_grp (s : State) (f : GroupSt → GroupSt) : (s.onGrp f).grp = f s.grp := rfl
@[simp] theorem onGrp_grip (s : State) (f : GroupSt → GroupSt) : (s.onGrp f).grip = s.grip := rfl
@[simp] theorem onGrp_plat (s : State) (f : GroupSt → GroupSt) : (s.onGrp f).plat = s.plat := rfl
@[simp] theorem onGrp_out (s : State) (f : GroupSt → GroupSt) : (s.onGrp f).out = s.out := rfl

/-! ### onGrip -/

@[simp] theorem onGrip_variant (s : State) (f : GripSt → GripSt) : (s.onGrip f).variant = s.variant := rfl
@[simp] theorem onGrip_stepping (s : State) (f : GripSt → GripSt) : (s.onGrip f).stepping = s.stepping := rfl
@[simp] theorem onGrip_coreNo (s : State) (f : GripSt → GripSt) : (s.onGrip f).coreNo = s.coreNo := rfl
@[simp] theorem onGrip_node (s : State) (f : GripSt → GripSt) : (s.onGrip f).node = s.node := rfl
@[simp] theorem onGrip_cyc (s : State) (f : GripSt → GripSt) : (s.onGrip f).cyc = s.cyc := rfl
@[simp] theorem onGrip_todo (s : State) (f : GripSt → GripSt) : (s.onGrip f).todo = s.todo := rfl
@[simp] theorem onGrip_turn (s : State) (f : GripSt → GripSt) : (s.onGrip f).turn = s.turn := rfl
@[simp] theorem onGrip_agenda (s : State) (f : GripSt → GripSt) : (s.onGrip f).agenda = s.agenda := rfl
@[simp] theorem onGrip_nseq (s : State) (f : GripSt → GripSt) : (s.onGrip f).nseq = s.nseq := rfl
@[simp] theorem onGrip_fresh (s : State) (f : GripSt → GripSt) : (s.onGrip f).fresh = s.fresh := rfl
@[simp] theorem onGrip_hold (s : State) (f : GripSt → GripSt) : (s.onGrip f).hold = s.hold := rfl
@[simp] theorem onGrip_job (s : State) (f : GripSt → GripSt) : (s.onGrip f).job = s.job := rfl
@[simp] theorem onGrip_core (s : State) (f : GripSt → GripSt) : (s.onGrip f).core = s.core := rfl
@[simp] theorem onGrip_dev (s : State) (f : GripSt → GripSt) : (s.onGrip f).dev = s.dev := rfl
@[simp] theorem onGrip_atoms (s : State) (f : GripSt → GripSt) : (s.onGrip f).atoms = s.atoms := rfl
@[simp] theorem onGrip_grp (s : State) (f : GripSt → GripSt) : (s.onGrip f).grp = s.grp := rfl
@[simp] theorem onGrip_grip (s : State) (f : GripSt → GripSt) : (s.onGrip f).grip = f s.grip := rfl
@[simp] theorem onGrip_plat (s : State) (f : GripSt → GripSt) : (s.onGrip f).plat = s.plat := rfl
@[simp] theorem onGrip_out (s : State) (f : GripSt → GripSt) : (s.onGrip f).out = s.out := rfl

/-! ### onPlat -/

@[simp] theorem onPlat_variant (s : State) (f : PlatSt → PlatSt) : (s.onPlat f).variant = s.variant := rfl
@[simp] theorem onPlat_stepping (s : State) (f : PlatSt → PlatSt) : (s.onPlat f).stepping = s.stepping := rfl
@[simp] theorem onPlat_coreNo (s : State) (f : PlatSt → PlatSt) : (s.onPlat f).coreNo = s.coreNo := rfl
@[simp] theorem onPlat_node (s : State) (f : PlatSt → PlatSt) : (s.onPlat f).node = s.node := rfl
@[simp] theorem onPlat_cyc (s : State) (f : PlatSt → PlatSt) : (s.onPlat f).cyc = s.cyc := rfl
@[simp] theorem onPlat_todo (s : State) (f : PlatSt → PlatSt) : (s.onPlat f).todo = s.todo := rfl
@[simp] theorem onPlat_turn (s : State) (f : PlatSt → PlatSt) : (s.onPlat f).turn = s.turn := rfl
@[simp] theorem onPlat_agenda (s : State) (f : PlatSt → PlatSt) : (s.onPlat f).agenda = s.agenda := rfl
@[simp] theorem onPlat_nseq (s : State) (f : PlatSt → PlatSt) : (s.onPlat f).nseq = s.nseq := rfl
@[simp] theorem onPlat_fresh (s : State) (f : PlatSt → PlatSt) : (s.onPlat f).fresh = s.fresh := rfl
@[simp] theorem onPlat_hold (s : State) (f : PlatSt → PlatSt) : (s.onPlat f).hold = s.hold := rfl
@[simp] theorem onPlat_job (s : State) (f : PlatSt → PlatSt) : (s.onPlat f).job = s.job := rfl
@[simp] theorem onPlat_core (s : State) (f : PlatSt → PlatSt) : (s.onPlat f).core = s.core := rfl
@[simp] theorem onPlat_dev (s : State) (f : PlatSt → PlatSt) : (s.onPlat f).dev = s.dev := rfl
@[simp] theorem onPlat_atoms (s : State) (f : PlatSt → PlatSt) : (s.onPlat f).atoms = s.atoms := rfl
@[simp] theorem onPlat_grp (s : State) (f : PlatSt → PlatSt) : (s.onPlat f).grp = s.grp := rfl
@[simp] theorem onPlat_grip (s : State) (f : PlatSt → PlatSt) : (s.onPlat f).grip = s.grip := rfl
@[simp] theorem onPlat_plat (s : State) (f : PlatSt → PlatSt) : (s.onPlat f).plat = f s.plat := rfl
@[simp] theorem onPlat_out (s : State) (f : PlatSt → PlatSt) : (s.onPlat f).out = s.out := rfl

/-! ### emit -/

@[simp] theorem emit_variant (s : State) (o : Out) : (s.emit o).variant = s.variant := rfl
@[simp] theorem emit_stepping (s : State) (o : Out) : (s.emit o).stepping = s.stepping := rfl
@[simp] theorem emit_coreNo (s : State) (o : Out) : (s.emit o).coreNo = s.coreNo := rfl
@[simp] theorem emit_node (s : State) (o : Out) : (s.emit o).node = s.node := rfl
@[simp] theorem emit_cyc (s : State) (o : Out) : (s.emit o).cyc = s.cyc := rfl
@[simp] theorem emit_todo (s : State) (o : Out) : (s.emit o).todo = s.todo := rfl
@[simp] theorem emit_turn (s : State) (o : Out) : (s.emit o).turn = s.turn := rfl
@[simp] theorem emit_agenda (s : State) (o : Out) : (s.emit o).agenda = s.agenda := rfl
@[simp] theorem emit_nseq (s : State) (o : Out) : (s.emit o).nseq = s.nseq := rfl
@[simp] theorem emit_fresh (s : State) (o : Out) : (s.emit o).fresh = s.fresh := rfl
@[simp] theorem emit_hold (s : State) (o : Out) : (s.emit o).hold = s.hold := rfl
@[simp] theorem emit_job (s : State) (o : Out) : (s.emit o).job = s.job := rfl
@[simp] theorem emit_core (s : State) (o : Out) : (s.emit o).core = s.core := rfl
@[simp] theorem emit_dev (s : State) (o : Out) : (s.emit o).dev = s.dev := rfl
@[simp] theorem emit_atoms (s : State) (o : Out) : (s.emit o).atoms = s.atoms := rfl
@[simp] theorem emit_grp (s : State) (o : Out) : (s.emit o).grp = s.grp := rfl
@[simp] theorem emit_grip (s : State) (o : Out) : (s.emit o).grip = s.grip := rfl
@[simp] theorem emit_plat (s : State) (o : Out) : (s.emit o).plat = s.plat := rfl
@[simp] theorem emit_out (s : State) (o : Out) : (s.emit o).out = s.out ++ [o] := rfl

/-! ### postAt -/

@[simp] theorem postAt_variant (s : State) (n : Nat) (ev : Ev) (k : Nat) : (s.postAt n ev k).variant = s.variant := rfl
@[simp] theorem postAt_stepping (s : State) (n : Nat) (ev : Ev) (k : Nat) : (s.postAt n ev k).stepping = s.stepping := rfl
@[simp] theorem postAt_coreNo (s : State) (n : Nat) (ev : Ev) (k : Nat) : (s.postAt n ev k).coreNo = s.coreNo := rfl
@[simp] theorem postAt_node (s : State) (n : Nat) (ev : Ev) (k : Nat) : (s.postAt n ev k).node = s.node := rfl
@[simp] theorem postAt_cyc (s : State) (n : Nat) (ev : Ev) (k : Nat) : (s.postAt n ev k).cyc = s.cyc := rfl
@[simp] theorem postAt_todo (s : State) (n : Nat) (ev : Ev) (k : Nat) : (s.postAt n ev k).todo = s.todo := rfl
@[simp] theorem postAt_turn (s : State) (n : Nat) (ev : Ev) (k : Nat) : (s.postAt n ev k).turn = s.turn := rfl
@[simp] theorem postAt_agenda (s : State) (n : Nat) (ev : Ev) (k : Nat) : (s.postAt n ev k).agenda = insDue ⟨n, k * 2 ^ 64 + s.nseq, ev⟩ s.agenda := rfl
@[simp] theorem postAt_nseq (s : State) (n : Nat) (ev : Ev) (k : Nat) : (s.postAt n ev k).nseq = s.nseq + 1 := rfl
@[simp] theorem postAt_fresh (s : State) (n : Nat) (ev : Ev) (k : Nat) : (s.postAt n ev k).fresh = s.fresh := rfl
@[simp] theorem postAt_hold (s : State) (n : Nat) (ev : Ev) (k : Nat) : (s.postAt n ev k).hold = s.hold := rfl
@[simp] theorem postAt_job (s : State) (n : Nat) (ev : Ev) (k : Nat) : (s.postAt n ev k).job = s.job := rfl
@[simp] theorem postAt_core (s : State) (n : Nat) (ev : Ev) (k : Nat) : (s.postAt n ev k).core = s.core := rfl
@[simp] theorem postAt_dev (s : State) (n : Nat) (ev : Ev) (k : Nat) : (s.postAt n ev k).dev = s.dev := rfl
@[simp] theorem postAt_atoms (s : State) (n : Nat) (ev : Ev) (k : Nat) : (s.postAt n ev k).atoms = s.atoms := rfl
@[simp] theorem postAt_grp (s : State) (n : Nat) (ev : Ev) (k : Nat) : (s.postAt n ev k).grp = s.grp := rfl
@[simp] theorem postAt_grip (s : State) (n : Nat) (ev : Ev) (k : Nat) : (s.postAt n ev k).grip = s.grip := rfl
@[simp] theorem postAt_plat (s : State) (n : Nat) (ev : Ev) (k : Nat) : (s.postAt n ev k).plat = s.plat := rfl
@[simp] theorem postAt_out (s : State) (n : Nat) (ev : Ev) (k : Nat) : (s.postAt n ev k).out = s.out := rfl

/-! ### A drawn value -/

@[simp] theorem draw_variant (s : State) : s.draw.2.variant = s.variant := rfl
@[simp] theorem draw_stepping (s : State) : s.draw.2.stepping = s.stepping := rfl
@[simp] theorem draw_coreNo (s : State) : s.draw.2.coreNo = s.coreNo := rfl
@[simp] theorem draw_node (s : State) : s.draw.2.node = s.node := rfl
@[simp] theorem draw_cyc (s : State) : s.draw.2.cyc = s.cyc := rfl
@[simp] theorem draw_todo (s : State) : s.draw.2.todo = s.todo := rfl
@[simp] theorem draw_turn (s : State) : s.draw.2.turn = s.turn := rfl
@[simp] theorem draw_agenda (s : State) : s.draw.2.agenda = s.agenda := rfl
@[simp] theorem draw_nseq (s : State) : s.draw.2.nseq = s.nseq := rfl
@[simp] theorem draw_fresh (s : State) : s.draw.2.fresh = s.fresh + 1 := rfl
@[simp] theorem draw_hold (s : State) : s.draw.2.hold = s.hold := rfl
@[simp] theorem draw_job (s : State) : s.draw.2.job = s.job := rfl
@[simp] theorem draw_core (s : State) : s.draw.2.core = s.core := rfl
@[simp] theorem draw_dev (s : State) : s.draw.2.dev = s.dev := rfl
@[simp] theorem draw_atoms (s : State) : s.draw.2.atoms = s.atoms := rfl
@[simp] theorem draw_grp (s : State) : s.draw.2.grp = s.grp := rfl
@[simp] theorem draw_grip (s : State) : s.draw.2.grip = s.grip := rfl
@[simp] theorem draw_plat (s : State) : s.draw.2.plat = s.plat := rfl
@[simp] theorem draw_out (s : State) : s.draw.2.out = s.out := rfl
@[simp] theorem draw_value (s : State) : s.draw.1 = Config.freeW64 s.fresh := rfl

/-! ### What a result of a word adds -/

@[simp] theorem later_variant (st : Stream) (lat : Nat) (e : Eff) (s : State) : (later st lat e s).variant = s.variant := rfl
@[simp] theorem later_stepping (st : Stream) (lat : Nat) (e : Eff) (s : State) : (later st lat e s).stepping = s.stepping := rfl
@[simp] theorem later_coreNo (st : Stream) (lat : Nat) (e : Eff) (s : State) : (later st lat e s).coreNo = s.coreNo := rfl
@[simp] theorem later_node (st : Stream) (lat : Nat) (e : Eff) (s : State) : (later st lat e s).node = s.node := rfl
@[simp] theorem later_cyc (st : Stream) (lat : Nat) (e : Eff) (s : State) : (later st lat e s).cyc = s.cyc := rfl
@[simp] theorem later_todo (st : Stream) (lat : Nat) (e : Eff) (s : State) : (later st lat e s).todo = s.todo := rfl
@[simp] theorem later_turn (st : Stream) (lat : Nat) (e : Eff) (s : State) : (later st lat e s).turn = s.turn := rfl
@[simp] theorem later_agenda (st : Stream) (lat : Nat) (e : Eff) (s : State) : (later st lat e s).agenda = s.agenda := rfl
@[simp] theorem later_nseq (st : Stream) (lat : Nat) (e : Eff) (s : State) : (later st lat e s).nseq = s.nseq := rfl
@[simp] theorem later_fresh (st : Stream) (lat : Nat) (e : Eff) (s : State) : (later st lat e s).fresh = s.fresh := rfl
@[simp] theorem later_hold (st : Stream) (lat : Nat) (e : Eff) (s : State) : (later st lat e s).hold = s.hold := rfl
@[simp] theorem later_job (st : Stream) (lat : Nat) (e : Eff) (s : State) : (later st lat e s).job = { s.job with dl := s.job.dl ++ [⟨s.job.cycle + lat, st, curSec s st, s.job.cycle, e⟩] } := rfl
@[simp] theorem later_core (st : Stream) (lat : Nat) (e : Eff) (s : State) : (later st lat e s).core = s.core := rfl
@[simp] theorem later_dev (st : Stream) (lat : Nat) (e : Eff) (s : State) : (later st lat e s).dev = s.dev := rfl
@[simp] theorem later_atoms (st : Stream) (lat : Nat) (e : Eff) (s : State) : (later st lat e s).atoms = s.atoms := rfl
@[simp] theorem later_grp (st : Stream) (lat : Nat) (e : Eff) (s : State) : (later st lat e s).grp = s.grp := rfl
@[simp] theorem later_grip (st : Stream) (lat : Nat) (e : Eff) (s : State) : (later st lat e s).grip = s.grip := rfl
@[simp] theorem later_plat (st : Stream) (lat : Nat) (e : Eff) (s : State) : (later st lat e s).plat = s.plat := rfl
@[simp] theorem later_out (st : Stream) (lat : Nat) (e : Eff) (s : State) : (later st lat e s).out = s.out := rfl

end Sys2Proof.Laws
end

