-- ==== Sys2Proof/Laws/Issue.lean ====
section
/-! SUPPORT. What the shared operations of issuing can do: checks and waits that pass, a word that issues, stalls or faults, the
advance of the sequencer and of an engine, and what each of them leaves alone. -/
namespace Sys2Proof.Laws
set_option Elab.async false -- theorems in turn: one that waits for those before it holds a thread
open Sys2Proof Sys2Proof.Machine

/-! ### Checks and waits -/

@[simp] theorem ok_bind {α β : Type} (a : α) (f : α → Except Halt β) : (Except.ok a >>= f) = f a := rfl
@[simp] theorem error_bind {α β : Type} (e : Halt) (f : α → Except Halt β) : (Except.error e >>= f) = .error e := rfl
@[simp] theorem pure_ok {α : Type} (a : α) : (pure a : Except Halt α) = .ok a := rfl
@[simp] theorem check_false (s : State) (st : Stream) (c x : Nat) (y z : W64) : check false s st c x y z = .ok () := rfl
@[simp] theorem check_true (s : State) (st : Stream) (c x : Nat) (y z : W64) :
    check true s st c x y z = .error (.trap s (faultAt s st c x y z)) := rfl
@[simp] theorem waitFor_true (s : State) (w : Wait) : waitFor true s w = .ok () := rfl
@[simp] theorem waitFor_false (s : State) (w : Wait) : waitFor false s w = .error (.wait s w) := rfl

theorem check_ok {b : Bool} {s : State} {st : Stream} {c x : Nat} {y z : W64} (h : b = false) : check b s st c x y z = .ok () := by
  simp [check, h]

theorem check_stops {b : Bool} {s : State} {st : Stream} {c x : Nat} {y z : W64} (h : b = true) :
    check b s st c x y z = .error (.trap s (faultAt s st c x y z)) := by
  simp [check, stop, h]

theorem waitFor_ok {b : Bool} {s : State} {w : Wait} (h : b = true) : waitFor b s w = .ok () := by simp [waitFor, h]

theorem badAmong_nil (s : State) : badAmong s [] = false := by simp [badAmong]

/-- No bad data anywhere: a word finds none. -/
theorem badAmong_good {s : State} (h : s.plat.bad = []) (l : List BadAt) : badAmong s l = false := by simp [badAmong, h]

theorem badAmong_sub {s : State} {l m : List BadAt} (hs : ∀ b ∈ m, b ∈ l) (h : badAmong s l = false) : badAmong s m = false := by
  simp only [badAmong, List.any_eq_false, List.contains_iff_mem] at h ⊢
  exact fun b hb hm => h b hb (hs b hm)

theorem checkBad_ok {s : State} {st : Stream} {l : List BadAt} {b : Option Nat} (h : badAmong s l = false) :
    checkBad s st l b = .ok () := by simp [checkBad, h]

theorem ready_nil (s : State) : ready s [] = true := by simp [ready, regCells, badAmong_nil]

theorem ready_one {s : State} {a b : BitVec 6} (h : ready s [a, b] = true) : ready s [a] = true := by
  simp only [ready, Bool.and_eq_true, Bool.not_eq_true', List.all_cons] at h ⊢
  exact ⟨⟨h.1.1, rfl⟩, badAmong_sub (by simp [regCells]) h.2⟩

theorem needRegs_ok {s : State} {l : List (BitVec 6)} (h : ready s l = true) : needRegs s l = .ok () := by
  have hb : badAmong s (regCells l) = false := by simp [ready] at h; exact h.2
  simp [needRegs, checkBad_ok hb, waitFor, h]

/-! ### A presented word -/

theorem word_ok {st : Stream} {p : Pred} {s t : State} {body : State → Except Halt State} (h : enabled s st p = true)
    (hb : body s = .ok t) : word st p s body = .next (advance st t) := by
  simp [word, h, hb, finish]

theorem word_off {st : Stream} {p : Pred} {s : State} {body : State → Except Halt State} (h : enabled s st p = false) :
    word st p s body = .next (advance st s) := by
  simp [word, h]

theorem word_trap {st : Stream} {p : Pred} {s t : State} {r : FaultRec} {body : State → Except Halt State}
    (h : enabled s st p = true) (hb : body s = .error (.trap t r)) : word st p s body = .next (takeFault t r) := by
  simp [word, h, hb, finish]

theorem word_wait {st : Stream} {p : Pred} {s t : State} {w : Wait} {body : State → Except Halt State}
    (h : enabled s st p = true) (hb : body s = .error (.wait t w)) : word st p s body = .next (stalled st w t) := by
  simp [word, h, hb, finish]

/-- Whatever a word's body does, the word answers a next state. -/
theorem word_next (st : Stream) (p : Pred) (s : State) (body : State → Except Halt State) : ∃ t, word st p s body = .next t := by
  unfold word
  split
  · rcases body s with ⟨_ | _⟩ | _ <;> exact ⟨_, rfl⟩
  · exact ⟨_, rfl⟩

theorem side_ok {p : Pred} {s t : State} {body : State → Except Halt State} (h : enabled s .sq p = true) (hb : body s = .ok t) :
    sideWord p s body = .next (advance .sq (sided t)) := by
  simp [sideWord, word, h, hb, finish, Except.map, sided]

theorem side_off {p : Pred} {s : State} {body : State → Except Halt State} (h : enabled s .sq p = false) :
    sideWord p s body = .next (advance .sq s) := by
  simp [sideWord, word, h]

theorem side_trap {p : Pred} {s t : State} {r : FaultRec} {body : State → Except Halt State} (h : enabled s .sq p = true)
    (hb : body s = .error (.trap t r)) : sideWord p s body = .next (takeFault t r) := by
  simp [sideWord, word, h, hb, finish, Except.map]

theorem side_wait {p : Pred} {s t : State} {w : Wait} {body : State → Except Halt State} (h : enabled s .sq p = true)
    (hb : body s = .error (.wait t w)) : sideWord p s body = .next (stalled .sq w t) := by
  simp [sideWord, word, h, hb, finish, Except.map]

theorem side_next (p : Pred) (s : State) (body : State → Except Halt State) : ∃ t, sideWord p s body = .next t := word_next _ _ _ _

theorem scalarWord_ok {p : Pred} {d : BitVec 5} {lat : Nat} {rs : List (BitVec 6)} {f : State → W64} {s : State}
    (h : enabled s .sq p = true) (hr : ready s rs = true) : scalarWord p d lat rs f s = scalarDone lat d (f s) s := by
  refine word_ok h ?_
  simp [needRegs_ok hr]

theorem predWord_ok {p : Pred} {d : BitVec 3} {rs : List (BitVec 6)} {f : State → Bool} {s : State}
    (h : enabled s .sq p = true) (hr : ready s rs = true) : predWord p d rs f s = predDone d (f s) s := by
  refine word_ok h ?_
  simp [needRegs_ok hr]

/-! ### The freeze -/

/-- A fault touches the job's status and its freeze record only. -/
theorem takeFault_eq (s : State) (r : FaultRec) :
    takeFault s r = s.onJob fun j => { j with
      st := (takeFault s r).job.st, frec := (takeFault s r).job.frec, frozeAt := (takeFault s r).job.frozeAt,
      calpos := (takeFault s r).job.calpos } := by
  unfold takeFault
  split <;> rfl

@[simp] theorem takeFault_seq (s : State) (r : FaultRec) : (takeFault s r).job.seq = s.job.seq := by rw [takeFault_eq]; rfl
@[simp] theorem takeFault_flow (s : State) (r : FaultRec) : (takeFault s r).job.flow = s.job.flow := by rw [takeFault_eq]; rfl
@[simp] theorem takeFault_core (s : State) (r : FaultRec) : (takeFault s r).core = s.core := by rw [takeFault_eq]; rfl
@[simp] theorem takeFault_dev (s : State) (r : FaultRec) : (takeFault s r).dev = s.dev := by rw [takeFault_eq]; rfl
@[simp] theorem takeFault_cyc (s : State) (r : FaultRec) : (takeFault s r).cyc = s.cyc := by rw [takeFault_eq]; rfl

/-! ### The advance of the sequencer -/

@[simp] theorem issuedWord_seq (st : Stream) (s : State) : (issuedWord st s).job.seq = s.job.seq := rfl
@[simp] theorem issuedWord_st (st : Stream) (s : State) : (issuedWord st s).job.st = s.job.st := rfl
@[simp] theorem issuedWord_core (st : Stream) (s : State) : (issuedWord st s).core = s.core := rfl
@[simp] theorem issuedWord_dev (st : Stream) (s : State) : (issuedWord st s).dev = s.dev := rfl

theorem seqTouched_self (s : State) : seqTouched s s = s := rfl

theorem seqTouched_trans {s t u : State} (h1 : t = seqTouched s t) (h2 : u = seqTouched t u) : u = seqTouched s u := by
  rw [h2, h1]
  rfl

theorem takeFault_touched (s : State) (r : FaultRec) : takeFault s r = seqTouched s (takeFault s r) := by
  conv_lhs => rw [takeFault_eq]
  unfold seqTouched
  rw [takeFault_eq]
  rfl

theorem sqSectionEnd_touched (a h : W64) (s : State) : sqSectionEnd a h s = seqTouched s (sqSectionEnd a h s) := by
  unfold sqSectionEnd
  dsimp only
  split
  · split
    · exact seqTouched_trans rfl (takeFault_touched _ _)
    · rfl
  · rfl

/-- The advance of the sequencer changes where it stands, its bookkeeping and, by a rendezvous that faults, the freeze. -/
theorem advance_sq_touched (s : State) : advance .sq s = seqTouched s (advance .sq s) := by
  simp only [advance, advanceSq]
  split
  · split
    · rfl
    · exact seqTouched_trans rfl (sqSectionEnd_touched _ _ _)
  · rfl

theorem transfer_touched (tgt : W64) (s : State) : transfer tgt s = seqTouched s (transfer tgt s) := by
  unfold transfer
  dsimp only
  split
  · next a h i _ =>
    split
    · have h1 : sqSectionEnd a h (issuedWord .sq s) = seqTouched s (sqSectionEnd a h (issuedWord .sq s)) :=
        seqTouched_trans rfl (sqSectionEnd_touched _ _ _)
      exact seqTouched_trans h1 rfl
    · rfl
  · rfl

theorem sqSectionEnd_seq (a h : W64) (s : State) :
    (sqSectionEnd a h s).job.seq = { s.job.seq with pos := (sqSectionEnd a h s).job.seq.pos, buf := (sqSectionEnd a h s).job.seq.buf } := by
  conv_lhs => rw [sqSectionEnd_touched]
  rfl

/-- What the sequencer's advance leaves of the sequencer's state. -/
theorem advance_sq_seq (s : State) :
    (advance .sq s).job.seq = { s.job.seq with pos := (advance .sq s).job.seq.pos, buf := (advance .sq s).job.seq.buf } := by
  conv_lhs => rw [advance_sq_touched]
  rfl

@[simp] theorem advance_sq_core (s : State) : (advance .sq s).core = s.core := by rw [advance_sq_touched]; rfl
@[simp] theorem advance_sq_dev (s : State) : (advance .sq s).dev = s.dev := by rw [advance_sq_touched]; rfl
@[simp] theorem advance_sq_grip (s : State) : (advance .sq s).grip = s.grip := by rw [advance_sq_touched]; rfl
@[simp] theorem advance_sq_cyc (s : State) : (advance .sq s).cyc = s.cyc := by rw [advance_sq_touched]; rfl
@[simp] theorem advance_sq_agenda (s : State) : (advance .sq s).agenda = s.agenda := by rw [advance_sq_touched]; rfl
@[simp] theorem advance_sq_ldm (s : State) : (advance .sq s).job.seq.ldm = s.job.seq.ldm := by rw [advance_sq_seq]
@[simp] theorem advance_sq_s (s : State) : (advance .sq s).job.seq.s = s.job.seq.s := by rw [advance_sq_seq]
@[simp] theorem advance_sq_f (s : State) : (advance .sq s).job.seq.f = s.job.seq.f := by rw [advance_sq_seq]
@[simp] theorem advance_sq_b (s : State) : (advance .sq s).job.seq.b = s.job.seq.b := by rw [advance_sq_seq]
@[simp] theorem advance_sq_ldOut (s : State) : (advance .sq s).job.seq.ldOut = s.job.seq.ldOut := by rw [advance_sq_seq]
@[simp] theorem advance_sq_stOut (s : State) : (advance .sq s).job.seq.stOut = s.job.seq.stOut := by rw [advance_sq_seq]

@[simp] theorem reachRdv_dl (st : Stream) (a b : Bool) (w : WordRef) (s : State) : (reachRdv st a b w s).job.dl = s.job.dl := rfl
@[simp] theorem sqSectionEnd_dl (a h : W64) (s : State) : (sqSectionEnd a h s).job.dl = s.job.dl := by
  unfold sqSectionEnd
  dsimp only
  split
  · split
    · rw [takeFault_eq]; rfl
    · rfl
  · rfl

/-- The delay line grows only by what a word puts into it. -/
@[simp] theorem advance_sq_dl (s : State) : (advance .sq s).job.dl = s.job.dl := by
  simp only [advance, advanceSq]
  split
  · split
    · rfl
    · rw [sqSectionEnd_dl]; rfl
  · rfl

end Sys2Proof.Laws
end

