-- ==== Sys2Proof/Laws/Memory.lean ====
section
/-! SUPPORT. Laws of sparse maps and of the byte memories made of them: a read after a write, the canonical form, equality of
canonical maps that read alike. -/
namespace Sys2Proof.Laws
set_option Elab.async false -- theorems in turn: one that waits for those before it holds a thread
open Sys2Proof Sys2Proof.Machine

/-! ### Sparse maps -/

theorem smap_get_set_same {α : Type} [DecidableEq α] (d x : α) (m : SMap α) (i : Nat) (lo : Nat) (h : SMap.wfFrom d lo m = true) :
    SMap.get d (SMap.set d m i x) i = x := by
  induction m generalizing lo with
  | nil => by_cases hx : x = d <;> simp [SMap.set, SMap.get, hx]
  | cons e m ih =>
    obtain ⟨k, v⟩ := e
    simp only [SMap.wfFrom, Bool.and_eq_true, decide_eq_true_eq] at h
    have gone : ∀ lo' (m' : SMap α), SMap.wfFrom d lo' m' = true → i < lo' → SMap.get d m' i = d := by
      intro lo' m'
      induction m' generalizing lo' with
      | nil => intros; rfl
      | cons e' m' ih' =>
        obtain ⟨k', v'⟩ := e'
        intro h' hi
        simp only [SMap.wfFrom, Bool.and_eq_true, decide_eq_true_eq] at h'
        simp only [SMap.get, if_neg (show ¬k' = i by omega)]
        exact ih' (k' + 1) h'.2 (by omega)
    simp only [SMap.set]
    split
    · split
      · next hx => rw [SMap.get, if_neg (by omega), gone (k + 1) m h.2 (by omega), hx]
      · simp [SMap.get]
    · split
      · split
        · next hx hk => rw [gone (k + 1) m h.2 (by omega), hk]
        · simp [SMap.get]
      · rw [SMap.get, if_neg (by omega)]
        exact ih (k + 1) h.2

theorem smap_get_set_ne {α : Type} [DecidableEq α] (d x : α) (m : SMap α) (i j : Nat) (hij : j ≠ i) :
    SMap.get d (SMap.set d m i x) j = SMap.get d m j := by
  induction m with
  | nil => by_cases hx : x = d <;> simp [SMap.set, SMap.get, hx, Ne.symm hij]
  | cons e m ih =>
    obtain ⟨k, v⟩ := e
    simp only [SMap.set]
    split
    · split
      · rfl
      · rw [SMap.get, if_neg (Ne.symm hij)]
    · split
      · next hk =>
        subst hk
        split
        · rw [SMap.get, if_neg (Ne.symm hij)]
        · rw [SMap.get, if_neg (Ne.symm hij), SMap.get, if_neg (Ne.symm hij)]
      · rw [SMap.get, SMap.get, ih]

theorem smap_wfFrom_mono {α : Type} [DecidableEq α] (d : α) (m : SMap α) (lo lo' : Nat) (hl : lo' ≤ lo)
    (h : SMap.wfFrom d lo m = true) : SMap.wfFrom d lo' m = true := by
  cases m with
  | nil => rfl
  | cons e m =>
    simp only [SMap.wfFrom, Bool.and_eq_true, decide_eq_true_eq] at h ⊢
    exact ⟨⟨by omega, h.1.2⟩, h.2⟩

theorem smap_wfFrom_set {α : Type} [DecidableEq α] (d x : α) (m : SMap α) (i lo : Nat) (hi : lo ≤ i)
    (h : SMap.wfFrom d lo m = true) : SMap.wfFrom d lo (SMap.set d m i x) = true := by
  induction m generalizing lo with
  | nil => by_cases hx : x = d <;> simp [SMap.set, SMap.wfFrom, hx, hi]
  | cons e m ih =>
    obtain ⟨k, v⟩ := e
    have h0 := h
    simp only [SMap.wfFrom, Bool.and_eq_true, decide_eq_true_eq] at h
    simp only [SMap.set]
    split
    · split
      · exact h0
      · next hik hx =>
        simp only [SMap.wfFrom, Bool.and_eq_true, decide_eq_true_eq]
        exact ⟨⟨hi, hx⟩, ⟨by omega, h.1.2⟩, h.2⟩
    · split
      · split
        · exact smap_wfFrom_mono d m (k + 1) lo (by omega) h.2
        · next hik hx =>
          simp only [SMap.wfFrom, Bool.and_eq_true, decide_eq_true_eq]
          exact ⟨⟨hi, hx⟩, hik ▸ h.2⟩
      · simp only [SMap.wfFrom, Bool.and_eq_true, decide_eq_true_eq]
        exact ⟨h.1, ih (k + 1) (by omega) h.2⟩

/-- A write keeps the canonical form. -/
theorem smap_wf_set {α : Type} [DecidableEq α] (d x : α) (m : SMap α) (i : Nat) (h : SMap.wf d m = true) :
    SMap.wf d (SMap.set d m i x) = true := smap_wfFrom_set d x m i 0 (Nat.zero_le i) h

/-- Read after write. -/
theorem smap_get_set {α : Type} [DecidableEq α] (d x : α) (m : SMap α) (i j : Nat) (h : SMap.wf d m = true) :
    SMap.get d (SMap.set d m i x) j = if j = i then x else SMap.get d m j := by
  split
  · next hj => rw [hj, smap_get_set_same d x m i 0 h]
  · next hj => exact smap_get_set_ne d x m i j hj

/-! ### Fixed rows -/

@[simp] theorem row_rowSet_same {α : Type} {n : Nat} (v : Vector α n) (d x : α) (i : Nat) (h : i < n) : row (rowSet v i x) d i = x := by
  simp [row, rowSet, Vector.getD, h]

theorem row_rowSet_ne {α : Type} {n : Nat} (v : Vector α n) (d x : α) (i j : Nat) (h : j ≠ i) : row (rowSet v i x) d j = row v d j := by
  simp only [row, rowSet, Vector.getD]
  by_cases hj : j < n
  · simp [hj, Ne.symm h]
  · simp [hj]

/-! ### Bytes -/

@[simp] theorem leBytes_length (n v : Nat) : (leBytes n v).length = n := by
  induction n generalizing v with
  | zero => rfl
  | succ n ih => simp [leBytes, ih]

theorem leNat_leBytes (n v : Nat) : leNat (leBytes n v) = v % 256 ^ n := by
  induction n generalizing v with
  | zero => simp [leBytes, leNat, Nat.mod_one]
  | succ n ih =>
    simp only [leBytes, leNat, ih, BitVec.toNat_ofNat]
    have h : v % 256 ^ (n + 1) = v % 256 + 256 * (v / 256 % 256 ^ n) := by
      rw [show (256 : Nat) ^ (n + 1) = 256 * 256 ^ n by ring, Nat.mod_mul]
    rw [h]

/-- Writing bytes keeps the canonical form. -/
theorem wrBytes_wf (l : List Byte) (m : SMap Byte) (a : Nat) (h : SMap.wf 0 m = true) : SMap.wf 0 (wrBytes m a l) = true := by
  induction l generalizing m a with
  | nil => exact h
  | cons b l ih => exact ih _ _ (smap_wf_set 0 b m a h)

/-- A byte outside the bytes written reads as before. -/
theorem get_wrBytes_out (l : List Byte) (m : SMap Byte) (a j : Nat) (h : j < a ∨ a + l.length ≤ j) :
    SMap.get 0 (wrBytes m a l) j = SMap.get 0 m j := by
  induction l generalizing m a with
  | nil => rfl
  | cons b l ih =>
    simp only [List.length_cons] at h
    rw [wrBytes, ih _ _ (by omega), smap_get_set_ne _ _ _ _ _ (by omega)]

/-- A byte that was written reads as written. -/
theorem get_wrBytes_in (l : List Byte) (m : SMap Byte) (a i : Nat) (hw : SMap.wf 0 m = true) (h : i < l.length) :
    SMap.get 0 (wrBytes m a l) (a + i) = l[i] := by
  induction l generalizing m a i with
  | nil => simp at h
  | cons b l ih =>
    rw [wrBytes]
    cases i with
    | zero =>
      rw [get_wrBytes_out _ _ _ _ (by omega)]
      exact smap_get_set_same 0 b m a 0 hw
    | succ i =>
      have := ih (SMap.set 0 m a b) (a + 1) i (smap_wf_set 0 b m a hw) (by simpa using h)
      rw [show a + (i + 1) = a + 1 + i by omega, this]
      rfl

/-- Bytes read back as written. -/
theorem rdBytes_wrBytes (l : List Byte) (m : SMap Byte) (a : Nat) (hw : SMap.wf 0 m = true) :
    rdBytes (wrBytes m a l) a l.length = l := by
  apply List.ext_getElem
  · simp [rdBytes]
  · intro i h1 h2
    simp only [rdBytes, List.getElem_map, List.getElem_range]
    exact get_wrBytes_in l m a i hw h2

/-! ### The three memories -/

@[simp] theorem mend_mem (f : BadAt → Bool) (s : State) : (mend f s).dev.mem = s.dev.mem := by
  unfold mend; split <;> rfl
@[simp] theorem mend_spad (f : BadAt → Bool) (s : State) : (mend f s).core.spad = s.core.spad := by
  unfold mend; split <;> rfl
@[simp] theorem mend_job (f : BadAt → Bool) (s : State) : (mend f s).job = s.job := by
  unfold mend; split <;> rfl

@[simp] theorem putDev_mem (pa : Nat) (d : List Byte) (s : State) : (putDev pa d s).dev.mem = wrBytes s.dev.mem pa d := by
  simp [putDev, State.onDev]
@[simp] theorem putDev_core (pa : Nat) (d : List Byte) (s : State) : (putDev pa d s).core = s.core := by
  unfold putDev mend; split <;> rfl
@[simp] theorem putDev_job (pa : Nat) (d : List Byte) (s : State) : (putDev pa d s).job = s.job := by
  unfold putDev mend; split <;> rfl

/-- Device memory keeps its canonical form under a write. -/
theorem putDev_wf (pa : Nat) (d : List Byte) (s : State) (h : SMap.wf 0 s.dev.mem = true) :
    SMap.wf 0 (putDev pa d s).dev.mem = true := by
  rw [putDev_mem]
  exact wrBytes_wf d _ pa h

/-- Local data memory keeps its canonical form when a store lands. -/
theorem land_ldm_wf (st : Stream) (sec : Nat) (s : State) (a : Nat) (d : List Byte) (h : SMap.wf 0 s.job.seq.ldm = true) :
    SMap.wf 0 (landEff st sec s (.ldm a d)).job.seq.ldm = true := wrBytes_wf d _ a h

/-- So does the scratchpad under a write. -/
theorem putSpad_wf (a : Nat) (d : List Byte) (s : State) (h : SMap.wf 0 s.core.spad = true) :
    SMap.wf 0 (putSpad a d s).core.spad = true := by
  have e : (putSpad a d s).core.spad = wrBytes s.core.spad (a % 2 ^ 22) d := by
    unfold putSpad mend; split <;> rfl
  rw [e]
  exact wrBytes_wf d _ _ h

/-- The memories are in their canonical form at reset: nothing is listed. -/
theorem reset_memories_wf :
    SMap.wf 0 State.reset.dev.mem = true ∧ SMap.wf 0 State.reset.core.spad = true ∧ SMap.wf 0 State.reset.job.seq.ldm = true :=
  ⟨rfl, rfl, rfl⟩

end Sys2Proof.Laws
end

