-- ==== Sys2Proof/Laws/PerInstr.lean ====
section
/-! SUPPORT. The families of statements made per instruction. RoundTrip: the word that the encoder gives a well-formed
instruction decodes to it on every stream on which it is valid. -/
namespace Sys2Proof.Laws.RoundTrip
set_option Elab.async false -- theorems in turn: one that waits for those before it holds a thread
open Sys2Proof Sys2Proof.Laws
set_option linter.unusedVariables false

def Statement (i : Instr) : Prop := ∀ w, encode i = some w → i.wf = true → ∀ st ∈ i.streams, decode st w = .ok i

/-- What a lemma of this family comes down to: the pair's own decoder reads the fields back. -/
theorem of_pair (sts : List Stream) {i : Instr} {w : Word} (he : encode i = some w) (hs : i.streams = sts)
    (h : ∀ st ∈ sts, i.wf = true → pairOn st (wMajor w).toNat (wMinor w).toNat w = some (some i)) : Statement i := by
  intro w' h' hw st hs'
  rw [he] at h'
  rw [hs] at hs'
  obtain rfl := Option.some.inj h'
  simp [decode, h st hs' hw, hw]

theorem add (p d a b) : Statement (.add p d a b) := by
  refine of_pair [.sq] rfl rfl fun st hs hw => ?_
  obtain rfl := List.mem_singleton.1 hs
  simp [pairOn, sharedPair, decScalar, encRRR, decRRR, need]

theorem sub (p d a b) : Statement (.sub p d a b) := by
  refine of_pair [.sq] rfl rfl fun st hs hw => ?_
  obtain rfl := List.mem_singleton.1 hs
  simp [pairOn, sharedPair, decScalar, encRRR, decRRR, need]

theorem addi (p d a imm) : Statement (.addi p d a imm) := by
  refine of_pair [.sq] rfl rfl fun st hs hw => ?_
  obtain rfl := List.mem_singleton.1 hs
  simp [pairOn, sharedPair, decScalar, encRRI, decRRI, need]

theorem lea (p d a b sh imm) : Statement (.lea p d a b sh imm) := by
  refine of_pair [.sq] rfl rfl fun st hs hw => ?_
  obtain rfl := List.mem_singleton.1 hs
  simp [pairOn, sharedPair, decScalar]

theorem mul (p d a b) : Statement (.mul p d a b) := by
  refine of_pair [.sq] rfl rfl fun st hs hw => ?_
  obtain rfl := List.mem_singleton.1 hs
  simp [pairOn, sharedPair, decScalar, encRRR, decRRR, need]

theorem mulh (p d a b) : Statement (.mulh p d a b) := by
  refine of_pair [.sq] rfl rfl fun st hs hw => ?_
  obtain rfl := List.mem_singleton.1 hs
  simp [pairOn, sharedPair, decScalar, encRRR, decRRR, need]

theorem mulhn (p d a b) : Statement (.mulhn p d a b) := by
  refine of_pair [.sq] rfl rfl fun st hs hw => ?_
  obtain rfl := List.mem_singleton.1 hs
  simp [pairOn, sharedPair, decScalar, encRRR, decRRR, need]

theorem div (p d a b) : Statement (.div p d a b) := by
  refine of_pair [.sq] rfl rfl fun st hs hw => ?_
  obtain rfl := List.mem_singleton.1 hs
  simp [pairOn, sharedPair, decScalar, encRRR, decRRR, need]

theorem divn (p d a b) : Statement (.divn p d a b) := by
  refine of_pair [.sq] rfl rfl fun st hs hw => ?_
  obtain rfl := List.mem_singleton.1 hs
  simp [pairOn, sharedPair, decScalar, encRRR, decRRR, need]

theorem rem (p d a b) : Statement (.rem p d a b) := by
  refine of_pair [.sq] rfl rfl fun st hs hw => ?_
  obtain rfl := List.mem_singleton.1 hs
  simp [pairOn, sharedPair, decScalar, encRRR, decRRR, need]

theorem remn (p d a b) : Statement (.remn p d a b) := by
  refine of_pair [.sq] rfl rfl fun st hs hw => ?_
  obtain rfl := List.mem_singleton.1 hs
  simp [pairOn, sharedPair, decScalar, encRRR, decRRR, need]

theorem and (p d a b) : Statement (.and p d a b) := by
  refine of_pair [.sq] rfl rfl fun st hs hw => ?_
  obtain rfl := List.mem_singleton.1 hs
  simp [pairOn, sharedPair, decScalar, encRRR, decRRR, need]

theorem or (p d a b) : Statement (.or p d a b) := by
  refine of_pair [.sq] rfl rfl fun st hs hw => ?_
  obtain rfl := List.mem_singleton.1 hs
  simp [pairOn, sharedPair, decScalar, encRRR, decRRR, need]

theorem xor (p d a b) : Statement (.xor p d a b) := by
  refine of_pair [.sq] rfl rfl fun st hs hw => ?_
  obtain rfl := List.mem_singleton.1 hs
  simp [pairOn, sharedPair, decScalar, encRRR, decRRR, need]

theorem andn (p d a b) : Statement (.andn p d a b) := by
  refine of_pair [.sq] rfl rfl fun st hs hw => ?_
  obtain rfl := List.mem_singleton.1 hs
  simp [pairOn, sharedPair, decScalar, encRRR, decRRR, need]

theorem andi (p d a imm) : Statement (.andi p d a imm) := by
  refine of_pair [.sq] rfl rfl fun st hs hw => ?_
  obtain rfl := List.mem_singleton.1 hs
  simp [pairOn, sharedPair, decScalar, encRRI, decRRI, need]

theorem ori (p d a imm) : Statement (.ori p d a imm) := by
  refine of_pair [.sq] rfl rfl fun st hs hw => ?_
  obtain rfl := List.mem_singleton.1 hs
  simp [pairOn, sharedPair, decScalar, encRRI, decRRI, need]

theorem xori (p d a imm) : Statement (.xori p d a imm) := by
  refine of_pair [.sq] rfl rfl fun st hs hw => ?_
  obtain rfl := List.mem_singleton.1 hs
  simp [pairOn, sharedPair, decScalar, encRRI, decRRI, need]

theorem shl (p d a b) : Statement (.shl p d a b) := by
  refine of_pair [.sq] rfl rfl fun st hs hw => ?_
  obtain rfl := List.mem_singleton.1 hs
  simp [pairOn, sharedPair, decScalar, encRRR, decRRR, need]

theorem shr (p d a b) : Statement (.shr p d a b) := by
  refine of_pair [.sq] rfl rfl fun st hs hw => ?_
  obtain rfl := List.mem_singleton.1 hs
  simp [pairOn, sharedPair, decScalar, encRRR, decRRR, need]

theorem shra (p d a b) : Statement (.shra p d a b) := by
  refine of_pair [.sq] rfl rfl fun st hs hw => ?_
  obtain rfl := List.mem_singleton.1 hs
  simp [pairOn, sharedPair, decScalar, encRRR, decRRR, need]

theorem rotl (p d a b) : Statement (.rotl p d a b) := by
  refine of_pair [.sq] rfl rfl fun st hs hw => ?_
  obtain rfl := List.mem_singleton.1 hs
  simp [pairOn, sharedPair, decScalar, encRRR, decRRR, need]

theorem min (p d a b) : Statement (.min p d a b) := by
  refine of_pair [.sq] rfl rfl fun st hs hw => ?_
  obtain rfl := List.mem_singleton.1 hs
  simp [pairOn, sharedPair, decScalar, encRRR, decRRR, need]

theorem max (p d a b) : Statement (.max p d a b) := by
  refine of_pair [.sq] rfl rfl fun st hs hw => ?_
  obtain rfl := List.mem_singleton.1 hs
  simp [pairOn, sharedPair, decScalar, encRRR, decRRR, need]

theorem minn (p d a b) : Statement (.minn p d a b) := by
  refine of_pair [.sq] rfl rfl fun st hs hw => ?_
  obtain rfl := List.mem_singleton.1 hs
  simp [pairOn, sharedPair, decScalar, encRRR, decRRR, need]

theorem maxn (p d a b) : Statement (.maxn p d a b) := by
  refine of_pair [.sq] rfl rfl fun st hs hw => ?_
  obtain rfl := List.mem_singleton.1 hs
  simp [pairOn, sharedPair, decScalar, encRRR, decRRR, need]

theorem clz (p d a) : Statement (.clz p d a) := by
  refine of_pair [.sq] rfl rfl fun st hs hw => ?_
  obtain rfl := List.mem_singleton.1 hs
  simp [pairOn, sharedPair, decScalar, decRR, need]

theorem ffs (p d a) : Statement (.ffs p d a) := by
  refine of_pair [.sq] rfl rfl fun st hs hw => ?_
  obtain rfl := List.mem_singleton.1 hs
  simp [pairOn, sharedPair, decScalar, decRR, need]

theorem popc (p d a) : Statement (.popc p d a) := by
  refine of_pair [.sq] rfl rfl fun st hs hw => ?_
  obtain rfl := List.mem_singleton.1 hs
  simp [pairOn, sharedPair, decScalar, decRR, need]

theorem brev (p d a) : Statement (.brev p d a) := by
  refine of_pair [.sq] rfl rfl fun st hs hw => ?_
  obtain rfl := List.mem_singleton.1 hs
  simp [pairOn, sharedPair, decScalar, decRR, need]

theorem sext (p d a w) : Statement (.sext p d a w) := by
  refine of_pair [.sq] rfl rfl fun st hs hw => ?_
  obtain rfl := List.mem_singleton.1 hs
  simp [pairOn, sharedPair, decScalar, decExt, need]

theorem zext (p d a w) : Statement (.zext p d a w) := by
  refine of_pair [.sq] rfl rfl fun st hs hw => ?_
  obtain rfl := List.mem_singleton.1 hs
  simp [pairOn, sharedPair, decScalar, decExt, need]

theorem sel (p d a b neg f) : Statement (.sel p d a b neg f) := by
  refine of_pair [.sq] rfl rfl fun st hs hw => ?_
  obtain rfl := List.mem_singleton.1 hs
  simp [pairOn, sharedPair, decScalar, ofBool_beq_one, cat_hi, cat_lo, need]

theorem ldi (p d imm) : Statement (.ldi p d imm) := by
  refine of_pair [.sq] rfl rfl fun st hs hw => ?_
  obtain rfl := List.mem_singleton.1 hs
  simp [pairOn, sharedPair, decScalar, need]

theorem cmp (p fd a b cc) : Statement (.cmp p fd a b cc) := by
  refine of_pair [.sq] rfl rfl fun st hs hw => ?_
  obtain rfl := List.mem_singleton.1 hs
  simp [pairOn, sharedPair, decScalar, decCond, cat_hi, cat_lo, need]

theorem cmpi (p fd a imm cc) : Statement (.cmpi p fd a imm cc) := by
  refine of_pair [.sq] rfl rfl fun st hs hw => ?_
  obtain rfl := List.mem_singleton.1 hs
  simp [pairOn, sharedPair, decScalar, decCond, cat_hi, cat_lo, need]

theorem pand (p fd fa fb) : Statement (.pand p fd fa fb) := by
  refine of_pair [.sq] rfl rfl fun st hs hw => ?_
  obtain rfl := List.mem_singleton.1 hs
  simp [pairOn, sharedPair, decScalar, decPPP, need]

theorem por (p fd fa fb) : Statement (.por p fd fa fb) := by
  refine of_pair [.sq] rfl rfl fun st hs hw => ?_
  obtain rfl := List.mem_singleton.1 hs
  simp [pairOn, sharedPair, decScalar, decPPP, need]

theorem pxor (p fd fa fb) : Statement (.pxor p fd fa fb) := by
  refine of_pair [.sq] rfl rfl fun st hs hw => ?_
  obtain rfl := List.mem_singleton.1 hs
  simp [pairOn, sharedPair, decScalar, decPPP, need]

theorem pnot (p fd fa) : Statement (.pnot p fd fa) := by
  refine of_pair [.sq] rfl rfl fun st hs hw => ?_
  obtain rfl := List.mem_singleton.1 hs
  simp [pairOn, sharedPair, decScalar, need]

theorem ftest (p fd w) : Statement (.ftest p fd w) := by
  refine of_pair [.sq] rfl rfl fun st hs hw => ?_
  obtain rfl := List.mem_singleton.1 hs
  simp [pairOn, sharedPair, decScalar, cat_hi, cat_lo, need]

theorem fcount (p d w) : Statement (.fcount p d w) := by
  refine of_pair [.sq] rfl rfl fun st hs hw => ?_
  obtain rfl := List.mem_singleton.1 hs
  simp [pairOn, sharedPair, decScalar, cat_hi, cat_lo, need]

theorem prep (p bt off) : Statement (.prep p bt off) := by
  refine of_pair [.sq] rfl rfl fun st hs hw => ?_
  obtain rfl := List.mem_singleton.1 hs
  simp [pairOn, sharedPair, decControl, decB, need]

theorem prepr (p bt src) : Statement (.prepr p bt src) := by
  refine of_pair [.sq] rfl rfl fun st hs hw => ?_
  obtain rfl := List.mem_singleton.1 hs
  simp [pairOn, sharedPair, decControl, decB, need]

theorem br (p bt) : Statement (.br p bt) := by
  refine of_pair [.sq] rfl rfl fun st hs hw => ?_
  obtain rfl := List.mem_singleton.1 hs
  simp [pairOn, sharedPair, decControl, decB, need]

theorem brl (p bt lb) : Statement (.brl p bt lb) := by
  refine of_pair [.sq] rfl rfl fun st hs hw => ?_
  obtain rfl := List.mem_singleton.1 hs
  simp [pairOn, sharedPair, decControl, decB, need]

theorem binv (p bt) : Statement (.binv p bt) := by
  refine of_pair [.sq] rfl rfl fun st hs hw => ?_
  obtain rfl := List.mem_singleton.1 hs
  simp [pairOn, sharedPair, decControl, decB, need]

theorem bsel (p bt a b mask d) : Statement (.bsel p bt a b mask d) := by
  refine of_pair [.sq] rfl rfl fun st hs hw => ?_
  obtain rfl := List.mem_singleton.1 hs
  simp [pairOn, sharedPair, decControl, cat_hi, cat_lo, need]

theorem nop (p) : Statement (.nop p) := by
  refine of_pair Stream.all rfl rfl fun st hs hw => ?_
  simp [pairOn, sharedPair, decControl, decAccess, decS0, need]

theorem ifence (p a b) : Statement (.ifence p a b) := by
  refine of_pair [.sq] rfl rfl fun st hs hw => ?_
  obtain rfl := List.mem_singleton.1 hs
  simp [pairOn, sharedPair, decControl, need]

theorem ld (p d a width sign imm) : Statement (.ld p d a width sign imm) := by
  refine of_pair [.sq] rfl rfl fun st hs hw => ?_
  obtain rfl := List.mem_singleton.1 hs
  simp [pairOn, sharedPair, decControl, decLoad, ofBool_beq_one, cat_hi, cat_lo, need]

theorem st (p a b width imm) : Statement (.st p a b width imm) := by
  refine of_pair [.sq] rfl rfl fun st hs hw => ?_
  obtain rfl := List.mem_singleton.1 hs
  simp [pairOn, sharedPair, decControl, decStore, cat_hi, cat_lo, need]

theorem ldl (p d a width sign imm) : Statement (.ldl p d a width sign imm) := by
  refine of_pair [.sq] rfl rfl fun st hs hw => ?_
  obtain rfl := List.mem_singleton.1 hs
  simp [pairOn, sharedPair, decControl, decLoad, ofBool_beq_one, cat_hi, cat_lo, need]

theorem stl (p a b width imm) : Statement (.stl p a b width imm) := by
  refine of_pair [.sq] rfl rfl fun st hs hw => ?_
  obtain rfl := List.mem_singleton.1 hs
  simp [pairOn, sharedPair, decControl, decStore, cat_hi, cat_lo, need]

theorem amoAdd (p d a b x) : Statement (.amoAdd p d a b x) := by
  refine of_pair [.sq] rfl rfl fun st hs hw => ?_
  obtain rfl := List.mem_singleton.1 hs
  simp [pairOn, sharedPair, decControl, encAmo, decAmo, need]

theorem amoMin (p d a b x) : Statement (.amoMin p d a b x) := by
  refine of_pair [.sq] rfl rfl fun st hs hw => ?_
  obtain rfl := List.mem_singleton.1 hs
  simp [pairOn, sharedPair, decControl, encAmo, decAmo, need]

theorem amoMax (p d a b x) : Statement (.amoMax p d a b x) := by
  refine of_pair [.sq] rfl rfl fun st hs hw => ?_
  obtain rfl := List.mem_singleton.1 hs
  simp [pairOn, sharedPair, decControl, encAmo, decAmo, need]

theorem amoMinn (p d a b x) : Statement (.amoMinn p d a b x) := by
  refine of_pair [.sq] rfl rfl fun st hs hw => ?_
  obtain rfl := List.mem_singleton.1 hs
  simp [pairOn, sharedPair, decControl, encAmo, decAmo, need]

theorem amoMaxn (p d a b x) : Statement (.amoMaxn p d a b x) := by
  refine of_pair [.sq] rfl rfl fun st hs hw => ?_
  obtain rfl := List.mem_singleton.1 hs
  simp [pairOn, sharedPair, decControl, encAmo, decAmo, need]

theorem amoAnd (p d a b x) : Statement (.amoAnd p d a b x) := by
  refine of_pair [.sq] rfl rfl fun st hs hw => ?_
  obtain rfl := List.mem_singleton.1 hs
  simp [pairOn, sharedPair, decControl, encAmo, decAmo, need]

theorem amoOr (p d a b x) : Statement (.amoOr p d a b x) := by
  refine of_pair [.sq] rfl rfl fun st hs hw => ?_
  obtain rfl := List.mem_singleton.1 hs
  simp [pairOn, sharedPair, decControl, encAmo, decAmo, need]

theorem amoXor (p d a b x) : Statement (.amoXor p d a b x) := by
  refine of_pair [.sq] rfl rfl fun st hs hw => ?_
  obtain rfl := List.mem_singleton.1 hs
  simp [pairOn, sharedPair, decControl, encAmo, decAmo, need]

theorem amoSwap (p d a b x) : Statement (.amoSwap p d a b x) := by
  refine of_pair [.sq] rfl rfl fun st hs hw => ?_
  obtain rfl := List.mem_singleton.1 hs
  simp [pairOn, sharedPair, decControl, encAmo, decAmo, need]

theorem amoCas (p d a b c x) : Statement (.amoCas p d a b c x) := by
  refine of_pair [.sq] rfl rfl fun st hs hw => ?_
  obtain rfl := List.mem_singleton.1 hs
  simp [pairOn, sharedPair, decControl, encAmo]

theorem fence (p sc) : Statement (.fence p sc) := by
  refine of_pair [.sq] rfl rfl fun st hs hw => ?_
  obtain rfl := List.mem_singleton.1 hs
  simp [pairOn, sharedPair, decControl, need]

theorem waitmem (p d a b width cc imm) : Statement (.waitmem p d a b width cc imm) := by
  refine of_pair [.sq] rfl rfl fun st hs hw => ?_
  obtain rfl := List.mem_singleton.1 hs
  simp [pairOn, sharedPair, decControl, cat_hi, cat_lo]

theorem semwait (p d a b imm) : Statement (.semwait p d a b imm) := by
  refine of_pair [.sq] rfl rfl fun st hs hw => ?_
  obtain rfl := List.mem_singleton.1 hs
  simp [pairOn, sharedPair, decControl, need]

theorem sempost (p a b imm) : Statement (.sempost p a b imm) := by
  refine of_pair [.sq] rfl rfl fun st hs hw => ?_
  obtain rfl := List.mem_singleton.1 hs
  simp [pairOn, sharedPair, decControl, need]

theorem barw (p d a lvl) : Statement (.barw p d a lvl) := by
  refine of_pair [.sq] rfl rfl fun st hs hw => ?_
  obtain rfl := List.mem_singleton.1 hs
  simp [pairOn, sharedPair, decControl, cat_hi, cat_lo, need]

theorem issue (p e preg off) : Statement (.issue p e preg off) := by
  refine of_pair [.sq] rfl rfl fun st hs hw => ?_
  obtain rfl := List.mem_singleton.1 hs
  simp [pairOn, sharedPair, decControl, cat_hi, cat_lo, need]

theorem issueReg (p e preg areg) : Statement (.issueReg p e preg areg) := by
  refine of_pair [.sq] rfl rfl fun st hs hw => ?_
  obtain rfl := List.mem_singleton.1 hs
  simp [pairOn, sharedPair, decControl, cat_hi, cat_lo, need]

theorem rdv (p) : Statement (.rdv p) := by
  refine of_pair [.sq] rfl rfl fun st hs hw => ?_
  obtain rfl := List.mem_singleton.1 hs
  simp [pairOn, sharedPair, decControl, decS0, need]

theorem jobend (p) : Statement (.jobend p) := by
  refine of_pair [.sq] rfl rfl fun st hs hw => ?_
  obtain rfl := List.mem_singleton.1 hs
  simp [pairOn, sharedPair, decControl, decS0, need]

theorem tbind (p n preg) : Statement (.tbind p n preg) := by
  refine of_pair [.sq] rfl rfl fun st hs hw => ?_
  obtain rfl := List.mem_singleton.1 hs
  simp [pairOn, sharedPair, decControl, encTP, decTP, cat_hi, cat_lo, need]

theorem tfree (p n) : Statement (.tfree p n) := by
  refine of_pair [.sq] rfl rfl fun st hs hw => ?_
  obtain rfl := List.mem_singleton.1 hs
  simp [pairOn, sharedPair, decControl, cat_hi, cat_lo, need]

theorem trap (p code) : Statement (.trap p code) := by
  refine of_pair [.sq] rfl rfl fun st hs hw => ?_
  obtain rfl := List.mem_singleton.1 hs
  simp [pairOn, sharedPair, decControl, cat_hi, cat_lo, need]

theorem guard (p a) : Statement (.guard p a) := by
  refine of_pair [.sq] rfl rfl fun st hs hw => ?_
  obtain rfl := List.mem_singleton.1 hs
  simp [pairOn, sharedPair, decControl, need]

theorem guardHealth (p) : Statement (.guardHealth p) := by
  refine of_pair [.sq] rfl rfl fun st hs hw => ?_
  obtain rfl := List.mem_singleton.1 hs
  simp [pairOn, sharedPair, decControl, need]

theorem caprd (p d a imm) : Statement (.caprd p d a imm) := by
  refine of_pair [.sq] rfl rfl fun st hs hw => ?_
  obtain rfl := List.mem_singleton.1 hs
  simp [pairOn, sharedPair, decControl, encRRI, decRRI, need]

theorem csrrd (p d num) : Statement (.csrrd p d num) := by
  refine of_pair [.sq] rfl rfl fun st hs hw => ?_
  obtain rfl := List.mem_singleton.1 hs
  simp [pairOn, sharedPair, decControl, cat_hi, cat_lo, need]

theorem csrwr (p num a) : Statement (.csrwr p num a) := by
  refine of_pair [.sq] rfl rfl fun st hs hw => ?_
  obtain rfl := List.mem_singleton.1 hs
  rw [show (Instr.csrwr p num a).wf = (csrKnown num && !csrWritable num && okReg a) from rfl] at hw
  have h1 : csrWritable num = false := by simp_all
  have h2 : ¬BitVec.extractLsb' 3 9 num = 15#9 := by
    intro h
    have h3 : num.toNat / 8 = 15 := by
      have h5 := congrArg BitVec.toNat h
      simp [Nat.shiftRight_eq_div_pow] at h5
      omega
    simp [csrWritable] at h1
    omega
  have h4 : num ≠ 16#12 ∧ num ≠ 112#12 ∧ num ≠ 113#12 ∧ num ≠ 114#12 := by
    refine ⟨?_, ?_, ?_, ?_⟩ <;> rintro rfl <;> revert h1 <;> decide
  simp [pairOn, sharedPair, decControl, encCsrwr, decCsrwr, cat_hi, cat_lo, need, h2, h4]

theorem domWrite (p a) : Statement (.domWrite p a) := by
  refine of_pair [.sq] rfl rfl fun st hs hw => ?_
  obtain rfl := List.mem_singleton.1 hs
  simp [pairOn, sharedPair, decControl, encCsrwr, decCsrwr, need]

theorem otbaseWrite (p a) : Statement (.otbaseWrite p a) := by
  refine of_pair [.sq] rfl rfl fun st hs hw => ?_
  obtain rfl := List.mem_singleton.1 hs
  simp [pairOn, sharedPair, decControl, encCsrwr, decCsrwr, need]

theorem othiWrite (p a) : Statement (.othiWrite p a) := by
  refine of_pair [.sq] rfl rfl fun st hs hw => ?_
  obtain rfl := List.mem_singleton.1 hs
  simp [pairOn, sharedPair, decControl, encCsrwr, decCsrwr, need]

theorem otloWrite (p a) : Statement (.otloWrite p a) := by
  refine of_pair [.sq] rfl rfl fun st hs hw => ?_
  obtain rfl := List.mem_singleton.1 hs
  simp [pairOn, sharedPair, decControl, encCsrwr, decCsrwr, need]

theorem stepWrite (p n a) : Statement (.stepWrite p n a) := by
  refine of_pair [.sq] rfl rfl fun st hs hw => ?_
  obtain rfl := List.mem_singleton.1 hs
  have h4 : ∀ n : BitVec 3, ¬15#9 ++ n = 16#12 ∧ ¬15#9 ++ n = 112#12 ∧ ¬15#9 ++ n = 113#12 ∧ ¬15#9 ++ n = 114#12 := by decide
  simp [pairOn, sharedPair, decControl, encCsrwr, decCsrwr, cat_hi, cat_lo, need, h4 n]

theorem grouprd (p d a b fn) : Statement (.grouprd p d a b fn) := by
  refine of_pair [.sq] rfl rfl fun st hs hw => ?_
  obtain rfl := List.mem_singleton.1 hs
  simp [pairOn, sharedPair, decControl, need]

theorem pset (p g v) : Statement (.pset p g v) := by
  cases v with
  | imm x =>
    refine of_pair [.ax] rfl rfl fun st hs hw => ?_
    obtain rfl := List.mem_singleton.1 hs
    simp [pairOn, sharedPair, decAccess, encVS, decV, decG, cat_hi, cat_lo, need]
  | reg r =>
    refine of_pair [.ax] rfl rfl fun st hs hw => ?_
    obtain rfl := List.mem_singleton.1 hs
    rw [show (Instr.pset p g (VSrc.reg r)).wf = VSrc.wf (.reg r) from rfl] at hw
    have h0 : ¬r = 0#6 := by
      rintro rfl
      simp [VSrc.wf] at hw
    simp [pairOn, sharedPair, decAccess, encVS, decV, decG, cat_hi, cat_lo, need, h0]

theorem prst (p g v) : Statement (.prst p g v) := by
  cases v with
  | imm x =>
    refine of_pair [.ax] rfl rfl fun st hs hw => ?_
    obtain rfl := List.mem_singleton.1 hs
    simp [pairOn, sharedPair, decAccess, encVS, decV, decG, cat_hi, cat_lo, need]
  | reg r =>
    refine of_pair [.ax] rfl rfl fun st hs hw => ?_
    obtain rfl := List.mem_singleton.1 hs
    rw [show (Instr.prst p g (VSrc.reg r)).wf = VSrc.wf (.reg r) from rfl] at hw
    have h0 : ¬r = 0#6 := by
      rintro rfl
      simp [VSrc.wf] at hw
    simp [pairOn, sharedPair, decAccess, encVS, decV, decG, cat_hi, cat_lo, need, h0]

theorem qinit (p h base sz depth prod cons) : Statement (.qinit p h base sz depth prod cons) := by
  refine of_pair Stream.all rfl rfl fun st hs hw => ?_
  simp [pairOn, sharedPair, decControl, decAccess, decHandle, cat_hi, cat_lo, need]

theorem waitf (p h n) : Statement (.waitf p h n) := by
  refine of_pair Stream.all rfl rfl fun st hs hw => ?_
  simp [pairOn, sharedPair, decControl, decAccess, encHn, decHandle, decHn, cat_hi, cat_lo, need]

theorem waite (p h n) : Statement (.waite p h n) := by
  refine of_pair Stream.all rfl rfl fun st hs hw => ?_
  simp [pairOn, sharedPair, decControl, decAccess, encHn, decHandle, decHn, cat_hi, cat_lo, need]

theorem advh (p h n) : Statement (.advh p h n) := by
  refine of_pair Stream.all rfl rfl fun st hs hw => ?_
  simp [pairOn, sharedPair, decControl, decAccess, encHn, decHandle, decHn, cat_hi, cat_lo, need]

theorem advt (p h n) : Statement (.advt p h n) := by
  refine of_pair Stream.all rfl rfl fun st hs hw => ?_
  simp [pairOn, sharedPair, decControl, decAccess, encHn, decHandle, decHn, cat_hi, cat_lo, need]

theorem loop (p lvl cnt bl wa) : Statement (.loop p lvl cnt bl wa) := by
  have hp : (BitVec.ofBool p.neg == 1#1) = p.neg := ofBool_beq_one _
  cases wa <;> cases cnt
  · refine of_pair [.ax, .mx, .vx, .sx] rfl rfl fun st hs hw => ?_
    rcases st with _ | _ | _ | _ | _ <;> simp at hs <;>
      simp [pairOn, sharedPair, decAccess, wMajor, wMinor, wPred, fld, encHead, hp, cat_hi, cat_lo, need]
  · refine of_pair [.ax, .mx, .vx, .sx] rfl rfl fun st hs hw => ?_
    rcases st with _ | _ | _ | _ | _ <;> simp at hs <;>
      simp [pairOn, sharedPair, decAccess, wMajor, wMinor, wPred, fld, encHead, hp, cat_hi, cat_lo, need]
  · refine of_pair [.vx] rfl rfl fun st hs hw => ?_
    obtain rfl := List.mem_singleton.1 hs
    simp [pairOn, sharedPair, decAccess, wMajor, wMinor, wPred, fld, encHead, hp, cat_hi, cat_lo, need]
  · refine of_pair [.vx] rfl rfl fun st hs hw => ?_
    obtain rfl := List.mem_singleton.1 hs
    simp [pairOn, sharedPair, decAccess, wMajor, wMinor, wPred, fld, encHead, hp, cat_hi, cat_lo, need]

theorem fill (p h g v) : Statement (.fill p h g v) := by
  cases v with
  | imm x =>
    refine of_pair [.ax] rfl rfl fun st hs hw => ?_
    obtain rfl := List.mem_singleton.1 hs
    simp [pairOn, sharedPair, decAccess, encVS, decV, decHG, cat_hi, cat_lo, need]
  | reg r =>
    refine of_pair [.ax] rfl rfl fun st hs hw => ?_
    obtain rfl := List.mem_singleton.1 hs
    rw [show (Instr.fill p h g (VSrc.reg r)).wf = VSrc.wf (.reg r) from rfl] at hw
    have h0 : ¬r = 0#6 := by
      rintro rfl
      simp [VSrc.wf] at hw
    simp [pairOn, sharedPair, decAccess, encVS, decV, decHG, cat_hi, cat_lo, need, h0]

theorem spillq (p h g v) : Statement (.spillq p h g v) := by
  cases v with
  | imm x =>
    refine of_pair [.ax] rfl rfl fun st hs hw => ?_
    obtain rfl := List.mem_singleton.1 hs
    simp [pairOn, sharedPair, decAccess, encVS, decV, decHG, cat_hi, cat_lo, need]
  | reg r =>
    refine of_pair [.ax] rfl rfl fun st hs hw => ?_
    obtain rfl := List.mem_singleton.1 hs
    rw [show (Instr.spillq p h g (VSrc.reg r)).wf = VSrc.wf (.reg r) from rfl] at hw
    have h0 : ¬r = 0#6 := by
      rintro rfl
      simp [VSrc.wf] at hw
    simp [pairOn, sharedPair, decAccess, encVS, decV, decHG, cat_hi, cat_lo, need, h0]

theorem omld (p o v) : Statement (.omld p o v) := by
  cases v with
  | imm x =>
    refine of_pair [.ax] rfl rfl fun st hs hw => ?_
    obtain rfl := List.mem_singleton.1 hs
    simp [pairOn, sharedPair, decAccess, encVS, decV, cat_hi, cat_lo, need]
  | reg r =>
    refine of_pair [.ax] rfl rfl fun st hs hw => ?_
    obtain rfl := List.mem_singleton.1 hs
    rw [show (Instr.omld p o (VSrc.reg r)).wf = VSrc.wf (.reg r) from rfl] at hw
    have h0 : ¬r = 0#6 := by
      rintro rfl
      simp [VSrc.wf] at hw
    simp [pairOn, sharedPair, decAccess, encVS, decV, cat_hi, cat_lo, need, h0]

theorem bfmtw (p bank v) : Statement (.bfmtw p bank v) := by
  cases v with
  | imm x =>
    refine of_pair [.ax] rfl rfl fun st hs hw => ?_
    obtain rfl := List.mem_singleton.1 hs
    simp [pairOn, sharedPair, decAccess, encVS, decV, cat_hi, cat_lo, need]
  | reg r =>
    refine of_pair [.ax] rfl rfl fun st hs hw => ?_
    obtain rfl := List.mem_singleton.1 hs
    rw [show (Instr.bfmtw p bank (VSrc.reg r)).wf = VSrc.wf (.reg r) from rfl] at hw
    have h0 : ¬r = 0#6 := by
      rintro rfl
      simp [VSrc.wf] at hw
    simp [pairOn, sharedPair, decAccess, encVS, decV, cat_hi, cat_lo, need, h0]

theorem spmove (p v) : Statement (.spmove p v) := by
  cases v with
  | imm x =>
    refine of_pair [.ax] rfl rfl fun st hs hw => ?_
    obtain rfl := List.mem_singleton.1 hs
    simp [pairOn, sharedPair, decAccess, encVS, decV, need]
  | reg r =>
    refine of_pair [.ax] rfl rfl fun st hs hw => ?_
    obtain rfl := List.mem_singleton.1 hs
    rw [show (Instr.spmove p (VSrc.reg r)).wf = VSrc.wf (.reg r) from rfl] at hw
    have h0 : ¬r = 0#6 := by
      rintro rfl
      simp [VSrc.wf] at hw
    simp [pairOn, sharedPair, decAccess, encVS, decV, need, h0]

theorem sendt (p g v) : Statement (.sendt p g v) := by
  cases v with
  | imm x =>
    refine of_pair [.ax] rfl rfl fun st hs hw => ?_
    obtain rfl := List.mem_singleton.1 hs
    simp [pairOn, sharedPair, decAccess, encVS, decV, decG, cat_hi, cat_lo, need]
  | reg r =>
    refine of_pair [.ax] rfl rfl fun st hs hw => ?_
    obtain rfl := List.mem_singleton.1 hs
    rw [show (Instr.sendt p g (VSrc.reg r)).wf = VSrc.wf (.reg r) from rfl] at hw
    have h0 : ¬r = 0#6 := by
      rintro rfl
      simp [VSrc.wf] at hw
    simp [pairOn, sharedPair, decAccess, encVS, decV, decG, cat_hi, cat_lo, need, h0]

theorem copy (p t preg sreg dreg) : Statement (.copy p t preg sreg dreg) := by
  refine of_pair [.sq] rfl rfl fun st hs hw => ?_
  obtain rfl := List.mem_singleton.1 hs
  simp [pairOn, sharedPair, decAccess, decCopy, cat_hi, cat_lo, need]

theorem copyx (p t preg sreg dreg) : Statement (.copyx p t preg sreg dreg) := by
  refine of_pair [.sq] rfl rfl fun st hs hw => ?_
  obtain rfl := List.mem_singleton.1 hs
  simp [pairOn, sharedPair, decAccess, decCopy, cat_hi, cat_lo, need]

theorem cwait (p d t) : Statement (.cwait p d t) := by
  refine of_pair [.sq] rfl rfl fun st hs hw => ?_
  obtain rfl := List.mem_singleton.1 hs
  simp [pairOn, sharedPair, decAccess, cat_hi, cat_lo, need]

theorem ctest (p fd t) : Statement (.ctest p fd t) := by
  refine of_pair [.sq] rfl rfl fun st hs hw => ?_
  obtain rfl := List.mem_singleton.1 hs
  simp [pairOn, sharedPair, decAccess, cat_hi, cat_lo, need]

theorem claim (p o) : Statement (.claim p o) := by
  refine of_pair [.mx] rfl rfl fun st hs hw => ?_
  obtain rfl := List.mem_singleton.1 hs
  simp [pairOn, sharedPair, decMatrix, decO, cat_hi, cat_lo, need]

theorem release (p o) : Statement (.release p o) := by
  refine of_pair [.mx] rfl rfl fun st hs hw => ?_
  obtain rfl := List.mem_singleton.1 hs
  simp [pairOn, sharedPair, decMatrix, decO, cat_hi, cat_lo, need]

theorem mma (p d a b k ty pm pn pk rls) : Statement (.mma p d a b k ty pm pn pk rls) := by
  refine of_pair [.mx] rfl rfl fun st hs hw => ?_
  obtain rfl := List.mem_singleton.1 hs
  simp [pairOn, sharedPair, decMatrix, decMma, ofBool_beq_one, cat_hi, cat_lo, need]

theorem mzero (p d ty) : Statement (.mzero p d ty) := by
  refine of_pair [.mx] rfl rfl fun st hs hw => ?_
  obtain rfl := List.mem_singleton.1 hs
  simp [pairOn, sharedPair, decMatrix, vZero, cat_hi, cat_lo, need]

theorem mdrain (p d a ty rnd sat band wrap) : Statement (.mdrain p d a ty rnd sat band wrap) := by
  refine of_pair [.mx] rfl rfl fun st hs hw => ?_
  obtain rfl := List.mem_singleton.1 hs
  simp [pairOn, sharedPair, decMatrix, ofBool_beq_one, cat_hi, cat_lo, need]

theorem msetm (p i a pat) : Statement (.msetm p i a pat) := by
  refine of_pair [.mx] rfl rfl fun st hs hw => ?_
  obtain rfl := List.mem_singleton.1 hs
  simp [pairOn, sharedPair, decMatrix, encMset, decMset, ofBool_beq_one, cat_hi, cat_lo, need]

theorem msetn (p i a pat) : Statement (.msetn p i a pat) := by
  refine of_pair [.mx] rfl rfl fun st hs hw => ?_
  obtain rfl := List.mem_singleton.1 hs
  simp [pairOn, sharedPair, decMatrix, encMset, decMset, ofBool_beq_one, cat_hi, cat_lo, need]

theorem msetk (p i a pat) : Statement (.msetk p i a pat) := by
  refine of_pair [.mx] rfl rfl fun st hs hw => ?_
  obtain rfl := List.mem_singleton.1 hs
  simp [pairOn, sharedPair, decMatrix, encMset, decMset, ofBool_beq_one, cat_hi, cat_lo, need]

theorem mscale (p a col) : Statement (.mscale p a col) := by
  refine of_pair [.mx] rfl rfl fun st hs hw => ?_
  obtain rfl := List.mem_singleton.1 hs
  simp [pairOn, sharedPair, decMatrix, vZero, ofBool_beq_one, cat_hi, cat_lo, need]

theorem mstat (p sel a) : Statement (.mstat p sel a) := by
  cases sel with
  | st =>
    refine of_pair [.mx] rfl rfl fun st hs hw => ?_
    obtain rfl := List.mem_singleton.1 hs
    rw [show (Instr.mstat p .st a).wf = decide (a = 0) from rfl, decide_eq_true_iff] at hw
    subst hw
    simp [pairOn, sharedPair, decMatrix, vZero, need]
  | kc =>
    refine of_pair [.mx] rfl rfl fun st hs hw => ?_
    obtain rfl := List.mem_singleton.1 hs
    simp [pairOn, sharedPair, decMatrix, vZero, cat_hi, cat_lo, need]
  | md =>
    refine of_pair [.mx] rfl rfl fun st hs hw => ?_
    obtain rfl := List.mem_singleton.1 hs
    simp [pairOn, sharedPair, decMatrix, vZero, cat_hi, cat_lo, need]

theorem vadd (p v) : Statement (.vadd p v) := by
  refine of_pair [.vx] rfl rfl fun st hs hw => ?_
  obtain rfl := List.mem_singleton.1 hs
  simp [pairOn, sharedPair, decVec1, encX, encV2, dec2, decV2, decSfx, mod8, ofBool_beq_one, need]

theorem vsub (p v) : Statement (.vsub p v) := by
  refine of_pair [.vx] rfl rfl fun st hs hw => ?_
  obtain rfl := List.mem_singleton.1 hs
  simp [pairOn, sharedPair, decVec1, encX, encV2, dec2, decV2, decSfx, mod8, ofBool_beq_one, need]

theorem vmul (p v) : Statement (.vmul p v) := by
  refine of_pair [.vx] rfl rfl fun st hs hw => ?_
  obtain rfl := List.mem_singleton.1 hs
  simp [pairOn, sharedPair, decVec1, encX, encV2, dec2, decV2, decSfx, mod8, ofBool_beq_one, need]

theorem vfma (p v) : Statement (.vfma p v) := by
  refine of_pair [.vx] rfl rfl fun st hs hw => ?_
  obtain rfl := List.mem_singleton.1 hs
  simp [pairOn, sharedPair, decVec1, encX, encV3, dec3, decV3, decSfx, mod8, ofBool_beq_one, need]

theorem vfms (p v) : Statement (.vfms p v) := by
  refine of_pair [.vx] rfl rfl fun st hs hw => ?_
  obtain rfl := List.mem_singleton.1 hs
  simp [pairOn, sharedPair, decVec1, encX, encV3, dec3, decV3, decSfx, mod8, ofBool_beq_one, need]

theorem vfnma (p v) : Statement (.vfnma p v) := by
  refine of_pair [.vx] rfl rfl fun st hs hw => ?_
  obtain rfl := List.mem_singleton.1 hs
  simp [pairOn, sharedPair, decVec1, encX, encV3, dec3, decV3, decSfx, mod8, ofBool_beq_one, need]

theorem vneg (p v) : Statement (.vneg p v) := by
  refine of_pair [.vx] rfl rfl fun st hs hw => ?_
  obtain rfl := List.mem_singleton.1 hs
  simp [pairOn, sharedPair, decVec1, encX, encV1, dec1, decV1, decSfx, mod8, ofBool_beq_one, need]

theorem vabs (p v) : Statement (.vabs p v) := by
  refine of_pair [.vx] rfl rfl fun st hs hw => ?_
  obtain rfl := List.mem_singleton.1 hs
  simp [pairOn, sharedPair, decVec1, encX, encV1, dec1, decV1, decSfx, mod8, ofBool_beq_one, need]

theorem vmin (p v) : Statement (.vmin p v) := by
  refine of_pair [.vx] rfl rfl fun st hs hw => ?_
  obtain rfl := List.mem_singleton.1 hs
  simp [pairOn, sharedPair, decVec1, encX, encV2, dec2, decV2, decSfx, mod8, ofBool_beq_one, need]

theorem vmax (p v) : Statement (.vmax p v) := by
  refine of_pair [.vx] rfl rfl fun st hs hw => ?_
  obtain rfl := List.mem_singleton.1 hs
  simp [pairOn, sharedPair, decVec1, encX, encV2, dec2, decV2, decSfx, mod8, ofBool_beq_one, need]

theorem vdiv (p v) : Statement (.vdiv p v) := by
  refine of_pair [.vx] rfl rfl fun st hs hw => ?_
  obtain rfl := List.mem_singleton.1 hs
  simp [pairOn, sharedPair, decVec1, encX, encV2, dec2, decV2, decSfx, mod8, ofBool_beq_one, need]

theorem vsqrt (p v) : Statement (.vsqrt p v) := by
  refine of_pair [.vx] rfl rfl fun st hs hw => ?_
  obtain rfl := List.mem_singleton.1 hs
  simp [pairOn, sharedPair, decVec1, encX, encV1, dec1, decV1, decSfx, mod8, ofBool_beq_one, need]

theorem vrcp (p v) : Statement (.vrcp p v) := by
  refine of_pair [.vx] rfl rfl fun st hs hw => ?_
  obtain rfl := List.mem_singleton.1 hs
  simp [pairOn, sharedPair, decVec1, encX, encV1, dec1, decV1, decSfx, mod8, ofBool_beq_one, need]

theorem vrsq (p v) : Statement (.vrsq p v) := by
  refine of_pair [.vx] rfl rfl fun st hs hw => ?_
  obtain rfl := List.mem_singleton.1 hs
  simp [pairOn, sharedPair, decVec1, encX, encV1, dec1, decV1, decSfx, mod8, ofBool_beq_one, need]

theorem vexp2 (p v) : Statement (.vexp2 p v) := by
  refine of_pair [.vx] rfl rfl fun st hs hw => ?_
  obtain rfl := List.mem_singleton.1 hs
  simp [pairOn, sharedPair, decVec1, encX, encV1, dec1, decV1, decSfx, mod8, ofBool_beq_one, need]

theorem vlog2 (p v) : Statement (.vlog2 p v) := by
  refine of_pair [.vx] rfl rfl fun st hs hw => ?_
  obtain rfl := List.mem_singleton.1 hs
  simp [pairOn, sharedPair, decVec1, encX, encV1, dec1, decV1, decSfx, mod8, ofBool_beq_one, need]

theorem vexp (p v) : Statement (.vexp p v) := by
  refine of_pair [.vx] rfl rfl fun st hs hw => ?_
  obtain rfl := List.mem_singleton.1 hs
  simp [pairOn, sharedPair, decVec1, encX, encV1, dec1, decV1, decSfx, mod8, ofBool_beq_one, need]

theorem vtanh (p v) : Statement (.vtanh p v) := by
  refine of_pair [.vx] rfl rfl fun st hs hw => ?_
  obtain rfl := List.mem_singleton.1 hs
  simp [pairOn, sharedPair, decVec1, encX, encV1, dec1, decV1, decSfx, mod8, ofBool_beq_one, need]

theorem vsigm (p v) : Statement (.vsigm p v) := by
  refine of_pair [.vx] rfl rfl fun st hs hw => ?_
  obtain rfl := List.mem_singleton.1 hs
  simp [pairOn, sharedPair, decVec1, encX, encV1, dec1, decV1, decSfx, mod8, ofBool_beq_one, need]

theorem viadd (p v) : Statement (.viadd p v) := by
  refine of_pair [.vx] rfl rfl fun st hs hw => ?_
  obtain rfl := List.mem_singleton.1 hs
  simp [pairOn, sharedPair, decVec1, encX, encV2, dec2, decV2, decSfx, mod8, ofBool_beq_one, need]

theorem visub (p v) : Statement (.visub p v) := by
  refine of_pair [.vx] rfl rfl fun st hs hw => ?_
  obtain rfl := List.mem_singleton.1 hs
  simp [pairOn, sharedPair, decVec1, encX, encV2, dec2, decV2, decSfx, mod8, ofBool_beq_one, need]

theorem vimul (p v) : Statement (.vimul p v) := by
  refine of_pair [.vx] rfl rfl fun st hs hw => ?_
  obtain rfl := List.mem_singleton.1 hs
  simp [pairOn, sharedPair, decVec1, encX, encV2, dec2, decV2, decSfx, mod8, ofBool_beq_one, need]

theorem vimulh (p v) : Statement (.vimulh p v) := by
  refine of_pair [.vx] rfl rfl fun st hs hw => ?_
  obtain rfl := List.mem_singleton.1 hs
  simp [pairOn, sharedPair, decVec1, encX, encV2, dec2, decV2, decSfx, mod8, ofBool_beq_one, need]

theorem vimin (p v) : Statement (.vimin p v) := by
  refine of_pair [.vx] rfl rfl fun st hs hw => ?_
  obtain rfl := List.mem_singleton.1 hs
  simp [pairOn, sharedPair, decVec1, encX, encV2, dec2, decV2, decSfx, mod8, ofBool_beq_one, need]

theorem vimax (p v) : Statement (.vimax p v) := by
  refine of_pair [.vx] rfl rfl fun st hs hw => ?_
  obtain rfl := List.mem_singleton.1 hs
  simp [pairOn, sharedPair, decVec1, encX, encV2, dec2, decV2, decSfx, mod8, ofBool_beq_one, need]

theorem vand (p v) : Statement (.vand p v) := by
  refine of_pair [.vx] rfl rfl fun st hs hw => ?_
  obtain rfl := List.mem_singleton.1 hs
  simp [pairOn, sharedPair, decVec1, encX, encV2, dec2, decV2, decSfx, mod8, ofBool_beq_one, need]

theorem vor (p v) : Statement (.vor p v) := by
  refine of_pair [.vx] rfl rfl fun st hs hw => ?_
  obtain rfl := List.mem_singleton.1 hs
  simp [pairOn, sharedPair, decVec1, encX, encV2, dec2, decV2, decSfx, mod8, ofBool_beq_one, need]

theorem vxor (p v) : Statement (.vxor p v) := by
  refine of_pair [.vx] rfl rfl fun st hs hw => ?_
  obtain rfl := List.mem_singleton.1 hs
  simp [pairOn, sharedPair, decVec1, encX, encV2, dec2, decV2, decSfx, mod8, ofBool_beq_one, need]

theorem vnot (p v) : Statement (.vnot p v) := by
  refine of_pair [.vx] rfl rfl fun st hs hw => ?_
  obtain rfl := List.mem_singleton.1 hs
  simp [pairOn, sharedPair, decVec1, encX, encV1, dec1, decV1, decSfx, mod8, ofBool_beq_one, need]

theorem vshl (p v) : Statement (.vshl p v) := by
  refine of_pair [.vx] rfl rfl fun st hs hw => ?_
  obtain rfl := List.mem_singleton.1 hs
  simp [pairOn, sharedPair, decVec1, encX, encV2, dec2, decV2, decSfx, mod8, ofBool_beq_one, need]

theorem vshr (p v) : Statement (.vshr p v) := by
  refine of_pair [.vx] rfl rfl fun st hs hw => ?_
  obtain rfl := List.mem_singleton.1 hs
  simp [pairOn, sharedPair, decVec1, encX, encV2, dec2, decV2, decSfx, mod8, ofBool_beq_one, need]

theorem vshra (p v) : Statement (.vshra p v) := by
  refine of_pair [.vx] rfl rfl fun st hs hw => ?_
  obtain rfl := List.mem_singleton.1 hs
  simp [pairOn, sharedPair, decVec1, encX, encV2, dec2, decV2, decSfx, mod8, ofBool_beq_one, need]

theorem vclz (p v) : Statement (.vclz p v) := by
  refine of_pair [.vx] rfl rfl fun st hs hw => ?_
  obtain rfl := List.mem_singleton.1 hs
  simp [pairOn, sharedPair, decVec1, encX, encV1, dec1, decV1, decSfx, mod8, ofBool_beq_one, need]

theorem vffs (p v) : Statement (.vffs p v) := by
  refine of_pair [.vx] rfl rfl fun st hs hw => ?_
  obtain rfl := List.mem_singleton.1 hs
  simp [pairOn, sharedPair, decVec1, encX, encV1, dec1, decV1, decSfx, mod8, ofBool_beq_one, need]

theorem vpcnt (p v) : Statement (.vpcnt p v) := by
  refine of_pair [.vx] rfl rfl fun st hs hw => ?_
  obtain rfl := List.mem_singleton.1 hs
  simp [pairOn, sharedPair, decVec1, encX, encV1, dec1, decV1, decSfx, mod8, ofBool_beq_one, need]

theorem vcvt (p v src b c) : Statement (.vcvt p v src b c) := by
  refine of_pair [.vx] rfl rfl fun st hs hw => ?_
  obtain rfl := List.mem_singleton.1 hs
  rw [show (Instr.vcvt p v src b c).wf = (wfElem true v.d (v.a :: (b.toList ++ c.toList)) v.x &&
    decide (b.isSome = (v.x.ty.isRes || src.isRes)) && decide (c.isSome = (v.x.ty.isRes && src.isRes))) from rfl] at hw
  have hb : b.isSome = (v.x.ty.isRes || src.isRes) := by simp_all
  have hc : c.isSome = (v.x.ty.isRes && src.isRes) := by simp_all
  cases h1 : v.x.ty.isRes <;> cases h2 : src.isRes <;> cases b <;> cases c <;> simp [h1, h2] at hb hc <;>
    simp [pairOn, sharedPair, decVec1, encX, decV1, decSfx, decVcvt, ofBool_beq_one, cat_hi, cat_lo, need, h1, h2]

theorem vcmp (p k a b x cc) : Statement (.vcmp p k a b x cc) := by
  refine of_pair [.vx] rfl rfl fun st hs hw => ?_
  obtain rfl := List.mem_singleton.1 hs
  simp [pairOn, sharedPair, decVec1, encX, decSfx, ofBool_beq_one, cat_hi, cat_lo, need]

theorem vsel (p v k) : Statement (.vsel p v k) := by
  refine of_pair [.vx] rfl rfl fun st hs hw => ?_
  obtain rfl := List.mem_singleton.1 hs
  simp [pairOn, sharedPair, decVec1, encX, decV2, decSfx, mod8, ofBool_beq_one, need]

theorem kand (p kd ka kb) : Statement (.kand p kd ka kb) := by
  refine of_pair [.vx] rfl rfl fun st hs hw => ?_
  obtain rfl := List.mem_singleton.1 hs
  simp [pairOn, sharedPair, decVec1, vZero, need]

theorem kor (p kd ka kb) : Statement (.kor p kd ka kb) := by
  refine of_pair [.vx] rfl rfl fun st hs hw => ?_
  obtain rfl := List.mem_singleton.1 hs
  simp [pairOn, sharedPair, decVec1, vZero, need]

theorem knot (p kd ka) : Statement (.knot p kd ka) := by
  refine of_pair [.vx] rfl rfl fun st hs hw => ?_
  obtain rfl := List.mem_singleton.1 hs
  simp [pairOn, sharedPair, decVec1, vZero, need]

theorem vmov (p v) : Statement (.vmov p v) := by
  refine of_pair [.vx] rfl rfl fun st hs hw => ?_
  obtain rfl := List.mem_singleton.1 hs
  simp [pairOn, sharedPair, decVec2, encX, encV1, dec1, decV1, decSfx, mod8, ofBool_beq_one, need]

theorem vrotr (p v) : Statement (.vrotr p v) := by
  refine of_pair [.vx] rfl rfl fun st hs hw => ?_
  obtain rfl := List.mem_singleton.1 hs
  simp [pairOn, sharedPair, decVec2, encX, encV2, dec2, decV2, decSfx, mod8, ofBool_beq_one, need]

theorem vrotc (p v) : Statement (.vrotc p v) := by
  refine of_pair [.vx] rfl rfl fun st hs hw => ?_
  obtain rfl := List.mem_singleton.1 hs
  simp [pairOn, sharedPair, decVec2, encX, encV2, dec2, decV2, decSfx, mod8, ofBool_beq_one, need]

theorem vbcr (p v) : Statement (.vbcr p v) := by
  refine of_pair [.vx] rfl rfl fun st hs hw => ?_
  obtain rfl := List.mem_singleton.1 hs
  simp [pairOn, sharedPair, decVec2, encX, encV1, dec1, decV1, decSfx, mod8, ofBool_beq_one, need]

theorem vbcc (p v) : Statement (.vbcc p v) := by
  refine of_pair [.vx] rfl rfl fun st hs hw => ?_
  obtain rfl := List.mem_singleton.1 hs
  simp [pairOn, sharedPair, decVec2, encX, encV1, dec1, decV1, decSfx, mod8, ofBool_beq_one, need]

theorem vredr (p v op) : Statement (.vredr p v op) := by
  refine of_pair [.vx] rfl rfl fun st hs hw => ?_
  obtain rfl := List.mem_singleton.1 hs
  simp [pairOn, sharedPair, decVec2, encX, encV1, decV1, decSfx, decRed, ofBool_beq_one, cat_hi, cat_lo, need]

theorem vredc (p v op) : Statement (.vredc p v op) := by
  refine of_pair [.vx] rfl rfl fun st hs hw => ?_
  obtain rfl := List.mem_singleton.1 hs
  simp [pairOn, sharedPair, decVec2, encX, encV1, decV1, decSfx, decRed, ofBool_beq_one, cat_hi, cat_lo, need]

theorem vperm (p v) : Statement (.vperm p v) := by
  refine of_pair [.vx] rfl rfl fun st hs hw => ?_
  obtain rfl := List.mem_singleton.1 hs
  simp [pairOn, sharedPair, decVec2, encX, encV2, dec2, decV2, decSfx, mod8, ofBool_beq_one, need]

theorem vcmprs (p v k) : Statement (.vcmprs p v k) := by
  refine of_pair [.vx] rfl rfl fun st hs hw => ?_
  obtain rfl := List.mem_singleton.1 hs
  simp [pairOn, sharedPair, decVec2, encX, decMaskC, decV1, decSfx, mod8, ofBool_beq_one, need]

theorem vexpnd (p v k) : Statement (.vexpnd p v k) := by
  refine of_pair [.vx] rfl rfl fun st hs hw => ?_
  obtain rfl := List.mem_singleton.1 hs
  simp [pairOn, sharedPair, decVec2, encX, decMaskC, decV1, decSfx, mod8, ofBool_beq_one, need]

theorem vpushc (p h a k x) : Statement (.vpushc p h a k x) := by
  refine of_pair [.vx] rfl rfl fun st hs hw => ?_
  obtain rfl := List.mem_singleton.1 hs
  simp [pairOn, sharedPair, decVec2, encX, decSfx, mod8, ofBool_beq_one, need]

theorem vpopq (p d h k x) : Statement (.vpopq p d h k x) := by
  refine of_pair [.vx] rfl rfl fun st hs hw => ?_
  obtain rfl := List.mem_singleton.1 hs
  simp [pairOn, sharedPair, decVec2, encX, decSfx, mod8, ofBool_beq_one, need]

theorem vtrn16 (p v) : Statement (.vtrn16 p v) := by
  refine of_pair [.vx] rfl rfl fun st hs hw => ?_
  obtain rfl := List.mem_singleton.1 hs
  simp [pairOn, sharedPair, decVec2, encX, encV1, dec1, decV1, decSfx, mod8, ofBool_beq_one, need]

theorem vflag (p k km) : Statement (.vflag p k km) := by
  refine of_pair [.vx] rfl rfl fun st hs hw => ?_
  obtain rfl := List.mem_singleton.1 hs
  simp [pairOn, sharedPair, decVec2, vZero, mod8, need]

theorem vsfck (p v hi cv) : Statement (.vsfck p v hi cv) := by
  have key : (Instr.vsfck p v hi cv).wf = true → v.x.km = none := by
    intro hw
    rw [show (Instr.vsfck p v hi cv).wf = (decide (v.x.ty = .n32) && v.x.plain && decide (v.x.km = none) && v.d.wf && v.a.wf &&
      v.b.wf && v.c.wf && [v.d, v.a, v.b, v.c].all fun o => decide (o.dir? = some .whole)) from rfl] at hw
    simp_all
  have h7 : ∀ x : BitVec 5, BitVec.extractLsb' 7 5 (encMod none (0#1 ++ x ++ 0#2)) = 0#5 ∧
      BitVec.extractLsb' 7 5 (encMod none (0#1 ++ x ++ 1#2)) = 0#5 := by decide
  obtain ⟨d0, a0, b0, c0, ⟨ty, rnd, sat, win, km⟩⟩ := v
  cases cv <;> refine of_pair [.vx] rfl rfl (fun st hs hw => ?_) <;> obtain rfl := List.mem_singleton.1 hs <;>
    obtain rfl : km = none := key hw <;> simp [pairOn, sharedPair, decVec2, encX, encV3, decV3, decSfx, ofBool_beq_one, cat_hi, cat_lo, need, h7 hi]

theorem winset (p a) : Statement (.winset p a) := by
  refine of_pair [.vx] rfl rfl fun st hs hw => ?_
  obtain rfl := List.mem_singleton.1 hs
  simp [pairOn, sharedPair, decVec2, vZero, need]

theorem winadv (p n) : Statement (.winadv p n) := by
  refine of_pair [.vx] rfl rfl fun st hs hw => ?_
  obtain rfl := List.mem_singleton.1 hs
  simp [pairOn, sharedPair, decVec2, vZero, cat_hi, cat_lo, need]

theorem tcfg (p pl win a) : Statement (.tcfg p pl win a) := by
  refine of_pair [.vx] rfl rfl fun st hs hw => ?_
  obtain rfl := List.mem_singleton.1 hs
  simp [pairOn, sharedPair, decVec2, ofBool_beq_one, need]

theorem tdrop (p pl win) : Statement (.tdrop p pl win) := by
  refine of_pair [.vx] rfl rfl fun st hs hw => ?_
  obtain rfl := List.mem_singleton.1 hs
  simp [pairOn, sharedPair, decVec2, ofBool_beq_one, need]

theorem firstTouchHoldEnd : Statement .firstTouchHoldEnd := by
  intro w h
  cases h

theorem vmulk (p v) : Statement (.vmulk p v) := by
  refine of_pair [.vx] rfl rfl fun st hs hw => ?_
  obtain rfl := List.mem_singleton.1 hs
  simp [pairOn, sharedPair, decVec3, encX, encV2, dec2, decV2, decSfx, mod8, ofBool_beq_one, need]

theorem vaddk (p v) : Statement (.vaddk p v) := by
  refine of_pair [.vx] rfl rfl fun st hs hw => ?_
  obtain rfl := List.mem_singleton.1 hs
  simp [pairOn, sharedPair, decVec3, encX, encV2, dec2, decV2, decSfx, mod8, ofBool_beq_one, need]

theorem vcvtk (p v b) : Statement (.vcvtk p v b) := by
  refine of_pair [.vx] rfl rfl fun st hs hw => ?_
  obtain rfl := List.mem_singleton.1 hs
  rw [show (Instr.vcvtk p v b).wf = (keepOk v.d v.a b.toList v.x && decide (v.x.ty = if b.isSome then .res8 else .bf16)) from rfl] at hw
  have hk : v.x.km = none := by simp_all [keepOk]
  have ht : v.x.ty = (if b.isSome then .res8 else .bf16) := by simp_all
  obtain ⟨d0, a0, ⟨ty, rnd, sat, win, km⟩⟩ := v
  obtain rfl : km = none := hk
  obtain rfl : ty = (if b.isSome then .res8 else .bf16) := ht
  cases b <;> simp [pairOn, sharedPair, decVec3, encX, decVcvtk, ofBool_beq_one, need, Ty.code, Ty.ofCode]

theorem vshrk (p v) : Statement (.vshrk p v) := by
  refine of_pair [.vx] rfl rfl fun st hs hw => ?_
  obtain rfl := List.mem_singleton.1 hs
  simp [pairOn, sharedPair, decVec3, encX, encV2, dec2, decV2, decSfx, mod8, ofBool_beq_one, need]

theorem vlrelk (p v sh) : Statement (.vlrelk p v sh) := by
  refine of_pair [.vx] rfl rfl fun st hs hw => ?_
  obtain rfl := List.mem_singleton.1 hs
  rw [show (Instr.vlrelk p v sh).wf = (v.x.ty.isFloat && keepOk v.d v.a [] v.x && decide (sh ≠ 0)) from rfl] at hw
  have hk : v.x.km = none := by simp_all [keepOk]
  obtain ⟨d0, a0, ⟨ty, rnd, sat, win, km⟩⟩ := v
  obtain rfl : km = none := hk
  have h7 : ∀ x : BitVec 5, BitVec.extractLsb' 5 7 (encMod none (0#3 ++ x)) = 0#7 := by decide
  simp [pairOn, sharedPair, decVec3, encX, encV1, decLrel, ofBool_beq_one, cat_lo, need, h7]

theorem unmulk (p v) : Statement (.unmulk p v) := by
  refine of_pair [.vx] rfl rfl fun st hs hw => ?_
  obtain rfl := List.mem_singleton.1 hs
  simp [pairOn, sharedPair, decVec3, encX, encV2, dec2, decV2, decSfx, mod8, ofBool_beq_one, need]

theorem unaddk (p v) : Statement (.unaddk p v) := by
  refine of_pair [.vx] rfl rfl fun st hs hw => ?_
  obtain rfl := List.mem_singleton.1 hs
  simp [pairOn, sharedPair, decVec3, encX, encV2, dec2, decV2, decSfx, mod8, ofBool_beq_one, need]

theorem uncvtk (p v b) : Statement (.uncvtk p v b) := by
  refine of_pair [.vx] rfl rfl fun st hs hw => ?_
  obtain rfl := List.mem_singleton.1 hs
  rw [show (Instr.uncvtk p v b).wf = (keepOk v.d v.a b.toList v.x && decide (v.x.ty = .f32)) from rfl] at hw
  have hk : v.x.km = none := by simp_all [keepOk]
  have ht : v.x.ty = .f32 := by simp_all
  obtain ⟨d0, a0, ⟨ty, rnd, sat, win, km⟩⟩ := v
  obtain rfl : km = none := hk
  obtain rfl : ty = .f32 := ht
  cases b <;> simp [pairOn, sharedPair, decVec3, encX, decVcvtk, ofBool_beq_one, need, Ty.code, Ty.ofCode]

theorem unshrk (p v) : Statement (.unshrk p v) := by
  refine of_pair [.vx] rfl rfl fun st hs hw => ?_
  obtain rfl := List.mem_singleton.1 hs
  simp [pairOn, sharedPair, decVec3, encX, encV2, dec2, decV2, decSfx, mod8, ofBool_beq_one, need]

theorem unlrelk (p v sh) : Statement (.unlrelk p v sh) := by
  refine of_pair [.vx] rfl rfl fun st hs hw => ?_
  obtain rfl := List.mem_singleton.1 hs
  rw [show (Instr.unlrelk p v sh).wf = (v.x.ty.isFloat && keepOk v.d v.a [] v.x && decide (sh ≠ 0)) from rfl] at hw
  have hk : v.x.km = none := by simp_all [keepOk]
  obtain ⟨d0, a0, ⟨ty, rnd, sat, win, km⟩⟩ := v
  obtain rfl : km = none := hk
  have h7 : ∀ x : BitVec 5, BitVec.extractLsb' 5 7 (encMod none (0#3 ++ x)) = 0#7 := by decide
  simp [pairOn, sharedPair, decVec3, encX, encV1, decLrel, ofBool_beq_one, cat_lo, need, h7]

theorem otmark (p) : Statement (.otmark p) := by
  refine of_pair [.vx] rfl rfl fun st hs hw => ?_
  obtain rfl := List.mem_singleton.1 hs
  simp [pairOn, sharedPair, decVec3, need]

theorem otdrop (p) : Statement (.otdrop p) := by
  refine of_pair [.vx] rfl rfl fun st hs hw => ?_
  obtain rfl := List.mem_singleton.1 hs
  simp [pairOn, sharedPair, decVec3, need]

theorem otspill (p n) : Statement (.otspill p n) := by
  refine of_pair [.vx] rfl rfl fun st hs hw => ?_
  obtain rfl := List.mem_singleton.1 hs
  simp [pairOn, sharedPair, decVec3, vZero, cat_hi, cat_lo, need]

theorem otdepth (p sel) : Statement (.otdepth p sel) := by
  cases sel <;> refine of_pair [.vx] rfl rfl (fun st hs hw => ?_) <;> obtain rfl := List.mem_singleton.1 hs <;> simp [pairOn, sharedPair, decVec3, vZero, need]

theorem vstat (p a b x) : Statement (.vstat p a b x) := by
  refine of_pair [.vx] rfl rfl fun st hs hw => ?_
  obtain rfl := List.mem_singleton.1 hs
  simp [pairOn, sharedPair, decVec3, encX, decStat, decSfx, mod8, ofBool_beq_one, need]

theorem vlse (p a b x) : Statement (.vlse p a b x) := by
  refine of_pair [.vx] rfl rfl fun st hs hw => ?_
  obtain rfl := List.mem_singleton.1 hs
  simp [pairOn, sharedPair, decVec3, encX, decStat, decSfx, mod8, ofBool_beq_one, need]

theorem vnorms (p v) : Statement (.vnorms p v) := by
  refine of_pair [.vx] rfl rfl fun st hs hw => ?_
  obtain rfl := List.mem_singleton.1 hs
  simp [pairOn, sharedPair, decVec3, encX, encV3, dec3, decV3, decSfx, mod8, ofBool_beq_one, need]

theorem vsofts (p v) : Statement (.vsofts p v) := by
  refine of_pair [.vx] rfl rfl fun st hs hw => ?_
  obtain rfl := List.mem_singleton.1 hs
  simp [pairOn, sharedPair, decVec3, encX, encV2, dec2, decV2, decSfx, mod8, ofBool_beq_one, need]

theorem sbld (p a b c tp) : Statement (.sbld p a b c tp) := by
  refine of_pair [.vx] rfl rfl fun st hs hw => ?_
  obtain rfl := List.mem_singleton.1 hs
  simp [pairOn, sharedPair, decVec3, vZero, decSb, cat_hi, cat_lo, need]

theorem sbst (p a b c tp) : Statement (.sbst p a b c tp) := by
  refine of_pair [.vx] rfl rfl fun st hs hw => ?_
  obtain rfl := List.mem_singleton.1 hs
  simp [pairOn, sharedPair, decVec3, vZero, decSb, cat_hi, cat_lo, need]

theorem sbclr (p a b) : Statement (.sbclr p a b) := by
  refine of_pair [.vx] rfl rfl fun st hs hw => ?_
  obtain rfl := List.mem_singleton.1 hs
  simp [pairOn, sharedPair, decVec3, vZero, need]

theorem sdrain (p v) : Statement (.sdrain p v) := by
  refine of_pair [.sx] rfl rfl fun st hs hw => ?_
  obtain rfl := List.mem_singleton.1 hs
  simp [pairOn, sharedPair, decStoreEng, encX, encV1, dec1, decV1, decSfx, mod8, ofBool_beq_one, need]

theorem sdrainDev (p a c tp x) : Statement (.sdrainDev p a c tp x) := by
  refine of_pair [.sx] rfl rfl fun st hs hw => ?_
  obtain rfl := List.mem_singleton.1 hs
  simp [pairOn, sharedPair, decStoreEng, encX, decSfx, ofBool_beq_one, cat_hi, cat_lo, need]

theorem sacc (p v) : Statement (.sacc p v) := by
  refine of_pair [.sx] rfl rfl fun st hs hw => ?_
  obtain rfl := List.mem_singleton.1 hs
  simp [pairOn, sharedPair, decStoreEng, encX, encV2, dec2, decV2, decSfx, mod8, ofBool_beq_one, need]

theorem snorm2 (p a ty) : Statement (.snorm2 p a ty) := by
  refine of_pair [.sx] rfl rfl fun st hs hw => ?_
  obtain rfl := List.mem_singleton.1 hs
  simp [pairOn, sharedPair, decStoreEng, need]

theorem snorm2Put (p d) : Statement (.snorm2Put p d) := by
  refine of_pair [.sx] rfl rfl fun st hs hw => ?_
  obtain rfl := List.mem_singleton.1 hs
  simp [pairOn, sharedPair, decStoreEng, need]

theorem snorm2Clr (p) : Statement (.snorm2Clr p) := by
  refine of_pair [.sx] rfl rfl fun st hs hw => ?_
  obtain rfl := List.mem_singleton.1 hs
  simp [pairOn, sharedPair, decStoreEng, need]

theorem sscale (p v) : Statement (.sscale p v) := by
  refine of_pair [.sx] rfl rfl fun st hs hw => ?_
  obtain rfl := List.mem_singleton.1 hs
  simp [pairOn, sharedPair, decStoreEng, encX, encV3, dec3, decV3, decSfx, mod8, ofBool_beq_one, need]

theorem optw (p v adam wd n pb) : Statement (.optw p v adam wd n pb) := by
  refine of_pair [.sx] rfl rfl fun st hs hw => ?_
  obtain rfl := List.mem_singleton.1 hs
  rw [show (Instr.optw p v adam wd n pb).wf = (v.x.ty.isFloat && storeOk v.x [v.d, v.a, v.b, v.c] && !v.a.isConst &&
    !v.b.isConst && (match v.d with | .port g => decide (g.toNat % 2 = 0) | _ => false) &&
    (match v.c with | .port _ => true | _ => false)) from rfl] at hw
  have hk : v.x.km = none := by simp_all [storeOk]
  obtain ⟨d0, a0, b0, c0, ⟨ty, rnd, sat, win, km⟩⟩ := v
  obtain rfl : km = none := hk
  simp [pairOn, sharedPair, decStoreEng, encX, encV3, decV3, decSfx, ofBool_beq_one, cat_hi, cat_lo, need]

theorem optstep (p n) : Statement (.optstep p n) := by
  refine of_pair [.sx] rfl rfl fun st hs hw => ?_
  obtain rfl := List.mem_singleton.1 hs
  simp [pairOn, sharedPair, decStoreEng, cat_hi, cat_lo, need]

theorem coll (p t preg) : Statement (.coll p t preg) := by
  refine of_pair [.sq] rfl rfl fun st hs hw => ?_
  obtain rfl := List.mem_singleton.1 hs
  simp [pairOn, sharedPair, decColl, encTP, decTP, cat_hi, cat_lo, need]

theorem collq (p d preg) : Statement (.collq p d preg) := by
  refine of_pair [.sq] rfl rfl fun st hs hw => ?_
  obtain rfl := List.mem_singleton.1 hs
  simp [pairOn, sharedPair, decColl, cat_hi, cat_lo, need]

theorem wrrem (p t preg) : Statement (.wrrem p t preg) := by
  refine of_pair [.sq] rfl rfl fun st hs hw => ?_
  obtain rfl := List.mem_singleton.1 hs
  simp [pairOn, sharedPair, decColl, encTP, decTP, cat_hi, cat_lo, need]

theorem sigrem (p preg) : Statement (.sigrem p preg) := by
  refine of_pair [.sq] rfl rfl fun st hs hw => ?_
  obtain rfl := List.mem_singleton.1 hs
  simp [pairOn, sharedPair, decColl, encTP, decTP, need]

theorem repart (p t preg) : Statement (.repart p t preg) := by
  refine of_pair [.sq] rfl rfl fun st hs hw => ?_
  obtain rfl := List.mem_singleton.1 hs
  simp [pairOn, sharedPair, decColl, encTP, decTP, cat_hi, cat_lo, need]

theorem sequencerHeader : Statement .sequencerHeader := by
  intro w h
  cases h

theorem sectionStart : Statement .sectionStart := by
  intro w h
  cases h

theorem sectionRetire : Statement .sectionRetire := by
  intro w h
  cases h

theorem delayLineLanding : Statement .delayLineLanding := by
  intro w h
  cases h

theorem rendezvousComplete : Statement .rendezvousComplete := by
  intro w h
  cases h

theorem jobEnd : Statement .jobEnd := by
  intro w h
  cases h

theorem streamCacheFill : Statement .streamCacheFill := by
  intro w h
  cases h

theorem prefetchReady : Statement .prefetchReady := by
  intro w h
  cases h

theorem translationWalk : Statement .translationWalk := by
  intro w h
  cases h

theorem loadReturn : Statement .loadReturn := by
  intro w h
  cases h

theorem deferredFaultReport : Statement .deferredFaultReport := by
  intro w h
  cases h

theorem portRunGrant : Statement .portRunGrant := by
  intro w h
  cases h

theorem portDrainRun : Statement .portDrainRun := by
  intro w h
  cases h

theorem sendtArrival : Statement .sendtArrival := by
  intro w h
  cases h

theorem copyStart : Statement .copyStart := by
  intro w h
  cases h

theorem copyRequest : Statement .copyRequest := by
  intro w h
  cases h

theorem copyDataReturn : Statement .copyDataReturn := by
  intro w h
  cases h

theorem copyRetire : Statement .copyRetire := by
  intro w h
  cases h

theorem copyPostAck : Statement .copyPostAck := by
  intro w h
  cases h

theorem followOnJoin : Statement .followOnJoin := by
  intro w h
  cases h

theorem followOnEnter : Statement .followOnEnter := by
  intro w h
  cases h

theorem spillStart : Statement .spillStart := by
  intro w h
  cases h

theorem spillComplete : Statement .spillComplete := by
  intro w h
  cases h

theorem fillStart : Statement .fillStart := by
  intro w h
  cases h

theorem fillTrailerCheck : Statement .fillTrailerCheck := by
  intro w h
  cases h

theorem fillComplete : Statement .fillComplete := by
  intro w h
  cases h

theorem stackSlotService : Statement .stackSlotService := by
  intro w h
  cases h

theorem refresh : Statement .refresh := by
  intro w h
  cases h

theorem atomicRequestService : Statement .atomicRequestService := by
  intro w h
  cases h

theorem atomicFillReturn : Statement .atomicFillReturn := by
  intro w h
  cases h

theorem plainWriteNotice : Statement .plainWriteNotice := by
  intro w h
  cases h

theorem watchEvaluation : Statement .watchEvaluation := by
  intro w h
  cases h

theorem atomicReturn : Statement .atomicReturn := by
  intro w h
  cases h

theorem sempostAck : Statement .sempostAck := by
  intro w h
  cases h

theorem phaseChangeComplete : Statement .phaseChangeComplete := by
  intro w h
  cases h

theorem reductionIntervalClose : Statement .reductionIntervalClose := by
  intro w h
  cases h

theorem collectiveComplete : Statement .collectiveComplete := by
  intro w h
  cases h

theorem collectiveAbort : Statement .collectiveAbort := by
  intro w h
  cases h

theorem keyRound : Statement .keyRound := by
  intro w h
  cases h

theorem histogramReduction : Statement .histogramReduction := by
  intro w h
  cases h

theorem elementMove : Statement .elementMove := by
  intro w h
  cases h

theorem repartComplete : Statement .repartComplete := by
  intro w h
  cases h

theorem repartAbort : Statement .repartAbort := by
  intro w h
  cases h

theorem watchdogExpiry : Statement .watchdogExpiry := by
  intro w h
  cases h

theorem preemptionRequest : Statement .preemptionRequest := by
  intro w h
  cases h

theorem safePointSave : Statement .safePointSave := by
  intro w h
  cases h

theorem jobResumption : Statement .jobResumption := by
  intro w h
  cases h

theorem jobRelease : Statement .jobRelease := by
  intro w h
  cases h

theorem dispatchDecision : Statement .dispatchDecision := by
  intro w h
  cases h

theorem pthreshExpiry : Statement .pthreshExpiry := by
  intro w h
  cases h

theorem dealInstall : Statement .dealInstall := by
  intro w h
  cases h

theorem floorDispatch : Statement .floorDispatch := by
  intro w h
  cases h

theorem checkPoint : Statement .checkPoint := by
  intro w h
  cases h

theorem reelSemwait : Statement .reelSemwait := by
  intro w h
  cases h

theorem reelLaunch : Statement .reelLaunch := by
  intro w h
  cases h

theorem reelCopy : Statement .reelCopy := by
  intro w h
  cases h

theorem reelGuard : Statement .reelGuard := by
  intro w h
  cases h

theorem reelSempost : Statement .reelSempost := by
  intro w h
  cases h

theorem reelMark : Statement .reelMark := by
  intro w h
  cases h

theorem reelEnd : Statement .reelEnd := by
  intro w h
  cases h

theorem cutMake : Statement .cutMake := by
  intro w h
  cases h

theorem gangDecision : Statement .gangDecision := by
  intro w h
  cases h

theorem graph : Statement .graph := by
  intro w h
  cases h

theorem invoke : Statement .invoke := by
  intro w h
  cases h

theorem wait : Statement .wait := by
  intro w h
  cases h

theorem signal : Statement .signal := by
  intro w h
  cases h

theorem loadslot : Statement .loadslot := by
  intro w h
  cases h

theorem slotLoadComplete : Statement .slotLoadComplete := by
  intro w h
  cases h

theorem evictslot : Statement .evictslot := by
  intro w h
  cases h

theorem preempt : Statement .preempt := by
  intro w h
  cases h

theorem checkpoint : Statement .checkpoint := by
  intro w h
  cases h

theorem fencePacket : Statement .fencePacket := by
  intro w h
  cases h

theorem packetComplete : Statement .packetComplete := by
  intro w h
  cases h

theorem doorbellWrite : Statement .doorbellWrite := by
  intro w h
  cases h

theorem queueDescriptorWrite : Statement .queueDescriptorWrite := by
  intro w h
  cases h

theorem queueStopClear : Statement .queueStopClear := by
  intro w h
  cases h

theorem handleTableWrite : Statement .handleTableWrite := by
  intro w h
  cases h

theorem handleRevocationComplete : Statement .handleRevocationComplete := by
  intro w h
  cases h

theorem pageInvalidation : Statement .pageInvalidation := by
  intro w h
  cases h

theorem dealRequest : Statement .dealRequest := by
  intro w h
  cases h

theorem jobEndOrder : Statement .jobEndOrder := by
  intro w h
  cases h

theorem jobResumeOrder : Statement .jobResumeOrder := by
  intro w h
  cases h

theorem loadReportRead : Statement .loadReportRead := by
  intro w h
  cases h

theorem svnCommit : Statement .svnCommit := by
  intro w h
  cases h

theorem nodeIdentityAssign : Statement .nodeIdentityAssign := by
  intro w h
  cases h

theorem spdmRequest : Statement .spdmRequest := by
  intro w h
  cases h

theorem hostCxlAccess : Statement .hostCxlAccess := by
  intro w h
  cases h

theorem writePacketArrival : Statement .writePacketArrival := by
  intro w h
  cases h

theorem signalPacketArrival : Statement .signalPacketArrival := by
  intro w h
  cases h

theorem reducePacketArrival : Statement .reducePacketArrival := by
  intro w h
  cases h

theorem barrierPacketArrival : Statement .barrierPacketArrival := by
  intro w h
  cases h

theorem managementPacketArrival : Statement .managementPacketArrival := by
  intro w h
  cases h

theorem ackPacketArrival : Statement .ackPacketArrival := by
  intro w h
  cases h

theorem flitRetransmit : Statement .flitRetransmit := by
  intro w h
  cases h

theorem portRetrain : Statement .portRetrain := by
  intro w h
  cases h

theorem selfTestStart : Statement .selfTestStart := by
  intro w h
  cases h

theorem selfTestComplete : Statement .selfTestComplete := by
  intro w h
  cases h

theorem matrixBudgetUpdate : Statement .matrixBudgetUpdate := by
  intro w h
  cases h

theorem thermalThrottle : Statement .thermalThrottle := by
  intro w h
  cases h

theorem thermalTrip : Statement .thermalTrip := by
  intro w h
  cases h

theorem deviceReset : Statement .deviceReset := by
  intro w h
  cases h

end Sys2Proof.Laws.RoundTrip
end

