-- ==== Sys2Proof/Machine/Ndeiq.lean ====
section
/-! DEFINITION. What the operations of a portable object give (R374, R375). The native form's bytes are the translator's (log 29): no step
evaluates a list, and these are the results that any translation of it gives. -/
namespace Sys2Proof.Machine

/-- A value of the list: its shape, its type, its elements by rows; whether it is a CONST, which takes its partner's shape. -/
structure Tensor where
  rows : Nat
  cols : Nat
  ty : Ty
  const : Bool
  els : Array W32
  deriving DecidableEq, Repr

/-- A record of the list: its distances are those of its operands. -/
structure NdRec where
  op : Nat
  ty : Ty
  back : List Nat
  attr : Nat
  deriving DecidableEq, Repr

def ndRec (b : List Byte) : Option NdRec :=
  (Ty.ofCode (BitVec.ofNat 4 (fieldN b 2 1))).map fun t =>
    ⟨fieldN b 0 2, t, (List.range (fieldN b 2 1 / 16)).map fun j => fieldN b (4 + 2 * j) 2, fieldN b 10 6⟩

/-- An element of a tensor at a place of its partner's shape. -/
def Tensor.el (x : Tensor) (i j : Nat) : W32 := if x.const then x.els.getD 0 0 else x.els.getD (i * x.cols + j) 0

def tensorOf (rows cols : Nat) (t : Ty) (f : Nat → Nat → W32) : Tensor :=
  ⟨rows, cols, t, false, ((List.range (rows * cols)).map fun e => f (e / cols) (e % cols)).toArray⟩

/-- The shape of operands that meet element by element; none where two differ. -/
def shapeOf (xs : List Tensor) : Option (Nat × Nat) :=
  let l := (xs.filter fun x => !x.const).map fun x => (x.rows, x.cols)
  let s := l.head?.getD (1, 1)
  if l.all (· = s) then some s else none

/-- ADD, MUL and FMA: the exact value of the operands, rounded once to the result's type (R175). -/
def ndArith (t : Ty) (f : List Ext → Ext) (xs : List Tensor) : Option Tensor :=
  if t.isFloat && xs.all (fun x => x.ty.isFloat) then
    (shapeOf xs).map fun s => tensorOf s.1 s.2 t fun i j => fout t .rne false (f (xs.map fun x => fval x.ty (x.el i j)))
  else none

/-- The functions of MAJOR 0x81 by MINOR (R175, R176). -/
def ndUnary : Nat → Option (Ty → Rnd → Bool → W32 → W32)
  | 1 => some fSqrt | 2 => some fRcp | 3 => some fRsq | 4 => some fExp2 | 5 => some fLog2 | 6 => some fExp | 7 => some fTanh
  | 8 => some fSigm | _ => none

/-- One element of a product of floating matrices: both chains over all groups of 8, then their sum, as a drain delivers it (R109). -/
def ndDot (t st : Ty) (a b : List W32) : W32 :=
  let ps := (a.zip b).map fun p => extMul (fval st p.1) (fval st p.2)
  let step (odd : Nat) (c : Nat) (g : List (Ext × Nat)) : Nat :=
    let l := (g.filter fun p => p.2 % 2 = odd).map Prod.fst
    if l.isEmpty then c else acc48.round .rne false (extSum .rne (acc48.dec c :: l))
  let groups := (List.range ((ps.length + 7) / 8)).map fun j => (ps.zipIdx.drop (8 * j)).take 8
  let chain (odd : Nat) : Nat := groups.foldl (step odd) 0
  fout t .rne false (acc48.dec (acc48.round .rne false (extAdd .rne (acc48.dec (chain 0)) (acc48.dec (chain 1)))))

/-- One element of a product of residue matrices: the exact sum, with every scale 1.0 (R112 to R115). -/
def ndResDot (t st : Ty) (a b : List W32) : W32 :=
  let v := ((a.zip b).map fun p => resDec st p.1 * resDec st p.2).foldl (· + ·) 0
  if t = .i32 then intOut .i32 true v else fout t .rne false (f32v (rne32 (.num v false)))

/-- (m × k)·(k × n). No rule gives a result for other types, nor beyond the safe bound of R113. -/
def ndMatmul (t : Ty) (a b : Tensor) : Option Tensor :=
  let row_ (i : Nat) : List W32 := (List.range a.cols).map (a.el i)
  let col (j : Nat) : List W32 := (List.range a.cols).map fun k => b.el k j
  if a.const ∨ b.const ∨ a.cols ≠ b.rows ∨ a.ty ≠ b.ty then none
  else if t.isFloat ∧ (a.ty = .bf16 ∨ a.ty = .f16) then
    some (tensorOf a.rows b.cols t fun i j => ndDot t a.ty (row_ i) (col j))
  else if a.ty.isRes ∧ (t.isFloat ∨ t = .i32) ∧ a.cols ≤ safeBound (decide (a.ty = .res16)) then
    some (tensorOf a.rows b.cols t fun i j => ndResDot t a.ty (row_ i) (col j))
  else none

/-- REDUCE: each row, as VREDR, or each column, as VREDC (R187). -/
def ndReduce (t : Ty) (attr : Nat) (x : Tensor) : Option Tensor :=
  match RedOp.ofCode (BitVec.ofNat 2 attr) with
  | some op =>
    if x.ty ≠ t ∨ t.isRes then none
    else if attr.testBit 2 then
      some (tensorOf 1 x.cols t fun _ j => reduce op t .rne false ((List.range x.rows).map fun i => x.el i j))
    else some (tensorOf x.rows 1 t fun i _ => reduce op t .rne false ((List.range x.cols).map fun j => x.el i j))
  | none => none

/-- The result of a record on its operands; none where no rule gives one (R375). -/
def ndResult (r : NdRec) (xs : List Tensor) : Option Tensor :=
  match r.op, xs with
  | 0x0002, [] => some ⟨1, 1, .f32, true, #[BitVec.ofNat 32 r.attr]⟩
  | 0x0003, [x] => some x
  | 0x0010, [a, b] => ndMatmul r.ty a b
  | 0x0011, [a, b] => ndArith r.ty (fun v => extAdd .rne (v.getD 0 .nan) (v.getD 1 .nan)) [a, b]
  | 0x0012, [a, b] => ndArith r.ty (fun v => extMul (v.getD 0 .nan) (v.getD 1 .nan)) [a, b]
  | 0x0013, [a, b, c] => ndArith r.ty (fun v => extAdd .rne (extMul (v.getD 0 .nan) (v.getD 1 .nan)) (v.getD 2 .nan)) [a, b, c]
  | 0x0014, [x] =>
    if x.ty = r.ty ∧ r.ty.isFloat then
      (ndUnary (r.attr % 16)).map fun f => tensorOf x.rows x.cols r.ty fun i j => f r.ty .rne false (x.el i j)
    else none
  | 0x0015, [x] =>
    if x.ty.isRes ∨ r.ty.isRes then none
    else some (tensorOf x.rows x.cols r.ty fun i j => (convElem true x.ty r.ty 0 0 .rne false (x.el i j)).bits)
  | 0x0016, [x] => ndReduce r.ty r.attr x
  | 0x0017, [x] => some (tensorOf x.cols x.rows x.ty fun i j => x.el j i)
  | _, _ => none

/-- The results of a list on its inputs, in list order: INPUT takes the next of them, which must have its shape and type. -/
def ndRun : List NdRec → List Tensor → List (Option Tensor) → List (Option Tensor)
  | [], _, done => done
  | r :: l, ins, done =>
    if r.op = 0x0001 then
      let fit := (ins.head?).filter fun x => decide (x.rows = r.attr % 2 ^ 24 ∧ x.cols = r.attr / 2 ^ 24 ∧ x.ty = r.ty)
      ndRun l ins.tail (done ++ [fit])
    else
      let xs := r.back.map fun d => (done[done.length - d]?).join
      ndRun l ins (done ++ [if xs.all Option.isSome then ndResult r (xs.filterMap id) else none])

/-- What the OUTPUT records of a list write. -/
def ndOutputs (l : List NdRec) (ins : List Tensor) : List (Option Tensor) :=
  ((ndRun l ins []).zip l).filterMap fun x => if x.2.op = 0x0003 then some x.1 else none

/-- The x registers of the INPUT and OUTPUT records: ascending in list order, XDATA left out. -/
def ndRegs (xdata : Option Nat) (l : List NdRec) : List (NdRec × Nat) :=
  (l.filter fun r => r.op = 1 ∨ r.op = 3).zip ((List.range 16).filter fun i => xdata ≠ some i)

end Sys2Proof.Machine
end

