-- ==== Sys2Proof/Tests/Small.lean ====
section
/-! SUPPORT. Small states for the tests and the witnesses. -/
open Sys2Proof Sys2Proof.Machine

namespace Sys2Proof.Tests
set_option Elab.async false -- theorems in turn: one that waits for those before it holds a thread

/-! ### Small states -/

/-- No predicate. -/
def u0 : Pred := ⟨false, 0⟩
/-- A word's suffixes: a type and nothing else. -/
def sfx (t : Ty) : Sfx := ⟨t, .rne, false, false, none⟩
def whole (n : BitVec 5) : Opnd := .plane .whole n 0

/-- A header of the sequencer with four words. -/
def hdr4 : W64 := 0x1004000000000000

/-- A job that runs, at the first word of a section, on device cycle 100 and job cycle 50. -/
def run : State :=
  { State.reset with
    cyc := 100, todo := []
    job := { Job.init with st := .running, id := 1, ctx := 1, cycle := 50, seq := { Seq.init with pos := .run 0x1000 hdr4 0 } } }

/-- The same job with values in its registers. -/
def withS (l : List (Nat × W64)) (s : State := run) : State := s.onSeq fun q => l.foldl (fun q x => q.setS x.1 x.2) q

/-- A section of four words on an engine. -/
def sec (addr : W64) (st : Nat) : QEnt := ⟨addr, hdr4, [], 0xFF, .replicate 32 0, [], 1, [], [], st, []⟩

/-- The same job with a section running on an engine. -/
def onE (st : Stream) (s : State := run) : State := { s with turn := st }.onEng st fun e => { e with cur := some (sec 0x2000 1) }

/-- Two pages that the translation cache holds: code at 0x10000, data at 0x20000. -/
def pages : List TlbEnt := [⟨0, 0x10000, 0x10000, 0x10000, true, false, true⟩, ⟨0, 0x20000, 0x20000, 0x10000, true, true, false⟩]
def mapped (s : State := run) : State := s.onCore fun c => { c with tlb := pages }

/-- Bytes placed in device memory. -/
def poke (a : Nat) (l : List Byte) (s : State) : State := s.onDev fun d => { d with mem := wrBytes d.mem a l }
def poke64 (a : Nat) (v : W64) (s : State) : State := poke a (leBytes 8 v.toNat) s

/-- A table at 0x30000 that maps 0x20000 to itself, in all ways. -/
def tabled (s : State) : State := poke64 0x30000 0x40001 (poke64 0x40000 0x50001 (poke64 0x50000 0x60001 (poke64 0x60010 0x2001F s)))

/-- An access of a unit has been served: what it read, whether it found bad data or a race, and the event that goes on. -/
def served (next : Ev) (got : List (Nat × List Byte)) (bad : Bool) (s : State) : State :=
  s.onDev fun d => { d with ops := [⟨0, 0, 0, [], false, got, bad, none, next⟩] }
/-- Whether an event finds its unit's access served, and with bad data or a race. -/
def goesOn (next : Ev) (bad : Bool) (s : State) : Bool := match (unitTake next s).1 with | some x => x.bad == bad | none => false

/-- A state with one event at the head of the agenda, due. -/
def due (ev : Ev) (s : State := run) : State := { s with agenda := [⟨100, 0, ev⟩] }
def dueOff (s : State) : State := { s with agenda := s.agenda.tail }

/-- The event stands at the head, due: the two states of a statement about it. -/
theorem due_head (ev : Ev) (s : State) (h : s.cyc = 100) : dueHead (due ev s) (dueOff (due ev s)) ev :=
  ⟨⟨100, 0, ev⟩, [], rfl, rfl, by show 100 ≤ s.cyc; omega, rfl⟩

/-- What an answer holds. -/
theorem ok_ex {α ε : Type} {r : Except ε α} {P : α → Prop} (f : α → Bool) (hf : ∀ x, f x = true → P x)
    (h : (match r with | .ok x => f x | .error _ => false) = true) : ∃ x, r = .ok x ∧ P x := by
  cases r with
  | ok x => exact ⟨x, rfl, hf x h⟩
  | error e => cases h

def atPhase (st : Stream) (n : Nat) (s : State := run) : State := s.setMicro st { Micro.init with phase := n }
def inLevels (l : BitVec 5) (s : State := run) : State := s.onJob fun j => { j with levels := l }

/-- The sequencer's word has read the pieces given of device memory (addresses of the pages above). -/
def asked (l : List (Nat × Nat)) (s : State) : State :=
  s.setMicro .sq { s.micro .sq with descs := l.map fun p => ⟨p.1, p.2, some (rdBytes s.dev.mem p.1 p.2), none⟩ }

def okEq {α ε : Type} [DecidableEq α] (r : Except ε α) (x : α) : Bool := match r with | .ok y => decide (y = x) | .error _ => false
def isOk {α ε : Type} (r : Except ε α) : Bool := match r with | .ok _ => true | .error _ => false

/-- A bucket table at the top of local data memory, of the sizes given. -/
def table (t : Nat) (sizes : List Nat) (dim : Nat) : State :=
  let bytes := leBytes 4 sizes.length ++ leBytes 4 0 ++ sizes.flatMap fun z => leBytes 4 z ++ leBytes 4 0 ++ leBytes 8 (4 * z)
  (withS [(2, BitVec.ofNat 64 t), (1, BitVec.ofNat 64 dim)]).onSeq fun q => { q with ldm := wrBytes [] t bytes }

/-- A section header at 0x10000, and the bytes of a tensor block. -/
def code (h : W64) (s : State := mapped) : State := poke64 0x10000 h s

def withPlane (n : Nat) (p : Plane) (s : State := run) : State := s.setPlane n p

/-- A plane of this job, configured with the widest shape of the width code given. -/
def plane (code : Nat) : Plane := ⟨some 1, true, false, BitVec.ofNat 12 (code * 1024 + 0x3FF), []⟩

/-- A process-group table of the nodes given. -/
def groupBytes (gid : Nat) (nodes : List Nat) : List Byte :=
  leBytes 4 1 ++ leBytes 4 nodes.length ++ leBytes 8 gid ++ List.replicate 48 0 ++ nodes.flatMap fun n => leBytes 8 n

/-- The pieces that a word reads of the table at 0x20040. -/
def groupPieces (n : Nat) : List (Nat × Nat) := (0x20040, 64) :: descPieces 0x20080 (8 * n)
def grouped (nodes : List Nat) : State :=
  asked (groupPieces nodes.length) (poke 0x20040 (groupBytes 9 nodes) (withS [(1, 0x20040), (2, 1)] mapped))

/-- A handle of four slots of 64 bytes, two of them full, from the producer to the consumer given. -/
def handle (prod cons f : Nat) : Handle := { Handle.zero with init := true, base := 0x100, depth := 4, prod := prod, cons := cons, f := f, wh := f % 4 }

def withH (x : Handle) (s : State := run) : State := s.setHandle 15 x

/-- A read port over the scratchpad, one vector of 16 words of 32 bits fetched; and a write port with nothing pushed. -/
def rport (strm : Nat) : Port := { Port.init with
  cfg := true, strm := strm, vec := 0, esz := 2, lvls := [(32, 4)], fpos := 16, pos := 0
  buf := [⟨0, 16, List.replicate 16 ⟨0x3F800000, 0xF, 0⟩, 1, .f32, .rne, false, 0, 0, WordRef.zero, false, []⟩] }

def wport (strm : Nat) : Port := { Port.init with cfg := true, strm := strm, wr := true, vec := 0, esz := 2, base := 0x1000, lvls := [(32, 4)] }

def withG (g : Nat) (x : Port) (s : State) : State := s.setPort g x

def ax : State := onE .ax

/-- A read of slots that has been granted and is back. -/
def back (addr : Nat) (l : List Byte) : SRead := ⟨addr, l.length, some 1, l⟩

def mx : State := onE .mx

def oslots (st : OState) (t : Ty) (s : State := mx) : State := (s.setOslot 0 ⟨st, t.code, false, [], []⟩).setOslot 1 ⟨st, t.code, false, [], []⟩

def tileAs (n : Nat) (m : TMode) (kc : Nat) (s : State := mx) : State := s.setTile n ⟨m, kc, []⟩

def useOk (st : Stream) (s : State) (us : List (Use × Nat)) : Bool :=
  match checkUses s st false us, waitUses s st us with
  | .ok _, .ok bs => decide ((readUses st false .rne false us bs s).2.length = (us.filter fun u => !u.1.dst).length)
  | _, _ => false

def vx : State := onE .vx

/-- Planes 4, 5, 6 and 20 of the job, with elements of the width code given, and values in lanes 0 and 1. -/
def planes (code : Nat) (l : List (Nat × W32)) (s : State := vx) : State :=
  [4, 5, 6, 20].foldl (fun s p => s.setPlane p { plane code with dirty := true, data := l }) s

def used (st : Stream) (x : Sfx) (us : List (Use × Nat)) (s : State) : Bool :=
  match touchAll (planesOf s x.win (us.map Prod.fst)) s with
  | .ok s1 => match checkUses s1 st x.win us, waitUses s1 st us with
    | .ok _, .ok bs => decide ((readUses st x.win x.rnd x.sat us bs s1).2.length = (us.filter fun u => !u.1.dst).length)
    | _, _ => false
  | .error _ => false

def elems (d : Opnd) (ty : Ty) (srcs : List (Opnd × Ty)) (s : State) : List (Use × Nat) :=
  (elemUses d ty srcs).map fun y => (y, elemCount s (elemUses d ty srcs))

def absentNone (l : List Use) (s : State) : Bool := l.all fun y => !absentTy s y.ty

/-- R201's first example: 1.0 and 2^−8 in .bf16 planes. -/
def keepState : State := (((vx.setPlane 4 { plane 1 with data := [(0, 0x3F80)] }).setPlane 5 { plane 1 with data := [(0, 0x3B80)] }).setPlane 20 (plane 1))

def record (o : List OtRec) (s : State := keepState) : State := s.onJob fun j => { j with ot := { j.ot with recs := o, depth := o.length } }

def mark : OtRec := ⟨otTag 0x38 0 1, 16, []⟩

/-- SX with a read port of 16 .f32 elements at g0 and write ports at g2 and g3. -/
def sx : State := withG 0 (rport 4) (withG 1 (rport 4) (withG 2 (wport 4) (withG 3 (wport 4) (onE .sx))))

/-- The same header fetched, its line resident. -/
def fetched : State := (mapped run).onSeq (fun q => { q with pos := .header 0x10000 }) |>.onCore fun c =>
  { c with sc := [(0x10000 / 64 % 256, [⟨0x10000 / 64, leBytes 8 hdr4.toNat ++ List.replicate 56 0, [(1, 0x10000)], false⟩])] }

/-- A copy of 64 bytes from device memory to an operand slot, and its descriptor's level. -/
def copyOf5 : Copy := ⟨5, 1, true, 2, WordRef.zero, 0x20100, .dev 0x20400 [(0x20000, 0x20000, 0x10000)], .spad 0 0x1000, 0xF, 0xF, 4, 4, [⟨16, 4, 4⟩], false,
  none, none, .queued, 0, 0, 0, 0, [], 0, [], [], 0, 0, [], false, false⟩

def retired : Copy := { copyOf5 with ph := .active, rdPos := 16, wrPos := 16 }

end Sys2Proof.Tests
end

