-- ==== Sys2Proof/Tests/Slice0.lean ====
section
/-! SUPPORT. Tests of the model: words written out from the spec's encodings, ill-formed terms that the checks refuse, single
steps with the results that the spec's rules and worked examples give. -/
open Sys2Proof Sys2Proof.Machine
namespace Sys2Proof.Tests
set_option Elab.async false -- theorems in turn: one that waits for those before it holds a thread

/-! ### Words by their bits (R15, R16, R20 to R32, R43 to R50) -/

/-- Fields of a word from its highest bit down, each with its width. -/
def bits (l : List (Nat × Nat)) : Word := BitVec.ofNat 96 (l.foldl (fun n x => n * 2 ^ x.1 + x.2) 0)
/-- The common head: major, minor, predicate. -/
def head (maj min : Nat) (neg : Nat := 0) (sel : Nat := 0) : List (Nat × Nat) := [(8, maj), (4, min), (1, neg), (3, sel)]

-- R43, R44: format S, FN D A B IMM; ADD, ADDI, CMP, SEL, LDI
theorem test_word_add : decode .sq (bits (head 0x00 0 ++ [(6, 3), (6, 1), (6, 2), (6, 0), (56, 0)])) = .ok (.add u0 3 1 2) := by decide +kernel
theorem test_word_sub_pred : decode .sq (bits (head 0x00 1 1 2 ++ [(6, 31), (6, 33), (6, 55), (6, 0), (56, 0)])) = .ok (.sub ⟨true, 2⟩ 31 33 55) := by
  decide +kernel
theorem test_word_addi : decode .sq 0x00200C1000FFFFFFFFFFFFF8 = .ok (.addi u0 3 1 0xFFFFFFFFFFFFF8) := by decide +kernel
-- R45: control, memory, system
theorem test_word_nop : decode .sq 0x220000000000000000000000 = .ok (.nop u0) := by decide +kernel
theorem test_word_issue : decode .sq 0x28000200000000000000000A = .ok (.issue u0 .mx 0 10) := by decide +kernel
theorem test_word_bsel : decode .sq 0x210008554000000000000006 = .ok (.bsel u0 2 5 21 (some (.pm, 0)) 6) := by decide +kernel
theorem test_word_amo : decode .sq 0x2500061500C0000000000000 = .ok (.amoAdd u0 1 33 20 ⟨true, false, false, 0⟩) := by decide +kernel
theorem test_word_fence : decode .sq 0x260000000300000000000000 = .ok (.fence u0 .device) := by decide +kernel
theorem test_word_barw : decode .sq 0x264000000200000000000000 = .ok (.barw u0 0 0 2) := by decide +kernel
theorem test_word_guard : decode .sq 0x2C1003200000000000000000 = .ok (.guard u0 50) := by decide +kernel
theorem test_word_guard_health : decode .sq 0x2C1000000100000000000000 = .ok (.guardHealth u0) := by decide +kernel
-- R47: access and copy
theorem test_word_loop : decode .vx 0x42000000C0A0000000000000 = .ok (.loop u0 0 (.imm 3) 2 true) := by decide +kernel
theorem test_word_bfmtw : decode .ax 0x45003000900000003E800000 = .ok (.bfmtw u0 3 (.imm 0x900000003E800000)) := by decide +kernel
theorem test_word_copy : decode .sq 0x480020050000000000000007 = .ok (.copy u0 2 5 7 0) := by decide +kernel
theorem test_word_ctest : decode .sq 0x483060000000000000000002 = .ok (.ctest u0 2 6) := by decide +kernel
-- R48: matrix
theorem test_word_mma : decode .mx 0x610000080000000803F00000 = .ok (.mma u0 4 0 1 63 .bf16 0 0 0 false) := by decide +kernel
-- R49: vector
theorem test_word_vadd : decode .vx 0x8000138A3216301000021000 =
    .ok (.vadd u0 ⟨.plane .row 7 5, .plane .row 18 5, .slot 3 2, { sfx .f32 with win := true }⟩) := by decide +kernel
theorem test_word_vcmp : decode .vx 0x8810000404000A0000020002 = .ok (.vcmp u0 2 (.plane .whole 4 0) (.plane .whole 5 0) (sfx .f32) .lt) := by decide +kernel
theorem test_word_vaddk : decode .vx 0xA0100A0004000A0000000000 =
    .ok (.vaddk u0 ⟨.plane .whole 20 0, .plane .whole 4 0, .plane .whole 5 0, sfx .bf16⟩) := by decide +kernel
theorem test_word_otmark : decode .vx 0xA20000000000000000000000 = .ok (.otmark u0) := by decide +kernel
theorem test_word_otspill : decode .vx 0xA220000000000000000000F0 = .ok (.otspill u0 240) := by decide +kernel
-- R50: store, collectives
theorem test_word_optw : decode .sx 0xC10040048002100200400093 =
    .ok (.optw u0 ⟨.port 2, .port 0, .slot 1 0, .port 4, sfx .bf16⟩ true true 1 1) := by decide +kernel
theorem test_word_coll : decode .sq 0xC80030080000000000000000 = .ok (.coll u0 3 8) := by decide +kernel
-- R33: a pair that no table lists, a pair on a stream that it is not valid on, a reserved field
theorem test_word_illegal : decode .sq 0xFF0000000000000000000000 = .error .illegal ∧ decode .vx 0x260000000300000000000000 = .error .illegal := by decide +kernel
theorem test_word_reserved : decode .sq 0x220000000000000000000001 = .error .reserved := by decide +kernel

/-! ### Terms that the checks of WellFormed refuse -/

theorem test_wf_scalar : ∀ i ∈ ([
    .add u0 1 56 2, .add u0 1 2 56, .addi u0 1 60 0, .lea u0 1 2 56 0 0, .lea u0 1 2 3 7 0, .ld u0 1 63 0 false 0, .ld u0 1 2 3 true 0,
    .st u0 2 56 0 0, .amoAdd u0 1 56 2 ⟨true, false, false, 0⟩, .amoCas u0 1 2 3 56 ⟨true, false, false, 0⟩, .barw u0 1 0 5, .barw u0 1 2 3,
    .barw u0 1 56 4, .issue u0 .mx 56 0, .issueReg u0 .mx 0 56, .bsel u0 2 40 21 none 6, .tbind u0 0 0, .coll u0 0 56] : List Instr), i.wf = false := by decide
theorem test_wf_system : ∀ i ∈ ([
    .copy u0 0 0 1 1, .copy u0 0 1 56 1, .copyx u0 0 1 1 56, .csrrd u0 1 0x008, .csrrd u0 1 0x073, .csrwr u0 0x010 1, .csrwr u0 0x000 56, .csrwr u0 0x0FF 1,
    .pset u0 0 (.reg 0), .pset u0 0 (.reg 56), .qinit u0 0 0 0 1 0 5, .qinit u0 0 0 0 1 6 0, .qinit u0 0 0 0 0 0 0, .qinit u0 0 0 0 513 0 0,
    .qinit u0 0 0 7 1 0 0, .waitf u0 0 513, .loop u0 3 (.imm 0) 0 false] : List Instr), i.wf = false := by decide
theorem test_wf_matrix : ∀ i ∈ ([
    .mma u0 4 0 1 0 .f32 0 0 0 false, .mma u0 4 0 1 0 .bf16 0 0 0 true, .mma u0 5 0 1 0 .bf16 0 0 0 false, .mma u0 4 1 2 0 .res16 0 0 0 false,
    .mma u0 4 0 1 0 .res16 0 0 0 false, .mzero u0 1 .i8, .mzero u0 1 .bf16, .mdrain u0 (whole 4) 0 .f32 .rne false 0 false,
    .mdrain u0 (.port 1) 0 .i8 .rne false 0 false, .msetm u0 0 (.port 1) false, .mstat u0 .st 1, .mscale u0 (whole 4) false] : List Instr),
    i.wf = false := by decide
theorem test_wf_elementwise : ∀ i ∈ ([
    .vadd u0 ⟨whole 1, whole 2, whole 3, sfx .i32⟩, .vadd u0 ⟨.scalar 1, whole 2, whole 3, sfx .f32⟩,
    .vadd u0 ⟨.plane .row 1 16, .plane .row 2 0, .port 0, sfx .f32⟩, .vadd u0 ⟨whole 1, .plane .whole 2 1, whole 3, sfx .f32⟩,
    .vadd u0 ⟨whole 1, .plane .row 2 0, whole 3, sfx .f32⟩, .vadd u0 ⟨.port 2, .port 0, .port 1, { sfx .f32 with win := true }⟩,
    .vneg u0 ⟨whole 1, whole 2, { sfx .f32 with sat := true }⟩, .viadd u0 ⟨whole 1, whole 2, whole 3, { sfx .i32 with rnd := .rtz }⟩,
    .vand u0 ⟨whole 1, whole 2, whole 3, { sfx .i32 with sat := true }⟩, .vcvt u0 ⟨whole 1, whole 2, sfx .res8⟩ .f32 none none,
    .vcvt u0 ⟨whole 1, whole 2, sfx .f32⟩ .i32 none (some (whole 3)), .vcmp u0 1 (whole 1) (whole 2) (sfx .f32) .ltn,
    .vcmp u0 1 (whole 1) (whole 2) (sfx .res8) .eq, .vmov u0 ⟨whole 1, whole 2, { sfx .f32 with rnd := .rup }⟩] : List Instr), i.wf = false := by decide
theorem test_wf_layout : ∀ i ∈ ([
    .vrotr u0 ⟨whole 1, .plane .row 2 0, .scalar 1, sfx .f32⟩, .vrotc u0 ⟨whole 1, whole 2, .port 1, sfx .f32⟩,
    .vbcr u0 ⟨whole 1, .plane .row 2 0, sfx .f32⟩, .vbcc u0 ⟨whole 1, .plane .col 2 0, sfx .f32⟩, .vtrn16 u0 ⟨whole 1, .plane .row 2 0, sfx .f32⟩,
    .vredr u0 ⟨.plane .row 1 0, whole 2, sfx .f32⟩ .add, .vredr u0 ⟨.plane .col 1 0, .plane .row 2 0, sfx .f32⟩ .add,
    .vredc u0 ⟨.plane .row 1 0, whole 2, { sfx .f32 with sat := true }⟩ .max, .vredc u0 ⟨.plane .row 1 0, whole 2, sfx .res8⟩ .max,
    .vperm u0 ⟨whole 1, whole 2, .plane .row 3 0, sfx .f32⟩, .vcmprs u0 ⟨whole 1, whole 2, { sfx .f32 with km := some 1 }⟩ 1,
    .vexpnd u0 ⟨.plane .col 1 0, .plane .col 2 0, sfx .f32⟩ 1, .vpushc u0 1 (.port 1) 1 (sfx .f32), .vpopq u0 (.port 1) 1 1 (sfx .f32),
    .vsfck u0 ⟨whole 1, whole 2, whole 3, whole 4, sfx .i32⟩ 9 .morton, .winset u0 (.port 1), .tcfg u0 1 false (.port 1)] : List Instr), i.wf = false := by decide
theorem test_wf_stack_statistics_store : ∀ i ∈ ([
    .vmulk u0 ⟨whole 1, whole 2, whole 3, sfx .i32⟩, .vaddk u0 ⟨whole 1, .port 2, whole 3, sfx .f32⟩,
    .vaddk u0 ⟨whole 1, whole 2, whole 3, { sfx .f32 with km := some 1 }⟩, .vcvtk u0 ⟨whole 1, whole 2, sfx .res8⟩ none,
    .uncvtk u0 ⟨whole 1, whole 2, sfx .bf16⟩ none, .vshrk u0 ⟨whole 1, whole 2, whole 3, sfx .f32⟩, .vlrelk u0 ⟨whole 1, whole 2, sfx .f32⟩ 0,
    .otspill u0 1025, .vstat u0 (.plane .col 1 0) (.scalar 1) (sfx .f32), .vlse u0 (whole 1) (.port 1) (sfx .f32),
    .vnorms u0 ⟨whole 1, .plane .row 2 0, .scalar 1, .scalar 2, sfx .f32⟩, .vsofts u0 ⟨whole 1, whole 2, .port 1, sfx .f32⟩, .sbld u0 (.port 1) (.scalar 1) (.scalar 2) 0,
    .sbclr u0 (.scalar 1) (.port 1), .sdrain u0 ⟨.port 2, whole 1, sfx .f32⟩, .sdrain u0 ⟨.scalar 2, .port 1, sfx .f32⟩, .sdrainDev u0 (.port 1) (.port 2) 0 (sfx .f32),
    .sacc u0 ⟨.port 2, .port 0, .port 1, sfx .res8⟩, .snorm2 u0 (.port 0) .i32, .snorm2Put u0 (.scalar 1),
    .sscale u0 ⟨.port 2, .port 0, .scalar 1, .scalar 2, { sfx .f32 with win := true }⟩,
    .optw u0 ⟨.port 3, .port 0, .slot 1 0, .port 4, sfx .bf16⟩ true true 1 1, .optw u0 ⟨.port 2, .scalar 0, .slot 1 0, .port 4, sfx .bf16⟩ true true 1 1] :
    List Instr), i.wf = false := by decide

-- R84: BSEL's A is z or s; R215, R217: SACC of an integer type has a rounding, for its ports
theorem test_wf_taken : ∀ i ∈ ([.bsel u0 2 48 21 none 6, .sacc u0 ⟨.port 2, .port 0, .port 1, { sfx .i8 with rnd := .rtz }⟩] : List Instr),
    i.wf = true := by decide

/-! ### Single steps -/

/-- The result that a word's one step puts on the delay line, with the cycle on which it lands. -/
def result (i : Instr) (s : State) : Option (Nat × Eff) :=
  match exec i s with | .next t => (t.job.dl.getLast?).map fun e => (e.land, e.eff) | _ => none
/-- The record of the freeze that a word causes: code and cause. -/
def freeze (i : Instr) (s : State) : Option (Byte × Byte) :=
  match exec i s with | .next t => t.job.frec.map fun r => (r.code, r.cause) | _ => none

-- R71, R54: arithmetic modulo 2^64; the result lands on the next cycle
theorem test_add_wraps : result (.add u0 3 1 2) (withS [(1, 0xFFFFFFFFFFFFFFFF), (2, 2)]) = some (51, .sreg 3 1) := by decide +kernel
theorem test_addi_negative : result (.addi u0 3 3 0xFFFFFFFFFFFFF8) (withS [(3, 8)]) = some (51, .sreg 3 0) := by decide +kernel
theorem test_shra_by_70 : result (.shra u0 3 1 2) (withS [(1, 0x8000000000000000), (2, 70)]) = some (51, .sreg 3 0xFE00000000000000) := by decide +kernel
theorem test_mulh_signed : result (.mulh u0 3 1 2) (withS [(1, 0xFFFFFFFFFFFFFFFF), (2, 2)]) = some (53, .sreg 3 0xFFFFFFFFFFFFFFFF) := by decide +kernel
-- R72: division by zero, and of the most negative number by −1
theorem test_div_by_zero : result (.div u0 3 1 2) (withS [(1, 7)]) = some (68, .sreg 3 0xFFFFFFFFFFFFFFFF) ∧
    result (.rem u0 3 1 2) (withS [(1, 7)]) = some (68, .sreg 3 7) := by decide +kernel
theorem test_div_overflow : result (.div u0 3 1 2) (withS [(1, 0x8000000000000000), (2, 0xFFFFFFFFFFFFFFFF)]) = some (68, .sreg 3 0x8000000000000000) := by
  decide +kernel
-- R84: BSEL's worked example: bucket 1 for 70 rows, 6 rows of the last tile
theorem test_bsel_example :
    (match exec (.bsel u0 3 1 2 (some (.pm, 0)) 5) (table 0x100 [64, 128, 256] 70) with
     | .next t => [Eff.sreg 5 1, .pend .pm 0 6].all fun x => t.job.dl.any fun e => decide (e.land = 53 ∧ e.eff = x)
     | _ => false) = true := by decide +kernel
-- R83, R66: a load of 8 bytes from local memory at an offset that is not a multiple of 8 faults with 0x12
theorem test_ldl_misaligned : freeze (.ldl u0 3 1 3 false 0) (withS [(1, 4)]) = some (0x12, 0) := by decide +kernel
-- R354: TRAP freezes the job with 0x14
theorem test_trap : (freeze (.trap u0 7) run).map Prod.fst = some 0x14 := by decide +kernel

/-! ### Numbers -/

-- R110, R113: −3 in RES8; W8's reconstruction of −3
theorem test_res8_minus3 : resEnc .res8 (-3) = 0x94 ∧ resDec .res8 0x94 = -3 := by decide +kernel
theorem test_w8_minus3 : baseCrt false (chPack 1021 1020 1018) = -3 := by decide +kernel
-- R201, R204: the two worked examples, there and back
theorem test_vaddk_example : keepAdd .bf16 0x3F80 0x3B80 = .ok 0x3F80 0x3B800000 ∧ undoAdd .bf16 0x3F80 0x3B80 0x3B800000 = some 0x3F80 := by decide +kernel
theorem test_vcvtk_example : keepBf16 0x3F808001 = .ok 0x3F81 0x00018001 ∧ undoBf16 0x3F81 0x00018001 = some 0x3F808001 := by decide +kernel
-- R221: one element of OPTW.adam.bf16.wd
theorem test_adam_example : adamElem .bf16 .rne false true 0x3E800000 0x3F000000 0x3F400000 0 0x3F000000 1 0x3F80 0x3F000000 0 0 =
    (0x3E800000, 0x3D800000, 0x3F20) := by decide +kernel
-- R106: a tie goes to even; R105: a subnormal is delivered
theorem test_round_tie : fAdd .bf16 .rne false 0x3F80 0x3B80 = 0x3F80 ∧ fAdd .bf16 .rup false 0x3F80 0x3B80 = 0x3F81 := by decide +kernel
theorem test_subnormal : fMul .f32 .rne false 0x00800000 0x3F000000 = 0x00400000 := by decide +kernel
-- R306: the keys of two particles of the repartition example
theorem test_morton_example : mortonKey 1 2 1 = 21 ∧ mortonKey 3 0 1 = 13 := by decide +kernel
-- R340: the records of core 0's job reel in the recorded step, both ways; a reserved bit
theorem test_reel_example :
    [ReelRec.semwait 2 0 1, .launch 2 0, .guard 2 0 false 32, .sempost 2 2, .mark 2, .fin 6].map ReelRec.encode =
      [0x30002000000000000000000000000001, 0x10002000000000000000000000000000, 0x50002000000000000000000000000020,
        0x40002002000000000000000000000001, 0x60002000000000000000000000000000, 0x70000000000000000000000000000006] ∧
    ReelRec.decode 0x40002002000000000000000000000001 = some (.sempost 2 2) ∧ ReelRec.decode 0x60012000000000000000000000000000 = some (.mark 18) ∧
    ReelRec.decode 0x61002000000000000000000000000000 = none := by decide +kernel
-- R374, R375: record 2 of the example; its list over 2 × 2 matrices
theorem test_ndeiq_record : ndRec [0x10, 0, 0x20, 0, 2, 0, 1, 0, 0, 0, 0, 0, 0, 0, 0, 0] = some ⟨0x0010, .bf16, [2, 1], 0⟩ := by decide +kernel
theorem test_ndeiq_example :
    (ndOutputs [⟨1, .bf16, [], 0x2000002⟩, ⟨1, .bf16, [], 0x2000002⟩, ⟨0x10, .bf16, [2, 1], 0⟩, ⟨2, .f32, [], 0x3F800000⟩, ⟨0x11, .bf16, [2, 1], 0⟩,
      ⟨3, .bf16, [1], 0⟩] [⟨2, 2, .bf16, false, #[0x3F80, 0x4000, 0x4040, 0x4080]⟩, ⟨2, 2, .bf16, false, #[0x4000, 0, 0, 0x4000]⟩]).map
      (fun x => x.map Tensor.els) = [some #[0x4040, 0x40A0, 0x40E0, 0x4110]] := by decide +kernel
-- FIPS 180-4: the digest of "abc" begins BA7816BF
theorem test_sha256_abc : (sha256 [0x61, 0x62, 0x63]).take 4 = [0xBA, 0x78, 0x16, 0xBF] := by decide +kernel

/-! ### Places and times -/

def request1 (src : AtomSrc) : AtomReq := ⟨src, .sempost, 0x40, 0x40, 8, 1, 0, 0, false, false, 0, 0, [], WordRef.zero, 0⟩

-- R59, R60, R241: the read of 0x0000_0012_3456_0140 by core 26
theorem test_stack_example : stackOf .b9 0x1234560140 = 1 ∧ Config.travelStack (Config.coreNode 26) 1 = 14 ∧ homeOf .b9 0x1234560140 = 5 := by decide +kernel
-- R239, R241: core 26's next slot after the arrival at position 249 is slot 18 of position 251
theorem test_slot_example : slotsOf .b9 (.core 26) 249 = [] ∧ slotsOf .b9 (.core 26) 250 = [] ∧ slotsOf .b9 (.core 26) 251 = [18] := by decide +kernel
-- R271: the places of the ring of cores 36, 45 and 26 and of a port
theorem test_ring_example : [36, 45, 26].map (fun c => (ringPos { run with coreNo := c } (request1 .core)).1) = [0, 5, 6] ∧
    (ringPos run (request1 (.synric 0))).1 = 9 := by decide +kernel

end Sys2Proof.Tests
end

