-- ==== Sys2Proof/Tests/WitnessEvents.lean ====
section
/-! SUPPORT. States that meet the hypotheses of the statements about events, and of those about the whole machine. -/
open Sys2Proof Sys2Proof.Machine
namespace Sys2Proof.Tests
set_option Elab.async false -- theorems in turn: one that waits for those before it holds a thread

/-! ### Witnesses: events of a core -/

/-- The sequencer at a header that its branch buffer holds. -/
def atHeader (h : W64) : State := run.onSeq fun q => { q with pos := .header 0x1000, buf := some (h, []) }
def dep0 (d : Nat) : W64 := hdr4 + BitVec.ofNat 64 (d * 2 ^ 30)
def targetsAre (s : State) (h : W64) (met : Bool) : Bool :=
  match hdrTargets s .sq h with | .ok t => targetsMet s t == met | .error _ => false
theorem wit_SequencerAtHeader :
    ((atHeader hdr4).job.seq.pos = .header 0x1000 ∧ (atHeader hdr4).job.seq.buf = some (hdr4, [])) ∧
    (fetched.job.seq.buf = none ∧ isOk (sqFetch fetched 0x10000 8) = true) ∧
    hdrType 0x2004000000000000 ≠ 1 ∧ hdrFault .sq 0x1004200000000000 = some 2 ∧ hdrFault .sq hdr4 = none ∧ hdrFault .sq (dep0 0x280) = none ∧
    isOk (hdrTargets run .sq (dep0 0x280)) = false ∧ targetsAre run (dep0 0x200) true = true ∧ targetsAre run (dep0 0x201) false = true ∧
    (let u := run.onSeq fun q => { q with pos := .wait 0x1000 (dep0 0x200) [(1, 0)] }
     u.job.seq.pos = .wait 0x1000 (dep0 0x200) [(1, 0)] ∧ targetsMet u [(1, 0)] = true) := by decide +kernel

theorem wit_SectionsStartAndRetire :
    (let s := run.onEng .sx fun e => { e with q := [sec 0x2000 1] }
     (∀ x ∈ [Stream.ax, .mx, .vx], startable s x = none) ∧ startable s .sx = some (sec 0x2000 1)) ∧
    (let e : QEnt := { sec 0x2000 1 with hdr := 0x1000000000000000 }
     startable (run.onEng .ax fun x => { x with q := [e] }) .ax = some e) ∧
    (let x : Ended := ⟨1, 0x1004010000000000, WordRef.zero, [], []⟩
     let s := run.onEng .mx fun e => { e with ended := [x] }
     retirable s .ax = none ∧ retirable s .mx = some x ∧ hdrRdve x.hdr = true) := by decide +kernel

def lands (e : Eff) (s : State := run) : State := s.onJob fun j => { j with dl := [⟨50, .vx, 1, 40, e⟩] }
theorem wit_LandingsAndHolds :
    (let s := lands (.sreg 3 7)
     arrayDue s = false ∧ jobLands s = true ∧ (dueEntries s.job.cycle s.job.dl).filterMap (fun e => effPlane e.eff) = []) ∧
    (let s := (lands (.lanes 31 [(0, 1)])).onCore fun c => { c with images := [(1, 31, plane 2)] }
     jobLands s = true ∧ (dueEntries s.job.cycle s.job.dl).filterMap (fun e => effPlane e.eff) = [31] ∧
     s.core.images.any (fun i => decide (i.1 = s.job.ctx ∧ i.2.1 = 31)) = true ∧ (s.plane 31).owner ≠ some s.job.ctx) ∧
    jobLands run = false ∧ ({ run with hold := some 100 }.hold = some 100 ∧ (100 : Nat) ≤ { run with hold := some 100 }.cyc) := by decide +kernel

def line7 : ScLine := ⟨7, List.replicate 64 0, [(1, 448)], false⟩
def filling : State := run.onCore fun c => { c with scFill := [7], scArr := [line7] }
/-- A walk of the data page at its first table, or at its last. -/
def walkAt (n : Nat) : WalkRd := ⟨⟨.sq, 0x20000, .r⟩, n, if n = 3 then 0x30000 else 0x60000⟩
def walking (n : Nat) : State :=
  (tabled (run.onJob fun j => { j with l := { j.l with root := 0x30000 } })).onCore fun c => { c with walks := [walkAt n] }
def prefetching : State := fetched.onSeq fun q => q.setB 3 ⟨0x10000, true, some 44, false, none⟩
theorem wit_FillsPrefetchesWalks :
    dueHead (due (.streamCacheFill 7) filling) (dueOff (due (.streamCacheFill 7) filling)) (.streamCacheFill 7) ∧
    (due (.streamCacheFill 7) filling).core.scArr.find? (fun x => x.line = 7) = some line7 ∧
    (prefetchDue prefetching = some 3 ∧ (prefetchTry prefetching 3).2.isSome = true) ∧
    dueHead (due (.translationWalk .sq 0 .r)) (dueOff (due (.translationWalk .sq 0 .r))) (.translationWalk .sq 0 .r) ∧
    isOk (walkTable run run.job.l.root 0) = false ∧
    (∀ n ∈ [3, 0], (walking n).core.walks.find? (fun y => decide (y.walk = ⟨.sq, 0x20000, .r⟩)) = some (walkAt n)) ∧
    walkNext (walking 3) (walkAt 3) = some ⟨⟨.sq, 0x20000, .r⟩, 2, 0x40000⟩ ∧ walkNext (walking 0) (walkAt 0) = none ∧
    isOk (walkTable (walking 0) (walking 0).job.l.root 0x20000) = true :=
  ⟨due_head _ _ rfl, by decide +kernel, by decide +kernel, due_head _ _ rfl, by decide +kernel, by decide +kernel, by decide +kernel, by decide +kernel, by decide +kernel⟩

def reached (fl : Vector (Bool × Bool) 5) (s : State := run) : State := s.onFlow fun f => { f with rdvReached := .replicate 5 1, flags := fl }
theorem wit_RendezvousCompletes :
    (let s := reached (.replicate 5 (false, true))
     rdvReady s = true ∧ s.job.flow.flags.toList.all Prod.snd = true ∧ oddPhase s = none) ∧
    (let s := (reached (.replicate 5 (false, true)) (inLevels 0b00011)).onGrp fun g => { g with doms := [⟨1, 0, [], 0, 1, [], [], [], false, 0, 0, []⟩] }
     rdvReady s = true ∧ oddPhase s = some 1) ∧
    (let s := reached #v[(false, false), (false, true), (false, false), (false, false), (false, false)]
     rdvReady s = true ∧ s.job.flow.flags.toList.all Prod.snd = false ∧ s.job.flow.flags.toList.any Prod.snd = true) ∧
    (let s := (reached (.replicate 5 (true, false))).onJob fun j => { j with preempt := some 100 }
     rdvReady s = true ∧ s.job.flow.flags.toList.any Prod.snd = false ∧ s.job.flow.flags.toList.all Prod.fst = true ∧ s.job.preempt = some 100 ∧ (100 : Nat) ≤ s.cyc) ∧
    (reached (.replicate 5 (true, false))).job.preempt = none := by decide +kernel

/-- A gang of two nodes, of which this core's job is the one member here; it has arrived. -/
def gangDom : Dom := ⟨4, 9, [0, 5], 40, 0, [0], [0], [], true, 0, 0, []⟩
def dom1 : Dom := ⟨1, 0, [], 0, 0, [0], [0], [], true, 0, 0, []⟩
def inDoms (s : State := run) (d : Dom := gangDom) : State := s.onGrp fun g => { g with doms := [dom1, d] }
/-- The same gang in a round, with the packets that have come for rounds. -/
def inRound (n : Nat) (l : List (Nat × Nat)) (nodes : List Nat := [0, 5]) : Dom := { gangDom with nodes := nodes, round := n, start := 90, remote := l }
theorem wit_PhaseChangesComplete :
    (let s := due (.phaseChangeComplete 1 0) (inDoms (inLevels 0b00011 (run.setMicro .sq { Micro.init with phase := 1, k := 1 })))
     dueHead s (dueOff s) (.phaseChangeComplete 1 0) ∧ findDom s 1 0 = some dom1 ∧ (myKey s ∈ dom1.members → myKey s ∈ dom1.arrived) ∧
     domInst s 1 = 0 ∧ isMember s 1 = true ∧ myKey s ∈ dom1.arrived ∧ (s.micro .sq).phase = 1 ∧ (s.micro .sq).k = 1) ∧
    (let s := due (.phaseChangeComplete 4 9) inDoms
     dueHead s (dueOff s) (.phaseChangeComplete 4 9) ∧ findDom s 4 9 = some gangDom ∧ 1 < gangDom.nodes.length ∧ gangDom.closing = true ∧
     gangDom.start ≤ s.cyc ∧ gangDom.round = 0) ∧
    ((∀ d ∈ [inRound 1 [], inRound 1 [(0, 101)], inRound 1 [(0, 100)], inRound 1 [(0, 100)] [0, 5, 7], { gangDom with closing := false },
        { gangDom with start := 101 }], findDom (inDoms run d) 4 9 = some d) ∧
      (∀ x ∈ (inRound 1 [(0, 101)]).remote, x.1 + 1 = 1 → run.cyc < x.2) ∧
      (inRound 1 [(0, 100)]).remote.find? (fun x => decide (x.1 + 1 = 1 ∧ x.2 ≤ run.cyc)) = some (0, 100) ∧ clog2 2 ≤ 1 ∧ 1 < clog2 3) ∧
    (let s := due (.domArrive 5 3 1 0 [7]) (inDoms run)
     dueHead s (dueOff s) (.domArrive 5 3 1 0 [7])) ∧
    memberKey 5 3 ∈ ({ dom1 with members := [0, memberKey 5 3] } : Dom).members :=
  ⟨⟨due_head _ _ rfl, by decide +kernel, by decide +kernel, by decide +kernel, by decide +kernel, by decide +kernel, by decide +kernel, by decide +kernel⟩,
    ⟨due_head _ _ rfl, by decide +kernel, by decide +kernel, by decide +kernel, by decide +kernel⟩, by decide +kernel, due_head _ _ rfl, by decide +kernel⟩

theorem wit_PortRunsAreServed :
    (let s := (withG 7 { rport 1 with buf := [], fpos := 0 } run).onCore fun c => { c with won := some [7] }
     s.core.won = some (7 :: []) ∧ (portRun s (s.port 7)).isSome = true ∧ (s.port 7).wr = false ∧
     (runStamp (s.onCore fun c => { c with won := some [] }) .ax .read ((List.range 16).map fun i => walkAddr (s.port 7) i) 4).2 = none) ∧
    (let x : PVec := ⟨0, 16, List.replicate 16 ⟨1, 0xF, 0⟩, 1, .f32, .rne, false, 0, 1, WordRef.zero, false, []⟩
     let s := (withG 0 { wport 4 with buf := [x] } run).onCore fun c => { c with won := some [0, 7] }
     s.core.won = some (0 :: [7]) ∧ (portRun s (s.port 0)).isSome = true ∧ (s.port 0).wr = true ∧ (s.port 0).buf = x :: [] ∧
     (runStamp (s.onCore fun c => { c with won := some [7] }) .ax .write ((List.range 16).map fun i => walkAddr (s.port 0) i) 4).2 = none) ∧
    (let s := run.onCore fun c => { c with stamps := [(0, 0x00702000)] }
     (runStamp s .ax .write [0] 4).2.isSome = true) := by decide +kernel

def sendMsg : SendMsg := ⟨0, 0, 1, 15, 0, List.replicate 64 9, 4, 4, WordRef.zero, [1], 0⟩
theorem wit_TimedSendArrives :
    (let s := due (.sendtArrival sendMsg) (withH { handle 5 1 3 with wh := 3 })
     dueHead s (dueOff s) (.sendtArrival sendMsg) ∧ sendMsg.srcCore = s.coreNo ∧ sendMsg.dstCore = s.coreNo ∧ s.job.id = sendMsg.jobId ∧ s.job.st = .running ∧
     arrivalSlot s sendMsg = some 3 ∧
     (stampGrans s.core.stamps 1 0 .write (fun p => decide (p = 1) || sendMsg.held.contains p) (granSpan 64 (0x100 + 3 * 64) 64).1
       (granSpan 64 (0x100 + 3 * 64) 64).2).2 = none) ∧
    arrivalSlot (withH (handle 5 1 4)) sendMsg = none ∧
    ((withH (handle 5 1 3)).onCore fun c => { c with landed := (100, 2) }).core.landed = (100, 2) :=
  ⟨⟨due_head _ _ rfl, by decide +kernel, by decide +kernel, by decide +kernel, by decide +kernel, by decide +kernel, by decide +kernel⟩, by decide +kernel, by decide +kernel⟩

def copyPlus (c : Copy) (s : State := run) : State := s.onCore fun k => { k with copies := [c] }
def toSlot : Copy := { copyOf5 with dst := .oslot 3, dfmt := 0, desz := 2, sfmt := 0, esz := 2, lvls := [⟨16, 2, 2⟩] }
theorem wit_CopiesStartAndAsk :
    ((copyPlus copyOf5).agenda = [] ∧ copyStartable (copyPlus copyOf5) = some copyOf5 ∧ badBanks (copyPlus copyOf5) copyOf5 = false) ∧
    (copyStartable (copyPlus toSlot) = some toSlot ∧ slotEmpty (copyPlus toSlot) 3 (tileTy toSlot.dfmt) = true ∧
      slotEmpty ((copyPlus toSlot).setOslot 3 ⟨.full, 0, false, [], []⟩) 3 (tileTy toSlot.dfmt) = false) ∧
    badBanks ((copyPlus copyOf5).onJob fun j => { j with bfmt := .replicate 16 0 }) copyOf5 = true ∧
    (let s := copyPlus { copyOf5 with ph := .active }
     copyAskable s = true ∧ (rotate s s.core.rdLast (readReady s)).isSome = true) ∧
    (let s := copyPlus { copyOf5 with ph := .active, rdPos := 16, reads := 16, stage := (List.range 16).map fun i => (i, ⟨1, 0xF, 0⟩) }
     copyAskable s = true ∧ (rotate s s.core.wrLast (writeReady s)).isSome = true) ∧
    (let s := due (.copyDataReturn 5 [(0, 1, 0xF, 0)]) (copyPlus { copyOf5 with ph := .active, rdPos := 1, rdOut := 1 })
     dueHead s (dueOff s) (.copyDataReturn 5 [(0, 1, 0xF, 0)]) ∧ (copyOf s 5).isSome = true) :=
  ⟨by decide +kernel, by decide +kernel, by decide +kernel, by decide +kernel, by decide +kernel, due_head _ _ rfl, by decide +kernel⟩

def fowMma : Instr := .mma u0 4 0 1 63 .bf16 0 0 0 false
theorem wit_CopiesRetire :
    (copyRetirable (copyPlus retired) = some retired ∧ retired.fow = none ∧ retired.post = none) ∧
    copyRetirable (copyPlus { retired with fow := some fowMma }) = some { retired with fow := some fowMma } ∧
    (let c : Copy := { retired with ph := .retired }
     let s := due (.copyDone 5) (copyPlus c)
     dueHead s (dueOff s) (.copyDone c.id) ∧ copyOf s c.id = some c ∧ c.own = true ∧ s.job.id = c.jobId ∧ c.token < 16) ∧
    (let c : Copy := { retired with ph := .retired, post := some (0x20040, 0x20040), fow := some fowMma, fjoin := true }
     let s := due (.copyPostAck 5) (copyPlus c)
     dueHead s (dueOff s) (.copyPostAck c.id) ∧ copyOf s c.id = some c ∧ c.own = true ∧ s.job.id = c.jobId ∧ c.fjoin = true) ∧
    (let c : Copy := { retired with ph := .retired, post := some (0x20040, 0x20040), fow := some fowMma, fjoin := false }
     copyOf (due (.copyPostAck 5) (copyPlus c)) c.id = some c) :=
  ⟨by decide +kernel, by decide +kernel, ⟨due_head _ _ rfl, by decide +kernel, rfl, rfl, by decide⟩, ⟨due_head _ _ rfl, by decide +kernel, rfl, rfl, rfl⟩, by decide +kernel⟩

def followC : Copy := { copyOf5 with ph := .retired, dst := .oslot 0, fow := some fowMma }
def joining (m : TMode) (n : Nat) : State :=
  let s := (oslots .held .bf16 (tileAs 4 m 0 (copyPlus followC))).onCore fun c => { c with arr := { c.arr with fq := List.replicate n ⟨7, fowMma, WordRef.zero, 0⟩ } }
  due (.followOnJoin 5) s
def fowOk (s : State) : Option Nat :=
  mmaBad s (fun o st => decide (st = .full ∨ st = .held) || (decide (st = .reserved) && decide (o = copySlot followC))) 4 0 1 .bf16
theorem wit_FollowOnsJoinAndEnter :
    dueHead (joining .fp 3) (dueOff (joining .fp 3)) (.followOnJoin followC.id) ∧ copyOf (joining .fp 3) followC.id = some followC ∧ (fowOf fowMma).isSome = true ∧
    fowOk (joining .fp 3) = none ∧ badCell (joining .fp 3) (mmaCells 4 0 1 .bf16) = none ∧ (joining .fp 3).core.arr.fq.length < 4 ∧
    4 ≤ (joining .fp 4).core.arr.fq.length ∧ fowOk (joining .none 0) = some 4 ∧ (followReady (joining .fp 1)).isSome = true :=
  ⟨due_head _ _ rfl, by decide +kernel, by decide +kernel, by decide +kernel, by decide +kernel, by decide +kernel, by decide +kernel, by decide +kernel, by decide +kernel⟩

def spilling (o : Ot) : State := run.onJob fun j => { j with ot := { o with base := 0x0010000000020000 } }
def trailer (tag n cnt : Nat) : List Byte := fit 64 (leBytes 4 tag ++ leBytes 2 n ++ leBytes 2 cnt)
def filled5 (drop : Bool) (t : List Byte) : State :=
  due (.fillTrailerCheck 5) (spilling { Ot.init with sp := 1088, depth := 1, lo := 16, fill := some ⟨5, drop, 0x20400, false, 1, 90, 0, 0, 0, [(0, t)], 0⟩ })
theorem wit_SpillsAndFills :
    (let s := spilling { Ot.init with recs := [mark], depth := 1, hi := 0 }
     spillStartable s = true ∧ s.job.ot.recs = mark :: []) ∧
    spillDone (spilling { Ot.init with recs := [mark], depth := 1, spill := some ⟨5, 1, 0x20000, 5, 60, some 100⟩ }) = true ∧
    fillStartable (spilling { Ot.init with sp := 1088, depth := 1, lo := 16 }) = true ∧
    (dueHead (filled5 false (trailer 0x43FF0001 16 1024)) (dueOff (filled5 false (trailer 0x43FF0001 16 1024))) (.fillTrailerCheck 5) ∧
      (filled5 false (trailer 0x43FF0001 16 1024)).job.ot.fill.isSome = true) ∧
    (let d := trailer 0x43FF0001 16 1024
     leNat ((d.drop 4).take 2) = 16 ∧ leNat ((d.drop 6).take 2) = 1024 ∧ (∀ b ∈ d.drop 8, b = 0) ∧ leNat (d.take 4) % 2 ^ 16 = (1 - 0) % 2 ^ 16) ∧
    (let d := trailer 0x43FF0002 16 1024
     leNat (d.take 4) % 2 ^ 16 ≠ (1 - 0) % 2 ^ 16) ∧
    (let s := due (.fillComplete 5) (spilling { Ot.init with sp := 1088, depth := 1, fill := some ⟨5, false, 0x20400, true, 16, 90, 0x43FF0001, 16, 1024, [], 0⟩ })
     dueHead s (dueOff s) (.fillComplete 5) ∧ s.job.ot.fill.isSome = true) :=
  ⟨by decide +kernel, by decide +kernel, by decide +kernel, ⟨due_head _ _ rfl, by decide +kernel⟩, by decide +kernel, by decide +kernel, due_head _ _ rfl, by decide +kernel⟩

/-! ### Witnesses: stacks, atomic engines, collectives, passes -/

def req (k : ReqKind) (a : Acc) (d : List Byte) : DevReq := ⟨.core 0, 0, 0, a, k, 0x20040, 0x20040, 8, d, WordRef.zero, 40⟩
def raced : State := run.onDev fun d => { d with stamps := [(0x20040 / 256, 0x00702000)] }
theorem wit_StacksServe :
    (let r := req (.ld 31 3 false) .read []
     dueHead (due (.stackSlotService r)) (dueOff (due (.stackSlotService r))) (.stackSlotService r) ∧ badDev (due (.stackSlotService r)) r.pa r.len = none ∧
     (reqStamp r (dueOff (due (.stackSlotService r)))).2 = none ∧ (reqStamp r raced).2.isSome = true) ∧
    (let r := req .st .write (List.replicate 8 1)
     (reqStamp r ((dueOff (due (.stackSlotService r))).onSeq fun q => { q with stOut := q.stOut - 1 })).2 = none ∧
     (reqStamp r (raced.onSeq fun q => { q with stOut := q.stOut - 1 })).2.isSome = true) ∧
    (req .fetch .read []).kind = .fetch ∧
    (let r := req (.atomWt 15 1 .none (some (.core, []))) .awrite (leBytes 8 1)
     (wtStamp r .core [] run).2 = none ∧ (wtStamp r .core [] raced).2.isSome = true) ∧
    (SMap.get 0 (atomAt run 15).applied (0x20040 / 64) < 1 ∧ ¬ (SMap.get 0 (atomAt run 15).applied (0x20040 / 64) < 0)) :=
  ⟨⟨due_head _ _ rfl, by decide +kernel, by decide +kernel, by decide +kernel⟩, by decide +kernel, rfl, by decide +kernel, by decide +kernel⟩

def loadOut (amo : Bool) (s : State := run) : State := s.onSeq fun q => { q with ldOut := [⟨31, amo, 40⟩] }
def aFault : FaultRec := ⟨8, 0, ⟨.vx, 0, 0⟩, false, false, true, false, false, true, 0, 0⟩
theorem wit_AnswersReturn :
    (let s := due (.loadReturn ⟨31, 7, 40⟩) (loadOut false)
     dueHead s (dueOff s) (.loadReturn ⟨31, 7, 40⟩) ∧
     s.job.seq.ldOut.find? (fun o => decide (o.reg = (31#5).toNat) && !o.amo && decide (o.iss = 40)) = some ⟨31, false, 40⟩ ∧ s.job.st = .running) ∧
    ((loadOut false).onJob fun j => { j with st := .frozen }).job.st = .frozen ∧
    dueHead (due (.deferredFaultReport aFault)) (dueOff (due (.deferredFaultReport aFault))) (.deferredFaultReport aFault) ∧
    (let r : AtomRet := ⟨.core, some 31, 7, [], false, 40, none⟩
     dueHead (due (.atomicReturn r) (loadOut true)) (dueOff (due (.atomicReturn r) (loadOut true))) (.atomicReturn r) ∧ r.src = .core ∧ r.reg = some 31 ∧
     r.fault = none ∧ r.hold = false) ∧
    ((⟨.core, some 31, 7, [3], true, 40, none⟩ : AtomRet).hold = true ∧ (⟨.core, some 0, 0, [], false, 40, some aFault⟩ : AtomRet).fault = some aFault) ∧
    dueHead (due (.sempostAck (.post 0x20040))) (dueOff (due (.sempostAck (.post 0x20040)))) (.sempostAck (.post 0x20040)) ∧
    dueHead (due (.sempostAck (.grip 31 7))) (dueOff (due (.sempostAck (.grip 31 7)))) (.sempostAck (.grip 31 7)) :=
  ⟨⟨due_head _ _ rfl, by decide +kernel, by decide +kernel⟩, by decide +kernel, due_head _ _ rfl, ⟨due_head _ _ rfl, rfl, rfl, rfl, rfl⟩, ⟨rfl, rfl⟩, due_head _ _ rfl,
    due_head _ _ rfl⟩

def areq (k : AtomKind) (v : W64) : AtomReq := ⟨.core, k, 0x20040, 0x20040, 8, v, 0, 31, false, false, 24, 0, [], WordRef.zero, 40⟩
def engine (k : Nat) (a : Atom) (s : State := run) : State := { s with atoms := rowSet s.atoms k a }
/-- The line of 0x20040 with the value 5 at its start. -/
def line5 : ScLine := ⟨0x20040 / 64, leBytes 8 5 ++ List.replicate 56 0, [], false⟩
theorem wit_EnginesTakeRequests :
    (let r := areq (.amo .add) 2
     atomReady (engine 15 { Atom.init with queue := [r] }) = some 15 ∧ (atomAt (engine 15 { Atom.init with queue := [r] }) 15).queue = r :: [] ∧
     (atomAt (engine 15 { Atom.init with queue := [r] }) 15).fills.find? (fun f => decide (f.line = r.pa / 64 ∧ f.live = true)) = none ∧
     (atomAt (engine 15 { Atom.init with queue := [r] }) 15).store.find? (fun x => decide (x.line = r.pa / 64)) = none) ∧
    (let s := engine 0 { Atom.init with queue := [areq .semwait 1], fills := [⟨0, 0x20040 / 64, none, [], true⟩] }
     atomReady s = some 0 ∧ ((atomAt s 0).fills.find? fun f => decide (f.line = 0x20040 / 64 ∧ f.live = true)).isSome = true) ∧
    (let r := areq (.amo .add) 2
     let s := engine 0 { Atom.init with queue := [r], store := [line5] }
     atomReady s = some 0 ∧ (atomAt s 0).store.find? (fun x => decide (x.line = r.pa / 64)) = some line5 ∧ atomBad r s = none ∧
     atomEval r.kind 64 5 r.b r.c = some (some 7, 5) ∧ (atomStamp r (relSet (atomAt s 0) (0x20040 / 64)) true s).2 = none) ∧
    (let r := areq .semwait 6
     atomEval r.kind 64 5 r.b r.c = none ∧ (atomStamp r [] false (engine 0 { Atom.init with queue := [r], store := [line5] })).2 = none) := by decide +kernel

theorem wit_FillsNoticesWatches :
    (let r := areq (.amo .add) 2
     let s := due (.atomicFillReturn 15 3 []) (engine 15 { Atom.init with fills := [⟨3, 0x20040 / 64, some line5.data, [r, r], true⟩], nfill := 4 })
     dueHead s (dueOff s) (.atomicFillReturn 15 3 []) ∧ ((atomAt s 15).fills.find? fun f => decide (f.id = 3)) = some ⟨3, 0x20040 / 64, some line5.data, r :: [r], true⟩ ∧
     relRoom s (atomAt s 15) r = true) ∧
    dueHead (due (.plainWriteNotice 15 7)) (dueOff (due (.plainWriteNotice 15 7))) (.plainWriteNotice 15 7) ∧
    dueHead (due (.watchEvaluation 15 (0x20040 / 64))) (dueOff (due (.watchEvaluation 15 (0x20040 / 64)))) (.watchEvaluation 15 (0x20040 / 64)) ∧
    ((atomAt run 15).watches.filter fun w => w.pa / 64 = 0x20040 / 64) = [] ∧
    (let w := areq .semwait 5
     let s := engine 15 { Atom.init with store := [line5], watches := [w] }
     ((atomAt s 15).watches.filter fun w => w.pa / 64 = 0x20040 / 64) = [w] ∧ atomBad w s = none ∧ (atomEval w.kind 64 5 w.b w.c).isSome = true ∧
     (atomEval (areq .semwait 6).kind 64 5 (areq .semwait 6).b 0) = none ∧ (atomStamp (areq .semwait 6) (relSet (atomAt s 15) (0x20040 / 64)) false s).2 = none) :=
  ⟨⟨due_head _ _ rfl, by decide +kernel, by decide +kernel⟩, due_head _ _ rfl, due_head _ _ rfl, by decide +kernel, by decide +kernel⟩

/-- An all-reduce of 64 .f32 elements in place between ranks 0 and 1, before its first chunk. -/
def coll0 : Coll :=
  { gid := 9, num := 0, rid := 3, core := 0, jobId := 1, token := 15, root := 0, ranks := 2, rank := 0, nodes := [0, 5], op := 1, red := 0, dt := .f32, vc := 0,
    count := 64, query := 0, src := 0x20400, src2 := 0, dst := 0x20400, comp := 0x20800, pages := [(0x20000, 0x20000, 0x10000)], sched := [], itvs := 1, chunks := 1,
    chunk := 0, itv := 0, stage := 0, image := [], arrivals := [], blocks := [], outp := [], held := [], fin := none, wrote := false, busy := false
    rcd := ⟨0x20040, 0x20400, 0, 0x20400, 64, 0x20800, 0, 0, 0, 1, 0, .f32, 1, []⟩ }
def withC (c : Coll) (s : State := run) : State := s.onGrp fun g => { g with colls := [c] }
/-- The same in its intervals, waiting for nothing, or for rank 1; with its output gathered. -/
def coll1 : Coll := { coll0 with stage := 1 }
def awaiting : Coll := { coll1 with sched := [⟨0, 1, false, 0, 0, 256, true⟩] }
def coll2 : Coll := { gatherChunk (closeItv coll1 run).2 with busy := true }
theorem wit_CollectivesRun :
    let next : Ev := .reductionIntervalClose 9 0
    let done : Ev := .collectiveComplete 9 0
    (collOf (withC coll0) 9 0 = some coll0 ∧ dueHead (due next (withC coll0)) (dueOff (due next (withC coll0))) next ∧
      (unitTake next (dueOff (due next (withC coll0)))).1 = none ∧ coll0.fin = none ∧ coll0.busy = false ∧ coll0.stage = 0 ∧ collHeld coll0 (withC coll0) = false) ∧
    collHeld coll0 (run.onCore fun c => { c with ranges := [⟨2, 8, 0x20400, 0x20404⟩] }) = true ∧
    (itvDone awaiting = false ∧ itvDone coll1 = true ∧ coll1.itv < coll1.itvs ∧ coll1.itvs ≤ (closeItv coll1 run).2.itv) ∧
    ((closeItv { coll1 with itvs := 2 } run).2.itv < 2 ∧ wholeBlock (gatherChunk (closeItv coll1 run).2) = some 0 ∧
      wholeBlock (gatherChunk (closeItv { coll1 with count := 0 } run).2) = none) ∧
    ((∀ b ∈ [false, true], goesOn next b (dueOff (due next (served next [(0x20400, [1])] b (withC coll0)))) = true) ∧ coll2.stage = 2 ∧ wholeBlock coll2 = some 0) ∧
    (dueHead (due done (withC coll0)) (dueOff (due done (withC coll0))) done ∧ (unitTake done (dueOff (due done (withC coll0)))).1 = none ∧
      goesOn done false (dueOff (due done (served done [] false (withC { coll0 with fin := some 0, wrote := true })))) = true) ∧
    (run.job.id = coll0.jobId ∧ coll0.token < 16) ∧
    dueHead (due (.collectiveAbort 9 0 1) (withC coll0)) (dueOff (due (.collectiveAbort 9 0 1) (withC coll0))) (.collectiveAbort 9 0 1) ∧
    (dueHead (due (.memberRecord 9 0 []) (withC coll0)) (dueOff (due (.memberRecord 9 0 []) (withC coll0))) (.memberRecord 9 0 []) ∧ collKey coll0.rcd ≠ []) :=
  ⟨⟨by decide +kernel, due_head _ _ rfl, by decide +kernel, rfl, rfl, rfl, by decide +kernel⟩, by decide +kernel, by decide +kernel, by decide +kernel, by decide +kernel,
    ⟨due_head _ _ rfl, by decide +kernel, by decide +kernel⟩, by decide, due_head _ _ rfl, due_head _ _ rfl, by decide +kernel⟩

/-- A write of rank 1 that waits for its source, which has been read; a signal that has left. -/
def sending : Remote := ⟨8, 9, 0, 1, some 15, 2, false, [], 0, [(0x20000, 0x20000, 0x10000)], WordRef.zero, 0x20400, 4097, 64, 3, 0, 5, false, []⟩
theorem wit_RemotePacketsLeave :
    let s := due (.wrremSource 8) (served (.wrremSource 8) [(0x20400, List.replicate 64 7)] false (run.onGrp fun g => { g with rems := [sending] }))
    dueHead s (dueOff s) (.wrremSource 8) ∧ (dueOff s).grp.rems.find? (fun y => decide (y.id = 8)) = some sending ∧
    goesOn (.wrremSource 8) false (dueOff s) = true ∧ (unitTake (.wrremSource 8) (dueOff s)).1.bind UnitOp.fault = none ∧
    (∀ y ∈ (dueOff s).grp.rems, y.token = none → y.sent = true) :=
  ⟨due_head _ _ rfl, by decide +kernel, by decide +kernel, by decide +kernel, by decide +kernel⟩

def rp (sender : Nat) : RedPkt := ⟨9, 0, 0, 0, sender, true, 2, 0, [0x3F800000]⟩
theorem wit_ArrivalOrderHasNoEffect : ∀ r, ([rp 1, rp 0].filter fun a => a.sender = r) = ({ coll0 with arrivals := [rp 0, rp 1] } : Coll).arrivals.filter fun a => a.sender = r := by
  intro r
  by_cases h0 : (0 : Nat) = r <;> by_cases h1 : (1 : Nat) = r <;> simp [rp, List.filter, h0, h1]

/-- A pass over two elements of 16 bytes with Morton keys between ranks 0 and 1, before its first round. -/
def rep0 : Rep :=
  { gid := 9, num := 0, rid := 3, core := 0, jobId := 1, token := 15, root := 0, ranks := 2, rank := 0, nodes := [0, 5], ctrl := 0x0000020000000000, src := 0x20400,
    nsrc := 2, rbuf := 0x20500, rcap := 4, rhave := 0, comp := 0x20800, reta := 0x20600, retcap := 4, lo := [0, 0, 0],
    cell := [0x3F800000, 0x3F800000, 0x3F800000], pages := [(0x20000, 0x20000, 0x10000)], keys := [], clamps := 0, round := 0, bnd := [], total := 0, dests := none,
    recv := 0, kept := [], ovf := false, held := [], fin := none, wrote := false, busy := false, ack := 0, left := 0, key := [] }
def withR (c : Rep) (s : State := run) : State := s.onGrp fun g => { g with reps := [c] }
def keyed : Rep := { rep0 with keys := [(1, 1), (2, 1)] }
/-- An access of an event's unit: not yet asked for, served, or stopped by a race or bad data. -/
def unitCases (ev : Ev) (s : State) : Bool :=
  (unitTake ev (dueOff (due ev s))).1.isNone && [false, true].all fun b => goesOn ev b (dueOff (due ev (served ev [] b s)))
theorem wit_PassesRun :
    let key : Ev := .keyRound 9 0
    let move : Ev := .elementMove 9 0 [⟨1, [0, 0], 0, 4, []⟩]
    let done : Ev := .repartComplete 9 0
    let ready : Rep := { keyed with dests := some [0, 1], round := 5 }
    (repOf (withR rep0) 9 0 = some rep0 ∧ dueHead (due key (withR rep0)) (dueOff (due key (withR rep0))) key ∧ repHeld rep0 (withR rep0) = false ∧
      unitCases key (withR rep0) = true) ∧
    repHeld rep0 (run.onCore fun c => { c with ranges := [⟨2, 8, 0x20400, 0x20404⟩] }) = true ∧
    dueHead (due (.histogramReduction 9 0 []) (withR keyed)) (dueOff (due (.histogramReduction 9 0 []) (withR keyed))) (.histogramReduction 9 0 []) ∧
    (let total := ((sumHists [roundHist keyed]).map Prod.snd).foldl (· + ·) 0
     0 < total ∧ total < 2 ^ 64) ∧ ((sumHists [roundHist rep0]).map Prod.snd).foldl (· + ·) 0 = 0 ∧
    ((sumHists [roundHist keyed, [(0, 2 ^ 64 - 2)]]).map Prod.snd).foldl (· + ·) 0 = 2 ^ 64 ∧
    (dueHead (due move (withR ready)) (dueOff (due move (withR ready))) move ∧ ready.round < 6 ∧ unitCases move (withR ready) = true) ∧
    (let tab : List RankCounts := [⟨0, [1, 1], 4, 4, []⟩, ⟨1, [0, 0], 0, 4, []⟩]
     (∀ x ∈ tab, keptBy tab 2 x ≤ x.retCap) ∧ ∃ x ∈ [(⟨0, [1, 1], 4, 0, []⟩ : RankCounts), ⟨1, [0, 0], 0, 4, []⟩],
       x.retCap < keptBy [⟨0, [1, 1], 4, 0, []⟩, ⟨1, [0, 0], 0, 4, []⟩] 2 x) ∧
    (let c : Rep := { ready with round := moved }
     dueHead (due done (withR c)) (dueOff (due done (withR c))) done ∧ c.wrote = false ∧ c.left = 0 ∧ unitCases done (withR c) = true) ∧
    (run.job.id = rep0.jobId ∧ rep0.token < 16) ∧
    dueHead (due (.repartAbort 9 0 1) (withR rep0)) (dueOff (due (.repartAbort 9 0 1) (withR rep0))) (.repartAbort 9 0 1) :=
  ⟨⟨by decide +kernel, due_head _ _ rfl, by decide +kernel, by decide +kernel⟩, by decide +kernel, due_head _ _ rfl, by decide +kernel, by decide +kernel, by decide +kernel,
    ⟨due_head _ _ rfl, by decide, by decide +kernel⟩, by decide +kernel, ⟨due_head _ _ rfl, rfl, rfl, by decide +kernel⟩, by decide, due_head _ _ rfl⟩

/-! ### Witnesses: jobs, dispatch, graphs -/

def launch1 : Launch := { Launch.init with task := 3, entry := 0x10000, xs := [5] }
def task0 : Task := ⟨3, 0, 0, 0, 1, [5], [], none, 0, .waiting, 0, 0, [], none, 0, none, [], []⟩
def placed0 : Task := { task0 with st := .placed, cores := [0], rel := some 0 }
def hasTasks (l : List Task) (s : State) : State := s.onGrip fun g => { g with tasks := l }
def idleCore (c : Nat) (s : State := State.reset) : State := { s with cyc := c, todo := [] }
theorem wit_JobsStart :
    let s := hasTasks [placed0] ((idleCore 256).onCore fun c => { c with jobq := [launch1] })
    taskRelease s = some placed0 ∧ placed0.cores = [s.coreNo] ∧ s.core.jobq = launch1 :: [] := by decide +kernel

def ending : State := run.onJob fun j => { j with st := .ending }
theorem wit_JobsEnd : ending.agenda = [] ∧ jobEndable ending = true := by decide +kernel

def frozen : State := run.onJob fun j => { j with st := .frozen, l := { j.l with resume := some 1 }, calpos := 100 }
def savedOf : Saved := ⟨{ run.job with calpos := 100 }, [(0x100, [1, 2])], [], .replicate 8 0⟩
def hasSaved : State := (idleCore 100).onCore fun c => { c with jobq := [{ launch1 with resume := some 1 }], saved := [savedOf] }
theorem wit_JobsResume : (frozenDue frozen = true ∧ pastLast frozen.job = false) ∧ (frozenDue hasSaved = false ∧ savedDue hasSaved = some savedOf) := by decide +kernel

def before (l : Launch) : State := run.onJob fun j => { j with check := .before, l := l }
def replays : Launch := { launch1 with gmode := .replay, guards := [(true, 5)] }
def waiting (t : Task) : State := hasTasks [t] (run.onJob fun j => { j with check := .waiting, l := launch1 })
theorem wit_CheckPoints :
    (let s := before launch1
     s.agenda = [] ∧ s.job.st = .running ∧ s.job.check = .before ∧ s.job.l.njobs = 1 ∧ ownGuards s = none) ∧
    (let s := hasTasks [placed0] (before replays)
     s.agenda = [] ∧ s.job.st = .running ∧ s.job.check = .before ∧ s.job.l.njobs = 1 ∧ ownGuards s = some true ∧
     taskOf s s.job.l.task = some placed0 ∧ placed0.ncore = 1 ∧ placed0.cores = [s.coreNo]) ∧
    (let s := before { launch1 with njobs := 2 }
     s.agenda = [] ∧ s.job.st = .running ∧ s.job.check = .before ∧ s.job.l.njobs ≠ 1 ∧ taskOf s s.job.l.task = none) ∧
    (let t := { placed0 with ncore := 2, cores := [0, 1], checks := [(1, none), (0, none)] }
     (waiting t).agenda = [] ∧ checkComplete (waiting t) = some t ∧ t.checks.findSome? Prod.snd = none) ∧
    (let t := { placed0 with ncore := 2, cores := [0, 1], checks := [(1, some true), (0, none)] }
     (waiting t).agenda = [] ∧ checkComplete (waiting t) = some t ∧ t.checks.findSome? Prod.snd = some true ∧ (waiting t).coreNo ∈ t.cores) := by decide +kernel

def stuck : State := run.onFlow fun f => { f with wdog := 2 ^ 24 - 1, stall := f.stall.set 2 (some .token) }
def runsOn (c : Nat) (s : State := run) : State := onCoreQ c (fun x => { x with run := some 3 }) s
def safePoint : State := run.onJob fun j => { j with st := .saving }
theorem wit_WatchdogAndSave :
    watchdogDue stuck = some (.mx, .token) ∧
    ((coreQ (runsOn 5) 5).run = some 3 ∧ (5 : Nat) ≠ (runsOn 5).coreNo) ∧
    ((coreQ (runsOn 0) 0).run = some 3 ∧ 0 = (runsOn 0).coreNo ∧ (runsOn 0).job.st = .running) ∧
    (safePoint.agenda = [] ∧ saveReady safePoint = true) := by decide +kernel
theorem wit_RequestsDue : dueHead (due (.preemptionRequest 5) (runsOn 5)) (dueOff (due (.preemptionRequest 5) (runsOn 5))) (.preemptionRequest 5) :=
  due_head _ _ rfl

theorem wit_DispatchServesLowestClass :
    let s := hasTasks [task0] (idleCore 8)
    decision s = some (0, 0, task0, [0], 0) ∧ task0.graph = none ∧ queueReady (hasTasks [] s) 0 = none := by decide +kernel

/-- A task of class 3 runs on every core, its next ones behind it, and one of class 0 has waited beyond its queue's threshold. -/
def crowded : State :=
  let s := hasTasks [{ placed0 with id := 1, q := 1, st := .running }, { placed0 with id := 2, q := 1 }, task0] (idleCore 600)
  let s := onQueue 0 (fun q => { q with d0 := 0x0040000160000000 }) (onQueue 1 (fun q => { q with d0 := 0xC040000060000000 }) s)
  s.onGrip fun g => { g with cores := (List.range 128).map fun c => (c, { CoreQ.init with run := some 1, q := [2, 2, 2, 2] }) }
def dealt : State := (idleCore 9).onDev fun d => { d with dealPend := some 7 }
theorem wit_ThresholdsAndDeals :
    (thresholdDue crowded).isSome = true ∧ SMap.wf CoreQ.init crowded.grip.cores = true ∧
    (dealReady dealt = true ∧ dealt.dev.dealPend = some 7) := by decide +kernel

def gtask : GTask := ⟨false, [], 0, 0, 1, 0, 0, 0, 0, [], []⟩
def gcopy : GTask := { gtask with copy := true, csrc := 0, cdst := 1 }
def graph0 : Graph :=
  { id := 6, q := 0, pkt := 0, root := 0, ctx := 0, addr := 0, gidTab := none, ncoreg := 1, cores := [0], tasks := [gtask, gcopy],
    tens := [⟨0x1000, 64, 4, false, 0⟩, ⟨0x2000, 64, 4, false, 0⟩], enc := [], slate := 9, alloc := [], st := [.waiting, .waiting], doneJobs := [],
    mode := .plain, cut := 0, segs := [], heads := [], sems := [0, 0], posts := [], paused := false, aborted := false, placed := true,
    decided := none, epoch := 0, held := [], fails := [], floorAt := 0, pages := [], owed := 0, blocks := [], pieces := 0, lost := false, voted := false }
def hasGraph (g : Graph) (s : State := idleCore 8) : State :=
  (onCoreQ 0 (fun x => { x with graph := some 6 }) s).onGrip fun x => { x with graphs := [g] }
def rank0 : Graph := { graph0 with gidTab := some (9, [0, 5]), voted := true }
def voted : State := (hasGraph rank0).onGrip fun g => { g with votes := [⟨9, 1, 9, true, [0]⟩, ⟨9, 0, 9, true, [0, 1]⟩] }
theorem wit_FloorGangAndCuts :
    (floorReady (hasGraph graph0) = some (6, 0) ∧ graphOf (hasGraph graph0) 6 = some graph0 ∧ gtaskReady (hasGraph graph0) graph0 0 = true ∧
      graph0.tasks[0]? = some gtask ∧ gtask.copy = false) ∧
    (let g := { graph0 with st := [.done, .waiting] }
     floorReady (hasGraph g) = some (6, 1) ∧ graphOf (hasGraph g) 6 = some g ∧ gtaskReady (hasGraph g) g 1 = true ∧
     g.tasks[1]? = some gcopy ∧ (g.tens[gcopy.csrc]?).isSome = true ∧ (g.tens[gcopy.cdst]?).isSome = true) := by decide +kernel
theorem wit_GangDecides : voted.agenda = [] ∧ gangReady voted = some rank0 ∧ rank0.gidTab = some (9, [0, 5]) := by decide +kernel
theorem wit_CutsDue : dueHead (due (.cutMake 9 0)) (dueOff (due (.cutMake 9 0))) (.cutMake 9 0) := due_head _ _ rfl

/-- A replay with one reel, whose head stands at a record; another of the same task stands behind a third. -/
def reel (r : ReelRec) : Graph :=
  { graph0 with mode := .replay, segs := [⟨0, false, [r.encode], [], 0⟩], heads := [⟨0, false, 0, 8, some 1, [], false⟩] }
theorem wit_ReelsPlay :
    ∀ r ∈ [ReelRec.semwait 0 0 0, .launch 0 0, .copy 1, .guard 0 0 true 5, .sempost 0 1, .mark 0, .fin 1],
      reelNext (hasGraph (reel r)) = some (reel r, 0, r) ∧ (reel r).heads[0]? = some ⟨0, false, 0, 8, some 1, [], false⟩ := by decide +kernel
/-- The post of a reel whose last job has ended asks the engine of its set's semaphore. -/
theorem wit_ReelPosts : let g : Graph := { reel (.sempost 0 1) with doneJobs := [(1, 0)] }
    let s := (hasGraph g).onGrip fun x => { x with sets := [⟨9, [], [], [0], [], 0, true, 0, [0], false⟩] }
    reelNext s = some (g, 0, .sempost 0 1) ∧ g.doneJobs.contains (1, 0) = true ∧ (setOf s g.slate).isSome = true ∧
    (reel (.sempost 0 1)).doneJobs.contains (1, 0) = false := by decide +kernel

/-! ### Witnesses: packets of the queues, host commands, fabric, platform -/

def up (s : State) : State := s.onPlat fun p => { p with ready := true, fw := true }
/-- Queue 0 is on, its ring at 0x20000 with one packet in it, which its thread has read. -/
def ring (pkt : List Byte) (s : State := idleCore 9) : State :=
  onQueue 0 (fun q => { q with d0 := 0x0040000068000000, d1 := 0x20000, root := 0x30000, tail := 1, got := [(0x20000, fit 64 pkt)] })
    (up (tabled (poke 0x20000 (fit 64 pkt) s)))
/-- A packet's header with no semaphore, and its body. -/
def pkt (ty seq : Nat) (body : List Byte) : List Byte := leBytes 2 ty ++ leBytes 2 0 ++ leBytes 4 seq ++ leBytes 8 0 ++ body

def refusals : List (Instr × Nat × List Byte) :=
  [(.graph, 1, leBytes 8 1), (.invoke, 2, leBytes 2 300), (.wait, 3, leBytes 8 4), (.signal, 4, leBytes 8 0x20040),
   (.loadslot, 5, leBytes 2 300), (.evictslot, 6, leBytes 2 3), (.preempt, 7, leBytes 2 200), (.checkpoint, 8, leBytes 8 (2 ^ 28)), (.fencePacket, 9, [1])]
def bodies : List (Instr × Nat × (Nat → List Byte → State → Except GStop State)) :=
  [(.graph, 1, graphPacket), (.invoke, 2, invoke), (.wait, 3, waitPacket), (.signal, 4, signalPacket),
   (.loadslot, 5, loadslot), (.evictslot, 6, evictslot), (.preempt, 7, preemptPacket), (.checkpoint, 8, checkpointPacket),
   (.fencePacket, 9, fun q l s => .ok (acceptPacket q l 1 s).1)]
/-- The code that the head or the body of the packet at queue 0 is refused with. -/
def refusedBy (s : State) (l : List Byte) (body : Nat → List Byte → State → Except GStop State) : Bool :=
  (headFault s 0 l).isSome || match body 0 l s with | .error (.code _) => true | _ => false
theorem wit_PacketsRefused :
    ∀ x ∈ refusals, let l := fit 64 (pkt x.2.1 7 x.2.2)
      packetReady (ring l) = some 0 ∧ okEq (headBytes (ring l) 0) l = true ∧ fieldN l 0 1 = x.2.1 ∧
      ∃ b ∈ bodies, b.1 = x.1 ∧ b.2.1 = x.2.1 ∧ refusedBy (ring l) l b.2.2 = true := by decide +kernel

/-- A resident object without data, and the packet at the head of queue 0. -/
def object0 : Obj := { imageOnly 0x20000 192 0x30000 0 with entry := 0x20080 }
def resident (s : State) : State := onSlot 0 (fun r => { r with st := .resident, obj := some object0 }) s
def takes (s : State) (l : List Byte) : Bool := decide (packetReady s = some 0) && okEq (headBytes s 0) l && decide (headFault s 0 l = none)
def graphBytes : List Byte :=
  fit 64 (leBytes 4 1 ++ leBytes 2 1 ++ leBytes 2 1 ++ leBytes 8 0 ++ leBytes 8 0x20140 ++ leBytes 8 0x20200) ++
    (leBytes 2 0 ++ leBytes 2 0 ++ leBytes 2 0 ++ leBytes 2 1 ++ leBytes 88 0 ++ List.replicate 32 255)
def pInvoke : List Byte := fit 64 (pkt 2 7 (leBytes 24 0 ++ leBytes 8 5))
def pWait (m : Nat) : List Byte := fit 64 (pkt 3 7 (leBytes 8 0x20040 ++ leBytes 8 1 ++ leBytes 1 m))
def pSignal : List Byte := fit 64 (pkt 4 7 (leBytes 8 0x20040 ++ leBytes 8 1))
def pGraph : List Byte := fit 64 (pkt 1 7 (leBytes 8 0x20100))
/-- Its thread has read the record and its table of tasks. -/
def graphed : State :=
  onQueue 0 (fun q => { q with got := q.got ++ [(0x20100, graphBytes.take 64), (0x20140, graphBytes.drop 64)] }) (poke 0x20100 graphBytes (resident (ring pGraph)))
theorem wit_PacketsStart :
    (takes (resident (ring pInvoke)) pInvoke = true ∧ fieldN pInvoke 0 1 = 2 ∧ fieldN pInvoke 16 2 < 256 ∧ fieldN pInvoke 24 8 = 0 ∧
      fieldN pInvoke 32 8 = 0 ∧ launchable (resident (ring pInvoke)) 0 0 = some object0 ∧ object0.xdata = none) ∧
    (∀ m ∈ [0, 1], let l := pWait m
      takes (ring l) l = true ∧ fieldN l 0 1 = 3 ∧ fieldN l 16 8 % 8 = 0 ∧ fieldN l 32 1 ≤ 1 ∧
      isOk (gripRange (ring l) 0x30000 (fieldN l 16 8) 8 (if fieldN l 32 1 = 0 then [.r, .w] else [.r])) = true) ∧
    (let l := pSignal
     takes (ring l) l = true ∧ fieldN l 0 1 = 4 ∧ fieldN l 16 8 % 8 = 0 ∧ field64 l 24 ≠ 0 ∧
     isOk (gripRange (ring l) 0x30000 (fieldN l 16 8) 8 [.r, .w]) = true) ∧
    takes graphed pGraph = true ∧ fieldN pGraph 0 1 = 1 ∧ fieldN pGraph 24 8 = 0 ∧
    (match readGraph graphed 0 0x20100 with
     | .ok x => isOk (tensPages graphed 0x30000 x.2.2.1) && x.2.1.all fun t => !t.copy && (launchable graphed t.slot t.sver).isSome
     | .error _ => false) = true := by decide +kernel

def pLoad (ty : Nat) : List Byte := fit 64 (pkt ty 7 (leBytes 8 0 ++ leBytes 8 0x20000 ++ leBytes 8 192))
def pSlot (ty n : Nat) : List Byte := fit 64 (pkt ty 7 (leBytes 2 n))
def pCheck : List Byte := fit 64 (pkt 8 7 (leBytes 8 5 ++ leBytes 8 0x20040 ++ leBytes 8 64))
def handle5 (s : State) : State :=
  s.onDev fun d => { d with handles := SMap.set 0 d.handles 5 (BitVec.ofNat 256 (0x1000 + 2 ^ 64 * 4096 + 2 ^ 112 * 0x71)) }
theorem wit_SlotsAndOtherPackets :
    (let l := pLoad 5; takes (ring l) l = true ∧ fieldN l 0 1 = 5 ∧ fieldN l 16 2 < 256 ∧ (slotAt (ring l) 0).st = .free) ∧
    (∀ j ∈ [0, 1], let l := pSlot 6 0; let s := onSlot 0 (fun r => { r with jobs := j }) (resident (ring l))
      takes s l = true ∧ fieldN l 0 1 = 6 ∧ fieldN l 16 2 < 256 ∧ (slotAt s 0).st = .resident ∧ (slotAt s 0).ver.toNat = fieldN l 18 2 ∧
      (slotAt s 0).jobs = j) ∧
    (let l := pSlot 7 127; let s := runsOn 127 (ring l)
     takes (ring l) l = true ∧ fieldN l 0 1 = 7 ∧ fieldN l 16 2 = 127 ∧ 127 < Config.cores (ring l).variant ∧ (coreQ (ring l) 127).run = none ∧
     takes s l = true ∧ (coreQ s 127).run ≠ none ∧ (coreQ s 127).asked = false) ∧
    (let l := pCheck; let s := handle5 (ring l)
     takes s l = true ∧ fieldN l 0 1 = 8 ∧ fieldN l 16 8 < 2 ^ 28 ∧ isOk (gripRange s 0x30000 0x20040 64 [.r]) = true ∧
     handleCause s 0 5 0 0 64 true 64 = none) ∧
    (let l := pSlot 9 0; takes (ring l) l = true ∧ fieldN l 0 1 = 9) := by decide +kernel

/-- An image of one text section with one header, loaded from 0x20000. -/
def image0 : List Byte :=
  fit 64 (leBytes 4 0x314F5842 ++ leBytes 2 1 ++ leBytes 1 0 ++ leBytes 1 1 ++ leBytes 2 1 ++ leBytes 1 0xFF ++ leBytes 1 0 ++ leBytes 2 0xFFFF ++
    leBytes 2 1 ++ leBytes 8 0 ++ leBytes 8 64 ++ leBytes 8 88 ++ leBytes 8 0 ++ leBytes 8 88 ++ leBytes 8 88) ++
  leBytes 8 0 ++ leBytes 8 128 ++ leBytes 8 20 ++ leBytes 40 0 ++ leBytes 8 0x1001000000000000
def loading (b : List Byte) : State :=
  let s := ring (pLoad 5)
  onSlot 0 (fun r => { r with st := .loading, obj := some (imageOnly 0x20000 192 0x30000 0) }) (poke 0x20000 b s)
def loads (s : State) : Bool :=
  match imagePages s 0x30000 0x20000 192 [.r] with
  | .ok p => (match readHead s ⟨0x30000, 0x20000, 192, p⟩ with | .ok h => !h.ndeiq | .error _ => false) && isOk (loadNative 0 ⟨0x30000, 0x20000, 192, p⟩ 0 s)
  | .error _ => false
theorem wit_LoadsComplete :
    loads (loading image0) = true ∧ (slotAt (loading image0) 0).obj = some (imageOnly 0x20000 192 0x30000 0) ∧
    loads (loading []) = false := by decide +kernel
theorem wit_LoadsDue (b : List Byte) :
    dueHead (due (.slotLoadComplete 0 0 1) { loading b with cyc := 100 }) (dueOff (due (.slotLoadComplete 0 0 1) { loading b with cyc := 100 }))
      (.slotLoadComplete 0 0 1) := due_head _ _ rfl

theorem wit_ReadsAndWritesServed :
    (let ev : Ev := .checkpointRead 0 1 5 0x1000 0x20040 64
     let s := due ev (served ev [(0x20040, List.replicate 64 7)] false run)
     dueHead s (dueOff s) ev ∧ goesOn ev false (dueOff s) = true) ∧
    (let ev : Ev := .slotWritten 0 0 1
     let s := due ev { loading image0 with cyc := 100 }
     dueHead s (dueOff s) ev ∧ (slotAt s 0).obj = some (imageOnly 0x20000 192 0x30000 0)) ∧
    (let ev : Ev := .gripRead 31
     let s := due ev (onQueue 31 (fun q => { q with ask := some (0x20000, 64) }) (served ev [(0x20000, List.replicate 64 7)] false run))
     dueHead s (dueOff s) ev ∧ goesOn ev false (dueOff s) = true ∧ (queueAt s 31).ask = some (0x20000, 64)) ∧
    (let ev : Ev := .hostServed false 0x100 64
     let s := due ev (served ev [(0x100, List.replicate 64 7)] false run)
     dueHead s (dueOff s) ev ∧ goesOn ev false (dueOff s) = true) :=
  ⟨⟨due_head _ _ rfl, by decide +kernel⟩, ⟨due_head _ _ rfl, by decide +kernel⟩, ⟨due_head _ _ rfl, by decide +kernel, by decide +kernel⟩,
    due_head _ _ rfl, by decide +kernel⟩

def packet1 (c : Nat) (f : Bool) : Pkt := ⟨1, 4, 7, c, 1, f⟩
def holds (c : Nat) (f : Bool) : State := onQueue 0 (fun q => { q with pkts := [packet1 c f] }) (ring (pSlot 9 0))
theorem wit_PacketsComplete :
    packetOf (holds 0 false) 0 1 = some (packet1 0 false) ∧ packetOf (holds 0x20040 true) 0 1 = some (packet1 0x20040 true) ∧
    packetOf (holds 0x20040 false) 0 1 = some (packet1 0x20040 false) ∧ isOk (walkTable (holds 0x20040 false) 0x30000 0x20040) = true := by decide +kernel

/-! ### Witnesses: host commands, fabric, platform -/

/-- Firmware runs, and an event is due. -/
def fwDue (ev : Ev) (s : State := run) : State := due ev (up s)
theorem fw_head (ev : Ev) (s : State) (h : s.cyc = 100) : dueHead (fwDue ev s) (dueOff (fwDue ev s)) ev := due_head _ _ h

def descOn : W64 := 0x0040000068000000
def queueOf (d0 : W64) (s : State := run) : State := onQueue 31 (fun q => { q with d0 := d0 }) (tabled s)
theorem wit_QueueCommands :
    (fwDue (.doorbellWrite 31 70)).plat.fw = true ∧
    (let s := fwDue (.queueDescriptorWrite 31 descOn 0x20000 1 0x30000) (queueOf 0)
     s.plat.fw = true ∧ descOn.getLsbD 27 = true ∧ (queueAt s 31).d0.getLsbD 27 = false ∧ descFault s descOn 0x20000 0x30000 = none ∧
     descFault s descOn 0x40000 0x30000 = some 0x06 ∧ descFault s descOn 0x20040 0x30000 = some 0x02) ∧
    (queueAt (fwDue (.queueDescriptorWrite 31 descOn 0x20000 1 0x30000) (queueOf descOn)) 31).d0.getLsbD 27 = true ∧
    (qBits 0x0000000068000000 54 8 = 0 ∧ qBits 0x0040000058000000 28 4 < 6) := by decide +kernel
theorem wit_QueueCommandsDue :
    dueHead (fwDue (.doorbellWrite 31 70)) (dueOff (fwDue (.doorbellWrite 31 70))) (.doorbellWrite 31 70) ∧
    (∀ b, dueHead (fwDue (.queueDescriptorWrite 31 descOn 0x20000 1 0x30000) (queueOf b))
      (dueOff (fwDue (.queueDescriptorWrite 31 descOn 0x20000 1 0x30000) (queueOf b))) (.queueDescriptorWrite 31 descOn 0x20000 1 0x30000)) ∧
    dueHead (fwDue (.queueStopClear 31)) (dueOff (fwDue (.queueStopClear 31))) (.queueStopClear 31) :=
  ⟨fw_head _ _ rfl, fun _ => fw_head _ _ rfl, fw_head _ _ rfl⟩

/-- Reserved bits of a handle's entry that are not zero, or a kind above 4. -/
def badEnt (e : BitVec 256) : Bool := decide (4 < (e.extractLsb' 112 4).toNat) || decide (e &&& ~~~(handleMask ||| (0xFFFF#256 <<< 128)) ≠ 0)
def revoked : State := run.onDev fun d => { d with revoked := [3], hcount := [(4, 1)] }
def pinned (n : Nat) : State := (mapped run).onCore fun c => { c with pins := [⟨0, 0x20000, 0x20000, 0x10000, n⟩] }
def stale : State := (pinned 0).onDev fun d => { d with inval := [(0, 0x20000, 0x20000)] }
theorem wit_HandleAndPageCommands :
    (fwDue (.handleTableWrite 4095 (2 ^ 118) true)).plat.fw = true ∧ badEnt (2 ^ 118) = false ∧ badEnt (5 * 2 ^ 112) = true ∧ badEnt (2 ^ 144) = false ∧
    badEnt (2 ^ 200) = true ∧ revocationDone revoked = some 3 ∧
    (∀ p ∈ (fwDue (.pageInvalidation 0 0x2FFFF) (pinned 0)).core.pins, p.count = 0) ∧
    (∀ p ∈ (fwDue (.pageInvalidation 0 0x2FFFF) (pinned 1)).core.pins, p.count ≠ 0 ∧ p.root = 0 ∧ p.va ≤ 0x2FFFF ∧ 0x2FFFF < p.va + p.size) ∧
    (stale.agenda = [] ∧ invalidationDone stale = some (0, 0x20000, 0x20000)) := by decide +kernel
theorem wit_HandleAndPageCommandsDue (i : Nat) (e : BitVec 256) (b : Bool) (n : Nat) :
    dueHead (fwDue (.handleTableWrite i e b)) (dueOff (fwDue (.handleTableWrite i e b))) (.handleTableWrite i e b) ∧
    dueHead (fwDue (.pageInvalidation 0 0x2FFFF) (pinned n)) (dueOff (fwDue (.pageInvalidation 0 0x2FFFF) (pinned n))) (.pageInvalidation 0 0x2FFFF) :=
  ⟨fw_head _ _ rfl, fw_head _ _ rfl⟩

def frozenBy (code : Byte) : State :=
  onCoreQ 7 (fun x => { x with run := some 4, frozen := true, fcode := code }) <| onCoreQ 0 (fun x => { x with run := some 3, frozen := true, fcode := code })
    (run.onJob fun j => { j with st := .frozen, frec := some ⟨code, 0, WordRef.zero, false, false, false, false, false, false, 0, 0⟩ })
def atts (n : Nat) : State := run.onPlat fun p => { p with att := n, svn := 5, fuse := 3 }
theorem wit_DriverCommands :
    (fwDue (.dealRequest 7)).plat.fw = true ∧
    (∀ c ∈ [(0x14 : Byte), 0x06], let s := fwDue (.jobResumeOrder 0) (frozenBy c)
      (coreQ s s.coreNo).frozen = true ∧ s.job.st = .frozen ∧ (coreQ s 0).fcode = c ∧ (7 ≠ s.coreNo ∧ (coreQ s 7).frozen = true ∧ (coreQ s 7).fcode = c)) ∧
    (∀ n ∈ [2 ^ 20 - 1, 2 ^ 20], (fwDue (.spdmRequest []) (atts n)).plat.att = n) ∧
    (let m := Config.allocBytes run.variant; m < m - 63 + 64 ∧ m - 64 + 64 ≤ m) := by decide +kernel
theorem wit_DriverCommandsDue (c : Byte) (n pa : Nat) (w : Bool) (d : List Byte) :
    dueHead (fwDue (.dealRequest 7)) (dueOff (fwDue (.dealRequest 7))) (.dealRequest 7) ∧
    dueHead (fwDue (.jobEndOrder 0) (frozenBy c)) (dueOff (fwDue (.jobEndOrder 0) (frozenBy c))) (.jobEndOrder 0) ∧
    (∀ k, dueHead (fwDue (.jobResumeOrder k) (frozenBy c)) (dueOff (fwDue (.jobResumeOrder k) (frozenBy c))) (.jobResumeOrder k)) ∧
    dueHead (fwDue (.loadReportRead 255)) (dueOff (fwDue (.loadReportRead 255))) (.loadReportRead 255) ∧
    dueHead (fwDue .svnCommit (atts 0)) (dueOff (fwDue .svnCommit (atts 0))) .svnCommit ∧
    dueHead (fwDue (.spdmRequest []) (atts n)) (dueOff (fwDue (.spdmRequest []) (atts n))) (.spdmRequest []) ∧
    dueHead (fwDue (.hostCxlAccess w pa d)) (dueOff (fwDue (.hostCxlAccess w pa d))) (.hostCxlAccess w pa d) :=
  ⟨fw_head _ _ rfl, fw_head _ _ rfl, fun _ => fw_head _ _ rfl, fw_head _ _ rfl, fw_head _ _ rfl, fw_head _ _ rfl, fw_head _ _ rfl⟩

/-! A packet of each type from node 5 for process group 9, well-formed; the same with a reserved bit of CTL set. -/
def syn (ty : Nat) (body data : List Byte) : SynPkt := ⟨BitVec.ofNat 8 ty, 0, 5, 0, BitVec.ofNat 16 (data.length / 32), 9, fit 16 body, data⟩
def pWrite : SynPkt := syn 1 (leBytes 8 0 ++ [2]) (List.replicate 32 7)
def pSig : SynPkt := syn 2 (leBytes 8 0 ++ [2, 0, 0, 0] ++ leBytes 4 1) []
def pRed : SynPkt := syn 3 [] (List.replicate 32 0)
def pBar : SynPkt := syn 4 [] []
def pMan : SynPkt := syn 5 [] (List.replicate 32 0)
def pAck : SynPkt := syn 6 [] []
def red (kind : Nat) : RedPkt := ⟨9, 0, 0, 0, 1, true, kind, 0, []⟩
/-- A job of the gang with a binding of one page to write to. -/
def bound (v : Bool) : State :=
  run.onJob fun j => { j with l := { j.l with gang := some (9, [5, 0]) }, bind := rowSet j.bind 2 ⟨v, true, true, none, 0x20000, 0x10000, [(0x20000, 0x20000, 0x10000)]⟩ }
def gang9 : Dom := ⟨4, 9, [5, 0], 48, 0, [0], [0], [], true, 0, 0, []⟩
def remote1 (n : Nat) (t : Option Nat) : Remote := ⟨8, 9, 0, 1, t, n, false, [], 0, [], WordRef.zero, 0x20400, 64, 0, 2, 0, 5, true, []⟩
def rems (n : Nat) (t : Option Nat) : State := run.onGrp fun g => { g with rems := [remote1 n t] }
theorem wit_PacketsArrive :
    (∀ x ∈ [(1, pWrite), (2, pSig), (3, pRed), (4, pBar), (5, pMan), (6, pAck)], badPacket x.2 x.1 = false ∧ badPacket { x.2 with ctl := 8 } x.1 = true) ∧
    bindingPlace (bound true) 9 2 0 32 = some (0x20000, [(0x20000, 0x20000, 0x10000)]) ∧ bindingPlace (bound false) 9 2 0 32 = none ∧
    bindingPlace (bound true) 9 2 0 8 = some (0x20000, [(0x20000, 0x20000, 0x10000)]) ∧
    (collOf run 9 0 = none ∧ collOf (withC coll0) 9 0 = some coll0 ∧ coll0.dt.code.toNat + 16 * coll0.red = 2 ∧ coll0.fin = none) ∧
    (findDom run 4 9 = none ∧ (let s := run.onGrp fun g => { g with doms := [gang9] }
      findDom s 4 9 = some gang9 ∧ ((List.range (clog2 gang9.nodes.length)).find? fun j =>
        (gang9.nodes.findIdx (· = pBar.src.toNat) + 2 ^ j) % gang9.nodes.length = gang9.nodes.findIdx (· = s.node.toNat)) = some 0)) ∧
    (∀ n ∈ [1, 2], ∀ t ∈ [none, some 15], (rems n t).grp.rems.find? (fun m => m.id = 8) = some (remote1 n t) ∧ (rems n t).job.id = (remote1 n t).jobId) := by
  decide +kernel
theorem wit_PacketsServed :
    (∀ v ∈ [false, true], (((bound v).grp.wrs ++ [(⟨5, 8, 32, bindingPlace (bound v) 9 2 0 32⟩ : WrIn)]).find? (fun w : WrIn => decide (w.src = 5 ∧ w.id = 8))).map WrIn.place =
      some (if v then some (0x20000, [(0x20000, 0x20000, 0x10000)]) else none)) ∧
    goesOn (.writeServed pWrite) false (served (.writeServed pWrite) [] false run) = true ∧
    (writesBefore (served (.writeServed pWrite) [] false (bound true)) pSig = true ∧ writesBefore (bound true) pSig = false) ∧
    (run.grp.rems = [] ∧ (withR { rep0 with ack := 8, left := 1 }).grp.reps.find? (fun c => decide (c.ack = 8 ∧ c.left ≠ 0)) = some { rep0 with ack := 8, left := 1 }) := by decide +kernel
theorem wit_PacketsArriveDue (k : SynPkt) (r : RedPkt) (m : MgmtBody) (s : State) (h : s.cyc = 100) (ok : Bool) :
    ∀ ev ∈ [Ev.writePacketArrival k 8 true 0 32, .writeServed k, .signalPacketArrival k, .reducePacketArrival k r, .barrierPacketArrival k, .managementPacketArrival k m,
      .ackPacketArrival k 8 ok], dueHead (due ev s) (dueOff (due ev s)) ev := fun _ _ => due_head _ _ h

def testing (u : Nat) : State := run.onPlat fun p => { p with testing := [(u, some 90)] }
def follows : Due := ⟨120, 1, .ackPacketArrival pAck 8 true⟩
def delayed : State := { run with agenda := [⟨100, 0, .flitRetransmit 11⟩, follows] }
theorem wit_LinksTestsAndLimits :
    ((dueOff delayed).agenda.find? (fun e => isArrival e.ev) = some follows) ∧ 11 < Config.ports run.variant ∧
    (∀ u ∈ [10, 63], testRuns (testing u) u = true) ∧ testRuns { testing 9 with job := Job.init } 9 = true ∧
    (let s := run.onPlat fun p => { p with testing := [(9, none)] }
     testRuns s 9 = false ∧ (s.plat.testing.any fun x => decide (x.1 = 9)) = true) := by decide +kernel
theorem wit_LinksDue : dueHead delayed (dueOff delayed) (.flitRetransmit 11) := ⟨⟨100, 0, .flitRetransmit 11⟩, [follows], rfl, rfl, by decide, rfl⟩
theorem wit_PlatformDue (s : State) (h : s.cyc = 100) (u b c : Nat) (ok : Bool) (l : List BadAt) :
    ∀ ev ∈ [Ev.portRetrain 11 ok, .selfTestStart u l, .selfTestComplete u ok, .matrixBudgetUpdate b, .thermalThrottle c],
      dueHead (due ev s) (dueOff (due ev s)) ev := fun _ _ => due_head _ _ h

theorem wit_ResetsAndBringUp (b : BootIn) :
    (∀ ev ∈ [Ev.thermalTrip, .deviceReset b, .nodeIdentityAssign 7], dueHead (fwDue ev) (dueOff (fwDue ev)) ev) ∧
    (fwDue (.nodeIdentityAssign 7)).plat.fw = true := ⟨fun _ _ => fw_head _ _ rfl, rfl⟩

/-! ### Witnesses: the whole machine -/

theorem wit_FuseCounterIsMonotonic :
    (∃ t, exec .svnCommit (fwDue .svnCommit (atts 0)) = .next t ∧ t.plat.fuse = 5) ∧ ∃ t, step State.reset = .next t := by
  refine ⟨⟨_, rfl, by decide⟩, _, rfl⟩

/-- A sequencer that stands at a word of its branch buffer, and an engine that stands at one of its loop buffer. -/
def sqAt (w : Word) (s : State := run) : State := { s.onSeq fun q => { q with buf := some (hdr4, [w]) } with todo := [.stream .sq] }
def engAt (w : Word) : State := { vx.onEng .vx fun e => { e with lbuf := [(0, w)] } with todo := [.stream .vx] }
def nopWord : Word := 0x220000000000000000000000
def offNop : Word := 0x220800000000000000000000
def markWord : Word := 0xA20000000000000000000000
/-- The word at which a stream stands. -/
def stands (s : State) (st : Stream) (w : Word) : Bool :=
  let t := { s with todo := s.todo.tail }
  decide (s.todo.head? = some (.stream st)) && presents s st &&
    match st with
    | .sq => !atRdv s .sq && (match s.job.seq.pos with
      | .run a h k => decide (k < hdrLen h) && (match sqWord t a k with | .ok (_, x) => decide (x = w) | .error _ => false)
      | _ => false)
    | st => match (s.eng st).cur with
      | some q => (match engWord t st q (s.eng st).idx with | .ok (_, x) => decide (x = w) | .error _ => false)
      | none => false
theorem wit_StepRunsWord :
    stands (sqAt nopWord) .sq nopWord = true ∧ decode .sq nopWord = .ok (.nop u0) ∧ checkFirst (sqAt nopWord) .sq nopWord = false ∧
    stands (sqAt offNop) .sq offNop = true ∧ enabled (sqAt offNop) .sq (wPred offNop) = false ∧
    stands (engAt markWord) .vx markWord = true ∧ (match decode .vx markWord with | .ok _ => true | .error _ => false) = true ∧
    decodeAny nopWord = some (.sq, .nop u0) := by decide +kernel

def slotted (l : Slot) (s : State := run) : State := { s with todo := [l] }
def wonNone (s : State) : State := s.onCore fun c => { c with won := none }
theorem wit_StepTakesActsInOrder :
    (run.todo = [] ∧ wakeNext (slotted .wake) = none ∧ (wakeNext (slotted .wake { run with hold := some 100 })).isSome = true) ∧
    landingsDue (slotted .landings (lands (.sreg 3 7))) = true ∧
    (slotted .due (due (.streamCacheFill 7))).agenda = [⟨100, 0, .streamCacheFill 7⟩] ∧
    dueNext (slotted .due (due (.streamCacheFill 7))) = some .streamCacheFill ∧ dueNext (slotted .due) = none ∧
    ((slotted .house).core.won = none ∧ beforeRing (slotted .house) = none) ∧
    (let s := slotted .house (run.onCore fun c => { c with copies := [copyOf5] }); s.core.won = none ∧ (beforeRing s).isSome = true) ∧
    (let s := slotted .house ({ ending with core := { ending.core with won := some [] } }); s.core.won ≠ none ∧ lateReads s = false ∧ (houseNext s).isSome = true) ∧
    (let s := slotted .house ({ run with core := { run.core with won := some [] } }); s.core.won ≠ none ∧ lateReads s = false ∧ houseNext s = none) := by decide +kernel

def illegalWord : Word := 0xFF0000000000000000000000
def reservedWord : Word := 0x220000000000000000000001
def loopWord : Word := 0x42080000C0A0000000000000
theorem wit_WordsAreChecked :
    (stands (sqAt offNop) .sq offNop = true ∧ enabled (sqAt offNop) .sq (wPred offNop) = false ∧ loopBody .sq offNop = 0) ∧
    (stands (engAt loopWord) .vx loopWord = true ∧ enabled (engAt loopWord) .vx (wPred loopWord) = false ∧ loopBody .vx loopWord = 3) ∧
    (stands (sqAt illegalWord) .sq illegalWord = true ∧ enabled (sqAt illegalWord) .sq (wPred illegalWord) = true ∧
      checkFirst (sqAt illegalWord) .sq illegalWord = false ∧ decode .sq illegalWord = .error .illegal) ∧
    (stands (engAt illegalWord) .vx illegalWord = true ∧ decode .vx illegalWord = .error .illegal) ∧
    (stands (sqAt reservedWord) .sq reservedWord = true ∧ enabled (sqAt reservedWord) .sq (wPred reservedWord) = true ∧
      checkFirst (sqAt reservedWord) .sq reservedWord = false ∧ decode .sq reservedWord = .error .reserved) := by decide +kernel

theorem wit_DecodeEncodeAgree :
    (Instr.nop u0).wf = true ∧ (Instr.nop u0).streams ≠ [] ∧ decode .sq nopWord = .ok (.nop u0) := by decide +kernel

theorem wit_StepKeepsMemoryCanonical :
    Memory.wf State.reset = true ∧ (∀ x ∈ State.reset.core.saved, SMap.wf 0 x.job.seq.ldm = true) ∧ ∃ t, step State.reset = .next t :=
  ⟨by decide, by decide, _, rfl⟩

theorem wit_ResultsLandWhereTheyName :
    SMap.wf 0 run.job.seq.ldm = true ∧ (run.plane 31).owner ≠ some run.job.ctx ∧ (vx.setPlane 31 (plane 1) |>.plane 31).owner = some run.job.ctx := by
  decide +kernel

end Sys2Proof.Tests
end

