-- ==== Sys2Proof/Tests/WitnessWords.lean ====
section
/-! SUPPORT. States and operands that meet the hypotheses of the statements about words: each wit_<Name> those of the statement, or the part of one, of that name. -/
open Sys2Proof Sys2Proof.Machine
namespace Sys2Proof.Tests
set_option Elab.async false -- theorems in turn: one that waits for those before it holds a thread

/-! ### Witnesses: the sequencer -/

theorem wit_ScalarWords : enabled run .sq u0 = true ∧ ready run [1, 2] = true ∧ ready run [31, 63] = true := by decide +kernel
theorem wit_DivisionNeverFaults : enabled run .sq u0 = true ∧ ready run [0, 31] = true := by decide +kernel
theorem wit_PredicateWords : enabled run .sq ⟨true, 7⟩ = true ∧ ready run [1, 55] = true := by decide +kernel

def prepared (rdy : Bool) : State := run.onSeq fun q => q.setB 7 ⟨0x2000, true, some 1, rdy, some (hdr4, [])⟩
theorem wit_PrepareAndBranch :
    enabled run .sq u0 = true ∧ (ready (withS [(1, 4)]) [1] = true ∧ ((withS [(1, 4)]).reg 1).toNat % 4 = 0) ∧
    (ready (withS [(1, 3)]) [1] = true ∧ ((withS [(1, 3)]).reg 1).toNat % 4 ≠ 0) ∧
    (enabled (prepared true) .sq u0 = true ∧ ((prepared true).job.seq.bReg 7).prep = true ∧ ((prepared true).job.seq.bReg 7).ready = true ∧
      (prepared true).job.seq.pos = .run 0x1000 hdr4 0) ∧
    (((prepared false).job.seq.bReg 7).prep = true ∧ ((prepared false).job.seq.bReg 7).ready = false) ∧
    (run.job.seq.bReg 7).prep = false := by decide +kernel

/-- The layout that R83 asks of a table. -/
def tableOk (s : State) (t n : Nat) : Bool :=
  let w (x : Nat) : Nat := leNat (rdBytes s.job.seq.ldm x 4)
  decide ((s.reg 2).toNat = t) && decide (t % 8 = 0) && decide (t + 8 + 16 * n ≤ 65536) && decide (1 ≤ n) && decide (n ≤ 16) && decide (w t = n) &&
    decide (w (t + 4) = 0) && (List.range n).all (fun i => decide (w (t + 12 + 16 * i) = 0) &&
      decide (leNat (rdBytes s.job.seq.ldm (t + 16 + 16 * i) 8) % 4 = 0)) &&
    ((List.range (n - 1)).all fun i => decide (w (t + 8 + 16 * i) < w (t + 24 + 16 * i))) && okEq (readLdm s t (8 + 16 * n)) ()
theorem wit_BselChoosesBucket :
    (enabled (table 65512 [64] 64) .sq u0 = true ∧ ready (table 65512 [64] 64) [1, 2] = true ∧ tableOk (table 65512 [64] 64) 65512 1 = true) ∧
    (tableOk (table 0x100 [64, 128, 256] 70) 0x100 3 = true ∧ ((table 0x100 [64, 128, 256] 70).reg 1).toNat = 70) ∧
    (tableOk (table 0x100 [64, 128, 256] 257) 0x100 3 = true ∧ 256 < ((table 0x100 [64, 128, 256] 257).reg 1).toNat) := by
  decide +kernel
/-- R84: 70 rows choose the bucket of 128, with 6 rows in the last tile. -/
theorem test_bsel : (match exec (.bsel u0 2 1 2 (some (.pm, 0)) 21) (table 0x100 [64, 128, 256] 70) with
    | .next t => t.job.dl.map DEnt.eff | _ => []) = [.sreg 21 1, .breg 2 (some 512), .pend .pm 0 6] := by decide +kernel
theorem wit_NopAndIfence : enabled run run.turn u0 = true ∧ enabled run .sq u0 = true ∧ ready run [1, 2] = true ∧ fenceCore run = true ∧
    writesServed run = true ∧ run.reg 2 = 0 := by decide +kernel

def issueChecks (s : State) (preg : BitVec 6) (h : W64) : Bool :=
  match needPages s .sq 0x10000 8 [.x] with
  | .ok (s1, pg) => decide (BitVec.ofNat 64 (leNat (pieceBytes s1 pg 0x10000 8)) = h) &&
    match needPages s1 .sq 0x10000 (8 + 12 * hdrLen h) [.x] with
    | .ok (s2, pages) => decide (hdrFault .mx h = none) &&
      match hdrTargets s2 .mx h with
      | .ok _ =>
        if preg = 0 then decide ((s2.eng .mx).q.length < 16) && pinRoom s2 pages
        else decide ((s2.reg preg).toNat % 16 = 0) &&
          match descRead s2 .sq (s2.reg preg).toNat 128 with
          | .ok (s4, l) => match bindBlock s4 (s2.reg preg).toNat 8 l with
            | .ok (s3, tp) => decide ((s3.eng .mx).q.length < 16) && pinRoom s3 (pages ++ tp.flatMap TpEnt.pages)
            | .error _ => false
          | .error _ => false
      | .error _ => false
    | .error _ => false
  | .error _ => false
theorem wit_IssueAppendsSection :
    (enabled (code hdr4) .sq u0 = true ∧ ready (code hdr4) [0, 3] = true ∧ issueChecks (code hdr4) 0 hdr4 = true) ∧
    issueChecks (asked (linePieces 0x20000 128) (withS [(4, 0x20000)] (code hdr4))) 4 hdr4 = true := by decide +kernel
/-- An entry of a tensor block: valid, readable, 256 bytes at 0x20100. -/
def tpWords : List Byte := leBytes 8 0x20100 ++ leBytes 6 256 ++ [0xA0, 0]
def bindOk (s : State) : Bool :=
  match descRead s .sq (s.reg 4).toNat 16 with
  | .ok (s1, l) => match tpParse l with
    | some e => e.v && decide (e.bnd = none) &&
      match needPages s1 .sq e.base e.len (tpPerms e) with
      | .ok (s2, pages) => !(s2.binding 15).v && pinRoom ((unpinAll s2 (s2.binding 15).pages).onJob fun j =>
          { j with bind := rowSet j.bind 15 TpEnt.init }) pages
      | .error _ => false
    | none => false
  | .error _ => false
theorem wit_TensorBindings : enabled run .sq u0 = true ∧ (run.binding 15).v = false ∧
    (let s := asked [(0x20000, 8), (0x20008, 8)] (poke 0x20000 tpWords (withS [(4, 0x20000)] mapped))
     ready s [4] = true ∧ (s.reg 4).toNat % 16 = 0 ∧ bindOk s = true) := by decide +kernel

/-- Every engine has issued a rendezvous. -/
def rdvs (n : Nat) (s : State := run) : State := s.onFlow fun f => { f with rdvIssued := .replicate 5 n }
theorem wit_RendezvousWords : enabled (rdvs 1) .sq u0 = true ∧ rdvCheck (rdvs 1) (wordRef (rdvs 1) .sq) = none ∧
    (enabled run .sq u0 = true ∧ cnt5 run.job.flow.rdvIssued .sx < cnt5 run.job.flow.rdvReached .sq + 1) := by decide +kernel

def guarded (side : Bool) (n : Nat) : State := run.onJob fun j => { j with side := side, guards := List.replicate n (false, 0) }
theorem wit_TrapAndGuard : enabled run .sq u0 = true ∧ run.job.st = .running ∧ ready run [1] = true ∧
    ((guarded false 15).job.side = false ∧ (guarded false 15).job.guards.length < 16) ∧ (guarded true 0).job.side = true ∧
    ((guarded false 16).job.side = false ∧ 16 ≤ (guarded false 16).job.guards.length) := by decide +kernel

theorem wit_LocalMemoryWords :
    let off (v : W64) (imm : BitVec 56) (n : Nat) : Bool × Bool := let o := ((withS [(1, v)]).reg 1 + imm.signExtend 64).toNat
      (decide (o % n = 0), decide (o + n ≤ 65536))
    enabled run .sq u0 = true ∧ ready run [1, 2] = true ∧
    off 65528 0 8 = (true, true) ∧ okEq (readLdm run 65528 8) () = true ∧ off 65535 0 1 = (true, true) ∧ off 3 (-2) 2 = (false, true) ∧ off 65536 0 4 = (true, false) := by
  decide +kernel

theorem wit_LoadAndStoreLeave :
    let s := withS [(1, 0x2FFF8)] mapped
    enabled s .sq u0 = true ∧ ready s [1, 2] = true ∧ loadsOut s false < 8 ∧ storeRoom s = true ∧
    reachable s 0x2FFF8 8 ⟨0, 0x20000, 0x20000, 0x10000, true, true, false⟩ [.r, .w] ∧
    (2 ^ 52 ≤ (withS [(1, 2 ^ 52)]).reg 1 + 0) ∧ ((withS [(1, 7)]).reg 1).toNat % 2 ^ 3 ≠ 0 := by
  refine ⟨by decide +kernel, by decide +kernel, by decide +kernel, by decide +kernel, ⟨by decide +kernel, by decide +kernel, by decide +kernel, by decide +kernel,
    by decide +kernel, by decide +kernel⟩, by decide +kernel, by decide +kernel⟩

theorem wit_AtomicsLeave :
    let s := withS [(1, 0x20040)] mapped
    enabled s .sq u0 = true ∧ ready s [1, 2, 3] = true ∧ (s.micro .sq).phase ≠ 1 ∧ allServed s = true ∧ loadsOut s true < 8 ∧
    reachable s 0x20040 8 ⟨0, 0x20000, 0x20000, 0x10000, true, true, false⟩ [.r, .w] := by
  refine ⟨by decide +kernel, by decide +kernel, by decide +kernel, by decide +kernel, by decide +kernel, ⟨by decide +kernel, by decide +kernel, by decide +kernel,
    by decide +kernel, by decide +kernel, by decide +kernel⟩⟩

theorem wit_WaitsAndPosts :
    let s := withS [(1, 0x20040)] mapped
    enabled s .sq u0 = true ∧ ready s [1, 2] = true ∧ allServed s = true ∧ storeRoom s = true ∧ (s.micro .sq).phase ≠ 1 ∧
    reachable s 0x20040 8 ⟨0, 0x20000, 0x20000, 0x10000, true, true, false⟩ [.r, .w] ∧
    ((atPhase .sq 1).micro .sq).phase = 1 := by
  refine ⟨by decide +kernel, by decide +kernel, by decide +kernel, by decide +kernel, by decide +kernel, ⟨by decide +kernel, by decide +kernel, by decide +kernel,
    by decide +kernel, by decide +kernel, by decide +kernel⟩, by decide +kernel⟩

theorem wit_FenceAndBarrier :
    enabled run .sq u0 = true ∧ (fenceCore run = true ∧ allServed run = true ∧ run.job.seq.remOut = 0 ∧ run.grp.rems = []) ∧
    fenceCore (run.onSeq fun q => { q with stOut := 1 }) = true ∧ allServed (run.onSeq fun q => { q with stOut := 1 }) = false ∧
    ((atPhase .sq 2).micro .sq).phase = 2 ∧ (run.micro .sq).phase = 0 ∧ run.job.levels.getLsbD 0 = true ∧ barwReady run = true ∧
    run.job.levels.getLsbD 4 = false ∧ ((inLevels 0b01001).job.levels.getLsbD 3 = true ∧ barwReady (inLevels 0b01001) = true) := by
  decide +kernel

/-! ### Witnesses: special registers, handles, loops, the access engine, copies -/

theorem wit_SpecialReads : enabled run .sq u0 = true ∧ ready run [63] = true ∧ (run.plane 31).owner ≠ some run.job.ctx ∧
    ((withPlane 31 (plane 2)).plane 31).owner = some run.job.ctx ∧ ((withPlane 31 (plane 2)).plane 31).cfg = true := by decide +kernel

def tableIs (s : State) (nodes : List Nat) : Bool :=
  match groupTable s .sq 0x20040 with | .ok (_, t) => decide (t.nodes = nodes) && decide (t.gid = 9) | .error _ => false
theorem wit_GroupReads : enabled (grouped [5, 0]) .sq u0 = true ∧ ready (grouped [5, 0]) [1, 2] = true ∧ tableIs (grouped [5, 0]) [5, 0] = true ∧
    (grouped [5, 0]).node.toNat = 0 ∧ tableIs (grouped [7]) [7] = true ∧ ((withS [(1, 32)]).reg 1).toNat % 64 ≠ 0 := by decide +kernel

def busyAx : State := run.onFlow fun f => { f with issued := #v[0, 1, 0, 0, 0] }
theorem wit_SpecialWrites : enabled run .sq u0 = true ∧ ready run [1] = true ∧
    cnt5 busyAx.job.flow.issued .ax ≠ cnt5 busyAx.job.flow.retired .ax ∧
    (∀ e ∈ [Stream.ax, .mx, .vx, .sx], cnt5 run.job.flow.issued e = cnt5 run.job.flow.retired e) ∧
    (run.job.ot.lo = 0 ∧ run.job.ot.hi ≤ 1024) ∧ ((withS [(1, 1025)]).reg 1).toNat > 1024 ∧ ((withS [(1, 1008)]).reg 1).toNat + 16 ≤ run.job.ot.hi ∧
    2 ^ 32 ≤ ((withS [(1, 0x100000000)]).reg 1).toNat ∧ ((withS [(1, 0xFFFFFFFF)]).reg 1).toNat < 2 ^ 32 := by decide +kernel

def otArea : State := withS [(1, 0x0010000000020000)] mapped
def ganged (s : State) : State := s.onJob fun j => { j with l := { j.l with gang := some (9, [5, 0]) } }
theorem wit_BaseAndDomainWrites :
    enabled run .sq u0 = true ∧ ready run [1] = true ∧ ((withS [(1, 0x0010000000020001)]).reg 1).toNat % 2 ^ 12 ≠ 0 ∧
    (let v := (withS [(1, 0x0000000000020000)] mapped).reg 1
     v.toNat % 2 ^ 12 = 0 ∧ v.toNat / 2 ^ 52 * 2 ^ 20 = 0) ∧ pinRoom run [] = true ∧
    (let s := otArea.onCore fun c => { c with tlb := [⟨0, 0, 0, 0x200000, true, true, false⟩] }
     (s.reg 1).toNat % 2 ^ 12 = 0 ∧ s.job.ot.sp = 0 ∧
     (match needPages s .sq 0x20000 (2 ^ 20) [.r, .w] with | .ok (s1, pages) => pinRoom s1 pages | .error _ => false) = true) ∧
    0 < ((run.onJob fun j => { j with ot := { j.ot with sp := 64 } }).job.ot.sp) ∧
    (((withS [(1, 2)]).reg 1).getLsbD 0 = false ∧ 32 ≤ ((withS [(1, 33)]).reg 1).toNat) ∧
    (((withS [(1, 17)]).reg 1).getLsbD 4 = true ∧ run.job.l.gang = none) ∧
    ((ganged (withS [(1, 17)])).job.l.gang.isSome = true) ∧
    (let s := (inLevels 0b00011 (withS [(1, 1)])).onGrp fun g => { g with doms := [⟨1, 0, [], 0, 1, [0], [], [], false, 0, 0, []⟩] }
     s.job.levels.getLsbD 1 = true ∧ (s.reg 1).getLsbD 1 = false ∧ phaseOf s 1 % 2 = 1) ∧
    (phaseOf (inLevels 0b00011) 1 % 2 = 0) := by decide +kernel

/-- A slot write of handle 15 that may be published at the engine points of this cycle. -/
def unsettled (s : State) : State := s.onCore fun c => { c with writes := [⟨.vx, 1, 15, [], 1, WordRef.zero⟩] }
theorem wit_HandleWords :
    enabled run run.turn u0 = true ∧ (run.handle 15).init = false ∧ run.core.writes = [] ∧
    ((unsettled run).core.won.isSome = false ∧ ((unsettled run).core.writes.all fun w => decide (w.h = 15 → w.pub = 0)) = false) ∧
    handleOn (withH (handle 0 0 3)) 15 = true ∧
    handleOn ((withH (handle 0 0 3)).onJob fun j => { j with dl := [⟨51, .sq, 0, 50, .qinit 15 0 0 1 0 0⟩] }) 15 = false ∧
    (((0x3FFF80 : BitVec 22).toNat % 64 = 0) ∧ (0x3FFF80 : BitVec 22).toNat + 2 * (64 * 2 ^ 0) ≤ 2 ^ 22 ∧
      2 ^ 22 < (0x3FFF80 : BitVec 22).toNat + 3 * (64 * 2 ^ 0) ∧ (0x3FFF81 : BitVec 22).toNat % 64 ≠ 0) ∧
    (((withH (handle 0 0 2)).handle 15).init = true ∧ ((withH (handle 0 0 2)).handle 15).f ≠ 0) ∧
    (((withH (handle 0 0 0)).handle 15).f = 0 ∧ handleWritten (withH (handle 0 0 0)) 15 = false) ∧
    (((withH (handle 0 0 4)).handle 15).cons = run.turn.idx ∧ 4 ≤ ((withH (handle 0 0 4)).handle 15).f) ∧
    (((withH (handle 0 0 3)).handle 15).f < 4 ∧ 4 ≤ ((withH (handle 0 0 3)).handle 15).depth) ∧
    slotWritesOut (withH (handle 0 0 3)) .sq 15 1 = false ∧ ((withH (handle 1 1 3)).handle 15).prod ≠ run.turn.idx ∧
    (((withH (handle 0 0 3)).handle 15).depth - 3 < 2) := by decide +kernel

def inLoop : State := (onE .vx).onEng .vx fun e => { e with idx := 1, frames := [⟨1, 4, 2, 0, false⟩] }
theorem wit_LoopFrames :
    (onE .vx).turn ≠ .sq ∧ ((onE .vx).eng .vx).cur = some (sec 0x2000 1) ∧ ((onE .vx).eng .vx).frames = [] ∧ enabled (onE .vx) .vx u0 = true ∧
    ((inLoop.eng .vx).frames.length = 1 ∧ 1 + 1 + 1 + 1 ≤ 4 ∧ hdrLen hdr4 = 4) ∧
    ((run.job.seq.z[0]).toNat = 0) ∧ enabled (onE .vx) .vx ⟨true, 0⟩ = false := by decide +kernel

def axAt (m : Micro) (s : State := ax) : State := s.setMicro .ax m
/-- A descriptor of a read port of AX: 16 elements of 4 bytes at 0. -/
def descBytes : List Byte := leBytes 8 (2 ^ 32 + 2 * 2 ^ 26 + 2 ^ 22) ++ leBytes 8 (16 + 4 * 2 ^ 32) ++ List.replicate 48 0
theorem wit_PortWords :
    enabled ax .ax u0 = true ∧ 2 ^ 22 ≤ (vOf ax (.imm 0x400000)).toNat ∧ (vOf ax (.imm 0x3FFFC0)).toNat % 64 = 0 ∧ (vOf ax (.imm 1)).toNat % 64 ≠ 0 ∧
    (ax.micro .ax).phase = 0 ∧ portDrained ax 0 = true ∧
    (portDrained (withG 1 { wport 4 with buf := (rport 4).buf } ax) 1 = false ∧ ((withG 1 { wport 4 with buf := (rport 4).buf } ax).port 1).cfg = true) ∧
    (okEq (slotData (axAt { Micro.init with phase := 1, rds := [back 0x40 descBytes] }) .ax [(0x40, 64)]) [descBytes] = true ∧
      (parsePort (axAt { Micro.init with phase := 1, rds := [back 0x40 descBytes] }) 0x40 descBytes).isSome = true ∧
      parsePort ax 0x40 (List.replicate 64 0) = none) ∧
    ((withG 7 (rport 1) ax).port 7).cfg = true ∧ portDrained (withG 7 (rport 1) ax) 7 = true ∧
    badBfmt 0x0000000000000001 = true ∧ badBfmt 0x900000003E800000 = false := by decide +kernel

theorem wit_MoveWords :
    let h := withH (handle 1 1 0) (withG 2 (rport 1) ax)
    let m1 : Micro := { Micro.init with phase := 1 }
    enabled ax .ax u0 = true ∧ 512 < (vOf ax (.imm 513)).toNat ∧ (h.micro .ax).phase = 0 ∧ okEq (checkMove h 15 2 1 true) () = true ∧
    (okEq (checkMove (withH (handle 1 1 4) (withG 2 (rport 1) ax)) 15 2 1 true) () = true) ∧ okEq (checkMove h 15 2 0 true) () = true ∧
    ((axAt m1 h).micro .ax).phase = 1 ∧ axWriteOut (axAt m1 h) = false ∧ popReady (axAt m1 h) 2 1 = true ∧ okEq (checkPops (axAt m1 h) .ax 2 1) () = true ∧
    (let g := withH (handle 1 1 4) (withG 3 (wport 1) (axAt { m1 with rds := [back 0x100 (List.replicate 64 1)] }))
     okEq (checkMove g 15 3 0 false) () = true ∧ pushRoom g 3 = true ∧
     okEq (slotData g .ax [(slotAddr (g.handle 15) (g.handle 15).rh 0, vecCount (g.port 3) * slotWidth g (g.port 3) (slotAddr (g.handle 15) (g.handle 15).rh 0))])
       [List.replicate 64 1] = true) ∧
    (let x := vOf ax (.imm 0x0102)
     x.toNat < 2 ^ 15 ∧ x.getLsbD 3 = false ∧ x.toNat / 2 ^ 8 % 2 ^ 7 = 1 ∧ Ty.bf16.code = x.extractLsb' 4 4 ∧ x.toNat % 8 = 2) := by decide +kernel

def moving (v : W64) (k : Nat) : State := axAt { Micro.init with phase := 9, k := k, val := v }
theorem wit_SpmoveAndSendt :
    (let x := vOf ax (.imm (0x10000 * 2 ^ 44))
     x.toNat / 2 ^ 44 % 2 ^ 17 = 65536 ∧ x.toNat < 2 ^ 61 ∧ x.toNat % 2 ^ 22 + 64 * 65536 ≤ 2 ^ 22) ∧
    65536 < (vOf ax (.imm (0x10001 * 2 ^ 44))).toNat / 2 ^ 44 % 2 ^ 17 ∧
    (vOf ax (.imm (2 ^ 44 + 0x3FFFC0 + 0x3FFFC0 * 2 ^ 22))).toNat % 2 ^ 22 + 64 ≤ 2 ^ 22 ∧ enabled ax .ax u0 = true ∧ (ax.micro .ax).phase ≠ 9 ∧
    ax.core.sb.length < 64 ∧ ((moving 0 128).micro .ax).phase = 9 ∧
    64 ≤ ((ax.onCore fun c => { c with sb := List.replicate 64 ⟨none, 0, 0, 64, 0, true⟩ }).core.sb.length) ∧
    (vOf ax (.imm 1)).toNat % 2 ^ 22 % 64 ≠ 0 ∧ ((vOf ax (.imm 0x400000)).toNat / 2 ^ 22 % 2 ^ 22 % 64 ≠ 0 ∧ (vOf ax (.imm 0x400000)).toNat % 2 ^ 22 % 64 = 0) ∧
    ((moving 1 2).micro .ax).k < 2 * 64 ∧
    (let s := withG 2 (rport 1) ax
     let c := (inLevels 0b00011 s).onGrp fun g => { g with doms := [⟨1, 0, [], 0, 1, [memberKey 0 0], [], [], false, 0, 0, []⟩] }
     okEq (checkPort s .ax 2 false (vecCount (s.port 2)) (eszBytes (s.port 2))) () = true ∧ commLevel s = none ∧
     (commLevel c).isSome = true ∧ popReady c 2 1 = true ∧ okEq (checkPops c .ax 2 1) () = true ∧ sharesStep c 0 1 = true ∧
     popReady (withG 2 { rport 1 with buf := [] } c) 2 1 = false ∧ okEq (checkPort (withG 2 { rport 1 with buf := [] } c) .ax 2 false 16 4) () = true ∧
     Config.cores { c with variant := .b9h }.variant ≤ 127 ∧ 0 < Config.cores c.variant) := by decide +kernel

/-- The descriptor of R265's transposed tile: 32 by 32 elements of two bytes, from a pitch of 512 bytes to 64. -/
def copyBytes (ctrl src dst : Nat) : List Byte :=
  fit 192 (leBytes 8 ctrl ++ leBytes 8 src ++ leBytes 8 dst ++ List.replicate 24 0 ++ leBytes 16 0x00000020000000000002000000000040 ++
    leBytes 16 0x00000020000000000200000000000002)
def copying (ctrl src dst : Nat) (s : State := run) : State :=
  asked (linePieces 0x20100 192) (poke 0x20100 (copyBytes ctrl src dst) (withS [(1, 0x20100)] (mapped s)))
/-- The checks of a copy at the descriptor of s1, up to its append with token 15. -/
def copyChecks (s : State) : Bool :=
  match descRead s .sq (s.reg 1).toNat 192 with
  | .ok (s1, l) => match parseCopy l (field64 l 8) (field64 l 16) with
    | some d => match checkEnd s1 d true (s.reg 1) with
      | .ok (s2, e1) => match checkEnd s2 d false (s.reg 1) with
        | .ok (s3, e2) => decide ((endPages e1 ++ endPages e2).eraseDups.length ≤ 64) && !d.pst && decide (okEq (checkFow s3 d) none) &&
          !tokBusy s3 15 && decide (enqueuedCopies s3 < 32) && pinRoom s3 (endPages e1 ++ endPages e2).eraseDups
        | .error _ => false
      | .error _ => false
    | none => false
  | .error _ => false
def handleEntry : BitVec 256 := BitVec.ofNat 256 (2 ^ 118 + 2 ^ 116 + 3 * 2 ^ 128 + 2 ^ 30 * 2 ^ 64)
/-- Handle 5 of generation 3: valid, readable, of the job's context, 1 GiB. -/
def handled (s : State) : State := s.onDev fun d => { d with handles := SMap.set 0 d.handles 5 handleEntry }
theorem wit_CopyWords :
    let s := copying 0x0000002ABC080000 0x20400 0x1000
    enabled s .sq u0 = true ∧ ready s [1, 0, 0] = true ∧ (s.reg 1).toNat % 64 = 0 ∧ copyChecks s = true ∧
    copyChecks (handled (copying 0x0000002ABC0A0000 (3 * 2 ^ 48 + 5 * 2 ^ 36 + 0x400) 0x1000)) = true ∧
    (ready (withS [(1, 32)]) [1] = true ∧ ((withS [(1, 32)]).reg 1).toNat % 64 ≠ 0) ∧
    parseCopy (copyBytes 0x0000002ABC080001 0x20400 0x1000) 0x20400 0x1000 = none ∧
    tokBusy (run.onJob fun j => { j with tok := .replicate 16 ⟨.busy, 0, []⟩ }) 15 = true := by decide +kernel

theorem wit_TokenWords : enabled run .sq u0 = true ∧ (row run.job.tok Tok.init 15).st ≠ .busy ∧
    (row (run.onJob fun j => { j with tok := .replicate 16 ⟨.busy, 0, []⟩ }).job.tok Tok.init 15).st = .busy := by decide +kernel

/-! ### Witnesses: the matrix engine -/

theorem wit_SlotAndArrayWords :
    enabled mx .mx u0 = true ∧ (((oslots .full .bf16).oslot 0).pair = false ∧ ((oslots .full .bf16).oslot 0).st = .full) ∧
    ((oslots .held .bf16).oslot 0).st = .held ∧ (mx.oslot 63).st ≠ .full ∧ (mx.oslot 63).st ≠ .held ∧
    slotRead (oslots .held .bf16) 0 = false ∧ slotRead ((oslots .held .bf16).onCore fun c => { c with arr := { c.arr with reads := [(0, 100)] } }) 0 = true ∧
    (let s := tileAs 30 .fp 0 (oslots .held .bf16)
     ((s.oslot 0).st = .held ∧ (s.oslot 0).tag = Ty.bf16.code ∧ (s.oslot 0).pair = false) ∧
     ((s.oslot 1).st = .held ∧ (s.oslot 1).tag = Ty.bf16.code ∧ (s.oslot 1).pair = false) ∧
     (s.tile 30).mode = tileMode .bf16 ∧ (s.core.arr.free ≤ s.core.arr.t ∧ s.core.arr.fq = []) ∧
     badCell s (mmaCells 30 0 1 .bf16) = none ∧
     badCell (s.onPlat fun p => { p with bad := [.tile 31] }) (mmaCells 30 0 1 .bf16) = some 4) ∧
    ¬ ((mx.onCore fun c => { c with arr := { c.arr with free := 101 } }).core.arr.free ≤ mx.core.arr.t) ∧
    (mx.tile 30).mode ≠ tileMode .bf16 ∧ ((oslots .held .bf16 mx).setOslot 1 OSlot.init |>.oslot 1).st ≠ .held ∧
    mmaFlying mx [30, 31] = false ∧
    mmaFlying (mx.onJob fun j => { j with dl := [⟨60, .mx, 1, 50, .mma ⟨30, .bf16, 1, [], [], 0, 0, 0⟩⟩] }) [30, 31] = true := by decide +kernel

def slotOp : Opnd := .slot 15 0
/-- A handle of the engine with a full slot, and the read of it back. -/
def slotRead (st : Stream) (l : List Byte) (s : State) : State :=
  (s.setHandle 15 { handle st.idx st.idx 1 with sz := 6, depth := 1 }).setMicro st { Micro.init with rds := [back 0x100 l] }
theorem wit_MatrixRegistersAndDrain :
    enabled mx .mx u0 = true ∧ useOk .mx (slotRead .mx (List.replicate 256 1) mx) [(⟨slotOp, .f32, false⟩, 64)] = true ∧
    (mx.tile 31).mode = .none ∧ ((tileAs 31 .w8 1).tile 31).mode = .w8 ∧ ((tileAs 30 .fp 5).tile 30).mode = .fp ∧
    75790 < ((tileAs 31 .w8 75791).tile 31).kc ∧ ((tileAs 31 .w8 75790).tile 31).kc ≤ 75790 ∧
    525185 < ((tileAs 31 .w16 525186).tile 31).kc ∧ ((tileAs 31 .w16 525185).tile 31).kc ≤ 525185 ∧
    (let s := (tileAs 30 .fp 1).setHandle 15 { handle 2 2 0 with sz := 6, depth := 1 }
     badCell s ([.tile 30] ++ if (s.tile 30).mode = .fp then [.tile 31] else []) = none ∧ (match checkUses s .mx false [(⟨slotOp, .f32, true⟩, 1024)], waitUses s .mx [(⟨slotOp, .f32, true⟩, 1024)] with
       | .ok _, .ok _ => true | _, _ => false) = true) := by decide +kernel

theorem wit_MmaLands :
    let e : MmaEff := ⟨31, .res8, 64, [(0, 1)], [(0, 1)], .allOnes 64, 1, 1⟩
    let f : MmaEff := ⟨30, .bf16, 2, [], [], .allOnes 64, 1, 3⟩
    e.d < 32 ∧ SMap.wf 0 (row Mx.init.a Tile.init e.d).data = true ∧ SMap.wf 0 (row Mx.init.a Tile.init (e.d + 1)).data = true ∧ SMap.wf 0 e.a = true ∧
    SMap.wf 0 e.b = true ∧ (e.pm.getLsbD 63 = true ∧ e.pn.getLsbD 0 = true ∧ e.ty.isRes = true) ∧ e.pn.getLsbD 63 = false ∧
    f.d + 1 < 32 ∧ f.ty.isRes = false ∧ f.pm.getLsbD 0 = true ∧ f.pn.getLsbD 0 = true := by decide +kernel
theorem wit_ResidueArithmetic :
    (resLo .res8 ≤ -84 ∧ (-84 : Int) ≤ resHi .res8) ∧ (resLo .res16 ≤ 83 ∧ (83 : Int) ≤ resHi .res16) ∧
    (let M : Int := 1024 * 1023 * 1021
     0 ≤ -(M / 2) + M / 2 ∧ -(M / 2) < M / 2 ∧ 0 ≤ -3 + 83 * 84 + M / 2 ∧ -3 + 83 * 84 < M / 2) := by decide +kernel
/-- R110: −3 is 0x94, whose residues are 4, 5 and 0; a non-canonical code decodes to 0. R172: W8 reconstructs −3. -/
theorem test_res8 : resEnc .res8 (-3) = 0x94 ∧ resDec .res8 0x94 = -3 ∧ resDec .res8 0xE3 = 0 := by decide +kernel

/-! ### Witnesses: vector words -/

/-- What `used` decides is that the operands are at hand. -/
theorem used_read {st : Stream} {x : Sfx} {us : List (Use × Nat)} {s : State} (h : used st x us s = true) :
    ∃ u vs, usesRead st x.win x.rnd x.sat us s u vs ∧ vs.length = (us.filter fun u => !u.1.dst).length := by
  unfold used at h
  split at h
  · rename_i s1 h1
    split at h
    · rename_i bs h2 h3
      exact ⟨_, _, ⟨s1, bs, h1, h2, h3, rfl⟩, by simpa using h⟩
    · cases h
  · cases h
theorem wit_FloatArithmetic :
    let s := planes 2 [(0, 0x3F800000)]
    let r : Opnd := .plane .row 5 15
    enabled s .vx u0 = true ∧ used .vx (sfx .f32) (elems (whole 20) .f32 [(whole 4, .f32)] s) s = true ∧
    used .vx (sfx .f32) (elems (whole 20) .f32 [(whole 4, .f32), (whole 5, .f32)] s) s = true ∧
    used .vx (sfx .f32) (elems (.plane .row 20 0) .f32 [(.plane .row 4 0, .f32), (r, .f32), (.pool 255, .f32)] s) s = true ∧
    absentNone (elemUses (whole 20) .f32 [(whole 4, .f32)]) s = true := by decide +kernel

theorem wit_FloatFunctions : let s := planes 1 [(0, 0x7F80)]
    enabled s .vx u0 = true ∧ used .vx (sfx .bf16) (elems (whole 20) .bf16 [(whole 4, .bf16)] s) s = true ∧
    absentNone (elemUses (whole 20) .bf16 [(whole 4, .bf16)]) s = true ∧
    fval .bf16 0x7F80 = .inf false ∧ fval .bf16 0xFF80 = .inf true ∧ fval .bf16 0x7FC0 = .nan ∧ fval .bf16 0x8000 = .num 0 true ∧
    fval .bf16 0xBF80 = .num (-1) true := by decide +kernel
theorem wit_IntegerArithmetic : let s := planes 0 [(0, 0x80)]
    enabled s .vx u0 = true ∧ used .vx (sfx .i8) (elems (whole 20) .i8 [(whole 4, .i8), (whole 5, .i8)] s) s = true ∧
    used .vx (sfx .i8) (elems (whole 20) .i8 [(whole 4, .i8)] s) s = true ∧ absentNone (elemUses (whole 20) .i8 [(whole 4, .i8)]) s = true := by decide +kernel
theorem wit_ConvertCompareSelect : let s := planes 0 [(0, 0x94)]
    enabled s .vx u0 = true ∧ used .vx (sfx .res8) (elems (whole 20) .res8 [(whole 4, .i8), (.pool 0, .f32)] s) s = true ∧
    used .vx (sfx .i8) (([⟨whole 4, .i8, false⟩, ⟨whole 5, .i8, false⟩] : List Use).map fun y => (y, 1024)) s = true ∧
    elemCount s [⟨whole 4, .i8, false⟩, ⟨whole 5, .i8, false⟩] = 1024 ∧
    used .vx (sfx .i8) (elems (whole 20) .i8 [(whole 4, .i8), (whole 5, .i8)] s) s = true := by decide +kernel

def wholeUsed (d : Opnd) (n : Nat) (srcs : List (Opnd × Nat)) (x : Sfx) (s : State) : Bool :=
  !absentTy s x.ty && used .vx x ((⟨d, x.ty, true⟩, n) :: srcs.map fun a => (⟨a.1, x.ty, false⟩, a.2)) s
theorem wit_LayoutWords : let s := planes 2 [(1023, 7)]
    enabled s .vx u0 = true ∧ wholeUsed (whole 20) (planeCnt (whole 20)) [(whole 4, planeCnt (whole 4))] (sfx .f32) s = true ∧
    wholeUsed (whole 20) 1024 [(.plane .col 4 63, 16)] (sfx .f32) s = true ∧ wholeUsed (whole 20) 1024 [(.plane .row 4 15, 64)] (sfx .f32) s = true ∧
    wholeUsed (whole 20) 1024 [(whole 4, 1024)] (sfx .f32) s = true ∧ wholeUsed (.plane .col 20 0) 16 [(whole 4, 1024)] (sfx .f32) s = true ∧
    wholeUsed (.plane .row 20 0) 64 [(whole 4, 1024)] (sfx .f32) s = true ∧
    used .vx (sfx .f32) [(⟨whole 20, .f32, true⟩, 1024), (⟨whole 4, .f32, false⟩, 1024)] s = true ∧
    (s.plane 5).cfg = true ∧ planeWidth (s.plane 5) ≠ 8 ∧ s.job.vx.perm = none ∧
    okEq (touchAll (planesOf s false [⟨whole 20, .f32, true⟩, ⟨whole 4, .f32, false⟩, ⟨whole 5, .i32, false⟩]) s) s = true := by decide +kernel

theorem wit_CompressExpandFlags : let s := planes 2 [(0, 1)]
    enabled s .vx u0 = true ∧ planeCnt (whole 20) = 64 * (rowsOf (whole 4)).length ∧ planeCnt (.plane .row 20 0) = 64 * (rowsOf (.plane .row 4 15)).length ∧
    used .vx (sfx .f32) [(⟨whole 20, .f32, true⟩, 1024), (⟨whole 4, .f32, false⟩, 1024)] s = true ∧
    wholeUsed (whole 20) 1024 [(whole 4, 1024)] (sfx .f32) s = true := by decide +kernel

def kmask (k : BitVec 1024) (s : State) : State := s.onJob fun j => { j with vx := { j.vx with k := rowSet j.vx.k 1 k } }
def inPlane (o : Opnd) (s : State) : Bool :=
  okEq (touchAll (planesOf s false [⟨o, .f32, false⟩]) s) s && okEq (checkUses s .vx false [(⟨o, .f32, false⟩, planeCnt o)]) ()
theorem wit_ConditionalStreams : let s := kmask 7 (planes 2 [(0, 1)])
    let h (f : Nat) : State := s.setHandle 15 (handle 3 3 f)
    enabled s .vx u0 = true ∧ absentTy s .f32 = false ∧ inPlane (whole 4) s = true ∧ (selElems s false (whole 4) (kReg s 1)).length = 3 ∧
    (readUses .vx false .rne false [(⟨whole 4, .f32, false⟩, 1024)] [] s).1 = s ∧
    (let q := (h 4).handle 15
     handleOn (h 4) 15 = true ∧ (h 4).core.writes = [] ∧ q.prod = 3 ∧ ceilDiv (q.u + 12) 64 ≤ q.depth ∧ q.u % 4 = 0 ∧ q.depth - q.f < ceilDiv (q.u + 12) 64) ∧
    ceilDiv (((h 3).handle 15).u + 12) 64 ≤ ((h 3).handle 15).depth - ((h 3).handle 15).f ∧ handleOn s 15 = false ∧ (unsettled (h 4)).core.won.isSome = false ∧
    okEq (checkUses (h 1) .vx false [(⟨whole 4, .f32, true⟩, 1024)]) () = true ∧ ((h 0).handle 15).f < 1 ∧
    okEq (slotData ((h 1).setMicro .vx { Micro.init with rds := [back 0x100 (List.replicate 12 1)] }) .vx [(0x100, 12)]) [List.replicate 12 1] = true := by
  decide +kernel

theorem wit_CurveKeys : let s := planes 2 [(0, 0x1FFFFF), (1, 0x200000)]
    let us : List Use := [⟨whole 20, .n32, true⟩, ⟨whole 4, .n32, false⟩, ⟨whole 5, .n32, false⟩, ⟨whole 6, .n32, false⟩]
    enabled s .vx u0 = true ∧ (planesOf s false [⟨whole 20, .n32, true⟩]).headD 0 = 20 ∧
    okEq (touchAll (7 :: planesOf (withPlane 7 (plane 2) s) false us) (withPlane 7 (plane 2) s)) (withPlane 7 (plane 2) s) = true ∧
    okEq (checkUses (withPlane 7 (plane 2) s) .vx false (us.map fun y => (y, 1024))) () = true ∧
    okEq (checkPlane (withPlane 7 (plane 2) s) .vx 7 32) () = true ∧
    (readUses .vx false .rne false (us.map fun y => (y, 1024)) [] (withPlane 7 (plane 2) s)).2.length = 3 := by decide +kernel
theorem wit_KeysNamePoints : mortonKey 1 2 4 = 273 ∧ mortonKey (2 ^ 21 - 1) 0 0 < 2 ^ 63 ∧ hilbertKey 0 0 (2 ^ 21 - 1) < 2 ^ 63 := by decide +kernel
theorem wit_WindowAndTiles : enabled vx .vx u0 = true ∧ (constVal vx .vx (.pool 255)).toNat ≤ 15 ∧
    (let s := vx.onEng .vx fun e => { e with cur := some { sec 0x2000 1 with snap := (Vector.replicate 32 0).set 1 16 } }
     15 < (constVal s .vx (.scalar 1)).toNat) ∧
    (let s := vx.onEng .vx fun e => { e with cur := some { sec 0x2000 1 with snap := ((Vector.replicate 32 0).set 1 0xBFF).set 2 0xC00 } }
     (constVal s .vx (.scalar 1)).toNat < 2 ^ 12 ∧ (constVal s .vx (.scalar 1)).extractLsb' 10 2 ≠ 3 ∧ (constVal s .vx (.scalar 2)).extractLsb' 10 2 = 3) ∧
    isOk (touchAll [physPlane vx false 31] vx) = true ∧
    (let s := planes 2 [(0, 1)]
     okEq (touchAll [physPlane s false 20] s) s = true ∧ (s.plane 20).cfg = true ∧
     okEq (touchAll [20] (withPlane 20 { plane 2 with cfg := false } s)) (withPlane 20 { plane 2 with cfg := false } s) = true) := by decide +kernel

/-! ### Witnesses: the outtake stack and the statistics buffer -/

def v20 : V2 := ⟨whole 20, whole 4, whole 5, sfx .bf16⟩
theorem wit_KeepForms :
    let f : FormShape := ⟨u0, 2, 0, 4, whole 20, whole 4, some (whole 5, .bf16), .bf16, .bf16, false⟩
    keepForm (.vaddk u0 v20) = some f ∧ enabled keepState .vx f.p = true ∧ planeCnt f.d = planeCnt f.a ∧
    otOcc keepState.job.ot + otSize 1024 ≤ 1024 ∧ used .vx (sfx .bf16) (f.uses.map fun y => (y, 1024)) keepState = true ∧
    keepElem (.vaddk u0 v20) (fun k => if k = 0 then 0x3F80 else 0x3B80) = .ok 0x3F80 0x3B800000 ∧
    keepElem (.vaddk u0 v20) (fun _ => 0x7F80) = .bad 1 := by decide +kernel
theorem wit_UndoForms :
    let f : FormShape := ⟨u0, 2, 0, 4, whole 20, whole 4, some (whole 5, .bf16), .bf16, .bf16, false⟩
    let top : OtRec := ⟨otTag 16 1023 1, 1024, [0x3B800000]⟩
    undoForm (.unaddk u0 v20) = some f ∧ enabled keepState .vx f.p = true ∧ used .vx (sfx .bf16) (f.uses.map fun y => (y, 1024)) keepState = true ∧
    keepState.job.ot.depth = 0 ∧ ((record [top]).job.ot.depth ≠ 0 ∧ (record [top]).job.ot.brk = false) ∧
    badAmong (record [top]) [.record 1] = false ∧ (onChip (record [top]).job.ot).getLast? = some top ∧ otClass top = 16 ∧ top.tag.extractLsb' 16 10 = (otTag 16 1023 1).extractLsb' 16 10 ∧
    otClass ⟨otTag 17 1023 1, 1024, []⟩ ≠ 16 ∧ (otTag 16 0 1).extractLsb' 16 10 ≠ (otTag 16 1023 1).extractLsb' 16 10 ∧
    undoElem (.unaddk u0 v20) (fun k => if k = 0 then 0x3F80 else 0x3B80) 0x3B800000 = some 0x3F80 ∧
    undoElem (.unaddk u0 v20) (fun _ => 0) 0 = some 0 := by decide +kernel
/-- R201: the kept values of the worked examples; R204: they run back. -/
theorem test_keep : keepBf16 0x3F808001 = .ok 0x3F81 0x00018001 ∧ undoBf16 0x3F81 0x00018001 = some 0x3F808001 := by decide +kernel
theorem wit_UndoRestoresWhatKeepKept : keepMul .f16 0x3C00 0x4000 = .ok 0x4000 0 ∧ keepAdd .bf16 0x3F80 0x3B80 = .ok 0x3F80 0x3B800000 ∧
    keepRes8 0 0x3F800000 = .ok 0 0 ∧ keepShr .i8 0x81 1 = .ok 0xC0 1 ∧ keepLrel .f32 3 0xC1000000 = .ok 0xBF800000 0x80000000 := by decide +kernel

theorem wit_StackWords : enabled vx .vx u0 = true ∧ (vx.micro .vx).phase = 0 ∧ (vx.job.ot.brk = false ∧ vx.job.ot.marks = 0 ∧ vx.job.ot.recs = []) ∧
    (let s := (record [mark, ⟨otTag 16 1023 2, 1024, []⟩]).onJob fun j => { j with ot := { j.ot with marks := 1 } }
     s.job.ot.recs = [] ++ mark :: [⟨otTag 16 1023 2, 1024, []⟩] ∧ otClass mark = 0x38 ∧ otClass ⟨otTag 16 1023 2, 1024, []⟩ ≠ 0x38 ∧ 0 < s.job.ot.marks) ∧
    (let s := (record [mark]).onJob fun j => { j with ot := { j.ot with base := 0x0010000000020000 } }
     (0 : BitVec 11).toNat < ((s.job.ot.recs.map fun r => (4 * r.n + 255) / 256).foldl (· + ·) 0) ∧ s.job.ot.spill = none ∧ s.job.ot.fill = none ∧
       spillFits s = true) ∧
    (vx.onJob fun j => { j with ot := { j.ot with brk := true } }).job.ot.brk = true := by decide +kernel

def statK (r k : Nat) (s : State) : State := setRow r (fun x => { x with kind := k }) s
theorem wit_StatisticsWords : let s := planes 2 [(0, 0x3F800000)]
    enabled s .vx u0 = true ∧ inPlane (whole 4) s = true ∧ statRows (opndPlane s false (whole 4)) (whole 4) 4080 = (List.range 16).map (fun i => (i, 4080 + i)) ∧
    badAmong s [.stat 4095] = false ∧ (statRow s 4095).kind = 0 ∧ (statRow (statK 4095 2 s) 4095).kind = 2 ∧ (statRow (statK 4095 1 s) 4095).kind = 1 ∧
    (statRows (opndPlane s false (whole 4)) (whole 4) 4081).getLast? = some (15, 4096) ∧
    used .vx (sfx .f32) [(⟨whole 20, .f32, true⟩, 1024), (⟨whole 4, .f32, false⟩, 1024)] s = true := by decide +kernel
theorem wit_MomentsAreExact : ([Ext.ofRat 1, Ext.ofRat 2] = [(1 : Rat), 2].map Ext.ofRat) ∧ f32v (SRow.ofBits 0).mid = .num 0 false ∧
    f32v (SRow.ofBits 0).hi = .num 0 false ∧ Ext.nan.isFin = false := by decide +kernel

def sbOps (s : List (Nat × W64)) (t : State := vx) : State :=
  t.onEng .vx fun e => { e with cur := some { sec 0x2000 1 with
    snap := s.foldl (fun v x => rowSet v x.1 x.2) (.replicate 32 0), tp := [⟨true, true, true, none, 0x20000, 0x10000, [(0x20000, 0x20000, 0x10000)]⟩] } }
theorem wit_StatisticsMoves :
    (let s := sbOps [(1, 4095), (2, 1), (3, 16)]
     enabled s .vx u0 = true ∧ (constVal s .vx (.scalar 1)).toNat = 4095 ∧ (constVal s .vx (.scalar 2)).toNat = 1 ∧ (constVal s .vx (.scalar 3)).toNat % 16 = 0 ∧
     (s.micro .vx).phase = 0 ∧ (s.micro .vx).k = 0 ∧ rowLandings s 4095 1 = false ∧
     isOk (tensorAt s .vx 0 16 16 true) = true ∧ s.core.ranges = [] ∧ SMap.wf 0 s.core.stat = true ∧
     ((s.setMicro .vx { Micro.init with phase := 10, rds := [⟨0x20010, 16, some 100, List.replicate 16 0⟩] }).micro .vx).rds.all
       (fun r => match r.grant with | some g => decide (g ≠ 0) && decide (g ≤ s.cyc) | none => false) = true ∧
     (leNat (List.replicate 16 0)) / 2 ^ 96 ≤ 2) ∧
    (constVal (sbOps [(1, 0), (2, 0)]) .vx (.scalar 2)).toNat = 0 ∧ 4096 < (constVal (sbOps [(2, 4097)]) .vx (.scalar 2)).toNat ∧
    (4096 < 4095 + 2 ∧ (constVal (sbOps [(2, 65)]) .vx (.scalar 2)).toNat = 65) := by decide +kernel

/-! ### Witnesses: the store engine, collectives, repartition -/

/-- The port of moments: four vectors have come, of which a pass of Adam takes two. -/
def states : Port := { rport 4 with lvls := [(64, 4)], fpos := 32, buf := (rport 4).buf ++ (rport 4).buf.map fun v => { v with pos := 16 } }
theorem wit_StoreWords : enabled sx .sx u0 = true ∧
    used .sx (sfx .f32) (elems (.port 2) .f32 [(.port 0, .f32)] sx) sx = true ∧
    used .sx (sfx .f32) (elems (.port 2) .f32 [(.port 0, .f32), (.pool 0, .f32)] sx) sx = true ∧
    used .sx (sfx .f32) (elems (.port 2) .f32 [(.port 0, .f32), (.pool 0, .f32), (.pool 1, .f32)] sx) sx = true ∧
    absentNone (elemUses (.port 2) .f32 [(.port 0, .f32)]) sx = true ∧
    (let s := sx.onEng .sx fun e => { e with cur := some { sec 0x2000 1 with
       snap := ((Vector.replicate 32 0).set 1 64).set 2 65, tp := [⟨true, true, true, none, 0x20000, 0x10000, [(0x20000, 0x20000, 0x10000)]⟩] } }
     (s.micro .sx).phase ≠ 13 ∧ (constVal s .sx (.scalar 1)).toNat % 64 = 0 ∧ (constVal s .sx (.scalar 2)).toNat % 64 ≠ 0 ∧
     okEq (checkUses s .sx false [(⟨.port 0, .f32, false⟩, elemCount s [⟨.port 0, .f32, false⟩])]) () = true ∧
     isOk (tensorAt s .sx 0 64 64 true) = true ∧ s.core.ranges = [] ∧
     isOk (waitUses s .sx [(⟨.port 0, .f32, false⟩, elemCount s [⟨.port 0, .f32, false⟩])]) = true) ∧
    ((sx.setMicro .sx { Micro.init with phase := 13, due := 100 }).micro .sx).due ≤ sx.cyc := by decide +kernel
theorem wit_NormWords : enabled sx .sx u0 = true ∧
    useOk .sx sx [(⟨.port 0, .f32, false⟩, elemCount sx [⟨.port 0, .f32, false⟩])] = true ∧
    used .sx sfxF32 (elems (.port 2) .f32 [] sx) sx = true := by decide +kernel
def optUses (k : Nat) (s : State) : List (Use × Nat) :=
  let us : List Use := [⟨.port 2, .f32, true⟩, ⟨.port 3, .f32, true⟩, ⟨.port 0, .f32, false⟩, ⟨.port 1, .f32, false⟩] ++ List.replicate k ⟨.port 4, .f32, false⟩
  us.map fun y => (y, elemCount s us)
theorem wit_OptimiserWords : let s := withG 4 states sx
    enabled s .sx u0 = true ∧ useOk .sx s (optUses 1 s) = true ∧ useOk .sx s (optUses 2 s) = true ∧ (s.port 3).buf.length + 2 ≤ 2 ∧
    okEq (checkPort s .sx 3 true 16 4 1) () = true := by decide +kernel

/-- A record of an all-reduce of 64 .f32 elements at 0x20400 in place, for the group of nodes 0 and 5. -/
def collBytes (ctrl : Nat) : List Byte :=
  fit 256 (leBytes 8 ctrl ++ leBytes 8 0x20040 ++ leBytes 8 0x20400 ++ leBytes 8 0 ++ leBytes 8 0x20400 ++ leBytes 8 64 ++ leBytes 8 0x20800)
def colling (ctrl : Nat) : State := asked (groupPieces 2 ++ linePieces 0x20200 256) (poke 0x20200 (collBytes ctrl) (withS [(1, 0x20200)] (grouped [0, 5])))
def collRuns (s : State) : Bool :=
  match collChecks 1 s with
  | .ok (s1, _, tab, _, pages) => !tokBusy s1 15 && decide (s1.grp.colls = []) && decide (s1.grp.reps = []) && pinRoom s1 pages &&
    decide (tab.gid = 9) && decide (tab.nodes.length = 2)
  | .error _ => false
theorem wit_CollectiveWords : let s := colling 0x108
    enabled s .sq u0 = true ∧ ready s [1] = true ∧ (s.reg 1).toNat % 64 = 0 ∧ isOk (descRead s .sq (s.reg 1).toNat 256) = true ∧ parseColl (collBytes 0x109) = none ∧
    collRuns s = true ∧
    ((withS [(1, 32)]).reg 1).toNat % 64 ≠ 0 ∧ tokBusy (run.onJob fun j => { j with tok := .replicate 16 ⟨.busy, 0, []⟩ }) 15 = true := by decide +kernel

/-- A record of a one-sided write of 4,097 bytes to rank 1, and of a signal of 7 there. -/
def remBytes (src len : Nat) : List Byte := fit 32 (leBytes 8 0x20040 ++ leBytes 8 src ++ leBytes 8 64 ++ leBytes 4 len ++ leBytes 2 1 ++ [3])
def remoting (src len : Nat) : State := asked (groupPieces 2 ++ linePieces 0x20200 32) (poke 0x20200 (remBytes src len) (withS [(1, 0x20200)] (grouped [0, 5])))
def writeRuns (s : State) : Bool :=
  match remChecks false 1 s with
  | .ok (s1, r, _, pages) => !tokBusy s1 0 && pinRoom s1 pages && (s1.dev.stamps.all fun g => !(stampF g.2).wv) && decide (r.len = 4097)
  | .error _ => false
theorem wit_RemoteWords :
    enabled (remoting 0x20400 4097) .sq u0 = true ∧ ready (remoting 0x20400 4097) [1] = true ∧ ((withS [(1, 16)]).reg 1).toNat % 32 ≠ 0 ∧
    (match remChecks true 1 (remoting 0 7) with | .ok (s1, _, _, _) => storeRoom s1 | .error _ => false) = true ∧
    writeRuns (remoting 0x20400 4097) = true := by decide +kernel

/-- A record of a pass over 3 elements of 16 bytes at 0x20400, Morton keys, with room for 4 at 0x20500. -/
def repBytes (ctrl : Nat) : List Byte :=
  fit 256 (leBytes 8 ctrl ++ leBytes 8 0x20040 ++ leBytes 8 0x20400 ++ leBytes 4 3 ++ leBytes 4 0 ++ leBytes 8 0x20500 ++ leBytes 4 4 ++ leBytes 4 0 ++
    leBytes 8 0x20800 ++ leBytes 8 0x20600 ++ leBytes 4 4 ++ leBytes 4 0 ++ List.replicate 12 0 ++ leBytes 4 0x3F800000 ++ leBytes 4 0x3F800000 ++ leBytes 4 0x3F800000)
def repping (ctrl : Nat) : State := asked (groupPieces 2 ++ linePieces 0x20200 256) (poke 0x20200 (repBytes ctrl) (withS [(1, 0x20200)] (grouped [0, 5])))
def repChecks (s : State) : Bool :=
  match descRead s .sq (s.reg 1).toNat 256 with
  | .ok (s1, l) => match parseRep (s.reg 1).toNat l with
    | some r => !repMode r.ctrl && match ownTable s1 r.group with
      | .ok (s2, tab, rank) => decide (rank < tab.nodes.length) && cap1 s2 5 && cap1 s2 4 &&
        match needAll s2 [(r.src, repSize r.ctrl * r.nsrc, .r), (r.prev, 0, .r), (r.rbuf, repSize r.ctrl * r.rcap, .w), (r.reta, repSize r.ctrl * r.retcap, .w),
          (r.comp, 64 + 4 * tab.nodes.length, .w)] with
        | .ok (s3, pages) => decide (pages.length ≤ 4096) && decide (s3.plat.fenced = 0) && !foreignGroup s3 tab.gid && !tokBusy s3 15 && pinRoom s3 pages &&
          decide (s3.grp.reps = []) && decide (activeGroupOps s3 < 8) && decide (recsOf tab.gid 0 s3 = [])
        | .error _ => false
      | .error _ => false
    | none => false
  | .error _ => false
theorem wit_RepartWord : enabled (repping 0x0000020000000000) .sq u0 = true ∧ ready (repping 0x0000020000000000) [1] = true ∧
    repChecks (repping 0x0000020000000000) = true ∧ parseRep 0x20200 (repBytes 0) = none ∧ ((withS [(1, 32)]).reg 1).toNat % 64 ≠ 0 := by decide +kernel

end Sys2Proof.Tests
end

section
/-! The sequencer's divisions (R72): the values of the four divisions as the rule writes them, and what such a word leaves
behind when it issues. -/
namespace Sys2Proof.Proofs
open Sys2Proof Sys2Proof.Machine Sys2Proof.Laws

/-! ### The values of R72 -/

theorem aluDiv_eq (x y : W64) : aluDiv x y = if y = 0 then -1 else BitVec.ofInt 64 (x.toInt.tdiv y.toInt) := by
  rw [aluDiv, ← BitVec.neg_one_eq_allOnes]
  rfl

theorem aluDivn_eq (x y : W64) : aluDivn x y = if y = 0 then -1 else BitVec.ofNat 64 (x.toNat / y.toNat) := by
  rw [aluDivn, ← BitVec.neg_one_eq_allOnes]
  rfl

/-- R72 writes the remainder as a − b × trunc(a / b); the model takes the truncating remainder. -/
theorem aluRem_eq (x y : W64) :
    aluRem x y = if y = 0 then x else BitVec.ofInt 64 (x.toInt - y.toInt * x.toInt.tdiv y.toInt) := by
  rw [aluRem, Int.tmod_def]

/-! ### A word that issues -/

/-- A word of two registers that is enabled and finds both ready issues with its value, whatever that is: it neither waits nor
faults. -/
theorem regReg_ok {p : Pred} {d : BitVec 5} {lat : Nat} {a b : BitVec 6} {f : W64 → W64 → W64} {s : State}
    (h : enabled s .sq p = true) (hr : ready s [a, b] = true) :
    regReg p d lat a b f s = scalarDone lat d (f (s.reg a) (s.reg b)) s :=
  scalarWord_ok h hr

/-- A scalar that is delivered is one entry more at the end of the delay line, due `lat` cycles after the present one. -/
theorem scalarDone_eq (lat : Nat) (d : BitVec 5) (v : W64) (s : State) :
    scalarDone lat d v s = .next (advance .sq (s.onJob fun j =>
      { j with dl := j.dl ++ [⟨j.cycle + lat, .sq, curSec s .sq, j.cycle, .sreg d.toNat v⟩] })) :=
  rfl

/-- Settles O2: each division is a word of two registers with latency 18, whose value is the one that R72 gives. -/
theorem divisionNeverFaults : Obligations.DivisionNeverFaults := by
  intro s p d a b h hr x y
  refine ⟨?div, ?rem, ?divn, ?remn, fun v => scalarDone_eq 18 d v s⟩
  case div => rw [exec_div, execDiv, regReg_ok h hr, aluDiv_eq]
  case rem => rw [exec_rem, execRem, regReg_ok h hr, aluRem_eq]
  case divn => rw [exec_divn, execDivn, regReg_ok h hr, aluDivn_eq]
  case remn => rw [exec_remn, execRemn, regReg_ok h hr, aluRemn]

end Sys2Proof.Proofs
end

section
/-! What a fetched word comes to before it has any effect: a word that is not enabled takes its cycle and does nothing else (R16,
R101), and one that no instruction of its stream has for its bits faults (R33). -/
namespace Sys2Proof.Proofs
open Sys2Proof Sys2Proof.Machine Sys2Proof.Laws

/-! ### The turn of a stream that stands at a word -/

theorem turnOf_sq_fetched {s u : State} {w : Word} {a h : W64} {k : Nat} (hp : presents s .sq = true) (hrdv : atRdv s .sq = false)
    (hpos : s.job.seq.pos = .run a h k) (hk : k < hdrLen h) (hw : sqWord s a k = .ok (u, w)) :
    turnOf s .sq = wordTurn u .sq w := by
  simp [turnOf, hp, sqTurn, hpos, hrdv, Nat.not_le.2 hk, hw, fetchTurn]

theorem turnOf_eng_fetched {s u : State} {st : Stream} {w : Word} {q : QEnt} (hp : presents s st = true) (hst : st ≠ .sq)
    (hcur : (s.eng st).cur = some q) (hw : engWord s st q (s.eng st).idx = .ok (u, w)) : turnOf s st = wordTurn u st w := by
  have heng : turnOf s st = engTurn s st := by
    cases st
    case sq => exact absurd rfl hst
    all_goals simp [turnOf, hp]
  simp [heng, engTurn, hcur, hw, fetchTurn]

theorem step_of_turn_done {s t : State} {rest : List Slot} {st : Stream} (htodo : s.todo = .stream st :: rest)
    (h : turnOf { s with todo := rest } st = .done t) : step s = .next t := by
  simp [step, htodo, presentStep, h]

theorem step_of_turn_event {s t : State} {rest : List Slot} {st : Stream} {i : Instr} (htodo : s.todo = .stream st :: rest)
    (h : turnOf { s with todo := rest } st = .event t i false) : step s = exec i t := by
  simp [step, htodo, presentStep, h]

@[simp] theorem enabled_turn (s : State) (t st : Stream) (p : Pred) : enabled { s with turn := t } st p = enabled s st p := rfl

section
variable {s : State} {st : Stream} {w : Word}

theorem wordTurn_off_decoded {i : Instr} (hoff : enabled s st (wPred w) = false) (hd : decode st w = .ok i) :
    wordTurn s st w = .event { s with turn := st } i false := by
  simp [wordTurn, wordEnabled, hoff, hd]

theorem wordTurn_off_refused {e : DecErr} (hoff : enabled s st (wPred w) = false) (hd : decode st w = .error e) :
    wordTurn s st w = .done (skipWord st w { s with turn := st }) := by
  simp [wordTurn, wordEnabled, hoff, hd]

theorem wordTurn_illegal (hon : enabled s st (wPred w) = true) (hck : checkFirst { s with turn := st } st w = false)
    (hd : decode st w = .error .illegal) :
    wordTurn s st w = .done (takeFault { s with turn := st } (faultAt { s with turn := st } st 0x01 0)) := by
  simp [wordTurn, wordEnabled, hon, hck, hd]

theorem wordTurn_reserved (hon : enabled s st (wPred w) = true) (hck : checkFirst { s with turn := st } st w = false)
    (hd : decode st w = .error .reserved) :
    wordTurn s st w = .done (takeFault { s with turn := st } (faultAt { s with turn := st } st 0x02 0)) := by
  simp [wordTurn, wordEnabled, hon, hck, hd]

end

/-! ### A word that is not enabled -/

/-- An instruction that, where its predicate is false on its stream, does no more than let the stream go on. -/
structure IdleWhenOff (st : Stream) (p : Pred) (i : Instr) : Prop where
  exec_off : ∀ s : State, s.turn = st → enabled s st p = false → exec i s = .next (advance st s)

/-- The form of nearly every word of the model: its own effect if enabled, the advance otherwise. -/
theorem idleWhenOff_of_ite {st : Stream} {p : Pred} {i : Instr}
    (h : ∀ s, ∃ r, exec i s = if enabled s st p then r else .next (advance st s)) : IdleWhenOff st p i := by
  refine ⟨fun s _ hoff => ?_⟩
  obtain ⟨r, hr⟩ := h s
  simp [hr, hoff]

theorem nop_idleWhenOff (st : Stream) (p : Pred) : IdleWhenOff st p (.nop p) := by
  constructor
  rintro s rfl hoff
  exact word_off hoff

theorem handleWord_off {st : Stream} {p : Pred} {s : State} {body : State → Except Halt State} (h : enabled s st p = false) :
    handleWord st p s body = .next (advance st s) := by
  cases st
  case sq => exact side_off h
  all_goals exact word_off h

/-- The handle words run on whichever stream presents them (R96). -/
theorem handleWord_idleWhenOff {st : Stream} {p : Pred} {i : Instr} {body : State → State → Except Halt State}
    (h : ∀ s, exec i s = handleWord s.turn p s (body s)) : IdleWhenOff st p i := by
  constructor
  rintro s rfl hoff
  rw [h, handleWord_off hoff]

/-- A LOOP that is not enabled skips its body (R101, R167). -/
theorem loop_off {p : Pred} {lvl : BitVec 2} {cnt : LoopCnt} {bl : BitVec 8} {wa : Bool} {s : State}
    (h : enabled s s.turn p = false) :
    exec (.loop p lvl cnt bl wa) s = .next (engineTo s.turn ((s.eng s.turn).idx + 1 + (bl.toNat + 1)) (issuedWord s.turn s)) := by
  rw [exec_loop]
  simp [execLoop, h, Nat.add_assoc]

/-! ### What the decoder reads -/

/-- Whatever instruction the fields of a word read as has the property. -/
structure Reads (P : Instr → Prop) (r : Option Instr) : Prop where
  holds : ∀ i, r = some i → P i

/-- The same of what a pair decodes to, which is none where the pair is undefined. -/
structure PairReads (P : Instr → Prop) (r : Option (Option Instr)) : Prop where
  reads : ∀ x, r = some x → Reads P x

section
variable {P : Instr → Prop}

theorem reads_bind {α : Type} {x : Option α} {k : α → Option Instr} (h : ∀ a, Reads P (k a)) : Reads P (x >>= k) := by
  refine ⟨fun i hi => ?_⟩
  obtain ⟨a, -, ha⟩ := Option.bind_eq_some_iff.1 hi
  exact (h a).holds i ha

theorem reads_pure {i : Instr} (h : P i) : Reads P (pure i) := by
  constructor
  rintro _ ⟨⟩
  exact h

theorem reads_none : Reads P none := by
  constructor
  rintro _ ⟨⟩

theorem pairReads_some {x : Option Instr} (h : Reads P x) : PairReads P (some x) := by
  constructor
  rintro _ ⟨⟩
  exact h

theorem pairReads_none : PairReads P none := by
  constructor
  rintro _ ⟨⟩

theorem PairReads.of_decode {st : Stream} {w : Word} {i : Instr} (h : PairReads P (pairOn st (wMajor w).toNat (wMinor w).toNat w))
    (hd : decode st w = .ok i) : P i := by
  unfold decode at hd
  split at hd
  case h_1 | h_2 => cases hd
  case h_3 j hj =>
    split at hd
    · cases hd
      exact (h.reads _ hj).holds _ rfl
    · cases hd

end

/-- What the pair decodes to is idle on the stream when the word's own predicate is false. -/
abbrev PairIdle (st : Stream) (w : Word) (r : Option (Option Instr)) : Prop := PairReads (IdleWhenOff st (wPred w)) r

theorem decCsrwr_idle (w : Word) : Reads (IdleWhenOff .sq (wPred w)) (decCsrwr w) := by
  refine reads_bind fun _ => ?_
  dsimp only
  split_ifs <;> exact reads_pure (idleWhenOff_of_ite fun _ => ⟨_, rfl⟩)

/-- Every table of the decoder, on the streams that read it, LOOP's pair apart: an entry checks and reads fields of its word, and ends
in an instruction made with the word's own predicate. The walk takes each entry apart in that order, and what is left is one goal for
every instruction. -/
theorem tables_idle (st : Stream) (w : Word) (maj min : Nat) :
    PairIdle .sq w (decScalar maj min w) ∧ PairIdle .sq w (decControl maj min w) ∧ PairIdle .sq w (decColl maj min w) ∧
    PairIdle .sq w (decAccess .sq 0x48 min w) ∧ (maj ≠ 0x42 → maj ≠ 0x48 → PairIdle .ax w (decAccess .ax maj min w)) ∧
    PairIdle .mx w (decMatrix maj min w) ∧ PairIdle .vx w (decVec1 maj min w) ∧ PairIdle .vx w (decVec2 maj min w) ∧
    PairIdle .vx w (decVec3 maj min w) ∧ PairIdle .sx w (decStoreEng maj min w) ∧
    PairIdle st w (decControl 0x22 0 w) ∧ PairIdle st w (decAccess st 0x41 min w) := by
  refine ⟨?_, ?_, ?_, ?_, fun hloop hcopy => ?_, ?_, ?_, ?_, ?_, ?_, ?_, ?_⟩
  all_goals
    simp only [decScalar, decControl, decColl, decAccess, decMatrix, decVec1, decVec2, decVec3, decStoreEng]
    repeat' split
  all_goals
    repeat' first
      | contradiction
      | exact pairReads_none
      | exact reads_none
      | exact decCsrwr_idle w
      | apply pairReads_some
      | refine reads_bind fun _ => ?_
      | apply reads_pure
      | split
  all_goals first
    | exact idleWhenOff_of_ite fun _ => ⟨_, rfl⟩
    | exact handleWord_idleWhenOff fun _ => rfl
    | exact nop_idleWhenOff _ _

/-- The shared words run on every stream (R52). -/
theorem sharedPair_idle {st : Stream} {w : Word} {maj min : Nat} (h : sharedPair maj min = true) :
    PairIdle st w (pairOn st maj min w) := by
  obtain ⟨-, -, -, -, -, -, -, -, -, -, hnop, hhandle⟩ := tables_idle st w 0 min
  unfold pairOn
  rw [if_pos h]
  simp only [sharedPair, Bool.or_eq_true, Bool.and_eq_true, beq_iff_eq, decide_eq_true_eq] at h
  obtain ⟨rfl, rfl⟩ | ⟨rfl, -⟩ := h
  · exact hnop
  · exact hhandle

/-- Every word but LOOP is idle on its stream when it is not enabled. -/
theorem pairOn_idle {st : Stream} {w : Word} {maj min : Nat} (hloop : maj ≠ 0x42) : PairIdle st w (pairOn st maj min w) := by
  obtain ⟨hscalar, hcontrol, hcoll, hcopies, haccess, hmatrix, hvec1, hvec2, hvec3, hstore, -, -⟩ := tables_idle st w maj min
  cases hs : sharedPair maj min
  case true => exact sharedPair_idle hs
  simp only [pairOn, hs, beq_iff_eq, hloop, if_false, Bool.false_eq_true]
  cases st
  case mx => exact hmatrix
  case sx => exact hstore
  case sq =>
    dsimp only
    split_ifs with _ _ hcopy
    exacts [hscalar, hcontrol, hcopy ▸ hcopies, hcoll, pairReads_none]
  case ax =>
    dsimp only
    split_ifs with hcopy
    exacts [pairReads_none, haccess hloop hcopy]
  case vx =>
    dsimp only
    split_ifs
    exacts [hvec1, hvec2, hvec3]

theorem pairOn_loopMajor (st : Stream) (w : Word) (min : Nat) :
    pairOn st 0x42 min w = if st = .sq then none else decAccess st 0x42 min w := by
  simp [pairOn, sharedPair]

/-- LOOP is minor 0 of its major on an engine, with the length of its body in bits 61 to 54 (R167). -/
theorem pairOn_loop (st : Stream) (w : Word) (min : Nat) :
    PairReads (fun i => st ≠ .sq ∧ min = 0 ∧ ∃ lvl cnt wa, i = .loop (wPred w) lvl cnt (fld w 54 8) wa) (pairOn st 0x42 min w) := by
  rw [pairOn_loopMajor]
  split_ifs with hst
  · exact pairReads_none
  simp only [decAccess]
  split
  · refine pairReads_some (reads_bind fun _ => reads_bind fun _ => ?_)
    split_ifs
    · exact reads_bind fun _ => reads_pure ⟨hst, rfl, _, _, _, rfl⟩
    · exact reads_pure ⟨hst, rfl, _, _, _, rfl⟩
  · exact pairReads_none

/-! ### What a word that is not enabled does -/

/-- An instruction of a stream, when its word is not enabled, does what the word's bits alone tell: the stream goes on behind it, or
behind the body of a LOOP. -/
theorem exec_decoded_off {st : Stream} {w : Word} {i : Instr} {s : State} (hd : decode st w = .ok i) (hturn : s.turn = st)
    (hoff : enabled s st (wPred w) = false) : exec i s = .next (skipWord st w s) := by
  by_cases hmaj : (wMajor w).toNat = 0x42
  · have hpair := pairOn_loop st w (wMinor w).toNat
    rw [← hmaj] at hpair
    obtain ⟨hst, hmin, lvl, cnt, wa, rfl⟩ := hpair.of_decode hd
    have hbody : loopBody st w = (fld w 54 8).toNat + 1 := if_pos ⟨hst, BitVec.eq_of_toNat_eq hmaj, BitVec.eq_of_toNat_eq hmin⟩
    subst hturn
    rw [loop_off hoff, skipWord, hbody, if_neg (Nat.succ_ne_zero _)]
  · have hbody : loopBody st w = 0 := if_neg fun h => hmaj (congrArg BitVec.toNat h.2.1)
    rw [((pairOn_idle hmaj).of_decode hd).exec_off s hturn hoff, skipWord, if_pos hbody]

theorem step_off {s u : State} {rest : List Slot} {st : Stream} {w : Word} (htodo : s.todo = .stream st :: rest)
    (hturn : turnOf { s with todo := rest } st = wordTurn u st w) (hoff : enabled u st (wPred w) = false) :
    step s = .next (skipWord st w { u with turn := st }) := by
  cases hd : decode st w with
  | ok i =>
    rw [step_of_turn_event htodo (hturn.trans (wordTurn_off_decoded hoff hd))]
    exact exec_decoded_off hd rfl hoff
  | error e => exact step_of_turn_done htodo (hturn.trans (wordTurn_off_refused hoff hd))

/-- Settles O55: the turn of a stream that stands at a word is that of the word; where it is not enabled, what its decoded
instruction does is what its bits tell, and where it is, the decoder's refusal is the fault. -/
theorem wordsAreChecked : Obligations.WordsAreChecked := by
  intro s u rest st w htodo hp hsq heng v
  have hturn : turnOf { s with todo := rest } st = wordTurn u st w := by
    by_cases hst : st = .sq
    · obtain ⟨hrdv, a, h, k, hpos, hk, hw⟩ := hsq hst
      subst hst
      exact turnOf_sq_fetched hp hrdv hpos hk hw
    · obtain ⟨q, hcur, hw⟩ := heng hst
      exact turnOf_eng_fetched hp hst hcur hw
  refine ⟨fun hoff => ⟨fun hbody => ?_, fun hbody => ?_⟩, fun hon hck => ⟨fun hd => ?_, fun hd => ?_⟩⟩
  · rw [step_off htodo hturn hoff, skipWord, if_pos hbody]
  · rw [step_off htodo hturn hoff, skipWord, if_neg hbody]
  · exact step_of_turn_done htodo (hturn.trans (wordTurn_illegal hon hck hd))
  · exact step_of_turn_done htodo (hturn.trans (wordTurn_reserved hon hck hd))

end Sys2Proof.Proofs
end

section
/-! The fuse counter (R388). Every function that an act or a step calls with a state leaves the counter as it was, but for the
body of an SVN commit. Each has one rule here, in the model's order, under the function's name: `_fuse` for a function that answers
a state, `_keeps` for an act, `_ends` for a computation that may stop, which says what may be taken of its answer. -/
namespace Sys2Proof.Proofs
open Sys2Proof Sys2Proof.Machine Sys2Proof.Laws

/-! ### The counter and what may leave it -/

/-- The fuse counter stands at `n`. Rules with a hypothesis about a state ask for it in this form, which `simp` unfolds. -/
def Fused (n : Nat) (s : State) : Prop := s.plat.fuse = n

@[simp] theorem fused_iff {n : Nat} {s : State} : Fused n s ↔ s.plat.fuse = n := ⟨id, id⟩
theorem Fused.eq {n : Nat} {s : State} (h : Fused n s) : s.plat.fuse = n := h
theorem Fused.refl (s : State) : Fused s.plat.fuse s := rfl

/-- What a word that does not issue leaves has the counter at `n`. -/
def Halted (n : Nat) : Halt → Prop
  | .wait s _ => s.plat.fuse = n
  | .trap s _ => s.plat.fuse = n

@[simp] theorem halted_wait {n : Nat} {s : State} {w : Wait} : Halted n (.wait s w) ↔ s.plat.fuse = n := .rfl
@[simp] theorem halted_trap {n : Nat} {s : State} {r : FaultRec} : Halted n (.trap s r) ↔ s.plat.fuse = n := .rfl

/-- The outcome of an act has the counter at `n`. -/
def Keeps (n : Nat) : Host.Outcome State Fault Refusal → Prop
  | .next t => t.plat.fuse = n
  | _ => True

@[simp] theorem keeps_next {n : Nat} {s : State} : Keeps n (.next s) ↔ s.plat.fuse = n := .rfl
@[simp] theorem keeps_fault {n : Nat} {s} : Keeps n (.fault s) := trivial
@[simp] theorem keeps_ite {n : Nat} {c : Prop} [Decidable c] {x y : Host.Outcome State Fault Refusal} :
    Keeps n (if c then x else y) ↔ if c then Keeps n x else Keeps n y := by split <;> rfl

/-! ### Conditionals, pairs and loops over states -/

@[simp] theorem ite_plat (c : Prop) [Decidable c] (s t : State) :
    (if c then s else t).plat = if c then s.plat else t.plat :=
  apply_ite State.plat c s t

@[simp] theorem ite_fuse (c : Prop) [Decidable c] (p q : PlatSt) :
    (if c then p else q).fuse = if c then p.fuse else q.fuse :=
  apply_ite PlatSt.fuse c p q

theorem onPlat_fuse {f : PlatSt → PlatSt} (h : ∀ p, (f p).fuse = p.fuse) (s : State) :
    (s.onPlat f).plat.fuse = s.plat.fuse :=
  h _

theorem snd_fuse {α : Type} {x : α × State} {a : α} {t : State} (h : x = (a, t)) : t.plat.fuse = x.2.plat.fuse := by
  rw [h]

theorem fst_fuse {α : Type} {x : State × α} {a : α} {t : State} (h : x = (t, a)) : t.plat.fuse = x.1.plat.fuse := by
  rw [h]

/-- A loop whose body keeps the counter keeps it. -/
@[simp] theorem foldl_fuse {α : Type} {f : State → α → State} (h : ∀ s x, Fused s.plat.fuse (f s x)) (l : List α)
    (s : State) : (l.foldl f s).plat.fuse = s.plat.fuse := by
  induction l generalizing s with
  | nil => rfl
  | cons x l ih => rw [List.foldl_cons, ih]; exact h s x

@[simp] theorem foldl_fst_fuse {α β : Type} {f : State × β → α → State × β}
    (h : ∀ s x, Fused s.1.plat.fuse (f s x).1) (l : List α) (s : State × β) :
    (l.foldl f s).1.plat.fuse = s.1.plat.fuse := by
  induction l generalizing s with
  | nil => rfl
  | cons x l ih => rw [List.foldl_cons, ih]; exact h s x

/-! ### Computations that may stop -/

/-- What a computation answers satisfies `P`; what it stops with satisfies `E`. A body of a word is followed along its binds:
the rule of each of its computations says what may be taken of an answer, and that a stop has kept the counter. -/
def Ends {ε α : Type} (E : ε → Prop) (P : α → Prop) : Except ε α → Prop
  | .ok a => P a
  | .error e => E e

section
variable {ε α β : Type} {E : ε → Prop} {P : α → Prop} {Q : β → Prop} {n : Nat} {c : Prop} [Decidable c]

@[simp] theorem ends_ok {a : α} : Ends E P (.ok a) ↔ P a := .rfl
@[simp] theorem ends_error {e : ε} : Ends E P (.error e) ↔ E e := .rfl
@[simp] theorem ends_pure {a : α} : Ends E P (pure a) ↔ P a := .rfl

@[simp] theorem ends_ite {x y : Except ε α} :
    Ends E P (if c then x else y) ↔ if c then Ends E P x else Ends E P y := by
  split <;> rfl

@[simp] theorem ends_bind {x : Except ε α} {f : α → Except ε β} :
    Ends E Q (x >>= f) ↔ Ends E (fun a => Ends E Q (f a)) x := by
  cases x <;> rfl

@[simp] theorem ends_map {x : Except ε α} {f : α → β} : Ends E Q (x.map f) ↔ Ends E (fun a => Q (f a)) x := by
  cases x <;> rfl

/-- Where nothing is asked of a stop, a computation needs no rule of its own. -/
@[simp high] theorem ends_bind_unchecked {x : Except ε α} {f : α → Except ε β} :
    Ends (fun _ => True) Q (x >>= f) ↔ ∀ a, x = .ok a → Ends (fun _ => True) Q (f a) := by
  cases x <;> simp

theorem ends_of_eq {x : Except ε α} {a : α} (h : Ends E P x) (hx : x = .ok a) : P a := by
  subst hx
  exact h

/-- The rule of a computation that answers no state. -/
theorem ends_iff {x : Except ε α} (h : Ends E (fun _ => True) x) : Ends E P x ↔ ∀ a, x = .ok a → P a := by
  cases x with
  | error e => simpa using h
  | ok a => simp

/-- The rule of a computation that answers a state with the counter at `n`. -/
theorem ends_iff_state {x : Except ε State} {P : State → Prop} (h : Ends E (fun s => s.plat.fuse = n) x) :
    Ends E P x ↔ ∀ s, x = .ok s → s.plat.fuse = n → P s := by
  cases x with
  | error e => simpa using h
  | ok s =>
    rw [ends_ok] at h
    simp [h]

/-- The rule of a computation that answers a state with the counter at `n` and a value. -/
theorem ends_iff_with {x : Except ε (State × α)} {P : State × α → Prop}
    (h : Ends E (fun r => r.1.plat.fuse = n) x) :
    Ends E P x ↔ ∀ s a, x = .ok (s, a) → s.plat.fuse = n → P (s, a) := by
  rcases x with e | ⟨s, a⟩
  · simpa using h
  · have hs : s.plat.fuse = n := h
    simp [hs]

@[simp] theorem ends_forM {l : List α} {f : α → Except ε PUnit} {P : PUnit → Prop}
    (h : ∀ a, Ends E (fun _ => True) (f a)) : Ends E P (forM l f) ↔ (forM l f = .ok () → P ()) := by
  have hall : Ends E (fun _ => True) (forM l f) := by
    induction l with
    | nil => trivial
    | cons a l ih => rw [List.forM_cons, ends_bind, ends_iff (h a)]; exact fun _ _ => ih
  exact (ends_iff hall).trans ⟨fun hp => hp (), fun hp _ => hp⟩

end

section
variable {α : Type} {n : Nat} {P : α → Prop} {s : State}

@[simp] theorem ends_stop (h : Fused n s) (st c x y z) : Ends (Halted n) P (stop s st c x y z) := h
@[simp] theorem ends_hold (h : Fused n s) (w) : Ends (Halted n) P (hold s w) := h

@[simp] theorem ends_check {P : Unit → Prop} (h : Fused n s) (b st c x y z) :
    Ends (Halted n) P (check b s st c x y z) ↔ (b = false → P ()) := by
  cases b <;> simp [h.eq]

@[simp] theorem ends_waitFor {P : Unit → Prop} (h : Fused n s) (b w) :
    Ends (Halted n) P (waitFor b s w) ↔ (b = true → P ()) := by
  cases b <;> simp [h.eq]

end

/-! ### Parts of the state, the agenda, faults -/

@[simp] theorem onEng_fuse (s : State) (st f) : (State.onEng s st f).plat.fuse = s.plat.fuse := rfl
@[simp] theorem waitOver_fuse (st) (s : State) : (waitOver st s).plat.fuse = s.plat.fuse := rfl

theorem onDue_keeps_of {α : Type} {s : State} {mine : Ev → Option α} {f : α → State → State}
    (h : ∀ e x t, mine e = some x → Fused t.plat.fuse (f x t)) : Keeps s.plat.fuse (onDue s mine f) := by
  simp only [fused_iff] at h
  unfold onDue
  split
  · split
    · split <;> simp [h _ _ _ ‹_›]
    · rfl
  · rfl

@[simp] theorem onDue_keeps {α : Type} {s : State} {mine : Ev → Option α} {f : α → State → State}
    (h : ∀ x t, Fused t.plat.fuse (f x t)) : Keeps s.plat.fuse (onDue s mine f) := onDue_keeps_of fun _ x t _ => h x t

@[simp] theorem addHeld_fuse (s : State) (p l) : (addHeld s p l).plat.fuse = s.plat.fuse := rfl

@[simp] theorem takeFault_fuse (s : State) (r) : (takeFault s r).plat.fuse = s.plat.fuse := by
  unfold takeFault
  split <;> simp

@[simp] theorem arrayTick_fuse (go) (s : State) : (arrayTick go s).plat.fuse = s.plat.fuse := rfl
@[simp] theorem resumeJob_fuse (s : State) : (resumeJob s).plat.fuse = s.plat.fuse := rfl
@[simp] theorem mend_fuse (now) (s : State) : (mend now s).plat.fuse = s.plat.fuse := by simp [mend]
@[simp] theorem putDev_fuse (pa d) (s : State) : (putDev pa d s).plat.fuse = s.plat.fuse := by simp [putDev]

/-! ### Issuing a word -/

@[simp] theorem checkBad_ends {N P} (s : State) (st l bit) (hN : Fused N s) :
    Ends (Halted N) P (checkBad s st l bit) ↔ ∀ a, checkBad s st l bit = .ok a → P a :=
  ends_iff (by
    unfold checkBad
    (repeat' split) <;> simp [hN.eq])

@[simp] theorem reachRdv_fuse (st safe jend w) (s : State) : (reachRdv st safe jend w s).plat.fuse = s.plat.fuse := rfl
@[simp] theorem issuedWord_fuse (st) (s : State) : (issuedWord st s).plat.fuse = s.plat.fuse := rfl

@[simp] theorem sqSectionEnd_fuse (a h) (s : State) : (sqSectionEnd a h s).plat.fuse = s.plat.fuse := by
  unfold sqSectionEnd
  dsimp only
  (repeat' split) <;> simp

@[simp] theorem advanceSq_fuse (s : State) : (advanceSq s).plat.fuse = s.plat.fuse := by
  unfold advanceSq
  split <;> simp

@[simp] theorem transfer_fuse (tgt) (s : State) : (transfer tgt s).plat.fuse = s.plat.fuse := by
  unfold transfer
  dsimp only
  (repeat' split) <;> simp

@[simp] theorem engAt_fuse (st n) (s : State) : (engAt st n s).plat.fuse = s.plat.fuse := rfl

theorem repeatN_fuse {f : State → State} (h : ∀ s, Fused s.plat.fuse (f s)) (n) (s : State) :
    (repeatN f n s).plat.fuse = s.plat.fuse := by
  induction n generalizing s with
  | zero => rfl
  | succ n ih => rw [repeatN, ih, h]

@[simp] theorem engineTo_fuse (st n) (s : State) : (engineTo st n s).plat.fuse = s.plat.fuse := by
  unfold engineTo
  dsimp only
  rw [engAt_fuse, onEng_fuse, repeatN_fuse fun _ => by simp]

@[simp] theorem advanceEng_fuse (st) (s : State) : (advanceEng st s).plat.fuse = s.plat.fuse := by simp [advanceEng]

@[simp] theorem advance_fuse (st) (s : State) : (advance st s).plat.fuse = s.plat.fuse := by
  unfold advance
  split <;> simp

@[simp] theorem stalled_fuse (st w) (s : State) : (stalled st w s).plat.fuse = s.plat.fuse := rfl

@[simp] theorem finish_keeps {n st x} : Keeps n (finish st x) ↔ Ends (Halted n) (fun s => s.plat.fuse = n) x := by
  unfold finish
  split <;> simp

@[simp] theorem word_keeps {n st p} {s : State} {body} (h : Fused n s) :
    Keeps n (word st p s body) ↔ (enabled s st p = true → Ends (Halted n) (fun s => s.plat.fuse = n) (body s)) := by
  simp [word, h.eq]

@[simp] theorem sideWord_keeps {n p} {s : State} {body} (h : Fused n s) :
    Keeps n (sideWord p s body) ↔ (enabled s .sq p = true → Ends (Halted n) (fun s => s.plat.fuse = n) (body s)) := by
  simp [sideWord, h.eq]

@[simp] theorem needRegs_ends {N P} (s : State) (l) (hN : Fused N s) :
    Ends (Halted N) P (needRegs s l) ↔ ∀ a, needRegs s l = .ok a → P a :=
  ends_iff (by simp [needRegs, hN.eq])

@[simp] theorem scalarWord_keeps (p d lat rs f) (s : State) : Keeps s.plat.fuse (scalarWord p d lat rs f s) := by
  simp [scalarWord]

@[simp] theorem predWord_keeps (p d rs f) (s : State) : Keeps s.plat.fuse (predWord p d rs f s) := by
  simp [predWord]

/-! ### Race stamps -/

@[simp] theorem spadStampIn_fuse (s : State) (q ph held a off len) :
    (spadStampIn s q ph held a off len).1.plat.fuse = s.plat.fuse := rfl

@[simp] theorem spadStamp_fuse (s : State) (q held a off len) :
    (spadStamp s q held a off len).1.plat.fuse = s.plat.fuse := rfl

@[simp] theorem devStamp_fuse (s : State) (q ph held a pa len) :
    (devStamp s q ph held a pa len).1.plat.fuse = s.plat.fuse := rfl

@[simp] theorem outsideAccess_fuse (q held raced a pa len) (s : State) :
    (outsideAccess q held raced a pa len s).1.plat.fuse = s.plat.fuse := rfl

@[simp] theorem gripSpad_fuse (a off len) (s : State) : (gripSpad a off len s).plat.fuse = s.plat.fuse := rfl

/-! ### Pages, the call sheet and the units' accesses -/

@[simp] theorem tlbTouch_fuse (e) (s : State) : (tlbTouch e s).plat.fuse = s.plat.fuse := rfl
@[simp] theorem pinOne_fuse (root p) (s : State) : (pinOne root p s).plat.fuse = s.plat.fuse := rfl
@[simp] theorem unpinOne_fuse (root p) (s : State) : (unpinOne root p s).plat.fuse = s.plat.fuse := rfl
@[simp] theorem pinAll_fuse (s : State) (l) : (pinAll s l).plat.fuse = s.plat.fuse := by simp [pinAll]
@[simp] theorem unpinAll_fuse (s : State) (l) : (unpinAll s l).plat.fuse = s.plat.fuse := by simp [unpinAll]
@[simp] theorem request_fuse (leave r) (s : State) : (request leave r s).plat.fuse = s.plat.fuse := rfl
@[simp] theorem settle_fuse (a) (s : State) : (settle a s).plat.fuse = s.plat.fuse := by simp [settle]

@[simp] theorem unitAsk_fuse (leave o a party phase held raced l next) (s : State) :
    (unitAsk leave o a party phase held raced l next s).plat.fuse = s.plat.fuse := by
  simp [unitAsk]

@[simp] theorem unitTake_fuse (next) (s : State) : (unitTake next s).2.plat.fuse = s.plat.fuse := by
  unfold unitTake
  split <;> simp

@[simp] theorem walkRead_fuse (leave x) (s : State) : (walkRead leave x s).plat.fuse = s.plat.fuse := rfl

@[simp] theorem walkWait_ends {α N P} (s : State) (w) (hN : Fused N s) :
    Ends (Halted N) P (walkWait s w : Except Halt α) := by
  simp [walkWait, hN.eq]

@[simp] theorem wordPage_ends {N P} (s : State) (st va acc) (hN : Fused N s) :
    Ends (Halted N) P (wordPage s st va acc) ↔ ∀ t a, wordPage s st va acc = .ok (t, a) → t.plat.fuse = N → P (t, a) :=
  ends_iff_with (by
    unfold wordPage
    (repeat' split) <;> simp [hN.eq])

@[simp] theorem rangePages_ends {N P} (st perms fuel) (s : State) (va stop_) (hN : Fused N s) :
    Ends (Halted N) P (rangePages st perms fuel s va stop_) ↔
      ∀ t a, rangePages st perms fuel s va stop_ = .ok (t, a) → t.plat.fuse = N → P (t, a) :=
  ends_iff_with (by
    induction fuel generalizing s va with
    | zero => exact hN
    | succ fuel ih =>
      unfold rangePages
      have hgo := fun t va (ht : Fused N t) => ends_iff_with (P := fun r => r.1.plat.fuse = N) (ih t va ht)
      rw [fused_iff] at hN
      split
      · exact hN
      · dsimp only
        (repeat' split) <;> simp [hN, hgo])

@[simp] theorem needPages_ends {N P} (s : State) (st va len perms) (hN : Fused N s) :
    Ends (Halted N) P (needPages s st va len perms) ↔
      ∀ t a, needPages s st va len perms = .ok (t, a) → t.plat.fuse = N → P (t, a) :=
  ends_iff_with (by simp [needPages, hN.eq])

/-! ### Landings and outtake rows -/

@[simp] theorem landPlane_fuse (p f) (s : State) : (landPlane p f s).plat.fuse = s.plat.fuse := by simp [landPlane]
@[simp] theorem slotState_fuse (o st) (s : State) : (slotState o st s).plat.fuse = s.plat.fuse := by simp [slotState]
@[simp] theorem setRow_fuse (r f) (s : State) : (setRow r f s).plat.fuse = s.plat.fuse := rfl

@[simp] theorem landEff_fuse (st sec) (s : State) (x3) : (landEff st sec s x3).plat.fuse = s.plat.fuse := by
  unfold landEff
  split <;> simp

@[simp] theorem landOne_fuse (s : State) (e) : (landOne s e).plat.fuse = s.plat.fuse := by simp [landOne]
@[simp] theorem landAll_fuse (s : State) : (landAll s).plat.fuse = s.plat.fuse := by simp [landAll]
@[simp] theorem landArray_fuse (s : State) : (landArray s).plat.fuse = s.plat.fuse := by simp [landArray]

/-! ### Banks, ports, slots and the ring -/

@[simp] theorem putSpad_fuse (a d) (s : State) : (putSpad a d s).plat.fuse = s.plat.fuse := by simp [putSpad]

@[simp] theorem checkSpad_ends {N P} (s : State) (st a n) (hN : Fused N s) :
    Ends (Halted N) P (checkSpad s st a n) ↔ ∀ r, checkSpad s st a n = .ok r → P r :=
  ends_iff (by
    unfold checkSpad
    split <;> simp [hN.eq])

@[simp] theorem setSticky_fuse (st ncr qx) (s : State) : (setSticky st ncr qx s).plat.fuse = s.plat.fuse := by
  simp [setSticky]

@[simp] theorem runStampBy_fuse (s : State) (q ph held a as w) :
    (runStampBy s q ph held a as w).1.plat.fuse = s.plat.fuse := by
  unfold runStampBy
  split
  · rfl
  · exact foldl_fst_fuse (fun s x => by split <;> simp) _ (s, none)

@[simp] theorem runStamp_fuse (s : State) (st a as w) : (runStamp s st a as w).1.plat.fuse = s.plat.fuse := by
  simp [runStamp]

@[simp] theorem grantRead_fuse (g) (s : State) : (grantRead g s).plat.fuse = s.plat.fuse := by
  unfold grantRead
  dsimp only
  split
  · rfl
  · split <;> simp [fst_fuse ‹_ = (_, _)›]

@[simp] theorem putConvs_fuse (w cs) (s : State) : (putConvs w cs s).plat.fuse = s.plat.fuse := by simp [putConvs]

@[simp] theorem grantWrite_fuse (g) (s : State) : (grantWrite g s).plat.fuse = s.plat.fuse := by
  unfold grantWrite
  dsimp only
  split
  · split <;> simp [fst_fuse ‹_ = (_, _)›]
  · rfl

@[simp] theorem grantSlotRd_fuse (st r) (s : State) : (grantSlotRd st r s).plat.fuse = s.plat.fuse := by
  unfold grantSlotRd
  dsimp only
  split <;> simp [fst_fuse ‹_ = (_, _)›]

@[simp] theorem grantSlotWr_fuse (w) (s : State) : (grantSlotWr w s).plat.fuse = s.plat.fuse := by
  unfold grantSlotWr
  extract_lets st t
  split
  next u bad h =>
  have hu : u.plat.fuse = t.plat.fuse := by
    refine (fst_fuse h).trans (foldl_fst_fuse (fun a p => ?_) _ _)
    rw [fused_iff]
    split
    · split <;> simp [fst_fuse ‹_ = (_, _)›]
    · rfl
  have ht : t.plat.fuse = s.plat.fuse := rfl
  split
  · simp [hu, ht]
  · dsimp only
    split <;> simp [hu, ht]

@[simp] theorem grantSpmove_fuse (s : State) : (grantSpmove s).plat.fuse = s.plat.fuse := by
  unfold grantSpmove
  split
  · rfl
  · extract_lets m n d
    split <;> simp [fst_fuse ‹_ = (_, _)›]

@[simp] theorem ringRound_fuse (s : State) : (ringRound s).plat.fuse = s.plat.fuse := by
  unfold ringRound
  extract_lets reqs banks wins ports wrote t u
  have ht : t.plat.fuse = s.plat.fuse := foldl_fuse (fun _ _ => by split <;> simp) _ s
  have hu : u.plat.fuse = s.plat.fuse := ht
  split <;> exact hu

@[simp] theorem badPort_ends {α N P} (s : State) (st g) (hN : Fused N s) :
    Ends (Halted N) P (badPort s st g : Except Halt α) := by
  simp [badPort, hN.eq]

@[simp] theorem badHandle_ends {α N P} (s : State) (st h) (hN : Fused N s) :
    Ends (Halted N) P (badHandle s st h : Except Halt α) := by
  simp [badHandle, hN.eq]

@[simp] theorem checkPortUse_ends {N P} (s : State) (st g wr n) (hN : Fused N s) :
    Ends (Halted N) P (checkPortUse s st g wr n) ↔ ∀ a, checkPortUse s st g wr n = .ok a → P a :=
  ends_iff (by simp [checkPortUse, hN.eq])

@[simp] theorem checkPort_ends {N P} (s : State) (st g wr n w k) (hN : Fused N s) :
    Ends (Halted N) P (checkPort s st g wr n w k) ↔ ∀ a, checkPort s st g wr n w k = .ok a → P a :=
  ends_iff (by
    unfold checkPort
    dsimp only
    (repeat' split) <;> simp [hN.eq])

@[simp] theorem checkPops_ends {N P} (s : State) (st g k) (hN : Fused N s) :
    Ends (Halted N) P (checkPops s st g k) ↔ ∀ r, checkPops s st g k = .ok r → P r :=
  ends_iff (by
    rw [fused_iff] at hN
    unfold checkPops
    split
    · trivial
    · rw [List.forM_eq_forM, ends_forM fun _ => by rw [List.forM_eq_forM, ends_forM fun _ => by simp [hN]]; simp]
      simp)

@[simp] theorem takeAhead_fuse (s : State) (g k) : (takeAhead s g k).plat.fuse = s.plat.fuse := by
  unfold takeAhead
  dsimp only
  (repeat' split) <;> simp

@[simp] theorem popPort_fuse (st g t rnd sat) (s : State) : (popPort st g t rnd sat s).1.plat.fuse = s.plat.fuse := by
  unfold popPort
  dsimp only
  (repeat' split) <;> simp

@[simp] theorem popRaw_fuse (g) (s : State) : (popRaw g s).1.plat.fuse = s.plat.fuse := by
  unfold popRaw
  split <;> simp

@[simp] theorem pushTake_fuse (g t rnd sat w) (s : State) : (pushTake g t rnd sat w s).1.plat.fuse = s.plat.fuse := by
  unfold pushTake
  dsimp only
  (repeat' split) <;> simp

@[simp] theorem waitPub_ends {N P} (s : State) (h) (hN : Fused N s) :
    Ends (Halted N) P (waitPub s h) ↔ ∀ a, waitPub s h = .ok a → P a :=
  ends_iff (by simp [waitPub, hN.eq])

@[simp] theorem checkSlot_ends {N P} (s : State) (st h i wr bytes) (hN : Fused N s) :
    Ends (Halted N) P (checkSlot s st h i wr bytes) ↔ ∀ a, checkSlot s st h i wr bytes = .ok a → P a :=
  ends_iff (by simp [checkSlot, hN.eq])

@[simp] theorem slotData_ends {N P} (s : State) (st l) (hN : Fused N s) :
    Ends (Halted N) P (slotData s st l) ↔ ∀ a, slotData s st l = .ok a → P a :=
  ends_iff (by simp [slotData, hN.eq])

@[simp] theorem acquireSlot_fuse (st h i) (s : State) : (acquireSlot st h i s).plat.fuse = s.plat.fuse := rfl
@[simp] theorem slotPut_fuse (st lat h i d) (s : State) : (slotPut st lat h i d s).plat.fuse = s.plat.fuse := rfl

/-! ### Operands of the wide engines -/

@[simp] theorem firstTouch_fuse (p) (s : State) : (firstTouch p s).1.plat.fuse = s.plat.fuse := by
  unfold firstTouch
  dsimp only
  (repeat' split) <;> simp

@[simp] theorem touchAll_ends {N P} (ps) (s : State) (hN : Fused N s) :
    Ends (Halted N) P (touchAll ps s) ↔ ∀ t, touchAll ps s = .ok t → t.plat.fuse = N → P t :=
  ends_iff_state (by simp [touchAll, hN.eq])

@[simp] theorem checkPlane_ends {N P} (s : State) (st p w) (hN : Fused N s) :
    Ends (Halted N) P (checkPlane s st p w) ↔ ∀ a, checkPlane s st p w = .ok a → P a :=
  ends_iff (by simp [checkPlane, hN.eq])

@[simp] theorem checkUses_ends {N P} (s : State) (st win us) (hN : Fused N s) :
    Ends (Halted N) P (checkUses s st win us) ↔ ∀ r, checkUses s st win us = .ok r → P r :=
  ends_iff (by
    rw [fused_iff] at hN
    unfold checkUses
    simp only [List.forM_eq_forM]
    rw [ends_bind, ends_forM fun x => by split <;> simp [hN]]
    intro _
    rw [ends_bind, ends_forM fun x => by split <;> simp [hN]]
    intro _
    rw [ends_forM fun x => by (repeat' split) <;> simp [hN]]
    simp)

@[simp] theorem waitUses_ends {N P} (s : State) (st us) (hN : Fused N s) :
    Ends (Halted N) P (waitUses s st us) ↔ ∀ r, waitUses s st us = .ok r → P r :=
  ends_iff (by
    rw [fused_iff] at hN
    unfold waitUses
    rw [List.forM_eq_forM, ends_bind, ends_forM fun x => by (repeat' split) <;> simp [hN]]
    intro _
    rw [ends_bind, slotData_ends _ _ _ hN]
    intro ds _
    rw [ends_bind, ends_forM fun x => by (repeat' split) <;> simp [hN]]
    intro _
    trivial)

@[simp] theorem readUses_fuse (st win rnd sat us bs) (s : State) :
    (readUses st win rnd sat us bs s).1.plat.fuse = s.plat.fuse := by
  induction us generalizing bs s with
  | nil => rfl
  | cons u us ih =>
    obtain ⟨u, n⟩ := u
    unfold readUses
    split
    · exact ih ..
    · split <;> simp [ih]

@[simp] theorem putResult_fuse (st lat d ty win rnd sat km lanes out) (s : State) :
    (putResult st lat d ty win rnd sat km lanes out s).plat.fuse = s.plat.fuse := by
  unfold putResult
  (repeat' split) <;> simp

@[simp] theorem elemWordL_keeps (st p lat d dty srcs x f) (s : State) :
    Keeps s.plat.fuse (elemWordL st p lat d dty srcs x f s) := by
  simp +contextual [elemWordL]

@[simp] theorem elemWord_keeps (st p lat d dty srcs x f) (s : State) :
    Keeps s.plat.fuse (elemWord st p lat d dty srcs x f s) := by
  simp [elemWord]

@[simp] theorem wholeWord_keeps (st p lat d dty srcs x f) (s : State) :
    Keeps s.plat.fuse (wholeWord st p lat d dty srcs x f s) := by
  simp +contextual [wholeWord]

/-! ### Synchronisation domains -/

@[simp] theorem putDom_fuse (d) (s : State) : (putDom d s).plat.fuse = s.plat.fuse := rfl
@[simp] theorem closeDom_fuse (lvl d) (s : State) : (closeDom lvl d s).plat.fuse = s.plat.fuse := by simp [closeDom]
@[simp] theorem arriveDom_fuse (lvl) (s : State) : (arriveDom lvl s).plat.fuse = s.plat.fuse := by simp [arriveDom]
@[simp] theorem addMember_fuse (d key) (s : State) : (addMember d key s).plat.fuse = s.plat.fuse := rfl

@[simp] theorem dropMember_fuse (lvl d key) (s : State) : (dropMember lvl d key s).plat.fuse = s.plat.fuse := by
  simp [dropMember]

@[simp] theorem joinDom_fuse (lvl) (s : State) : (joinDom lvl s).plat.fuse = s.plat.fuse := rfl
@[simp] theorem leaveDom_fuse (lvl) (s : State) : (leaveDom lvl s).plat.fuse = s.plat.fuse := by simp [leaveDom]

@[simp] theorem withPhase_fuse {f : State → State} (h : ∀ s, Fused s.plat.fuse (f s)) (s : State) :
    (withPhase f s).plat.fuse = s.plat.fuse := by
  simp only [fused_iff] at h
  simp [withPhase, h]

@[simp] theorem landReturn_fuse (iss e direct) (s : State) : (landReturn iss e direct s).plat.fuse = s.plat.fuse := by
  unfold landReturn
  split <;> simp

@[simp] theorem completeDom_fuse (lvl) (s : State) : (completeDom lvl s).plat.fuse = s.plat.fuse := by
  unfold completeDom
  dsimp only
  (repeat' split) <;> simp

/-! ### What the sequencer asks of device memory -/

@[simp] theorem checkAddr_ends {N P} (s : State) (st va size) (hN : Fused N s) :
    Ends (Halted N) P (checkAddr s st va size) ↔ ∀ a, checkAddr s st va size = .ok a → P a :=
  ends_iff (by simp [checkAddr, hN.eq])

@[simp] theorem checkStacks_ends {N P} (s : State) (st va len) (hN : Fused N s) :
    Ends (Halted N) P (checkStacks s st va len) ↔ ∀ a, checkStacks s st va len = .ok a → P a :=
  ends_iff (by
    unfold checkStacks
    split <;> simp [hN.eq])

@[simp] theorem checkRoute_ends {N P} (s : State) (ranks) (hN : Fused N s) :
    Ends (Halted N) P (checkRoute s ranks) ↔ ∀ a, checkRoute s ranks = .ok a → P a :=
  ends_iff (by simp [checkRoute, hN.eq])

@[simp] theorem waitRanges_ends {N P} (s : State) (st self va len) (hN : Fused N s) :
    Ends (Halted N) P (waitRanges s st self va len) ↔ ∀ a, waitRanges s st self va len = .ok a → P a :=
  ends_iff (by simp [waitRanges, hN.eq])

@[simp] theorem leaveCore_fuse (leave r) (s : State) : (leaveCore leave r s).plat.fuse = s.plat.fuse := by
  simp [leaveCore]

@[simp] theorem releaseHeld_fuse (s : State) : (releaseHeld s).plat.fuse = s.plat.fuse := by simp [releaseHeld]
@[simp] theorem arriveAt_fuse (at_ r) (s : State) : (arriveAt at_ r s).plat.fuse = s.plat.fuse := rfl

@[simp] theorem descAsk_fuse (st pages p) (s : State) : (descAsk st pages p s).plat.fuse = s.plat.fuse := by
  unfold descAsk
  split <;> simp

@[simp] theorem descRead_ends {N P} (s : State) (st va len) (hN : Fused N s) :
    Ends (Halted N) P (descRead s st va len) ↔ ∀ t a, descRead s st va len = .ok (t, a) → t.plat.fuse = N → P (t, a) :=
  ends_iff_with (by
    simp +contextual only [descRead, ends_bind, ends_ite, fused_iff, hN.eq, needPages_ends, foldl_fuse, ite_plat,
      ite_fuse, descAsk_fuse, ite_self, implies_true, ends_hold, if_true_right, waitRanges_ends, checkStacks_ends]
    intros
    split <;> simp +contextual [*])

@[simp] theorem atomSend_fuse (leave r) (s : State) : (atomSend leave r s).plat.fuse = s.plat.fuse := rfl

/-! ### Port, handle and move words -/

@[simp] theorem working_ends {α N P} (st m) (s : State) (w) (hN : Fused N s) :
    Ends (Halted N) P (working st m s w : Except Halt α) := by
  simp [working, hN.eq]

@[simp] theorem execPset_keeps (p g v) (s : State) : Keeps s.plat.fuse (execPset p g v s) := by
  simp +contextual only [execPset, fused_iff, word_keeps, ends_bind, ends_ite, working_ends, ends_waitFor, implies_true,
    slotData_ends, if_true_left, ends_check]
  intros
  split <;> simp +contextual [*]

@[simp] theorem execPrst_keeps (p g v) (s : State) : Keeps s.plat.fuse (execPrst p g v s) := by simp [execPrst]

@[simp] theorem handleWord_keeps {n st p} {s : State} {body} (h : Fused n s) :
    Keeps n (handleWord st p s body) ↔
      (enabled s st p = true → Ends (Halted n) (fun s => s.plat.fuse = n) (body s)) := by
  cases st <;> simp [handleWord, h.eq]

@[simp] theorem enterSb_fuse (e) (s : State) : (enterSb e s).plat.fuse = s.plat.fuse := rfl

@[simp] theorem execQinit_keeps (p h base sz depth prod cons) (s : State) :
    Keeps s.plat.fuse (execQinit p h base sz depth prod cons s) := by
  simp [execQinit]

@[simp] theorem checkRole_ends {N P} (s : State) (st h prod) (hN : Fused N s) :
    Ends (Halted N) P (checkRole s st h prod) ↔ ∀ a, checkRole s st h prod = .ok a → P a :=
  ends_iff (by simp [checkRole, hN.eq])

@[simp] theorem acquireSlots_fuse (st h n) (s : State) : (acquireSlots st h n s).plat.fuse = s.plat.fuse := by
  simp [acquireSlots]

@[simp] theorem execWaitf_keeps (p h n) (s : State) : Keeps s.plat.fuse (execWaitf p h n s) := by simp [execWaitf]
@[simp] theorem execWaite_keeps (p h n) (s : State) : Keeps s.plat.fuse (execWaite p h n s) := by simp [execWaite]
@[simp] theorem execAdvh_keeps (p h n) (s : State) : Keeps s.plat.fuse (execAdvh p h n s) := by simp [execAdvh]
@[simp] theorem execAdvt_keeps (p h n) (s : State) : Keeps s.plat.fuse (execAdvt p h n s) := by simp [execAdvt]

@[simp] theorem execLoop_keeps (p lvl cnt bl wa) (s : State) : Keeps s.plat.fuse (execLoop p lvl cnt bl wa s) := by
  simp [execLoop]

@[simp] theorem execBfmtw_keeps (p bank v) (s : State) : Keeps s.plat.fuse (execBfmtw p bank v s) := by simp [execBfmtw]

@[simp] theorem checkMove_ends {N P} (s : State) (h g n fill) (hN : Fused N s) :
    Ends (Halted N) P (checkMove s h g n fill) ↔ ∀ a, checkMove s h g n fill = .ok a → P a :=
  ends_iff (by simp [checkMove, hN.eq])

@[simp] theorem fillVector_fuse (h g k) (s : State) : (fillVector h g k s).plat.fuse = s.plat.fuse := by
  simp [fillVector]

@[simp] theorem execFill_step1_ends {N P} (h g n m) (s : State) (hN : Fused N s) :
    Ends (Halted N) P (execFill.step1 h g n m s) ↔ ∀ t, execFill.step1 h g n m s = .ok t → t.plat.fuse = N → P t :=
  ends_iff_state (by simp [execFill.step1, hN.eq])

@[simp] theorem execFill_keeps (p h g v) (s : State) : Keeps s.plat.fuse (execFill p h g v s) := by simp [execFill]

@[simp] theorem spillVector_fuse (h g k d) (s : State) : (spillVector h g k d s).plat.fuse = s.plat.fuse := by
  simp [spillVector]

@[simp] theorem execSpillq_step1_ends {N P} (h g n m) (s : State) (hN : Fused N s) :
    Ends (Halted N) P (execSpillq.step1 h g n m s) ↔ ∀ t, execSpillq.step1 h g n m s = .ok t → t.plat.fuse = N → P t :=
  ends_iff_state (by simp [execSpillq.step1, hN.eq])

@[simp] theorem execSpillq_keeps (p h g v) (s : State) : Keeps s.plat.fuse (execSpillq p h g v s) := by
  simp [execSpillq]

@[simp] theorem slotBegin_fuse (o t) (s : State) : (slotBegin o t s).plat.fuse = s.plat.fuse := by simp [slotBegin]

@[simp] theorem execOmld_step1_ends {N P} (o g rows t m) (s : State) (hN : Fused N s) :
    Ends (Halted N) P (execOmld.step1 o g rows t m s) ↔
      ∀ u, execOmld.step1 o g rows t m s = .ok u → u.plat.fuse = N → P u :=
  ends_iff_state (by simp [execOmld.step1, hN.eq])

@[simp] theorem execOmld_keeps (p o v) (s : State) : Keeps s.plat.fuse (execOmld p o v s) := by
  have hs := Fused.refl s
  refine (word_keeps hs).2 fun _ => ?_
  dsimp only
  split
  · exact ends_stop hs ..
  rw [ends_bind, ends_check hs]
  intro _
  rw [ends_bind, ends_check hs]
  intro _
  rw [ends_bind, ends_check hs]
  intro _
  split
  · rw [ends_bind, List.forM_eq_forM, ends_forM fun _ => by simp]
    intro _
    simp
  · simp

@[simp] theorem execSpmove_keeps (p v) (s : State) : Keeps s.plat.fuse (execSpmove p v s) := by simp [execSpmove]

@[simp] theorem execSendt_keeps (p g v) (s : State) : Keeps s.plat.fuse (execSendt p g v s) := by
  simp +contextual only [execSendt, fused_iff, word_keeps, ends_bind, checkPort_ends, ends_check]
  intros
  split <;> simp +contextual [*]

@[simp] theorem publishArrived_fuse (h n) (s : State) : (publishArrived h n s).plat.fuse = s.plat.fuse := by
  induction n generalizing s with
  | zero => rfl
  | succ n ih =>
    unfold publishArrived
    dsimp only
    split <;> simp [ih]

@[simp] theorem execSendtArrival_keeps (s : State) : Keeps s.plat.fuse (execSendtArrival s) := by
  refine onDue_keeps fun m s => ?_
  dsimp only
  (repeat' split) <;> simp

@[simp] theorem grantWon_keeps {f : Nat → State → State} (h : ∀ g s, Fused s.plat.fuse (f g s)) (wr) (s : State) :
    Keeps s.plat.fuse (grantWon wr f s) := by
  simp only [fused_iff] at h
  unfold grantWon
  split <;> simp [h]

@[simp] theorem execPortRunGrant_keeps (s : State) : Keeps s.plat.fuse (execPortRunGrant s) := by
  simp [execPortRunGrant]

@[simp] theorem execPortDrainRun_keeps (s : State) : Keeps s.plat.fuse (execPortDrainRun s) := by
  simp [execPortDrainRun]

/-! ### Instruction fetch -/

@[simp] theorem scTouch_fuse (l) (s : State) : (scTouch l s).plat.fuse = s.plat.fuse := rfl

@[simp] theorem askLine_fuse (st va line) (s : State) : (askLine st va line s).plat.fuse = s.plat.fuse := by
  simp [askLine]

@[simp] theorem scName_fuse (va l) (s : State) : (scName va l s).plat.fuse = s.plat.fuse := rfl

@[simp] theorem cachedBytes_ends {N P} (s : State) (st tr va n) (hN : Fused N s) :
    Ends (Halted N) P (cachedBytes s st tr va n) ↔
      ∀ t a, cachedBytes s st tr va n = .ok (t, a) → t.plat.fuse = N → P (t, a) :=
  ends_iff_with (by
    rw [fused_iff] at hN
    unfold cachedBytes
    dsimp only
    split
    · split
      · rw [ends_error, halted_trap, foldl_fuse (fun _ _ => by split <;> simp), hN]
      · rw [ends_ok, foldl_fuse (fun _ _ => by split <;> simp), hN]
    · exact ends_hold (fused_iff.2 ((foldl_fuse (fun _ _ => by simp) _ s).trans hN)) _)

@[simp] theorem sqPages_ends {N P} (s : State) (va n) (hN : Fused N s) :
    Ends (Halted N) P (sqPages s va n) ↔ ∀ t, sqPages s va n = .ok t → t.plat.fuse = N → P t :=
  ends_iff_state (by
    have hpage (t : State) (a : Nat) (ht : Fused N t) :=
      (wordPage_ends (P := fun r => r.1.plat.fuse = N) t .sq a .x ht).2 fun _ _ _ h => h
    unfold sqPages
    dsimp only
    rw [ends_bind, ends_iff_state (n := N)]
    · intro t _ ht
      rw [ends_ite]
      split
      · exact ht
      · have := hpage t (va + n - 1) ht
        split <;> simp_all
    · have := hpage s va hN
      split <;> simp_all)

@[simp] theorem sqFetch_ends {N P} (s : State) (va n) (hN : Fused N s) :
    Ends (Halted N) P (sqFetch s va n) ↔ ∀ t a, sqFetch s va n = .ok (t, a) → t.plat.fuse = N → P (t, a) :=
  ends_iff_with (by simp +contextual [sqFetch, hN.eq])

@[simp] theorem engFetch_ends {N P} (s : State) (st q va n) (hN : Fused N s) :
    Ends (Halted N) P (engFetch s st q va n) ↔ ∀ t a, engFetch s st q va n = .ok (t, a) → t.plat.fuse = N → P (t, a) :=
  ends_iff_with (by simp [engFetch, hN.eq])

@[simp] theorem sqWord_fetchIt_ends {N P} (s : State) (a i) (hN : Fused N s) :
    Ends (Halted N) P (sqWord.fetchIt s a i) ↔ ∀ t r, sqWord.fetchIt s a i = .ok (t, r) → t.plat.fuse = N → P (t, r) :=
  ends_iff_with (by simp [sqWord.fetchIt, hN.eq])

@[simp] theorem sqWord_ends {N P} (s : State) (a i) (hN : Fused N s) :
    Ends (Halted N) P (sqWord s a i) ↔ ∀ t r, sqWord s a i = .ok (t, r) → t.plat.fuse = N → P (t, r) :=
  ends_iff_with (by
    unfold sqWord
    (repeat' split) <;> simp [hN.eq])

@[simp] theorem fetchWords_ends {N P} (s : State) (st q i n) (hN : Fused N s) :
    Ends (Halted N) P (fetchWords s st q i n) ↔
      ∀ t a, fetchWords s st q i n = .ok (t, a) → t.plat.fuse = N → P (t, a) :=
  ends_iff_with (by simp [fetchWords, hN.eq])

@[simp] theorem engWord_ends {N P} (s : State) (st q i) (hN : Fused N s) :
    Ends (Halted N) P (engWord s st q i) ↔ ∀ t a, engWord s st q i = .ok (t, a) → t.plat.fuse = N → P (t, a) :=
  ends_iff_with (by
    unfold engWord
    split <;> simp [hN.eq])

@[simp] theorem prefetchTry_fuse (s : State) (i) : (prefetchTry s i).1.plat.fuse = s.plat.fuse := by
  unfold prefetchTry
  extract_lets a get
  have hget (t : State) (n : Nat) : (get t n).1.plat.fuse = t.plat.fuse := by
    have := (sqFetch_ends (P := fun r => r.1.plat.fuse = t.plat.fuse) t a n (.refl _)).2 fun _ _ _ h => h
    unfold get
    split <;> simp_all
  clear_value get
  split
  next h => simp [fst_fuse h, hget]
  next h => simp [fst_fuse h, hget]
  next h =>
    dsimp only
    split <;> simp [fst_fuse ‹_ = (_, _)›, hget, fst_fuse h]

@[simp] theorem prefetchStep_fuse (i) (s : State) : (prefetchStep i s).1.plat.fuse = s.plat.fuse := by
  unfold prefetchStep
  dsimp only
  split
  · split
    · rfl
    · split <;> simp [fst_fuse ‹_ = (_, _)›]
  · rfl

/-! ### Words over local and device memory -/

@[simp] theorem checkLdm_ends {N P} (s : State) (a n) (hN : Fused N s) :
    Ends (Halted N) P (checkLdm s a n) ↔ ∀ r, checkLdm s a n = .ok r → P r :=
  ends_iff (by simp [checkLdm, hN.eq])

@[simp] theorem readLdm_ends {N P} (s : State) (a n) (hN : Fused N s) :
    Ends (Halted N) P (readLdm s a n) ↔ ∀ r, readLdm s a n = .ok r → P r :=
  ends_iff (by simp [readLdm, hN.eq])

@[simp] theorem execLdl_keeps (p d a width sign imm) (s : State) :
    Keeps s.plat.fuse (execLdl p d a width sign imm s) := by
  simp [execLdl]

@[simp] theorem execStl_keeps (p a b width imm) (s : State) : Keeps s.plat.fuse (execStl p a b width imm s) := by
  simp [execStl]

@[simp] theorem execLd_keeps (p d a width sign imm) (s : State) :
    Keeps s.plat.fuse (execLd p d a width sign imm s) := by
  simp +contextual [execLd]

@[simp] theorem execSt_keeps (p a b width imm) (s : State) : Keeps s.plat.fuse (execSt p a b width imm s) := by
  simp +contextual [execSt]

@[simp] theorem atomPage_ends {N P} (s : State) (va write) (hN : Fused N s) :
    Ends (Halted N) P (atomPage s va write) ↔ ∀ t a, atomPage s va write = .ok (t, a) → t.plat.fuse = N → P (t, a) :=
  ends_iff_with (by simp +contextual [atomPage, hN.eq])

@[simp] theorem atomHold_ends {α N P} (s : State) (w) (hN : Fused N s) :
    Ends (Halted N) P (atomHold s w : Except Halt α) := by
  simp [atomHold, hN.eq]

@[simp] theorem amoWord_keeps (op p d a b c x) (s : State) : Keeps s.plat.fuse (amoWord op p d a b c x s) := by
  have hs := Fused.refl s
  refine (sideWord_keeps hs).2 fun _ => ?_
  dsimp only
  rw [ends_ite]
  split
  · simp only [ends_bind]; exact ends_hold hs _
  rw [ends_bind, needRegs_ends _ _ hs]
  intro _ _
  rw [ends_bind, checkAddr_ends _ _ _ _ hs]
  intro _ _
  rw [ends_bind, atomPage_ends _ _ _ hs]
  intro t pa _ ht
  rw [ends_bind, checkStacks_ends _ _ _ _ ht]
  intro _ _
  rw [ends_bind, waitRanges_ends _ _ _ _ _ ht]
  intro _ _
  split
  · rw [ends_bind, ends_waitFor ht]
    intro _
    rw [ends_bind, ends_waitFor ht]
    intro _
    split <;> simp [ht]
  · rw [ends_bind, ends_waitFor ht]
    intro _
    split <;> simp [ht]

@[simp] theorem execFence_keeps (p sc) (s : State) : Keeps s.plat.fuse (execFence p sc s) := by simp [execFence]

@[simp] theorem waitWord_keeps (k write p d a b n imm) (s : State) :
    Keeps s.plat.fuse (waitWord k write p d a b n imm s) := by
  simp +contextual [waitWord]

@[simp] theorem execSempost_keeps (p a b imm) (s : State) : Keeps s.plat.fuse (execSempost p a b imm s) := by
  simp +contextual [execSempost]

@[simp] theorem groupTable_ends {N P} (s : State) (st va) (hN : Fused N s) :
    Ends (Halted N) P (groupTable s st va) ↔ ∀ t a, groupTable s st va = .ok (t, a) → t.plat.fuse = N → P (t, a) :=
  ends_iff_with (by simp +contextual [groupTable, hN.eq])

@[simp] theorem execBarw_keeps (p d a lvl) (s : State) : Keeps s.plat.fuse (execBarw p d a lvl s) := by
  simp +contextual only [execBarw, fused_iff, sideWord_keeps]
  intros
  split <;> simp +contextual [*]

/-! ### Control words -/

@[simp] theorem prepare_fuse (i a) (s : State) : (prepare i a s).plat.fuse = s.plat.fuse := rfl
@[simp] theorem execPrep_keeps (p bt off) (s : State) : Keeps s.plat.fuse (execPrep p bt off s) := by simp [execPrep]
@[simp] theorem execPrepr_keeps (p bt src) (s : State) : Keeps s.plat.fuse (execPrepr p bt src s) := by simp [execPrepr]
@[simp] theorem unprepare_fuse (i) (s : State) : (unprepare i s).plat.fuse = s.plat.fuse := rfl
@[simp] theorem execBinv_keeps (p bt) (s : State) : Keeps s.plat.fuse (execBinv p bt s) := by simp [execBinv]

@[simp] theorem branch_keeps {f : State → State} (h : ∀ s, Fused s.plat.fuse (f s)) (p b) (s : State) :
    Keeps s.plat.fuse (branch p b f s) := by
  simp only [fused_iff] at h
  simp [branch, h]

@[simp] theorem execBr_keeps (p bt) (s : State) : Keeps s.plat.fuse (execBr p bt s) := by simp [execBr]
@[simp] theorem execBrl_keeps (p bt lb) (s : State) : Keeps s.plat.fuse (execBrl p bt lb s) := by simp [execBrl]

@[simp] theorem execBsel_keeps (p a b c d e) (s : State) : Keeps s.plat.fuse (execBsel p a b c d e s) := by
  simp +contextual only [execBsel, fused_iff, word_keeps, ends_bind, needRegs_ends]
  intros
  split
  · simp
  · simp only [ends_bind, fused_iff, readLdm_ends]
    split <;> simp

@[simp] theorem execNop_keeps (p) (s : State) : Keeps s.plat.fuse (execNop p s) := by simp [execNop]
@[simp] theorem scDrop_fuse (s : State) (lo hi all) : (scDrop s lo hi all).plat.fuse = s.plat.fuse := rfl
@[simp] theorem execIfence_keeps (p a b) (s : State) : Keeps s.plat.fuse (execIfence p a b s) := by simp [execIfence]

@[simp] theorem bindBlock_ends {N P} (s : State) (p n l) (hN : Fused N s) :
    Ends (Halted N) P (bindBlock s p n l) ↔ ∀ t a, bindBlock s p n l = .ok (t, a) → t.plat.fuse = N → P (t, a) :=
  ends_iff_with (by
    induction n generalizing s l with
    | zero => exact hN
    | succ n ih =>
      unfold bindBlock
      dsimp only
      split
      · exact ends_stop hN ..
      next e _ =>
      rw [ends_bind, ends_iff_with (n := N)]
      · intro t e' _ ht
        rw [ends_bind, ends_iff_with (ih t _ ht)]
        intro u es _ hu
        exact hu
      · rw [ends_ite]
        split
        · split
          · rw [ends_ite]
            split
            · exact ends_stop hN ..
            · exact hN
          · rw [ends_bind, needPages_ends _ _ _ _ _ hN]
            exact fun _ _ _ ht => ht
        · exact hN)

@[simp] theorem freeBinding_fuse (n) (s : State) : (freeBinding n s).plat.fuse = s.plat.fuse := by simp [freeBinding]

@[simp] theorem execTbind_keeps (p n preg) (s : State) : Keeps s.plat.fuse (execTbind p n preg s) := by
  simp +contextual only [execTbind, fused_iff, sideWord_keeps, ends_bind, descRead_ends, ends_check, needRegs_ends]
  intros
  split <;> simp +contextual [*]

@[simp] theorem execTfree_keeps (p n) (s : State) : Keeps s.plat.fuse (execTfree p n s) := by simp [execTfree]

@[simp] theorem issueAt_ends {N P} (st addr preg) (s : State) (hN : Fused N s) :
    Ends (Halted N) P (issueAt st addr preg s) ↔ ∀ t, issueAt st addr preg s = .ok t → t.plat.fuse = N → P t :=
  ends_iff_state (by
    unfold issueAt
    rw [ends_bind, ends_check hN]
    intro _
    rw [ends_bind, needPages_ends _ _ _ _ _ hN]
    intro t pg _ ht
    dsimp only
    rw [ends_bind, needPages_ends _ _ _ _ _ ht]
    intro u pages _ hu
    dsimp only
    split
    · exact ends_stop hu ..
    split
    · exact ends_stop hu ..
    rw [ends_bind, ends_iff_with (n := N)]
    · intro v tp _ hv
      dsimp only
      simp only [ends_bind, ends_waitFor hv, ends_ok]
      simp [hv]
    · rw [ends_ite]
      split
      · exact hu
      · rw [ends_bind, ends_check hu]
        intro _
        rw [ends_bind, descRead_ends _ _ _ _ hu]
        intro v l _ hv
        rw [bindBlock_ends _ _ _ _ hv]
        exact fun _ _ _ h => h)

@[simp] theorem execIssue_keeps (p e preg off) (s : State) : Keeps s.plat.fuse (execIssue p e preg off s) := by
  simp [execIssue]

@[simp] theorem execIssueReg_keeps (p e preg areg) (s : State) : Keeps s.plat.fuse (execIssueReg p e preg areg s) := by
  simp [execIssueReg]

@[simp] theorem rdvWord_keeps (jend p) (s : State) : Keeps s.plat.fuse (rdvWord jend p s) := by
  simp +contextual only [rdvWord, fused_iff, sideWord_keeps]
  intros
  split <;> simp +contextual [*]

@[simp] theorem execTrap_keeps (p code) (s : State) : Keeps s.plat.fuse (execTrap p code s) := by simp [execTrap]

@[simp] theorem guardWord_keeps (p b r v) (s : State) : Keeps s.plat.fuse (guardWord p b r v s) := by
  simp [guardWord]

@[simp] theorem execGuard_keeps (p a) (s : State) : Keeps s.plat.fuse (execGuard p a s) := by simp [execGuard]

@[simp] theorem execGuardHealth_keeps (p) (s : State) : Keeps s.plat.fuse (execGuardHealth p s) := by
  simp [execGuardHealth]

/-! ### The copy engine -/

@[simp] theorem setCopy_fuse (c) (s : State) : (setCopy c s).plat.fuse = s.plat.fuse := rfl
@[simp] theorem dropCopy_fuse (id) (s : State) : (dropCopy id s).plat.fuse = s.plat.fuse := rfl
@[simp] theorem onJobOf_fuse (id f) (s : State) : (onJobOf id f s).plat.fuse = s.plat.fuse := by simp [onJobOf]

@[simp] theorem completeToken_fuse (job tok status held) (s : State) :
    (completeToken job tok status held s).plat.fuse = s.plat.fuse := by
  simp [completeToken]

@[simp] theorem finishCopy_fuse (c status) (s : State) : (finishCopy c status s).plat.fuse = s.plat.fuse := by
  simp [finishCopy]

@[simp] theorem countHandle_fuse (h up) (s : State) : (countHandle h up s).plat.fuse = s.plat.fuse := rfl

@[simp] theorem releaseCopy_fuse (c) (s : State) : (releaseCopy c s).plat.fuse = s.plat.fuse := by
  unfold releaseCopy
  dsimp only
  rw [foldl_fuse (fun _ _ => by split <;> simp), foldl_fuse (fun _ _ => by split <;> simp), onCore_plat,
    foldl_fuse (fun _ _ => by simp)]

@[simp] theorem orphanWrites_fuse (c made) (s : State) : (orphanWrites c made s).plat.fuse = s.plat.fuse := rfl

@[simp] theorem failCopy_fuse (c code cause f2 f3 freeze made) (s : State) :
    (failCopy c code cause f2 f3 freeze made s).plat.fuse = s.plat.fuse := by
  unfold failCopy
  split <;> simp

@[simp] theorem startCopy_fuse (c) (s : State) : (startCopy c s).plat.fuse = s.plat.fuse := by
  unfold startCopy
  dsimp only
  (repeat' split) <;> simp

@[simp] theorem dueElse_keeps {α : Type} {s : State} {mine : Ev → Option α} {f : α → State → State} {g : State → State}
    (h : ∀ e x t, mine e = some x → Fused t.plat.fuse (f x t)) (hg : ∀ t, Fused t.plat.fuse (g t)) :
    Keeps s.plat.fuse (dueElse s mine f g) := by
  simp only [fused_iff] at h hg
  unfold dueElse
  split
  · split
    · split <;> simp [h _ _ _ ‹_›, hg]
    · simp [hg]
  · simp [hg]

@[simp] theorem dueThen_keeps {s : State} {mine : Ev → Option (State → State)}
    {g : State → Host.Outcome State Fault Refusal}
    (h : ∀ e f t, mine e = some f → Fused t.plat.fuse (f t)) (hg : ∀ t, Keeps t.plat.fuse (g t)) :
    Keeps s.plat.fuse (dueThen s mine g) := by
  simp only [fused_iff] at h
  unfold dueThen
  split
  · split
    · split <;> simp [h _ _ _ ‹_›, hg]
    · exact hg s
  · exact hg s

@[simp] theorem execCopyStart_keeps (s : State) : Keeps s.plat.fuse (execCopyStart s) := by
  refine dueElse_keeps (fun _ x t _ => by simp) fun s => ?_
  split <;> simp

@[simp] theorem askRead_fuse (s : State) : (askRead s).plat.fuse = s.plat.fuse := by
  unfold askRead
  (repeat' split) <;> simp

@[simp] theorem askWrite_fuse (s : State) : (askWrite s).plat.fuse = s.plat.fuse := by
  unfold askWrite
  (repeat' split) <;> simp

@[simp] theorem wroteRun_fuse (id) (s : State) : (wroteRun id s).plat.fuse = s.plat.fuse := by
  unfold wroteRun
  split <;> simp

@[simp] theorem landTile_fuse (id tile) (s : State) : (landTile id tile s).plat.fuse = s.plat.fuse := by
  unfold landTile
  (repeat' split) <;> simp

theorem requestDue_fuse {e f} (s : State) (h : requestDue e = some f) : (f s).plat.fuse = s.plat.fuse := by
  unfold requestDue at h
  split at h <;> cases h <;> simp

@[simp] theorem execCopyRequest_keeps (s : State) : Keeps s.plat.fuse (execCopyRequest s) := by
  refine dueElse_keeps (fun _ f t h => by simp [requestDue_fuse t h]) fun s => ?_
  simp

@[simp] theorem execCopyDataReturn_keeps (s : State) : Keeps s.plat.fuse (execCopyDataReturn s) := by
  refine onDue_keeps fun (id, l) s => ?_
  rw [fused_iff]
  dsimp only
  split
  · exact setCopy_fuse ..
  · rfl

@[simp] theorem putElems_fuse (els w) (s : State) : (putElems els w s).1.plat.fuse = s.plat.fuse := by simp [putElems]

@[simp] theorem copyDevStamp_fuse (s : State) (c acc pa len) :
    (copyDevStamp s c acc pa len).1.plat.fuse = s.plat.fuse := by
  unfold copyDevStamp
  split <;> simp

@[simp] theorem copySpadStamp_fuse (s : State) (c acc as w) :
    (copySpadStamp s c acc as w).1.plat.fuse = s.plat.fuse := by
  unfold copySpadStamp
  split <;> simp

@[simp] theorem ownWrite_fuse (c els w) (s : State) : (ownWrite c els w s).plat.fuse = s.plat.fuse := by simp [ownWrite]

@[simp] theorem grantOwn_fuse (r c) (s : State) : (grantOwn r c s).plat.fuse = s.plat.fuse := by
  unfold grantOwn
  dsimp only
  split
  · simp
  next h => simp [fst_fuse h]
  next h => split <;> simp [fst_fuse h]

@[simp] theorem keepForeign_fuse (r) (s : State) : (keepForeign r s).plat.fuse = s.plat.fuse := rfl

@[simp] theorem grantOther_fuse (r) (s : State) : (grantOther r s).plat.fuse = s.plat.fuse := by
  unfold grantOther
  dsimp only
  split
  · simp
  next h => simp [fst_fuse h]
  next h => split <;> simp [fst_fuse h]

@[simp] theorem extRound_fuse (s : State) : (extRound s).plat.fuse = s.plat.fuse := by
  unfold extRound
  rw [foldl_fuse]
  intro s r
  dsimp only
  rw [fused_iff]
  split
  · simp
  · split
    · simp
    · split <;> simp

@[simp] theorem copyReqStamp_fuse (s : State) (c e acc r) : (copyReqStamp s c e acc r).1.plat.fuse = s.plat.fuse :=
  foldl_fst_fuse (fun a p => by split <;> simp) _ (s, none)

@[simp] theorem copyRead_fuse (r id pos) (s : State) : (copyRead r id pos s).plat.fuse = s.plat.fuse := by
  unfold copyRead
  split
  · rfl
  · dsimp only
    split
    · simp
    · simp
    · split <;> simp [fst_fuse ‹_ = (_, _)›]

@[simp] theorem putBytes_fuse (l) (s : State) : (putBytes l s).plat.fuse = s.plat.fuse := by simp [putBytes]

@[simp] theorem copyWrite_fuse (r id parts) (s : State) : (copyWrite r id parts s).plat.fuse = s.plat.fuse := by
  unfold copyWrite
  split
  · split
    · rw [foldl_fuse fun _ _ => by simp, outsideAccess_fuse]
    · rfl
  dsimp only
  split
  · simp
  split <;> simp [fst_fuse ‹_ = (_, _)›]

@[simp] theorem passRangeId_fuse (id h) (s : State) : (passRangeId id h s).plat.fuse = s.plat.fuse := by
  simp [passRangeId]

@[simp] theorem passRange_fuse (c) (s : State) : (passRange c s).plat.fuse = s.plat.fuse := passRangeId_fuse ..
@[simp] theorem claimFrozen_fuse (o) (s : State) : (claimFrozen o s).plat.fuse = s.plat.fuse := by simp [claimFrozen]

@[simp] theorem retireCopy_fuse (c) (s : State) : (retireCopy c s).plat.fuse = s.plat.fuse := by
  unfold retireCopy
  (repeat' split) <;> simp

@[simp] theorem settleCopy_fuse (id) (s : State) : (settleCopy id s).plat.fuse = s.plat.fuse := by
  unfold settleCopy
  split <;> simp

theorem retireDue_fuse {e f} (s : State) (h : retireDue e = some f) : (f s).plat.fuse = s.plat.fuse := by
  unfold retireDue at h
  split at h <;> cases h
  · simp
  · dsimp only
    split <;> simp
  all_goals rfl

@[simp] theorem execCopyRetire_keeps (s : State) : Keeps s.plat.fuse (execCopyRetire s) := by
  refine dueElse_keeps (fun _ f t h => by simp [retireDue_fuse t h]) fun s => ?_
  split <;> simp

@[simp] theorem execCopyPostAck_keeps (s : State) : Keeps s.plat.fuse (execCopyPostAck s) := by
  refine onDue_keeps fun _ s => ?_
  (repeat' split) <;> simp

@[simp] theorem checkEnd_ends {N P} (s : State) (d src desc) (hN : Fused N s) :
    Ends (Halted N) P (checkEnd s d src desc) ↔
      ∀ t a, checkEnd s d src desc = .ok (t, a) → t.plat.fuse = N → P (t, a) :=
  ends_iff_with (by
    have hs := hN.eq
    unfold checkEnd
    dsimp only
    split
    · simp [hs]
    · simp [hs]
    · split <;> simp [hs]
    · simp [hs])

@[simp] theorem checkFow_ends {N P} (s : State) (d) (hN : Fused N s) :
    Ends (Halted N) P (checkFow s d) ↔ ∀ a, checkFow s d = .ok a → P a :=
  ends_iff (by
    unfold checkFow
    (repeat' split) <;> simp [hN.eq])

@[simp] theorem bindToken_fuse (t) (s : State) : (bindToken t s).plat.fuse = s.plat.fuse := rfl

@[simp] theorem pinHandle_fuse (e) (s : State) : (pinHandle e s).plat.fuse = s.plat.fuse := by
  unfold pinHandle
  split <;> simp

@[simp] theorem copyWord_keeps (ext p t preg sreg dreg) (s : State) :
    Keeps s.plat.fuse (copyWord ext p t preg sreg dreg s) := by
  simp +contextual only [copyWord, fused_iff, sideWord_keeps, ends_bind, descRead_ends, ends_check, needRegs_ends]
  intros
  split <;> simp +contextual [*]

@[simp] theorem joinToken_fuse (t) (s : State) : (joinToken t s).plat.fuse = s.plat.fuse := rfl
@[simp] theorem execCwait_keeps (p d t) (s : State) : Keeps s.plat.fuse (execCwait p d t s) := by simp [execCwait]
@[simp] theorem execCtest_keeps (p fd t) (s : State) : Keeps s.plat.fuse (execCtest p fd t s) := by simp [execCtest]

/-! ### Vector words -/

@[simp] theorem vx1_keeps (p v lat f) (s : State) : Keeps s.plat.fuse (vx1 p v lat f s) := by simp [vx1]
@[simp] theorem vx2_keeps (p v lat f) (s : State) : Keeps s.plat.fuse (vx2 p v lat f s) := by simp [vx2]
@[simp] theorem vx3_keeps (p v lat f) (s : State) : Keeps s.plat.fuse (vx3 p v lat f s) := by simp [vx3]

@[simp] theorem execVcvt_keeps (p v src b c) (s : State) : Keeps s.plat.fuse (execVcvt p v src b c s) := by
  simp [execVcvt]

@[simp] theorem execVcmp_keeps (p k a b x cc) (s : State) : Keeps s.plat.fuse (execVcmp p k a b x cc s) := by
  simp +contextual [execVcmp]

@[simp] theorem maskWord_keeps (p d f) (s : State) : Keeps s.plat.fuse (maskWord p d f s) := by
  simp [maskWord]

@[simp] theorem execVrotr_keeps (p v) (s : State) : Keeps s.plat.fuse (execVrotr p v s) := by simp [execVrotr]
@[simp] theorem execVrotc_keeps (p v) (s : State) : Keeps s.plat.fuse (execVrotc p v s) := by simp [execVrotc]

@[simp] theorem execVperm_keeps (p v) (s : State) : Keeps s.plat.fuse (execVperm p v s) := by
  simp +contextual [execVperm]

@[simp] theorem reduceWord_keeps (p v op lat n lanes) (s : State) :
    Keeps s.plat.fuse (reduceWord p v op lat n lanes s) := by
  simp [reduceWord]

@[simp] theorem execVcmprs_keeps (p v k) (s : State) : Keeps s.plat.fuse (execVcmprs p v k s) := by
  simp +contextual [execVcmprs]

@[simp] theorem execVexpnd_keeps (p v k) (s : State) : Keeps s.plat.fuse (execVexpnd p v k s) := by simp [execVexpnd]

@[simp] theorem execVpushc_keeps (p h a k x) (s : State) : Keeps s.plat.fuse (execVpushc p h a k x s) := by
  have hs := Fused.refl s
  refine (word_keeps hs).2 fun _ => ?_
  rw [ends_bind, ends_check hs]
  intro _
  dsimp only
  rw [ends_bind, touchAll_ends _ _ hs]
  intro t _ ht
  rw [ends_bind, checkUses_ends _ _ _ _ ht]
  intro _ _
  rw [ends_bind, waitPub_ends _ _ ht]
  intro _ _
  rw [ends_ite]
  split
  · simp only [ends_bind]; exact badHandle_ends _ _ _ ht
  rw [ends_ite]
  split
  · simp only [ends_bind]; exact badHandle_ends _ _ _ ht
  rw [ends_bind, ends_waitFor ht]
  intro _
  rw [ends_ok]
  simp [ht]

@[simp] theorem execVpopq_acquireSlots_fuse (n hn) (s : State) :
    (execVpopq.acquireSlots n hn s).plat.fuse = s.plat.fuse := by
  simp [execVpopq.acquireSlots]

@[simp] theorem execVpopq_keeps (p d h k x) (s : State) : Keeps s.plat.fuse (execVpopq p d h k x s) := by
  have hs := Fused.refl s
  refine (word_keeps hs).2 fun _ => ?_
  dsimp only
  rw [ends_bind, ends_check hs]
  intro _
  rw [ends_bind, touchAll_ends _ _ hs]
  intro t _ ht
  simp only [ends_bind, ends_ite, fused_iff, ht, checkUses_ends, waitPub_ends, badHandle_ends, if_true_left,
    ends_waitFor, slotData_ends]
  intros
  split <;> split <;> simp [ht]

@[simp] theorem execVflag_keeps (p k km) (s : State) : Keeps s.plat.fuse (execVflag p k km s) := by simp [execVflag]

@[simp] theorem execVsfck_keeps (p v hi cv) (s : State) : Keeps s.plat.fuse (execVsfck p v hi cv s) := by
  simp +contextual [execVsfck]

@[simp] theorem execWinset_keeps (p a) (s : State) : Keeps s.plat.fuse (execWinset p a s) := by simp [execWinset]
@[simp] theorem execWinadv_keeps (p n) (s : State) : Keeps s.plat.fuse (execWinadv p n s) := by simp [execWinadv]

@[simp] theorem shapeWord_keeps (p pl w v b) (s : State) : Keeps s.plat.fuse (shapeWord p pl w v b s) := by
  simp +contextual [shapeWord]

/-! ### The outtake stack -/

@[simp] theorem onOt_fuse (s : State) (f) : (State.onOt s f).plat.fuse = s.plat.fuse := rfl

@[simp] theorem forceSpill_ends {α N P} (s : State) (hN : Fused N s) :
    Ends (Halted N) P (forceSpill s : Except Halt α) := by
  simp [forceSpill, hN.eq]

@[simp] theorem makeRoom_ends {N P} (size) (s : State) (hN : Fused N s) :
    Ends (Halted N) P (makeRoom size s) ↔ ∀ a, makeRoom size s = .ok a → P a :=
  ends_iff (by simp [makeRoom, hN.eq])

@[simp] theorem topRec_ends {N P} (s : State) (hN : Fused N s) :
    Ends (Halted N) P (topRec s) ↔ ∀ a, topRec s = .ok a → P a :=
  ends_iff (by
    unfold topRec
    split <;> simp [hN.eq])

@[simp] theorem freeWords_fuse (n) (s : State) : (freeWords n s).1.plat.fuse = s.plat.fuse := by
  induction n generalizing s with
  | zero => rfl
  | succ n ih => simp [freeWords, ih]

@[simp] theorem otPushLater_fuse (cls sig n l) (s : State) : (otPushLater cls sig n l s).plat.fuse = s.plat.fuse := by
  simp [otPushLater]

@[simp] theorem keepWord_keeps (form var lat p d a b dty aty win f) (s : State) :
    Keeps s.plat.fuse (keepWord form var lat p d a b dty aty win f s) := by
  refine (word_keeps (.refl _)).2 fun _ => ?_
  dsimp only
  simp +contextual only [ends_bind, fused_iff, touchAll_ends, waitUses_ends, checkUses_ends, makeRoom_ends]
  intros
  split
  · simp [*]
  · split <;> simp [*]

@[simp] theorem execVmulk_keeps (p v) (s : State) : Keeps s.plat.fuse (execVmulk p v s) := by simp [execVmulk]
@[simp] theorem execVaddk_keeps (p v) (s : State) : Keeps s.plat.fuse (execVaddk p v s) := by simp [execVaddk]

@[simp] theorem execVcvtk_keeps (p v st) (s : State) : Keeps s.plat.fuse (execVcvtk p v st s) := by
  unfold execVcvtk
  split <;> simp

@[simp] theorem execVshrk_keeps (p v) (s : State) : Keeps s.plat.fuse (execVshrk p v s) := by simp [execVshrk]
@[simp] theorem execVlrelk_keeps (p v sh) (s : State) : Keeps s.plat.fuse (execVlrelk p v sh s) := by simp [execVlrelk]

@[simp] theorem undoWord_keeps (form var lat p d a b dty aty win f) (s : State) :
    Keeps s.plat.fuse (undoWord form var lat p d a b dty aty win f s) := by
  refine (word_keeps (.refl _)).2 fun _ => ?_
  dsimp only
  rw [ends_bind, touchAll_ends _ _ (.refl _)]
  intro t _ ht
  rw [ends_bind, checkUses_ends _ _ _ _ ht]
  intro _ _
  rw [ends_bind, waitUses_ends _ _ _ ht]
  intro bs _
  rw [ends_bind, ends_check ht]
  intro _
  rw [ends_bind, ends_check ht]
  intro _
  rw [ends_bind, topRec_ends _ ht]
  intro top _
  rw [ends_bind, ends_check ht]
  intro _
  rw [ends_bind, ends_check ht]
  intro _
  rw [ends_bind, ends_check ht]
  intro _
  split
  · simp [ht]
  · split <;> simp [ht]

@[simp] theorem execUnmulk_keeps (p v) (s : State) : Keeps s.plat.fuse (execUnmulk p v s) := by simp [execUnmulk]
@[simp] theorem execUnaddk_keeps (p v) (s : State) : Keeps s.plat.fuse (execUnaddk p v s) := by simp [execUnaddk]

@[simp] theorem execUncvtk_keeps (p v st) (s : State) : Keeps s.plat.fuse (execUncvtk p v st s) := by
  unfold execUncvtk
  split <;> simp

@[simp] theorem execUnshrk_keeps (p v) (s : State) : Keeps s.plat.fuse (execUnshrk p v s) := by simp [execUnshrk]

@[simp] theorem execUnlrelk_keeps (p v sh) (s : State) : Keeps s.plat.fuse (execUnlrelk p v sh s) := by
  simp [execUnlrelk]

@[simp] theorem execOtmark_keeps (p) (s : State) : Keeps s.plat.fuse (execOtmark p s) := by simp [execOtmark]
@[simp] theorem execOtdrop_keeps (p) (s : State) : Keeps s.plat.fuse (execOtdrop p s) := by simp [execOtdrop]

@[simp] theorem execOtspill_keeps (p n) (s : State) : Keeps s.plat.fuse (execOtspill p n s) := by
  have hs := Fused.refl s
  refine (word_keeps hs).2 fun _ => ?_
  dsimp only
  split
  · rw [ends_bind, ends_check hs]
    intro _
    simp only [pure_ok, ok_bind, ends_ite, ends_ok, setMicro_plat, if_true_left]
    intro _
    split <;> simp
  · simp only [pure_ok, ok_bind, ends_ite, ends_ok, if_true_left]
    intro _
    split <;> simp

@[simp] theorem execOtdepth_keeps (p sel) (s : State) : Keeps s.plat.fuse (execOtdepth p sel s) := by simp [execOtdepth]

@[simp] theorem execSpillStart_keeps (s : State) : Keeps s.plat.fuse (execSpillStart s) := by
  unfold execSpillStart
  (repeat' split) <;> simp

@[simp] theorem execSpillComplete_keeps (s : State) : Keeps s.plat.fuse (execSpillComplete s) := by
  simp [execSpillComplete]

@[simp] theorem execFillStart_keeps (s : State) : Keeps s.plat.fuse (execFillStart s) := by simp [execFillStart]
@[simp] theorem otLine_fuse (s : State) (acc k va d) : (otLine s acc k va d).plat.fuse = s.plat.fuse := rfl
@[simp] theorem otRest_fuse (s : State) : (otRest s).plat.fuse = s.plat.fuse := by simp [otRest]
@[simp] theorem otStall_fuse (va) (s : State) : (otStall va s).plat.fuse = s.plat.fuse := rfl

@[simp] theorem outtakeSend_fuse (s : State) : (outtakeSend s).plat.fuse = s.plat.fuse := by
  unfold outtakeSend
  (repeat' split) <;> simp

@[simp] theorem execFillTrailerCheck_keeps (s : State) : Keeps s.plat.fuse (execFillTrailerCheck s) := by
  refine onDue_keeps fun _ s => ?_
  (repeat' split) <;> simp

@[simp] theorem execFillComplete_keeps (s : State) : Keeps s.plat.fuse (execFillComplete s) := by
  refine onDue_keeps fun id s => ?_
  rw [fused_iff]
  split
  · split
    · rfl
    · exact onOt_fuse ..
  · rfl

@[simp] theorem otServed_fuse (back k pa d) (s : State) : (otServed back k pa d s).plat.fuse = s.plat.fuse := by
  unfold otServed
  dsimp only
  (repeat' split) <;> simp

/-! ### The statistics buffer -/

@[simp] theorem statCheck_ends {N P} (kinds rows) (s : State) (hN : Fused N s) :
    Ends (Halted N) P (statCheck kinds rows s) ↔ ∀ a, statCheck kinds rows s = .ok a → P a :=
  ends_iff (by
    unfold statCheck
    split <;> simp [hN.eq])

@[simp] theorem statWord_keeps (kind lat p a b x) (s : State) : Keeps s.plat.fuse (statWord kind lat p a b x s) := by
  simp +contextual [statWord]

@[simp] theorem rowWord_keeps (kind lat p d a b x f) (s : State) :
    Keeps s.plat.fuse (rowWord kind lat p d a b x f s) := by
  simp +contextual [rowWord]

@[simp] theorem tensorAt_ends {N P} (s : State) (st tp o len write) (hN : Fused N s) :
    Ends (Halted N) P (tensorAt s st tp o len write) ↔ ∀ a, tensorAt s st tp o len write = .ok a → P a :=
  ends_iff (by
    unfold tensorAt
    split <;> simp [hN.eq])

@[simp] theorem streamLines_fuse (st acc k leave va pages len d) (s : State) :
    (streamLines st acc k leave va pages len d s).plat.fuse = s.plat.fuse := by
  simp [streamLines]

@[simp] theorem rowRange_ends {N P} (s : State) (a b) (hN : Fused N s) :
    Ends (Halted N) P (rowRange s a b) ↔ ∀ r, rowRange s a b = .ok r → P r :=
  ends_iff (by simp [rowRange, hN.eq])

@[simp] theorem rowLines_ends {N P} (acc k a b c tp) (s : State) (hN : Fused N s) :
    Ends (Halted N) P (rowLines acc k a b c tp s) ↔ ∀ r, rowLines acc k a b c tp s = .ok r → P r :=
  ends_iff (by simp [rowLines, hN.eq])

@[simp] theorem execSbld_keeps (p a b c tp) (s : State) : Keeps s.plat.fuse (execSbld p a b c tp s) := by
  simp [execSbld]

@[simp] theorem execSbst_keeps (p a b c tp) (s : State) : Keeps s.plat.fuse (execSbst p a b c tp s) := by
  simp [execSbst]

@[simp] theorem rowServed_fuse (va done d) (s : State) : (rowServed va done d s).plat.fuse = s.plat.fuse := rfl
@[simp] theorem execSbclr_keeps (p a b) (s : State) : Keeps s.plat.fuse (execSbclr p a b s) := by simp [execSbclr]

/-! ### Store words -/

@[simp] theorem execSdrainDev_keeps (p a c tp x) (s : State) : Keeps s.plat.fuse (execSdrainDev p a c tp x s) := by
  simp [execSdrainDev]

@[simp] theorem execSnorm2_keeps (p a ty) (s : State) : Keeps s.plat.fuse (execSnorm2 p a ty s) := by simp [execSnorm2]
@[simp] theorem execSnorm2Clr_keeps (p) (s : State) : Keeps s.plat.fuse (execSnorm2Clr p s) := by simp [execSnorm2Clr]

@[simp] theorem pushLater_fuse (st lat g ty rnd sat l) (s : State) :
    (pushLater st lat g ty rnd sat l s).plat.fuse = s.plat.fuse := by
  simp [pushLater]

@[simp] theorem execOptw_keeps (p v adam wd n pb) (s : State) : Keeps s.plat.fuse (execOptw p v adam wd n pb s) := by
  simp [execOptw]

@[simp] theorem execOptstep_keeps (p n) (s : State) : Keeps s.plat.fuse (execOptstep p n s) := by simp [execOptstep]

/-! ### The stacks and the atomic engines at work -/

@[simp] theorem outsideRace_fuse (q a va r) (s : State) : (outsideRace q a va r s).plat.fuse = s.plat.fuse := by
  simp [outsideRace]

@[simp] theorem sendNotice_fuse (va pa) (s : State) : (sendNotice va pa s).plat.fuse = s.plat.fuse := rfl

@[simp] theorem plainWrite_fuse (va pa d) (s : State) : (plainWrite va pa d s).plat.fuse = s.plat.fuse := by
  simp [plainWrite]

@[simp] theorem plainWriteAll_fuse (pages va d) (s : State) : (plainWriteAll pages va d s).plat.fuse = s.plat.fuse :=
  foldl_fuse (fun s l => by split <;> simp) _ s

@[simp] theorem reqStamp_fuse (r) (s : State) : (reqStamp r s).1.plat.fuse = s.plat.fuse := rfl

@[simp] theorem serveStream_fuse {f : State → State} (hf : ∀ s, Fused s.plat.fuse (f s)) (r b op) (s : State) :
    (serveStream r b op f s).plat.fuse = s.plat.fuse := by
  simp only [fused_iff] at hf
  unfold serveStream
  split
  · simp
  next h => simp [hf, fst_fuse h]
  next h => simp [fst_fuse h]

@[simp] theorem applyWt_fuse (k n r) (s : State) : (applyWt k n r s).plat.fuse = s.plat.fuse := by simp [applyWt]

@[simp] theorem ackWt_fuse (r ack) (s : State) : (ackWt r ack s).plat.fuse = s.plat.fuse := by
  unfold ackWt
  split <;> simp

@[simp] theorem wtStamp_fuse (r src held) (s : State) : (wtStamp r src held s).1.plat.fuse = s.plat.fuse := by
  unfold wtStamp
  split <;> simp

@[simp] theorem wtRace_fuse (k r src x) (s : State) : (wtRace k r src x s).plat.fuse = s.plat.fuse := by
  unfold wtRace
  dsimp only
  (repeat' split) <;> simp

@[simp] theorem serveUnit_fuse (r id) (s : State) : (serveUnit r id s).plat.fuse = s.plat.fuse := by
  unfold serveUnit
  dsimp only
  (repeat' split) <;> simp

@[simp] theorem servePeer_fuse (r held) (s : State) : (servePeer r held s).plat.fuse = s.plat.fuse := by
  unfold servePeer
  dsimp only
  split <;> simp [fst_fuse ‹_ = (_, _)›]

@[simp] theorem serveReq_fuse (r) (s : State) : (serveReq r s).plat.fuse = s.plat.fuse := by
  unfold serveReq
  split
  case h_5 =>
    dsimp only
    split
    · simp
    · simp [fst_fuse ‹_ = (_, _)›]
    · simp [fst_fuse ‹_ = (_, _)›]
  case h_11 =>
    split
    · simp [fst_fuse ‹_ = (_, _)›]
    · split <;> simp [fst_fuse ‹_ = (_, _)›]
  all_goals simp

@[simp] theorem execStackSlotService_keeps (s : State) : Keeps s.plat.fuse (execStackSlotService s) := by
  simp [execStackSlotService]

@[simp] theorem execRefresh_keeps (s : State) : Keeps s.plat.fuse (execRefresh s) := by simp [execRefresh]

@[simp] theorem loadBack_fuse (r) (s : State) : (loadBack r s).plat.fuse = s.plat.fuse := by
  unfold loadBack
  dsimp only
  (repeat' split) <;> simp

@[simp] theorem descBack_fuse (st va len d f) (s : State) : (descBack st va len d f s).plat.fuse = s.plat.fuse := rfl

@[simp] theorem execLoadReturn_keeps (s : State) : Keeps s.plat.fuse (execLoadReturn s) := by
  refine onDue_keeps_of fun e f t h => ?_
  split at h <;> cases h <;> simp

@[simp] theorem execDeferredFaultReport_keeps (s : State) : Keeps s.plat.fuse (execDeferredFaultReport s) := by
  simp [execDeferredFaultReport]

@[simp] theorem onAtom_fuse (k f) (s : State) : (onAtom k f s).plat.fuse = s.plat.fuse := rfl

@[simp] theorem atomArrive_fuse (a) (s : State) : (atomArrive a s).plat.fuse = s.plat.fuse := by
  unfold atomArrive
  rw [foldl_fuse]
  intro s k
  dsimp only
  split <;> simp

@[simp] theorem atomStamp_fuse (r rel write) (s : State) : (atomStamp r rel write s).1.plat.fuse = s.plat.fuse := by
  unfold atomStamp
  (repeat' split) <;> simp

@[simp] theorem atomFault_fuse (k r code f2 f3) (s : State) : (atomFault k r code f2 f3 s).plat.fuse = s.plat.fuse := by
  unfold atomFault
  (repeat' split) <;> simp

@[simp] theorem atomRace_fuse (k r x write) (s : State) : (atomRace k r x write s).plat.fuse = s.plat.fuse := by
  unfold atomRace
  (repeat' split) <;> simp

@[simp] theorem writeThrough_fuse (k r d) (s : State) : (writeThrough k r d s).plat.fuse = s.plat.fuse := by
  simp [writeThrough]

@[simp] theorem atomAnswer_fuse (k r v acq) (s : State) : (atomAnswer k r v acq s).plat.fuse = s.plat.fuse := by
  unfold atomAnswer
  split <;> simp

@[simp] theorem atomOp_fuse (k r d) (s : State) : (atomOp k r d s).1.plat.fuse = s.plat.fuse := by
  unfold atomOp
  dsimp only
  split
  · simp
  · split <;> simp [fst_fuse ‹_ = (_, _)›]
  next new v _ _ =>
    have hstamp : (if engineTests r new.isSome then atomStamp r (relSet (atomAt s k) (r.pa / 64)) new.isSome s
        else (s, none)).1.plat.fuse = s.plat.fuse := by
      simp [apply_ite Prod.fst]
    split
    next h => simp [(fst_fuse h).trans hstamp]
    next h =>
      have ht := (fst_fuse h).trans hstamp
      split <;> simp [ht]

@[simp] theorem serveAtom_fuse (k r d) (s : State) : (serveAtom k r d s).1.plat.fuse = s.plat.fuse := by
  simp [serveAtom]

@[simp] theorem atomTake_fuse (k) (s : State) : (atomTake k s).plat.fuse = s.plat.fuse := by
  unfold atomTake
  dsimp only
  (repeat' split) <;> simp

@[simp] theorem execAtomicRequestService_keeps (s : State) : Keeps s.plat.fuse (execAtomicRequestService s) := by
  refine dueElse_keeps (fun _ _ _ _ => by simp) fun s => ?_
  split <;> simp

@[simp] theorem execAtomicFillReturn_keeps (s : State) : Keeps s.plat.fuse (execAtomicFillReturn s) := by
  refine onDue_keeps fun _ s => ?_
  (repeat' split) <;> simp

@[simp] theorem execPlainWriteNotice_keeps (s : State) : Keeps s.plat.fuse (execPlainWriteNotice s) := by
  simp [execPlainWriteNotice]

@[simp] theorem execWatchEvaluation_keeps (s : State) : Keeps s.plat.fuse (execWatchEvaluation s) := by
  simp [execWatchEvaluation]

@[simp] theorem execAtomicReturn_keeps (s : State) : Keeps s.plat.fuse (execAtomicReturn s) := by
  refine onDue_keeps fun r s => ?_
  rw [fused_iff]
  split
  · extract_lets reg mine t u
    have ht : t.plat.fuse = s.plat.fuse := by unfold t; split <;> rfl
    split <;> simp [u, ht]
  all_goals simp

@[simp] theorem execSempostAck_keeps (s : State) : Keeps s.plat.fuse (execSempostAck s) := by
  refine onDue_keeps fun _ s => ?_
  (repeat' split) <;> simp

/-! ### Phase changes and packets -/

@[simp] theorem sendPacket_fuse (ty vc dst gid body data) (s : State) :
    (sendPacket ty vc dst gid body data s).plat.fuse = s.plat.fuse := rfl

@[simp] theorem discardPacket_fuse (s : State) : (discardPacket s).plat.fuse = s.plat.fuse := rfl

@[simp] theorem withPacket_fuse {f : State → State} (h : ∀ s, Fused s.plat.fuse (f s)) (k ty) (s : State) :
    (withPacket k ty f s).plat.fuse = s.plat.fuse := by
  simp only [fused_iff] at h
  simp [withPacket, h]

@[simp] theorem finishDom_fuse (lvl inst) (s : State) : (finishDom lvl inst s).plat.fuse = s.plat.fuse := by
  unfold finishDom
  (repeat' split) <;> simp

@[simp] theorem startRound_fuse (d) (s : State) : (startRound d s).plat.fuse = s.plat.fuse := rfl

@[simp] theorem gangRound_fuse (d) (s : State) : (gangRound d s).plat.fuse = s.plat.fuse := by
  unfold gangRound
  (repeat' split) <;> simp

@[simp] theorem domDue_fuse (lvl inst) (s : State) : (domDue lvl inst s).plat.fuse = s.plat.fuse := by
  unfold domDue
  split <;> simp

@[simp] theorem execPhaseChangeComplete_keeps (s : State) : Keeps s.plat.fuse (execPhaseChangeComplete s) := by
  refine onDue_keeps fun _ s => ?_
  (repeat' split) <;> simp

@[simp] theorem execBarrierPacketArrival_keeps (s : State) : Keeps s.plat.fuse (execBarrierPacketArrival s) := by
  refine onDue_keeps fun k s => fused_iff.2 (withPacket_fuse (fun s => ?_) k 4 s)
  rw [fused_iff]
  split
  · rfl
  · dsimp only
    split <;> simp

/-! ### Collectives and one-sided writes -/

@[simp] theorem reducerAsk_fuse (core held a l next) (s : State) :
    (reducerAsk core held a l next s).plat.fuse = s.plat.fuse := by
  simp [reducerAsk]

@[simp] theorem endOperation_fuse (rid root job tok party pages status held) (s : State) :
    (endOperation rid root job tok party pages status held s).plat.fuse = s.plat.fuse := by
  simp [endOperation]

@[simp] theorem setColl_fuse (c) (s : State) : (setColl c s).plat.fuse = s.plat.fuse := rfl
@[simp] theorem againColl_fuse (c) (s : State) : (againColl c s).plat.fuse = s.plat.fuse := rfl
@[simp] theorem tellAbort_fuse (gid num cause) (s : State) : (tellAbort gid num cause s).plat.fuse = s.plat.fuse := rfl
@[simp] theorem endColl_fuse (c status) (s : State) : (endColl c status s).plat.fuse = s.plat.fuse := by simp [endColl]
@[simp] theorem stopColl_fuse (c cause) (s : State) : (stopColl c cause s).plat.fuse = s.plat.fuse := by simp [stopColl]

@[simp] theorem abortColl_fuse (c cause) (s : State) : (abortColl c cause s).plat.fuse = s.plat.fuse := by
  simp [abortColl]

@[simp] theorem sendXfer_fuse (c x) (s : State) : (sendXfer c x s).plat.fuse = s.plat.fuse := by simp [sendXfer]
@[simp] theorem sendItv_fuse (c) (s : State) : (sendItv c s).plat.fuse = s.plat.fuse := by simp [sendItv]
@[simp] theorem closeItv_fuse (c) (s : State) : (closeItv c s).1.plat.fuse = s.plat.fuse := by simp [closeItv]
@[simp] theorem collAsk_fuse (c a l) (s : State) : (collAsk c a l s).plat.fuse = s.plat.fuse := by simp [collAsk]

@[simp] theorem outputColl_fuse (c) (s : State) : (outputColl c s).plat.fuse = s.plat.fuse := by
  unfold outputColl
  split <;> simp

@[simp] theorem nextItv_fuse (c) (s : State) : (nextItv c s).plat.fuse = s.plat.fuse := by simp [nextItv]

@[simp] theorem servedColl_fuse (c x) (s : State) : (servedColl c x s).plat.fuse = s.plat.fuse := by
  unfold servedColl
  dsimp only
  (repeat' split) <;> simp

@[simp] theorem actColl_fuse (c) (s : State) : (actColl c s).plat.fuse = s.plat.fuse := by
  unfold actColl
  dsimp only
  split <;> simp [snd_fuse ‹_ = (_, _)›]

@[simp] theorem execReductionIntervalClose_keeps (s : State) : Keeps s.plat.fuse (execReductionIntervalClose s) := by
  refine onDue_keeps fun _ s => ?_
  (repeat' split) <;> simp

@[simp] theorem completeColl_fuse (c) (s : State) : (completeColl c s).plat.fuse = s.plat.fuse := by
  unfold completeColl
  dsimp only
  split <;> simp [snd_fuse ‹_ = (_, _)›]

@[simp] theorem otherCoreOp_fuse (gid core kind enter) (s : State) :
    (otherCoreOp gid core kind enter s).plat.fuse = s.plat.fuse := by
  simp [otherCoreOp]

@[simp] theorem execCollectiveComplete_keeps (s : State) : Keeps s.plat.fuse (execCollectiveComplete s) := by
  refine onDue_keeps fun e s => ?_
  rw [fused_iff]
  split
  · split <;> simp
  · simp

@[simp] theorem dropRecs_fuse (gid num) (s : State) : (dropRecs gid num s).plat.fuse = s.plat.fuse := rfl

@[simp] theorem execReducePacketArrival_keeps (s : State) : Keeps s.plat.fuse (execReducePacketArrival s) := by
  refine onDue_keeps fun (k, r) s => fused_iff.2 (withPacket_fuse (fun s => ?_) k 3 s)
  rw [fused_iff]
  split
  · simp
  · rfl

@[simp] theorem ownTable_ends {N P} (s : State) (va) (hN : Fused N s) :
    Ends (Halted N) P (ownTable s va) ↔ ∀ t a, ownTable s va = .ok (t, a) → t.plat.fuse = N → P (t, a) :=
  ends_iff_with (by simp +contextual [ownTable, hN.eq])

@[simp] theorem needAll_ends {N P} (s : State) (l) (hN : Fused N s) :
    Ends (Halted N) P (needAll s l) ↔ ∀ t a, needAll s l = .ok (t, a) → t.plat.fuse = N → P (t, a) :=
  ends_iff_with (by
    induction l generalizing s with
    | nil => exact hN
    | cons x l ih =>
      obtain ⟨va, len, p⟩ := x
      rw [needAll, ends_bind, needPages_ends _ _ _ _ _ hN]
      intro t a _ ht
      rw [ends_bind, ends_iff_with (ih t ht)]
      intro u b _ hu
      exact hu)

@[simp] theorem collChecks_ends {N P} (preg) (s : State) (hN : Fused N s) :
    Ends (Halted N) P (collChecks preg s) ↔ ∀ t a, collChecks preg s = .ok (t, a) → t.plat.fuse = N → P (t, a) :=
  ends_iff_with (by
    simp +contextual only [collChecks, ends_bind, fused_iff, hN.eq, descRead_ends, ends_check, needRegs_ends]
    intros
    split <;> simp +contextual [*])

@[simp] theorem takeNumber_fuse (gid) (s : State) : (takeNumber gid s).2.plat.fuse = s.plat.fuse := rfl
@[simp] theorem enterRanges_fuse (rid l) (s : State) : (enterRanges rid l s).plat.fuse = s.plat.fuse := rfl

@[simp] theorem startColl_fuse (tok r t rank pages) (s : State) :
    (startColl tok r t rank pages s).plat.fuse = s.plat.fuse := by
  simp [startColl]

@[simp] theorem execColl_keeps (p t preg) (s : State) : Keeps s.plat.fuse (execColl p t preg s) := by
  simp +contextual [execColl]

@[simp] theorem execCollq_keeps (p d preg) (s : State) : Keeps s.plat.fuse (execCollq p d preg s) := by simp [execCollq]

@[simp] theorem remChecks_ends {N P} (sig preg) (s : State) (hN : Fused N s) :
    Ends (Halted N) P (remChecks sig preg s) ↔ ∀ t a, remChecks sig preg s = .ok (t, a) → t.plat.fuse = N → P (t, a) :=
  ends_iff_with (by
    simp +contextual only [remChecks, ends_bind, fused_iff, hN.eq, descRead_ends, ends_check, needRegs_ends]
    intros
    split <;> simp +contextual [*])

@[simp] theorem addRemote_fuse (m) (s : State) : (addRemote m s).plat.fuse = s.plat.fuse := rfl
@[simp] theorem setRemote_fuse (m) (s : State) : (setRemote m s).plat.fuse = s.plat.fuse := rfl
@[simp] theorem sendSignals_fuse (s : State) : (sendSignals s).plat.fuse = s.plat.fuse := by simp [sendSignals]

@[simp] theorem wrremSend_fuse (m x) (s : State) : (wrremSend m x s).plat.fuse = s.plat.fuse := by
  unfold wrremSend
  split <;> simp

@[simp] theorem wrremAct_fuse (id) (s : State) : (wrremAct id s).plat.fuse = s.plat.fuse := by
  unfold wrremAct
  split
  · rfl
  · split <;> simp [snd_fuse ‹_ = (_, _)›]

@[simp] theorem startWrrem_fuse (tok r t pages) (s : State) : (startWrrem tok r t pages s).plat.fuse = s.plat.fuse := by
  simp [startWrrem]

@[simp] theorem execWrrem_keeps (p t preg) (s : State) : Keeps s.plat.fuse (execWrrem p t preg s) := by
  simp +contextual [execWrrem]

@[simp] theorem execSigrem_keeps (p preg) (s : State) : Keeps s.plat.fuse (execSigrem p preg s) := by
  simp +contextual [execSigrem]

@[simp] theorem repAck_fuse (id) (s : State) : (repAck id s).plat.fuse = s.plat.fuse := by
  unfold repAck
  split <;> simp

@[simp] theorem takeAck_fuse (id ok) (s : State) : (takeAck id ok s).plat.fuse = s.plat.fuse := by
  unfold takeAck
  (repeat' split) <;> simp

@[simp] theorem execAckPacketArrival_keeps (s : State) : Keeps s.plat.fuse (execAckPacketArrival s) := by
  simp [execAckPacketArrival]

@[simp] theorem wrremCheck_fuse (k id doff len) (s : State) :
    (wrremCheck k id doff len s).plat.fuse = s.plat.fuse := rfl

@[simp] theorem wrremWrite_fuse (k id doff) (s : State) : (wrremWrite k id doff s).plat.fuse = s.plat.fuse := by
  unfold wrremWrite
  (repeat' split) <;> simp

@[simp] theorem execWritePacketArrival_keeps (s : State) : Keeps s.plat.fuse (execWritePacketArrival s) := by
  refine onDue_keeps fun e s => ?_
  rw [fused_iff]
  split
  · simp
  · split <;> simp [snd_fuse ‹_ = (_, _)›]

@[simp] theorem execSignalPacketArrival_keeps (s : State) : Keeps s.plat.fuse (execSignalPacketArrival s) := by
  refine onDue_keeps fun k s => fused_iff.2 (withPacket_fuse (fun s => ?_) k 2 s)
  rw [fused_iff]
  dsimp only
  split
  · simp
  · split <;> simp

/-! ### REPART -/

@[simp] theorem setRep_fuse (c) (s : State) : (setRep c s).plat.fuse = s.plat.fuse := rfl
@[simp] theorem repAgain_fuse (ev) (s : State) : (repAgain ev s).plat.fuse = s.plat.fuse := rfl
@[simp] theorem endRep_fuse (c status) (s : State) : (endRep c status s).plat.fuse = s.plat.fuse := by simp [endRep]
@[simp] theorem stopRep_fuse (c cause) (s : State) : (stopRep c cause s).plat.fuse = s.plat.fuse := by simp [stopRep]
@[simp] theorem abortRep_fuse (c cause) (s : State) : (abortRep c cause s).plat.fuse = s.plat.fuse := by simp [abortRep]

@[simp] theorem execRepart_keeps (p t preg) (s : State) : Keeps s.plat.fuse (execRepart p t preg s) := by
  simp +contextual only [execRepart, fused_iff, sideWord_keeps, ends_bind, descRead_ends, ownTable_ends, ends_check,
    needRegs_ends]
  intros
  split <;> simp +contextual [*]

@[simp] theorem repAsk_fuse (c o a l next) (s : State) : (repAsk c o a l next s).plat.fuse = s.plat.fuse := by
  simp [repAsk]

@[simp] theorem publishCounts_fuse (c) (s : State) : (publishCounts c s).plat.fuse = s.plat.fuse := by
  simp [publishCounts]

@[simp] theorem sendHist_fuse (c) (s : State) : (sendHist c s).plat.fuse = s.plat.fuse := by simp [sendHist]

@[simp] theorem keyElems_fuse (c x) (s : State) : (keyElems c x s).plat.fuse = s.plat.fuse := by
  unfold keyElems
  dsimp only
  (repeat' split) <;> simp

@[simp] theorem keyRound_fuse (c) (s : State) : (keyRound c s).plat.fuse = s.plat.fuse := by
  unfold keyRound
  split <;> simp [snd_fuse ‹_ = (_, _)›]

@[simp] theorem execKeyRound_keeps (s : State) : Keeps s.plat.fuse (execKeyRound s) := by
  refine onDue_keeps fun _ s => ?_
  (repeat' split) <;> simp

@[simp] theorem reduceHists_fuse (c others) (s : State) : (reduceHists c others s).plat.fuse = s.plat.fuse := by
  simp [reduceHists]

@[simp] theorem execHistogramReduction_keeps (s : State) : Keeps s.plat.fuse (execHistogramReduction s) := by
  refine onDue_keeps fun _ s => ?_
  (repeat' split) <;> simp

@[simp] theorem sendMoves_fuse (c others m) (s : State) : (sendMoves c others m s).1.plat.fuse = s.plat.fuse := by
  simp [sendMoves]

@[simp] theorem startMove_fuse (c others x) (s : State) : (startMove c others x s).plat.fuse = s.plat.fuse := by
  simp [startMove]

@[simp] theorem movedPart_fuse (c others x) (s : State) : (movedPart c others x s).plat.fuse = s.plat.fuse := by
  unfold movedPart
  dsimp only
  (repeat' split) <;> simp

@[simp] theorem moveElements_fuse (c others) (s : State) : (moveElements c others s).plat.fuse = s.plat.fuse := by
  unfold moveElements
  split <;> simp [snd_fuse ‹_ = (_, _)›]

@[simp] theorem execElementMove_keeps (s : State) : Keeps s.plat.fuse (execElementMove s) := by
  refine onDue_keeps fun _ s => ?_
  (repeat' split) <;> simp

@[simp] theorem spoilRep_fuse (c) (s : State) : (spoilRep c s).plat.fuse = s.plat.fuse := by simp [spoilRep]

@[simp] theorem completeRep_fuse (c) (s : State) : (completeRep c s).plat.fuse = s.plat.fuse := by
  unfold completeRep
  dsimp only
  split <;> simp [snd_fuse ‹_ = (_, _)›]

@[simp] theorem execRepartComplete_keeps (s : State) : Keeps s.plat.fuse (execRepartComplete s) := by
  refine onDue_keeps fun _ s => ?_
  (repeat' split) <;> simp

@[simp] theorem execRepartAbort_keeps (s : State) : Keeps s.plat.fuse (execRepartAbort s) := by
  refine onDue_keeps fun _ s => ?_
  (repeat' split) <;> simp

@[simp] theorem memberRecord_fuse (gid num key) (s : State) : (memberRecord gid num key s).plat.fuse = s.plat.fuse := by
  unfold memberRecord
  split <;> simp

@[simp] theorem execCollectiveAbort_keeps (s : State) : Keeps s.plat.fuse (execCollectiveAbort s) := by
  refine onDue_keeps fun _ s => ?_
  (repeat' split) <;> simp

/-! ### Queues, packets, tasks and placement -/

@[simp] theorem onCoreQ_fuse (c f) (s : State) : (onCoreQ c f s).plat.fuse = s.plat.fuse := rfl
@[simp] theorem onQueue_fuse (q f) (s : State) : (onQueue q f s).plat.fuse = s.plat.fuse := rfl
@[simp] theorem onSlot_fuse (n f) (s : State) : (onSlot n f s).plat.fuse = s.plat.fuse := rfl
@[simp] theorem setTask_fuse (t) (s : State) : (setTask t s).plat.fuse = s.plat.fuse := rfl
@[simp] theorem dropTask_fuse (id) (s : State) : (dropTask id s).plat.fuse = s.plat.fuse := rfl
@[simp] theorem setGraph_fuse (x) (s : State) : (setGraph x s).plat.fuse = s.plat.fuse := rfl

@[simp] theorem gripAsk_fuse (leave a l next) (s : State) : (gripAsk leave a l next s).plat.fuse = s.plat.fuse := by
  simp [gripAsk]

@[simp] theorem gripAtom_fuse (src k va pa b) (s : State) : (gripAtom src k va pa b s).plat.fuse = s.plat.fuse := rfl

@[simp] theorem threadAsk_fuse (q va len) (s : State) : (threadAsk q va len s).plat.fuse = s.plat.fuse := by
  unfold threadAsk
  split <;> simp

@[simp] theorem threadRead_fuse (q) (s : State) : (threadRead q s).plat.fuse = s.plat.fuse := by
  unfold threadRead
  split <;> simp [snd_fuse ‹_ = (_, _)›]

@[simp] theorem stopQueue_fuse (q code seq) (s : State) : (stopQueue q code seq s).plat.fuse = s.plat.fuse := rfl
@[simp] theorem setPacket_fuse (q p) (s : State) : (setPacket q p s).plat.fuse = s.plat.fuse := rfl

@[simp] theorem packetDone_fuse (q pk fault) (s : State) : (packetDone q pk fault s).plat.fuse = s.plat.fuse := by
  unfold packetDone
  split <;> simp

@[simp] theorem oweWrite_fuse (q) (s : State) : (oweWrite q s).plat.fuse = s.plat.fuse := rfl

@[simp] theorem execPacketComplete_keeps (s : State) : Keeps s.plat.fuse (execPacketComplete s) := by
  refine onDue_keeps fun (q, pk) s => ?_
  rw [fused_iff]
  dsimp only
  split
  · rfl
  split
  · simp
  · split <;> simp

@[simp] theorem passHead_fuse (q) (s : State) : (passHead q s).plat.fuse = s.plat.fuse := rfl
@[simp] theorem refusePacket_fuse (q l code) (s : State) : (refusePacket q l code s).plat.fuse = s.plat.fuse := rfl

@[simp] theorem acceptPacket_fuse (q l left) (s : State) : (acceptPacket q l left s).1.plat.fuse = s.plat.fuse := by
  simp [acceptPacket]

@[simp] theorem startPacket_keeps {f} (h : ∀ q l s, Ends (fun _ => True)
    (fun t : State => t.plat.fuse = s.plat.fuse) (f q l s)) (ty) (s : State) :
    Keeps s.plat.fuse (startPacket ty f s) := by
  unfold startPacket
  split
  · rfl
  next q _ =>
  split
  · simp
  · rfl
  next l _ =>
  dsimp only
  split
  · split
    · simp
    · have hb := h q l s
      split <;> simp_all
  · rfl

@[simp] theorem placeJobs_fuse (t cores held guards gm) (s : State) :
    (placeJobs t cores held guards gm s).plat.fuse = s.plat.fuse := by
  simp [placeJobs]

@[simp] theorem nextEpoch_fuse (s : State) : (nextEpoch s).2.plat.fuse = s.plat.fuse := rfl

/-! ### Graphs and the reel store -/

@[simp] theorem onSet_fuse (slate f) (s : State) : (onSet slate f s).plat.fuse = s.plat.fuse := rfl
@[simp] theorem dropSet_fuse (slate) (s : State) : (dropSet slate s).plat.fuse = s.plat.fuse := rfl

@[simp] theorem lookUp_fuse (g) (s : State) : (lookUp g s).plat.fuse = s.plat.fuse := by
  unfold lookUp
  (repeat' split) <;> simp

@[simp] theorem evictFor_fuse (n sets fuel) (s : State) : (evictFor n sets fuel s).1.plat.fuse = s.plat.fuse := by
  induction fuel generalizing s with
  | zero => rfl
  | succ fuel ih =>
    unfold evictFor
    split
    · rfl
    · dsimp only
      split <;> simp [ih]

@[simp] theorem storeSpace_fuse (n sets) (s : State) : (storeSpace n sets s).1.plat.fuse = s.plat.fuse := by
  simp [storeSpace]

@[simp] theorem growRec_fuse (gid) (s : State) : (growRec gid s).plat.fuse = s.plat.fuse := by
  unfold growRec
  split
  · rfl
  dsimp only
  split
  · rfl
  split <;> simp [fst_fuse ‹_ = (_, _)›]

@[simp] theorem sendPieces_fuse (gid all) (s : State) : (sendPieces gid all s).plat.fuse = s.plat.fuse := by
  unfold sendPieces
  split <;> simp

@[simp] theorem fileSet_fuse (g) (s : State) : (fileSet g s).plat.fuse = s.plat.fuse := by
  unfold fileSet
  extract_lets close t
  have ht : t.plat.fuse = s.plat.fuse := by simp [t]
  split
  · exact ht
  next g _ =>
    have h : (if g.lost then (t, false) else storeSpace 0 1 (dropSet g.slate t)).1.plat.fuse = s.plat.fuse := by
      simp [apply_ite Prod.fst, ht]
    generalize (if g.lost then (t, false) else storeSpace 0 1 (dropSet g.slate t)) = u at h ⊢
    obtain ⟨u, _ | _⟩ := u
    · exact h
    · simpa using h

@[simp] theorem reelStored_fuse (slate) (s : State) : (reelStored slate s).plat.fuse = s.plat.fuse := by
  simp [reelStored]

@[simp] theorem clearTensor_fuse (g t o) (s : State) : (clearTensor g t o s).plat.fuse = s.plat.fuse := by
  unfold clearTensor
  split <;> simp

@[simp] theorem startRun_fuse (g cores alloc) (s : State) : (startRun g cores alloc s).plat.fuse = s.plat.fuse := by
  unfold startRun
  dsimp only
  (repeat' split) <;> simp

@[simp] theorem reelReady_fuse (gid) (s : State) : (reelReady gid s).plat.fuse = s.plat.fuse := by
  unfold reelReady
  dsimp only
  (repeat' split) <;> simp

@[simp] theorem placeGTask_fuse (gid i cores guards) (s : State) :
    (placeGTask gid i cores guards s).plat.fuse = s.plat.fuse := by
  unfold placeGTask
  (repeat' split) <;> simp

@[simp] theorem placeGCopy_fuse (gid i) (s : State) : (placeGCopy gid i s).plat.fuse = s.plat.fuse := by
  unfold placeGCopy
  (repeat' split) <;> simp

@[simp] theorem addSegment_fuse (gid core copy l) (s : State) :
    (addSegment gid core copy l s).plat.fuse = s.plat.fuse := by
  unfold addSegment
  split <;> simp

@[simp] theorem reelPost_fuse (gid sem) (s : State) : (reelPost gid sem s).plat.fuse = s.plat.fuse := by
  unfold reelPost
  (repeat' split) <;> simp

@[simp] theorem reelPosted_fuse (gid sem) (s : State) : (reelPosted gid sem s).plat.fuse = s.plat.fuse := by
  unfold reelPosted
  split <;> simp

@[simp] theorem gjobEnded_fuse (gid i core parties) (s : State) :
    (gjobEnded gid i core parties s).plat.fuse = s.plat.fuse := by
  unfold gjobEnded
  split <;> simp

@[simp] theorem withdraw_fuse (gid) (s : State) : (withdraw gid s).plat.fuse = s.plat.fuse := by
  unfold withdraw
  dsimp only
  (repeat' split) <;> simp

@[simp] theorem gtaskFailed_fuse (gid i) (s : State) : (gtaskFailed gid i s).plat.fuse = s.plat.fuse := by
  unfold gtaskFailed
  split <;> simp

@[simp] theorem gtaskEnded_fuse (gid i) (s : State) : (gtaskEnded gid i s).plat.fuse = s.plat.fuse := by
  unfold gtaskEnded
  split <;> simp

@[simp] theorem writeDailies_fuse (g) (s : State) : (writeDailies g s).plat.fuse = s.plat.fuse := rfl

@[simp] theorem slotFreed_fuse (n) (s : State) : (slotFreed n s).plat.fuse = s.plat.fuse := by
  unfold slotFreed
  dsimp only
  (repeat' split) <;> simp

@[simp] theorem slotLeave_fuse (n) (s : State) : (slotLeave n s).plat.fuse = s.plat.fuse := by simp [slotLeave]

@[simp] theorem finishRun_fuse (g) (s : State) : (finishRun g s).plat.fuse = s.plat.fuse := by
  unfold finishRun
  (repeat' split) <;> simp

@[simp] theorem taskJobEnded_fuse (id core j fault parties guards) (s : State) :
    (taskJobEnded id core j fault parties guards s).plat.fuse = s.plat.fuse := by
  unfold taskJobEnded
  dsimp only
  (repeat' split) <;> simp

/-! ### Dispatch of graphs, replay, cuts and gangs -/

@[simp] theorem execFloorDispatch_keeps (s : State) : Keeps s.plat.fuse (execFloorDispatch s) := by
  unfold execFloorDispatch
  split
  · rfl
  split
  · rfl
  dsimp only
  split
  · simp
  split
  · simp
  · split <;> simp

@[simp] theorem reelAct_keeps {f : Graph → Nat → ReelRec → State → State} (h : ∀ g i r s, Fused s.plat.fuse
    (f g i r s)) (mine) (s : State) :
    Keeps s.plat.fuse (reelAct mine f s) := by
  simp only [fused_iff] at h
  unfold reelAct
  split <;> simp [h]

@[simp] theorem execReelSemwait_keeps (s : State) : Keeps s.plat.fuse (execReelSemwait s) := by simp [execReelSemwait]

@[simp] theorem execReelLaunch_keeps (s : State) : Keeps s.plat.fuse (execReelLaunch s) := by
  refine reelAct_keeps (fun g i r s => ?_) _ s
  rw [fused_iff]
  split
  · simp
  · rfl

@[simp] theorem execReelCopy_keeps (s : State) : Keeps s.plat.fuse (execReelCopy s) := by
  refine reelAct_keeps (fun g i r s => ?_) _ s
  rw [fused_iff]
  split <;> simp

@[simp] theorem execReelGuard_keeps (s : State) : Keeps s.plat.fuse (execReelGuard s) := by simp [execReelGuard]

@[simp] theorem execReelSempost_keeps (s : State) : Keeps s.plat.fuse (execReelSempost s) := by
  refine reelAct_keeps (fun g i r s => ?_) _ s
  rw [fused_iff]
  split
  · dsimp only
    (repeat' split) <;> simp
  · rfl

@[simp] theorem execReelMark_keeps (s : State) : Keeps s.plat.fuse (execReelMark s) := by simp [execReelMark]
@[simp] theorem execReelEnd_keeps (s : State) : Keeps s.plat.fuse (execReelEnd s) := by simp [execReelEnd]

@[simp] theorem execCutMake_keeps (s : State) : Keeps s.plat.fuse (execCutMake s) := by
  refine onDue_keeps_of fun e f t h => ?_
  split at h <;> cases h <;> simp

@[simp] theorem castVote_fuse (g) (s : State) : (castVote g s).plat.fuse = s.plat.fuse := by simp [castVote]

@[simp] theorem applyDecision_fuse (gid d) (s : State) : (applyDecision gid d s).plat.fuse = s.plat.fuse := by
  unfold applyDecision
  split <;> simp

@[simp] theorem execGangDecision_keeps (s : State) : Keeps s.plat.fuse (execGangDecision s) := by
  unfold execGangDecision
  extract_lets t
  have ht : t.plat = s.plat := by
    unfold t
    split
    · exact (ite_plat ..).trans (ite_self _)
    · rfl
  split <;> simp [ht]

@[simp] theorem execManagementPacketArrival_keeps (s : State) : Keeps s.plat.fuse (execManagementPacketArrival s) := by
  refine onDue_keeps fun _ s => ?_
  (repeat' split) <;> simp

@[simp] theorem guardFailed_fuse (g task health) (s : State) :
    (guardFailed g task health s).plat.fuse = s.plat.fuse := by
  unfold guardFailed
  dsimp only
  (repeat' split) <;> simp

/-! ### Jobs: release, end, check points, saves, resumption -/

@[simp] theorem enrol_fuse (t levels core) (s : State) : (enrol t levels core s).plat.fuse = s.plat.fuse := by
  unfold enrol
  split <;> simp

@[simp] theorem startJob_fuse (l) (s : State) : (startJob l s).plat.fuse = s.plat.fuse := rfl

@[simp] theorem execJobRelease_keeps (s : State) : Keeps s.plat.fuse (execJobRelease s) := by
  unfold execJobRelease
  split
  · rfl
  · rw [keeps_next, foldl_fuse]
    · dsimp only
      split
      · split <;> simp
      · simp
    · intro s c
      dsimp only
      split
      · split <;> simp
      · simp

@[simp] theorem dropWatches_fuse (s : State) : (dropWatches s).plat.fuse = s.plat.fuse := rfl

@[simp] theorem leaveLevels_fuse (core task gid levels) (s : State) :
    (leaveLevels core task gid levels s).plat.fuse = s.plat.fuse := by
  unfold leaveLevels
  dsimp only
  split <;> exact foldl_fuse (fun s l => by (repeat' split) <;> simp) _ s

@[simp] theorem flushPort_fuse (s : State) (g) : (flushPort s g).plat.fuse = s.plat.fuse := by simp [flushPort]

@[simp] theorem flushWrites_fuse (s : State) : (flushWrites s).plat.fuse = s.plat.fuse := by
  simp [flushWrites]

@[simp] theorem clearJob_fuse (s : State) : (clearJob s).plat.fuse = s.plat.fuse := by simp [clearJob]

@[simp] theorem freeCore_fuse (core task) (s : State) : (freeCore core task s).plat.fuse = s.plat.fuse := by
  simp [freeCore]

@[simp] theorem endJob_fuse (s : State) : (endJob s).plat.fuse = s.plat.fuse := by simp [endJob]

@[simp] theorem endPeer_fuse (core fault guards held) (s : State) :
    (endPeer core fault guards held s).plat.fuse = s.plat.fuse := by
  unfold endPeer
  split <;> simp

@[simp] theorem reportFreeze_fuse (core f) (s : State) : (reportFreeze core f s).plat.fuse = s.plat.fuse := by
  unfold reportFreeze
  dsimp only
  (repeat' split) <;> simp

@[simp] theorem freezeReport_fuse (s : State) : (freezeReport s).plat.fuse = s.plat.fuse := by
  unfold freezeReport
  split <;> simp

@[simp] theorem execJobEnd_keeps (s : State) : Keeps s.plat.fuse (execJobEnd s) := by
  refine dueElse_keeps (fun e f t h => ?_) fun s => by simp
  split at h <;> cases h <;> simp

@[simp] theorem stopTask_fuse (t health) (s : State) : (stopTask t health s).plat.fuse = s.plat.fuse := by
  unfold stopTask
  dsimp only
  (repeat' split) <;> simp

@[simp] theorem arriveCheck_fuse (id j bad) (s : State) : (arriveCheck id j bad s).plat.fuse = s.plat.fuse := by
  unfold arriveCheck
  (repeat' split) <;> simp

@[simp] theorem checksPassed_fuse (t) (s : State) : (checksPassed t s).plat.fuse = s.plat.fuse := by
  unfold checksPassed
  dsimp only
  (repeat' split) <;> simp

@[simp] theorem execCheckPoint_keeps (s : State) : Keeps s.plat.fuse (execCheckPoint s) := by
  refine dueElse_keeps (fun e f t h => ?_) fun s => ?_
  · split at h <;> cases h
    simp
  · rw [fused_iff]
    split
    · split <;> simp
    · split
      · dsimp only
        split
        · split <;> simp
        · simp
      · rfl

@[simp] theorem execWatchdogExpiry_keeps (s : State) : Keeps s.plat.fuse (execWatchdogExpiry s) := by
  unfold execWatchdogExpiry
  split <;> simp

@[simp] theorem askPreempt_fuse (core) (s : State) : (askPreempt core s).plat.fuse = s.plat.fuse := by simp [askPreempt]

@[simp] theorem execPreemptionRequest_keeps (s : State) : Keeps s.plat.fuse (execPreemptionRequest s) := by
  refine onDue_keeps fun _ s => ?_
  (repeat' split) <;> simp

@[simp] theorem corePreempted_fuse (core task) (s : State) : (corePreempted core task s).plat.fuse = s.plat.fuse := by
  simp [corePreempted]

@[simp] theorem saveJob_fuse (s : State) : (saveJob s).plat.fuse = s.plat.fuse := by simp [saveJob]

@[simp] theorem execSafePointSave_keeps (s : State) : Keeps s.plat.fuse (execSafePointSave s) := by
  refine dueElse_keeps (fun _ c t _ => ?_) fun s => by simp
  rw [fused_iff]
  split <;> simp

@[simp] theorem placeResumption_fuse (core) (s : State) : (placeResumption core s).plat.fuse = s.plat.fuse := by
  unfold placeResumption
  dsimp only
  (repeat' split) <;> simp

@[simp] theorem orderResumption_fuse (core) (s : State) : (orderResumption core s).plat.fuse = s.plat.fuse := by
  unfold orderResumption
  dsimp only
  (repeat' split) <;> simp

@[simp] theorem restoreJob_fuse (x) (s : State) : (restoreJob x s).plat.fuse = s.plat.fuse := by simp [restoreJob]
@[simp] theorem resumeFrozen_fuse (s : State) : (resumeFrozen s).plat.fuse = s.plat.fuse := by simp [resumeFrozen]

@[simp] theorem execJobResumption_keeps (s : State) : Keeps s.plat.fuse (execJobResumption s) := by
  unfold execJobResumption
  (repeat' split) <;> simp

/-! ### Packets of the queues -/

@[simp] theorem takeSlot_fuse (n) (s : State) : (takeSlot n s).plat.fuse = s.plat.fuse := rfl
@[simp] theorem addTask_fuse (t) (s : State) : (addTask t s).plat.fuse = s.plat.fuse := rfl

@[simp] theorem invoke_ends {P} (q l) (s : State) :
    Ends (fun _ => True) P (invoke q l s) ↔ ∀ t, invoke q l s = .ok t → t.plat.fuse = s.plat.fuse → P t :=
  ends_iff_state (by
    simp only [invoke, ends_bind_unchecked]
    intros
    split <;> simp)

@[simp] theorem execInvoke_keeps (s : State) : Keeps s.plat.fuse (execInvoke s) := by simp [execInvoke]

@[simp] theorem waitPacket_ends {P} (q l) (s : State) :
    Ends (fun _ => True) P (waitPacket q l s) ↔ ∀ t, waitPacket q l s = .ok t → t.plat.fuse = s.plat.fuse → P t :=
  ends_iff_state (by simp [waitPacket])

@[simp] theorem execWait_keeps (s : State) : Keeps s.plat.fuse (execWait s) := by simp [execWait]

@[simp] theorem signalPacket_ends {P} (q l) (s : State) :
    Ends (fun _ => True) P (signalPacket q l s) ↔ ∀ t, signalPacket q l s = .ok t → t.plat.fuse = s.plat.fuse → P t :=
  ends_iff_state (by simp [signalPacket])

@[simp] theorem execSignal_keeps (s : State) : Keeps s.plat.fuse (execSignal s) := by simp [execSignal]

@[simp] theorem gripAcked_fuse (a) (s : State) : (gripAcked a s).plat.fuse = s.plat.fuse := by
  unfold gripAcked
  split <;> simp

@[simp] theorem loadslot_ends {P} (q l) (s : State) :
    Ends (fun _ => True) P (loadslot q l s) ↔ ∀ t, loadslot q l s = .ok t → t.plat.fuse = s.plat.fuse → P t :=
  ends_iff_state (by simp [loadslot])

@[simp] theorem execLoadslot_keeps (s : State) : Keeps s.plat.fuse (execLoadslot s) := by simp [execLoadslot]

@[simp] theorem evictslot_ends {P} (q l) (s : State) :
    Ends (fun _ => True) P (evictslot q l s) ↔ ∀ t, evictslot q l s = .ok t → t.plat.fuse = s.plat.fuse → P t :=
  ends_iff_state (by simp [evictslot])

@[simp] theorem execEvictslot_keeps (s : State) : Keeps s.plat.fuse (execEvictslot s) := by simp [execEvictslot]

@[simp] theorem preemptPacket_ends {P} (q l) (s : State) :
    Ends (fun _ => True) P (preemptPacket q l s) ↔ ∀ t, preemptPacket q l s = .ok t → t.plat.fuse = s.plat.fuse → P t :=
  ends_iff_state (by
    simp +contextual only [preemptPacket, ends_bind_unchecked]
    intros
    split <;> simp +contextual [*])

@[simp] theorem execPreempt_keeps (s : State) : Keeps s.plat.fuse (execPreempt s) := by simp [execPreempt]

@[simp] theorem checkpointPacket_ends {P} (q l) (s : State) :
    Ends (fun _ => True) P (checkpointPacket q l s) ↔
      ∀ t, checkpointPacket q l s = .ok t → t.plat.fuse = s.plat.fuse → P t :=
  ends_iff_state (by simp [checkpointPacket])

@[simp] theorem checkpointRead_fuse (q pk h base va len) (s : State) :
    (checkpointRead q pk h base va len s).plat.fuse = s.plat.fuse := by
  unfold checkpointRead
  dsimp only
  split <;> simp [snd_fuse ‹_ = (_, _)›]

@[simp] theorem execCheckpoint_keeps (s : State) : Keeps s.plat.fuse (execCheckpoint s) := by
  refine dueThen_keeps (fun e f t h => ?_) fun t => startPacket_keeps (fun q l s => by simp) _ t
  split at h <;> cases h
  simp

@[simp] theorem execFencePacket_keeps (s : State) : Keeps s.plat.fuse (execFencePacket s) := by simp [execFencePacket]

@[simp] theorem graphPacket_ends {P} (q l) (s : State) :
    Ends (fun _ => True) P (graphPacket q l s) ↔ ∀ t, graphPacket q l s = .ok t → t.plat.fuse = s.plat.fuse → P t :=
  ends_iff_state (by simp [graphPacket])

@[simp] theorem execGraph_keeps (s : State) : Keeps s.plat.fuse (execGraph s) := by
  refine dueThen_keeps (fun e f t h => ?_) fun t => startPacket_keeps (fun q l s => by simp) _ t
  split at h <;> cases h
  simp

@[simp] theorem claimLent_fuse (t cores) (s : State) : (claimLent t cores s).plat.fuse = s.plat.fuse := rfl
@[simp] theorem dropGraph_fuse (g) (s : State) : (dropGraph g s).plat.fuse = s.plat.fuse := by simp [dropGraph]

@[simp] theorem dispatchTask_fuse (t cores) (s : State) : (dispatchTask t cores s).plat.fuse = s.plat.fuse := by
  unfold dispatchTask
  dsimp only
  (repeat' split) <;> simp

@[simp] theorem execDispatchDecision_keeps (s : State) : Keeps s.plat.fuse (execDispatchDecision s) := by
  unfold execDispatchDecision
  split <;> simp

@[simp] theorem dropUnready_fuse (s : State) : (dropUnready s).plat.fuse = s.plat.fuse := by simp [dropUnready]

@[simp] theorem execDealInstall_keeps (s : State) : Keeps s.plat.fuse (execDealInstall s) := by
  unfold execDealInstall
  split <;> simp

@[simp] theorem execPthreshExpiry_keeps (s : State) : Keeps s.plat.fuse (execPthreshExpiry s) := by
  unfold execPthreshExpiry
  split <;> simp

/-! ### The load of an object -/

@[simp] theorem flashDrop_fuse (e) (s : State) : (flashDrop e s).plat.fuse = s.plat.fuse := rfl

@[simp] theorem flashRoom_fuse (n fuel) (s : State) : (flashRoom n fuel s).plat.fuse = s.plat.fuse := by
  induction fuel generalizing s with
  | zero => rfl
  | succ fuel ih =>
    unfold flashRoom
    split
    · rfl
    · split <;> simp [ih]

@[simp] theorem flashPut_fuse (key data) (s : State) : (flashPut key data s).plat.fuse = s.plat.fuse := by
  unfold flashPut
  split
  · rfl
  · refine (onPlat_fuse ?_ (flashRoom _ _ s)).trans (flashRoom_fuse ..)
    exact fun _ => rfl

@[simp] theorem translated_fuse (image) (s : State) : (translated image s).1.plat.fuse = s.plat.fuse := by
  unfold translated
  dsimp only
  (repeat' split) <;> simp

@[simp] theorem dropText_fuse (root texts) (s : State) : (dropText root texts s).plat.fuse = s.plat.fuse := by
  simp [dropText]

@[simp] theorem failLoad_fuse (n q pk e) (s : State) : (failLoad n q pk e s).plat.fuse = s.plat.fuse := by
  unfold failLoad
  dsimp only
  (repeat' split) <;> simp

@[simp] theorem loadImage_fuse (n q pk o) (s : State) : (loadImage n q pk o s).plat.fuse = s.plat.fuse := by
  unfold loadImage
  split <;> simp

@[simp] theorem startLoad_fuse (n q pk o) (s : State) : (startLoad n q pk o s).plat.fuse = s.plat.fuse := by
  unfold startLoad
  split
  · simp
  · simp
  next t base data h =>
    have ht : t.plat.fuse = s.plat.fuse := by
      refine ends_of_eq (E := fun _ => True) (P := fun r => ∀ x ∈ r, x.1.plat.fuse = s.plat.fuse) ?_ h _ rfl
      simp +contextual
    simp [ht]

@[simp] theorem endLoad_fuse (n q pk o) (s : State) : (endLoad n q pk o s).plat.fuse = s.plat.fuse := by simp [endLoad]

theorem loadStage_fuse {e n f q pk} (h : loadStage e = some (n, f, q, pk)) (q' pk') (o) (s : State) :
    (f q' pk' o s).plat.fuse = s.plat.fuse := by
  unfold loadStage at h
  split at h <;> cases h <;> simp

@[simp] theorem execSlotLoadComplete_keeps (s : State) : Keeps s.plat.fuse (execSlotLoadComplete s) := by
  refine onDue_keeps_of fun e x s h => ?_
  obtain ⟨⟨n, f, q, pk⟩, hf, rfl⟩ := Option.map_eq_some_iff.1 h
  rw [fused_iff]
  dsimp only
  split <;> simp [loadStage_fuse hf]

/-! ### The host's commands -/

@[simp] theorem command_fuse {f : State → State × Bool} (h : ∀ s, Fused s.plat.fuse (f s).1) (s : State) :
    (command f s).plat.fuse = s.plat.fuse := by
  simp only [fused_iff] at h
  simp [command, h]

@[simp] theorem ringTail_fuse (q t) (s : State) : (ringTail q t s).plat.fuse = s.plat.fuse := by simp [ringTail]

@[simp] theorem execDoorbellWrite_keeps (s : State) : Keeps s.plat.fuse (execDoorbellWrite s) := by
  refine onDue_keeps_of fun e f t h => ?_
  split at h <;> cases h <;> simp

@[simp] theorem writeDesc_fuse (q d0 d1 ctx root) (s : State) :
    (writeDesc q d0 d1 ctx root s).1.plat.fuse = s.plat.fuse := by
  unfold writeDesc
  dsimp only
  (repeat' split) <;> simp

@[simp] theorem execQueueDescriptorWrite_keeps (s : State) : Keeps s.plat.fuse (execQueueDescriptorWrite s) := by
  refine onDue_keeps fun _ s => ?_
  (repeat' split) <;> simp

@[simp] theorem execQueueStopClear_keeps (s : State) : Keeps s.plat.fuse (execQueueStopClear s) := by
  simp [execQueueStopClear]

@[simp] theorem writeHandle_fuse (i e revoke) (s : State) : (writeHandle i e revoke s).1.plat.fuse = s.plat.fuse := by
  unfold writeHandle
  (repeat' split) <;> simp

@[simp] theorem execHandleTableWrite_keeps (s : State) : Keeps s.plat.fuse (execHandleTableWrite s) := by
  simp [execHandleTableWrite]

@[simp] theorem execHandleRevocationComplete_keeps (s : State) :
    Keeps s.plat.fuse (execHandleRevocationComplete s) := by
  unfold execHandleRevocationComplete
  split <;> simp

@[simp] theorem invalidate_fuse (root va) (s : State) : (invalidate root va s).plat.fuse = s.plat.fuse := by
  simp [invalidate]

@[simp] theorem execPageInvalidation_keeps (s : State) : Keeps s.plat.fuse (execPageInvalidation s) := by
  refine dueElse_keeps (fun _ x s _ => by simp) fun s => ?_
  split <;> simp

@[simp] theorem execDealRequest_keeps (s : State) : Keeps s.plat.fuse (execDealRequest s) := by simp [execDealRequest]

@[simp] theorem execJobEndOrder_keeps (s : State) : Keeps s.plat.fuse (execJobEndOrder s) := by
  refine onDue_keeps fun c s => fused_iff.2 (command_fuse (fun s => ?_) s)
  (repeat' split) <;> simp

@[simp] theorem resumeQueue_fuse (core) (s : State) : (resumeQueue core s).plat.fuse = s.plat.fuse := by
  unfold resumeQueue
  dsimp only
  (repeat' split) <;> simp

@[simp] theorem execJobResumeOrder_keeps (s : State) : Keeps s.plat.fuse (execJobResumeOrder s) := by
  refine onDue_keeps fun c s => fused_iff.2 (command_fuse (fun s => ?_) s)
  (repeat' split) <;> simp

@[simp] theorem execLoadReportRead_keeps (s : State) : Keeps s.plat.fuse (execLoadReportRead s) := by
  simp [execLoadReportRead]

@[simp] theorem execSpdmRequest_keeps (s : State) : Keeps s.plat.fuse (execSpdmRequest s) := by simp [execSpdmRequest]

@[simp] theorem hostAccess_fuse (write pa d) (s : State) : (hostAccess write pa d s).plat.fuse = s.plat.fuse := by
  simp [hostAccess]

@[simp] theorem hostServed_fuse (write pa len) (s : State) : (hostServed write pa len s).plat.fuse = s.plat.fuse := by
  unfold hostServed
  split <;> simp [snd_fuse ‹_ = (_, _)›]

@[simp] theorem execHostCxlAccess_keeps (s : State) : Keeps s.plat.fuse (execHostCxlAccess s) := by
  unfold execHostCxlAccess
  (repeat' split) <;> simp

/-! ### Events of the streams -/

@[simp] theorem execDelayLineLanding_keeps (s : State) : Keeps s.plat.fuse (execDelayLineLanding s) := by
  simp [execDelayLineLanding]

@[simp] theorem execFirstTouchHoldEnd_keeps (s : State) : Keeps s.plat.fuse (execFirstTouchHoldEnd s) := by
  unfold execFirstTouchHoldEnd
  split <;> simp

@[simp] theorem headerFault_fuse (s : State) (code cause f2 f3) :
    (headerFault s code cause f2 f3).plat.fuse = s.plat.fuse := by
  simp [headerFault]

@[simp] theorem execSequencerHeader_keeps (s : State) : Keeps s.plat.fuse (execSequencerHeader s) := by
  have hs := Fused.refl s
  unfold execSequencerHeader
  split
  next a _ =>
    extract_lets got
    have hgot : Ends (Halted s.plat.fuse) (fun r => r.1.plat.fuse = s.plat.fuse) got := by
      unfold got
      split
      · rfl
      · rw [ends_bind, sqFetch_ends _ _ _ hs]
        exact fun _ _ _ h => h
    generalize got = got at hgot
    split
    · simp_all
    · simp_all
    next t h =>
    have ht : t.plat.fuse = s.plat.fuse := hgot
    split
    · simp [ht]
    split
    · simp [ht]
    dsimp only
    split <;> simp [ht]
  next => split <;> simp
  next => rfl

@[simp] theorem execSectionStart_keeps (s : State) : Keeps s.plat.fuse (execSectionStart s) := by
  unfold execSectionStart
  split <;> simp

@[simp] theorem execSectionRetire_keeps (s : State) : Keeps s.plat.fuse (execSectionRetire s) := by
  unfold execSectionRetire
  split <;> simp

@[simp] theorem execRendezvousComplete_keeps (s : State) : Keeps s.plat.fuse (execRendezvousComplete s) := by
  unfold execRendezvousComplete
  split
  · extract_lets all t u fl jend
    have hu : u.plat.fuse = s.plat.fuse := foldl_fuse (fun _ _ => by simp) _ s
    (repeat' split) <;> simp [hu]
  · rfl

@[simp] theorem execStreamCacheFill_keeps (s : State) : Keeps s.plat.fuse (execStreamCacheFill s) := by
  refine onDue_keeps fun _ s => ?_
  (repeat' split) <;> simp

@[simp] theorem execPrefetchReady_keeps (s : State) : Keeps s.plat.fuse (execPrefetchReady s) := by
  unfold execPrefetchReady
  split
  · rfl
  · split <;> simp [fst_fuse ‹_ = (_, _)›]

@[simp] theorem execTranslationWalk_keeps (s : State) : Keeps s.plat.fuse (execTranslationWalk s) := by
  refine onDue_keeps fun w s => ?_
  rw [fused_iff]
  split
  · rfl
  dsimp only
  split
  · simp
  · split <;> simp

/-! ### Matrix words and follow-ons -/

@[simp] theorem badSlot_ends {α N P} (s : State) (n) (hN : Fused N s) :
    Ends (Halted N) P (badSlot s n : Except Halt α) := by
  simp [badSlot, hN.eq]

@[simp] theorem execClaim_keeps (p o) (s : State) : Keeps s.plat.fuse (execClaim p o s) := by simp [execClaim]
@[simp] theorem execRelease_keeps (p o) (s : State) : Keeps s.plat.fuse (execRelease p o s) := by simp [execRelease]

@[simp] theorem checkCells_ends {N P} (s : State) (l) (hN : Fused N s) :
    Ends (Halted N) P (checkCells s l) ↔ ∀ a, checkCells s l = .ok a → P a :=
  ends_iff (by
    unfold checkCells
    split <;> simp [hN.eq])

@[simp] theorem arrayTake_fuse (a b k ty) (s : State) : (arrayTake a b k ty s).plat.fuse = s.plat.fuse := rfl

@[simp] theorem execMma_keeps (p d a b k ty pm pn pk _rls) (s : State) :
    Keeps s.plat.fuse (execMma p d a b k ty pm pn pk _rls s) := by
  simp +contextual only [execMma, fused_iff, word_keeps, ends_bind, ends_check]
  intros
  split <;> simp +contextual [*]

@[simp] theorem execMzero_keeps (p d ty) (s : State) : Keeps s.plat.fuse (execMzero p d ty s) := by simp [execMzero]

@[simp] theorem drainBad_ends {N P} (s : State) (t ty wrap) (hN : Fused N s) :
    Ends (Halted N) P (drainBad s t ty wrap) ↔ ∀ a, drainBad s t ty wrap = .ok a → P a :=
  ends_iff (by
    unfold drainBad
    dsimp only
    (repeat' split) <;> simp [hN.eq])

@[simp] theorem execMdrain_keeps (p d a ty rnd sat band wrap) (s : State) :
    Keeps s.plat.fuse (execMdrain p d a ty rnd sat band wrap s) := by
  simp [execMdrain]

@[simp] theorem setMaskWord_keeps (k p i a pat) (s : State) : Keeps s.plat.fuse (setMaskWord k p i a pat s) := by
  simp [setMaskWord]

@[simp] theorem execMscale_keeps (p a col) (s : State) : Keeps s.plat.fuse (execMscale p a col s) := by
  simp [execMscale]

@[simp] theorem execMstat_keeps (p sel a) (s : State) : Keeps s.plat.fuse (execMstat p sel a s) := by
  unfold execMstat
  split <;> simp

@[simp] theorem failFollow_fuse (c code f2 f3) (s : State) : (failFollow c code f2 f3 s).plat.fuse = s.plat.fuse := by
  simp [failFollow]

@[simp] theorem joinFollow_fuse (id) (s : State) : (joinFollow id s).plat.fuse = s.plat.fuse := by
  unfold joinFollow
  dsimp only
  (repeat' split) <;> simp

@[simp] theorem execFollowOnJoin_keeps (s : State) : Keeps s.plat.fuse (execFollowOnJoin s) := by
  simp [execFollowOnJoin]

@[simp] theorem execFollowOnEnter_keeps (s : State) : Keeps s.plat.fuse (execFollowOnEnter s) := by
  unfold execFollowOnEnter
  split <;> simp

/-! ### The platform -/

@[simp] theorem resetDevice_fuse (s : State) : (resetDevice s).plat.fuse = s.plat.fuse := rfl
@[simp] theorem bootDevice_fuse (b) (s : State) : (bootDevice b s).plat.fuse = s.plat.fuse := by simp [bootDevice]
@[simp] theorem execDeviceReset_keeps (s : State) : Keeps s.plat.fuse (execDeviceReset s) := by simp [execDeviceReset]

@[simp] theorem execNodeIdentityAssign_keeps (s : State) : Keeps s.plat.fuse (execNodeIdentityAssign s) := by
  simp [execNodeIdentityAssign]

@[simp] theorem execFlitRetransmit_keeps (s : State) : Keeps s.plat.fuse (execFlitRetransmit s) := by
  refine onDue_keeps fun _ s => ?_
  (repeat' split) <;> simp

@[simp] theorem fence_fuse (bit) (s : State) : (fence bit s).plat.fuse = s.plat.fuse := rfl
@[simp] theorem losePort_fuse (p) (s : State) : (losePort p s).plat.fuse = s.plat.fuse := by simp [losePort]
@[simp] theorem execPortRetrain_keeps (s : State) : Keeps s.plat.fuse (execPortRetrain s) := by simp [execPortRetrain]

@[simp] theorem execSelfTestStart_keeps (s : State) : Keeps s.plat.fuse (execSelfTestStart s) := by
  simp [execSelfTestStart]

@[simp] theorem testTick_fuse (s : State) : (testTick s).plat.fuse = s.plat.fuse := by
  unfold testTick
  dsimp only
  (repeat' split) <;> simp

@[simp] theorem unplace_fuse (core) (s : State) : (unplace core s).plat.fuse = s.plat.fuse := by simp [unplace]

@[simp] theorem execSelfTestComplete_keeps (s : State) : Keeps s.plat.fuse (execSelfTestComplete s) := by
  refine onDue_keeps fun (u, ok) s => ?_
  rw [fused_iff]
  dsimp only
  split
  · split
    · simp
    · split <;> simp
  · split <;> simp

@[simp] theorem execMatrixBudgetUpdate_keeps (s : State) : Keeps s.plat.fuse (execMatrixBudgetUpdate s) := by
  simp [execMatrixBudgetUpdate]

@[simp] theorem execThermalThrottle_keeps (s : State) : Keeps s.plat.fuse (execThermalThrottle s) := by
  simp [execThermalThrottle]

@[simp] theorem execThermalTrip_keeps (s : State) : Keeps s.plat.fuse (execThermalTrip s) := by simp [execThermalTrip]
@[simp] theorem budgetTick_fuse (s : State) : (budgetTick s).plat.fuse = s.plat.fuse := by simp [budgetTick]

/-! ### Scalar words -/

@[simp] theorem regReg_keeps (p d lat a b f) (s : State) : Keeps s.plat.fuse (regReg p d lat a b f s) := by
  simp [regReg]

@[simp] theorem regImm_keeps (p d a imm f) (s : State) : Keeps s.plat.fuse (regImm p d a imm f s) := by simp [regImm]
@[simp] theorem regOne_keeps (p d a f) (s : State) : Keeps s.plat.fuse (regOne p d a f s) := by simp [regOne]

/-! ### Control registers -/

@[simp] theorem execCsrrd_keeps (p d num) (s : State) : Keeps s.plat.fuse (execCsrrd p d num s) := by simp [execCsrrd]

@[simp] theorem execCsrwr_keeps (p _num _a) (s : State) : Keeps s.plat.fuse (execCsrwr p _num _a s) := by
  simp [execCsrwr]

@[simp] theorem csrWrite_keeps {f : W64 → State → Except Halt State} (h : ∀ v s, Ends (Halted s.plat.fuse)
    (fun t => t.plat.fuse = s.plat.fuse) (f v s)) (p a) (s : State) :
    Keeps s.plat.fuse (csrWrite p a f s) := by
  simp +contextual [csrWrite, h]

@[simp] theorem writeDom_ends {N P} (v) (s : State) (hN : Fused N s) :
    Ends (Halted N) P (writeDom v s) ↔ ∀ t, writeDom v s = .ok t → t.plat.fuse = N → P t :=
  ends_iff_state (by
    unfold writeDom
    dsimp only
    rw [ends_bind, ends_check hN]
    intro _
    rw [ends_bind, ends_check hN]
    intro _
    split
    · exact ends_stop hN ..
    · refine (withPhase_fuse (fun t => ?_) s).trans hN
      exact (foldl_fuse (fun _ _ => by simp) _ _).trans (congrArg PlatSt.fuse (onJob_plat t _)))

@[simp] theorem execDomWrite_keeps (p a) (s : State) : Keeps s.plat.fuse (execDomWrite p a s) := by simp [execDomWrite]

@[simp] theorem writeOtbase_ends {N P} (v) (s : State) (hN : Fused N s) :
    Ends (Halted N) P (writeOtbase v s) ↔ ∀ t, writeOtbase v s = .ok t → t.plat.fuse = N → P t :=
  ends_iff_state (by simp +contextual [writeOtbase, hN.eq])

@[simp] theorem execOtbaseWrite_keeps (p a) (s : State) : Keeps s.plat.fuse (execOtbaseWrite p a s) := by
  simp [execOtbaseWrite]

@[simp] theorem writeOthi_ends {N P} (v) (s : State) (hN : Fused N s) :
    Ends (Halted N) P (writeOthi v s) ↔ ∀ t, writeOthi v s = .ok t → t.plat.fuse = N → P t :=
  ends_iff_state (by simp [writeOthi, hN.eq])

@[simp] theorem writeOtlo_ends {N P} (v) (s : State) (hN : Fused N s) :
    Ends (Halted N) P (writeOtlo v s) ↔ ∀ t, writeOtlo v s = .ok t → t.plat.fuse = N → P t :=
  ends_iff_state (by simp [writeOtlo, hN.eq])

@[simp] theorem execOthiWrite_keeps (p a) (s : State) : Keeps s.plat.fuse (execOthiWrite p a s) := by
  simp [execOthiWrite]

@[simp] theorem execOtloWrite_keeps (p a) (s : State) : Keeps s.plat.fuse (execOtloWrite p a s) := by
  simp [execOtloWrite]

@[simp] theorem execStepWrite_keeps (p n a) (s : State) : Keeps s.plat.fuse (execStepWrite p n a s) := by
  simp [execStepWrite]

@[simp] theorem execGrouprd_keeps (p d a b fn) (s : State) : Keeps s.plat.fuse (execGrouprd p d a b fn s) := by
  simp [execGrouprd]

/-! ### The end of a cycle -/

@[simp] theorem prefetchAsk_fuse (s : State) : (prefetchAsk s).plat.fuse = s.plat.fuse := by simp [prefetchAsk]

@[simp] theorem copyTaskEnded_fuse (e) (s : State) : (copyTaskEnded e s).plat.fuse = s.plat.fuse := by
  unfold copyTaskEnded
  split <;> simp

@[simp] theorem armTask_fuse (t) (s : State) : (armTask t s).plat.fuse = s.plat.fuse := by simp [armTask]

@[simp] theorem gripTick_fuse (s : State) : (gripTick s).plat.fuse = s.plat.fuse := by
  unfold gripTick
  dsimp only
  rw [dropUnready_fuse, foldl_fuse fun _ _ => by simp, testTick_fuse, foldl_fuse fun _ _ => by simp,
    foldl_fuse fun _ _ => by split <;> simp, foldl_fuse fun _ _ => by split <;> simp,
    foldl_fuse fun _ _ => by split <;> simp, foldl_fuse fun _ _ => by split <;> simp, freezeReport_fuse,
    foldl_fuse fun _ _ => by simp]
  simp

@[simp] theorem tick_fuse (s : State) : (tick s).plat.fuse = s.plat.fuse := by
  unfold tick
  extract_lets a b c d
  have ha : a.plat.fuse = s.plat.fuse := by simp [a]
  have hb : b.plat.fuse = s.plat.fuse := by simp [b, ha]
  have hc : c.plat.fuse = s.plat.fuse := by simp [c, hb]
  simp [d, hc]

/-! ### Words of a turn -/

@[simp] theorem skipWord_fuse (st w) (s : State) : (skipWord st w s).plat.fuse = s.plat.fuse := by simp [skipWord]

/-! ### Turns of the streams -/

/-- The state that a turn leaves, or whose act it names, has the counter at `n`. -/
def TurnKeeps (n : Nat) : Turn → Prop
  | .idle => True
  | .done t => t.plat.fuse = n
  | .event t _ _ => t.plat.fuse = n

@[simp] theorem turnKeeps_done {n t} : TurnKeeps n (.done t) ↔ t.plat.fuse = n := .rfl
@[simp] theorem turnKeeps_event {n t i b} : TurnKeeps n (.event t i b) ↔ t.plat.fuse = n := .rfl

theorem checkTurn_keeps (s : State) : TurnKeeps s.plat.fuse (checkTurn s) := by
  unfold checkTurn
  split <;> simp

theorem wordTurn_keeps (s : State) (st w) : TurnKeeps s.plat.fuse (wordTurn s st w) := by
  unfold wordTurn
  dsimp only
  split
  · split <;> simp
  · split
    · exact checkTurn_keeps _
    · split <;> simp

theorem fetchTurn_keeps {n st r} (h : Ends (Halted n) (fun x => x.1.plat.fuse = n) r) :
    TurnKeeps n (fetchTurn st r) := by
  unfold fetchTurn
  split
  · rw [← show _ = n from h]
    exact wordTurn_keeps ..
  · exact (stalled_fuse ..).trans h
  · exact (takeFault_fuse ..).trans h

theorem engTurn_keeps (s : State) (st) : TurnKeeps s.plat.fuse (engTurn s st) := by
  unfold engTurn
  split
  · trivial
  · exact fetchTurn_keeps (by simp)

theorem sqTurn_keeps (s : State) : TurnKeeps s.plat.fuse (sqTurn s) := by
  unfold sqTurn
  split
  · trivial
  · split <;> simp
  · simp
  · split
    · simp
    · split
      · split
        · exact checkTurn_keeps s
        · dsimp only
          split <;> simp
      · exact fetchTurn_keeps (by simp)

theorem turnOf_keeps (s : State) (st) : TurnKeeps s.plat.fuse (turnOf s st) := by
  unfold turnOf
  split
  · split
    · exact sqTurn_keeps s
    · exact engTurn_keeps s _
  · trivial

/-! ### The acts -/

/-- Every act but an SVN commit keeps the counter: an arm that is one call of a word's shape by that shape's rule, any other by its
own. -/
theorem exec_keeps {i : Instr} (hi : i ≠ .svnCommit) (s : State) : Keeps s.plat.fuse (exec i s) := by
  cases i
  case svnCommit => exact absurd rfl hi
  case add | sub | lea | mul | mulh | mulhn | div | divn | rem | remn | and | or | xor | andn | shl | shr | shra | rotl
    | min | max | minn | maxn | addi | andi | ori | xori | clz | ffs | popc | brev | sext | zext =>
    simp [execAdd, execSub, execLea, execMul, execMulh, execMulhn, execDiv, execDivn, execRem, execRemn, execAnd,
      execOr, execXor, execAndn, execShl, execShr, execShra, execRotl, execMin, execMax, execMinn, execMaxn, execAddi,
      execAndi, execOri, execXori, execClz, execFfs, execPopc, execBrev, execSext, execZext]
  case sel | ldi | fcount | caprd | cmp | cmpi | pand | por | pxor | pnot | ftest =>
    simp [execSel, execLdi, execFcount, execCaprd, execCmp, execCmpi, execPand, execPor, execPxor, execPnot, execFtest]
  case amoAdd | amoMin | amoMax | amoMinn | amoMaxn | amoAnd | amoOr | amoXor | amoSwap | amoCas | waitmem | semwait =>
    simp [execAmoAdd, execAmoMin, execAmoMax, execAmoMinn, execAmoMaxn, execAmoAnd, execAmoOr, execAmoXor, execAmoSwap,
      execAmoCas, execWaitmem, execSemwait]
  case copy | copyx | rdv | jobend =>
    simp [execCopy, execCopyx, execRdv, execJobend]
  case kand | kor | knot | msetm | msetn | msetk | tcfg | tdrop =>
    simp [execKand, execKor, execKnot, execMsetm, execMsetn, execMsetk, execTcfg, execTdrop]
  case vneg | vabs | vsqrt | vrcp | vrsq | vexp2 | vlog2 | vexp | vtanh | vsigm | vnot | vclz | vffs | vpcnt | vmov |
    vfma | vfms | vfnma =>
    simp [execVneg, execVabs, execVsqrt, execVrcp, execVrsq, execVexp2, execVlog2, execVexp, execVtanh, execVsigm,
      execVnot, execVclz, execVffs, execVpcnt, execVmov, execVfma, execVfms, execVfnma]
  case vadd | vsub | vmul | vmin | vmax | vdiv | viadd | visub | vimul | vimulh | vimin | vimax | vand | vor | vxor |
    vshl | vshr | vshra =>
    simp [execVadd, execVsub, execVmul, execVmin, execVmax, execVdiv, execViadd, execVisub, execVimul, execVimulh,
      execVimin, execVimax, execVand, execVor, execVxor, execVshl, execVshr, execVshra]
  case sdrain | sacc | sscale | vsel | snorm2Put | vbcr | vbcc | vtrn16 =>
    simp [execSdrain, execSacc, execSscale, execVsel, execSnorm2Put, execVbcr, execVbcc, execVtrn16]
  case vredr | vredc | vstat | vlse | vnorms | vsofts =>
    simp [execVredr, execVredc, execVstat, execVlse, execVnorms, execVsofts]
  all_goals simp

/-- An act that waits for an event of its own leaves the state, or is that event's effect behind an agenda without it. -/
theorem onDue_next {α : Type} {s t : State} {mine : Ev → Option α} {f : α → State → State}
    (h : onDue s mine f = .next t) :
    t = s ∨ ∃ x l, t = f x { s with agenda := l } := by
  unfold onDue at h
  split at h
  · split at h
    · split at h <;> cases h
      · exact .inr ⟨_, _, rfl⟩
      · exact .inl rfl
    · cases h
      exact .inl rfl
  · cases h
    exact .inl rfl

/-- A commit from the mailbox raises the counter to the version of the image that runs; without firmware it is no act (R388). -/
theorem command_commit_fuse (s : State) :
    (command (fun s => (s.onPlat fun p => { p with fuse := max p.fuse p.svn }, true)) s).plat.fuse =
      if s.plat.fw then max s.plat.fuse s.plat.svn else s.plat.fuse := by
  unfold command
  split <;> rfl

theorem execSvnCommit_fuse {s t : State} (h : execSvnCommit s = .next t) :
    t.plat.fuse = s.plat.fuse ∨ (s.plat.fw = true ∧ t.plat.fuse = max s.plat.fuse s.plat.svn) := by
  rcases onDue_next h with rfl | ⟨-, l, rfl⟩
  · exact .inl rfl
  · rw [command_commit_fuse]
    split
    · exact .inr ⟨‹_›, rfl⟩
    · exact .inl rfl

theorem exec_fuse {i : Instr} {s t : State} (h : exec i s = .next t) :
    t.plat.fuse = s.plat.fuse ∨ (i = .svnCommit ∧ s.plat.fw = true ∧ t.plat.fuse = max s.plat.fuse s.plat.svn) := by
  by_cases hi : i = .svnCommit
  · subst hi
    exact (execSvnCommit_fuse h).imp_right fun hfuse => ⟨rfl, hfuse⟩
  · have hk := exec_keeps hi s
    rw [h] at hk
    exact .inl hk

/-! ### The step -/

/-- The outcome of an act has the counter at `n` or above. -/
def Rises (n : Nat) : Host.Outcome State Fault Refusal → Prop
  | .next t => n ≤ t.plat.fuse
  | _ => True

@[simp] theorem rises_next {n : Nat} {t : State} : Rises n (.next t) ↔ n ≤ t.plat.fuse := .rfl

theorem exec_rises (i : Instr) {n : Nat} {s : State} (hs : s.plat.fuse = n) : Rises n (exec i s) := by
  match h : exec i s with
  | .next t =>
    rcases exec_fuse h with hf | ⟨-, -, hf⟩
    · exact (hf.trans hs).ge
    · exact hs.ge.trans (hf ▸ Nat.le_max_left ..)
  | .fault _ => trivial
  | .refused _ => trivial

theorem presentStep_rises (s : State) (st) : Rises s.plat.fuse (presentStep s st) := by
  have ht := turnOf_keeps s st
  unfold presentStep
  split
  · exact le_rfl
  next h => rw [h] at ht; exact ht.ge
  next h => rw [h] at ht; exact exec_rises _ ht
  next t i h =>
    rw [h] at ht
    have hr := exec_rises i ht
    split
    next u hu =>
      rw [hu] at hr
      dsimp only [Rises] at hr ⊢
      split <;> exact hr
    · exact hr

theorem step_rises (s : State) : Rises s.plat.fuse (step s) := by
  unfold step
  split
  · exact le_rfl
  dsimp only
  split
  · split
    · exact exec_rises _ rfl
    · exact le_rfl
  · split
    · exact exec_rises _ rfl
    · exact le_rfl
  · split
    · exact exec_rises _ rfl
    · exact le_rfl
  · exact presentStep_rises { s with todo := _ } _
  · split
    · split
      · exact exec_rises _ rfl
      · rw [rises_next, ringRound_fuse, extRound_fuse]
    · split
      · rw [rises_next, ringRound_fuse]
      · split
        · exact exec_rises _ rfl
        · exact le_rfl
  · rw [rises_next, tick_fuse]

/-- Settles O52: an act other than an SVN commit keeps the counter, by the rules of all that an act calls; a commit takes the
maximum with the running image's version; and a step is a turn or an act on a state with the same counter. -/
theorem fuseCounterIsMonotonic : Obligations.FuseCounterIsMonotonic := by
  refine ⟨fun i s t h => exec_fuse h, fun s t h => ?_⟩
  have hr := step_rises s
  rw [h] at hr
  exact hr

end Sys2Proof.Proofs
end
